-- ==== Sys2Proof/Word.lean ====
section
/-! DEFINITION. The word types of the machine: the 32-bit data word, the 48-bit microinstruction
word and the byte of the two file formats (spec/00_scope.md R8, R10; spec/30_encoding.md R120). -/

namespace Sys2Proof

/-- The data word, 32 bits (R1, R8). -/
abbrev Word := BitVec 32

/-- A microinstruction word, 48 significant bits `u[47:0]` (R120). -/
abbrev MicroWord := BitVec 48

/-- A byte of the checkpoint and of the PROM image, the only places that have bytes (R72). -/
abbrev Byte := BitVec 8

end Sys2Proof
end

