-- ==== Sys2Proof/Syntax.lean ====
section
/-! DEFINITION. The microinstructions, one constructor per mnemonic of spec/opcode_table.json, with the
fields of their format (spec/30_encoding.md R121 to R127). A field that selects between named behaviours
is an inductive type; a field that is an index, a count or an address keeps its width. Bits that no field
covers are not part of an instruction (R122). -/

namespace Sys2Proof

/-- The M operand: `m_func` 0 reads `MMEM[m_addr]`, `m_func` 1 reads functional source `m_addr`
(R121, R160). -/
inductive MSource where
  | mem (addr : BitVec 5)
  | func (index : BitVec 5)
  deriving DecidableEq, Repr

/-- The 12-bit `dest` field (R127). `amem`: bit 11 set, the 11 bits `dest[10:0]` are kept and wrap to
1024 when they are used. `func`: bit 11 clear, the 6 bits `dest[10:5]` are kept (the destination index
is their low 5 bits) and `dest[4:0]` names the mirrored M location. -/
inductive Dest where
  | amem (addr : BitVec 11)
  | func (index : BitVec 6) (m : BitVec 5)
  deriving DecidableEq, Repr

/-- Out-control `u[13:12]`, values 0 to 3 in order (R255 to R258). -/
inductive OutCtl where
  | rotatedM
  | aluOut
  | shiftRight
  | shiftLeft
  deriving DecidableEq, Repr

/-- Q-control `u[1:0]`, values 0 to 3 in order (R250 to R253). -/
inductive QCtl where
  | keep
  | shiftLeft
  | shiftRight
  | load
  deriving DecidableEq, Repr

/-- The jump's sub-field `u[11:10]`, values 0 to 3 in order (R303, R304). -/
inductive JumpSub where
  | plain
  | halt
  | unused
  | warned
  deriving DecidableEq, Repr

/-- The pair R, P of a jump that is not the instruction-memory write: neither, P alone (a call),
R alone (a return) (R124, R292). Both set is `Instr.jumpWrimem`. -/
inductive Link where
  | none
  | push
  | pop
  deriving DecidableEq, Repr

/-- The fields of an ALU instruction (R123) but for `aluop`, which the constructor says. -/
structure AluFields where
  popj : Bool
  a    : BitVec 10
  m    : MSource
  dest : Dest
  out  : OutCtl
  cin  : Bool
  qctl : QCtl
  deriving DecidableEq, Repr

/-- The fields of a jump (R124) but for the condition, which the constructor says. -/
structure JumpFields where
  popj   : Bool
  a      : BitVec 10
  m      : MSource
  target : BitVec 14
  sub    : JumpSub
  link   : Link
  n      : Bool
  inv    : Bool
  deriving DecidableEq, Repr

/-- The fields of the instruction-memory write (R305); `N`, `inv`, `csel` and the low bits are ignored. -/
structure WrimemFields where
  popj   : Bool
  a      : BitVec 10
  m      : MSource
  target : BitVec 14
  sub    : JumpSub
  deriving DecidableEq, Repr

/-- The fields of a dispatch (R125). `dispConst` is `u[41:32]`, the same ten bits as `a_addr`. -/
structure DispatchFields where
  popj      : Bool
  dispConst : BitVec 10
  m         : MSource
  nPlus1    : Bool
  enableIsh : Bool
  dispAddr  : BitVec 11
  map       : BitVec 2
  len       : BitVec 3
  pos       : BitVec 5
  deriving DecidableEq, Repr

/-- The fields of the dispatch table load (R274); its operands are read like any others. -/
structure LoadFields where
  popj     : Bool
  a        : BitVec 10
  m        : MSource
  dispAddr : BitVec 11
  deriving DecidableEq, Repr

/-- The fields of a byte instruction (R126) but for `mode`, which the constructor says. -/
structure ByteFields where
  popj    : Bool
  a       : BitVec 10
  m       : MSource
  dest    : Dest
  widthm1 : BitVec 5
  pos     : BitVec 5
  deriving DecidableEq, Repr

/-- The instructions. -/
inductive Instr where
  | aluSetz (f : AluFields)
  | aluAnd (f : AluFields)
  | aluAndca (f : AluFields)
  | aluSetm (f : AluFields)
  | aluAndcm (f : AluFields)
  | aluSeta (f : AluFields)
  | aluXor (f : AluFields)
  | aluIor (f : AluFields)
  | aluAndcb (f : AluFields)
  | aluEqv (f : AluFields)
  | aluSetca (f : AluFields)
  | aluOrca (f : AluFields)
  | aluSetcm (f : AluFields)
  | aluOrcm (f : AluFields)
  | aluOrcb (f : AluFields)
  | aluSeto (f : AluFields)
  | aluMinusOne (f : AluFields)
  | aluAndMinusOne (f : AluFields)
  | aluAndcaMinusOne (f : AluFields)
  | aluMMinusOne (f : AluFields)
  | aluOrcaPlus (f : AluFields)
  | aluOrcaPlusAnd (f : AluFields)
  | aluSub (f : AluFields)
  | aluOrcaPlusM (f : AluFields)
  | aluIorPlus (f : AluFields)
  | aluAdd (f : AluFields)
  | aluIorPlusAndca (f : AluFields)
  | aluIorPlusM (f : AluFields)
  | aluMPlus (f : AluFields)
  | aluMPlusAnd (f : AluFields)
  | aluMPlusOrca (f : AluFields)
  | aluMPlusM (f : AluFields)
  | aluMulstep (f : AluFields)
  | aluDivstep (f : AluFields)
  | aluRemcorr (f : AluFields)
  | aluDivfirst (f : AluFields)
  /-- An unassigned `aluop` (R245); `op` is that opcode, which `Instr.wf` checks. -/
  | aluUndef (op : BitVec 6) (f : AluFields)
  | jumpWrimem (f : WrimemFields)
  | jumpBit (f : JumpFields) (rot : BitVec 5)
  | jumpC0 (f : JumpFields)
  | jumpC1 (f : JumpFields)
  | jumpC2 (f : JumpFields)
  | jumpC3 (f : JumpFields)
  | jumpC4 (f : JumpFields)
  | jumpC5 (f : JumpFields)
  | jumpC6 (f : JumpFields)
  | jumpC7 (f : JumpFields)
  /-- The plain dispatch; `sub0` is `u[10]`: the sub-field is 0 or 1, which are the same (R271). -/
  | dispatch (sub0 : Bool) (f : DispatchFields)
  | dispatchLoad (f : LoadFields)
  | dispatchLc (f : DispatchFields)
  | byteInvalid (f : ByteFields)
  | byteLdb (f : ByteFields)
  | byteSel (f : ByteFields)
  | byteDpb (f : ByteFields)
  deriving DecidableEq, Repr

end Sys2Proof
end

