-- ==== Sys2Proof/WellFormed.lean ====
section
/-! DEFINITION. Which terms of `Instr` are instructions of the machine. Every field has the exact width of
its bits, so the one thing left to check is that the opcode of an `aluUndef` is an unassigned one
(spec/41_alu.md R245). -/

namespace Sys2Proof

/-- The unassigned ALU opcodes: 0o42, 0o43, 0o44, 0o46, 0o47, 0o50 and 0o52 to 0o77 (R245). -/
def aluopUnassigned (op : BitVec 6) : Bool :=
  [0o42, 0o43, 0o44, 0o46, 0o47, 0o50].contains op.toNat || 0o52 ≤ op.toNat

/-- An instruction is well formed unless it is an `aluUndef` of an assigned opcode. -/
def Instr.wf : Instr → Bool
  | .aluUndef op _ => aluopUnassigned op
  | .aluSetz _ | .aluAnd _ | .aluAndca _ | .aluSetm _ | .aluAndcm _ | .aluSeta _ | .aluXor _ | .aluIor _
  | .aluAndcb _ | .aluEqv _ | .aluSetca _ | .aluOrca _ | .aluSetcm _ | .aluOrcm _ | .aluOrcb _ | .aluSeto _
  | .aluMinusOne _ | .aluAndMinusOne _ | .aluAndcaMinusOne _ | .aluMMinusOne _ | .aluOrcaPlus _
  | .aluOrcaPlusAnd _ | .aluSub _ | .aluOrcaPlusM _ | .aluIorPlus _ | .aluAdd _ | .aluIorPlusAndca _
  | .aluIorPlusM _ | .aluMPlus _ | .aluMPlusAnd _ | .aluMPlusOrca _ | .aluMPlusM _
  | .aluMulstep _ | .aluDivstep _ | .aluRemcorr _ | .aluDivfirst _
  | .jumpWrimem _ | .jumpBit _ _ | .jumpC0 _ | .jumpC1 _ | .jumpC2 _ | .jumpC3 _ | .jumpC4 _ | .jumpC5 _
  | .jumpC6 _ | .jumpC7 _ | .dispatch _ _ | .dispatchLoad _ | .dispatchLc _
  | .byteInvalid _ | .byteLdb _ | .byteSel _ | .byteDpb _ => true

end Sys2Proof
end

