-- ==== Sys2Proof/Decode.lean ====
section
/-! DEFINITION. The decoder, total on every 48-bit word (no encoding traps: spec/30_encoding.md R130,
R131), and after it the encoder. Field positions are those of R121 to R127 (decision D2 of the spec);
every ignored bit is dropped by the decoder and written 0 by the encoder (R122). -/

namespace Sys2Proof

/-! ## Fields of a word -/

/-- Bit `i` of the word (R10). -/
def MicroWord.flag (u : MicroWord) (i : Nat) : Bool := u.getLsbD i

/-- The field of `len` bits whose lowest is bit `lo` (R10). -/
def MicroWord.field (u : MicroWord) (lo len : Nat) : BitVec len := u.extractLsb' lo len

/-- The M operand: `m_func` is bit 31, `m_addr` is 30:26 (R121). -/
def decodeM (u : MicroWord) : MSource :=
  if MicroWord.flag u 31 then .func (MicroWord.field u 26 5) else .mem (MicroWord.field u 26 5)

/-- The destination field 25:14: `dest[11]` is bit 25 (R127). -/
def decodeDest (u : MicroWord) : Dest :=
  if MicroWord.flag u 25 then .amem (MicroWord.field u 14 11)
  else .func (MicroWord.field u 19 6) (MicroWord.field u 14 5)

def outCtlOf (x : BitVec 2) : OutCtl :=
  match x.toNat with
  | 0 => .rotatedM
  | 1 => .aluOut
  | 2 => .shiftRight
  | _ => .shiftLeft

def qCtlOf (x : BitVec 2) : QCtl :=
  match x.toNat with
  | 0 => .keep
  | 1 => .shiftLeft
  | 2 => .shiftRight
  | _ => .load

def jumpSubOf (x : BitVec 2) : JumpSub :=
  match x.toNat with
  | 0 => .plain
  | 1 => .halt
  | 2 => .unused
  | _ => .warned

/-! ## The four formats -/

/-- The fields of the ALU format (R123). -/
def decodeAluFields (u : MicroWord) : AluFields :=
  { popj := MicroWord.flag u 42
    a    := MicroWord.field u 32 10
    m    := decodeM u
    dest := decodeDest u
    out  := outCtlOf (MicroWord.field u 12 2)
    cin  := MicroWord.flag u 2
    qctl := qCtlOf (MicroWord.field u 0 2) }

/-- The instruction of an `aluop` (R202 to R245). -/
def aluInstrOf (op : BitVec 6) (f : AluFields) : Instr :=
  match op.toNat with
  | 0o00 => .aluSetz f
  | 0o01 => .aluAnd f
  | 0o02 => .aluAndca f
  | 0o03 => .aluSetm f
  | 0o04 => .aluAndcm f
  | 0o05 => .aluSeta f
  | 0o06 => .aluXor f
  | 0o07 => .aluIor f
  | 0o10 => .aluAndcb f
  | 0o11 => .aluEqv f
  | 0o12 => .aluSetca f
  | 0o13 => .aluOrca f
  | 0o14 => .aluSetcm f
  | 0o15 => .aluOrcm f
  | 0o16 => .aluOrcb f
  | 0o17 => .aluSeto f
  | 0o20 => .aluMinusOne f
  | 0o21 => .aluAndMinusOne f
  | 0o22 => .aluAndcaMinusOne f
  | 0o23 => .aluMMinusOne f
  | 0o24 => .aluOrcaPlus f
  | 0o25 => .aluOrcaPlusAnd f
  | 0o26 => .aluSub f
  | 0o27 => .aluOrcaPlusM f
  | 0o30 => .aluIorPlus f
  | 0o31 => .aluAdd f
  | 0o32 => .aluIorPlusAndca f
  | 0o33 => .aluIorPlusM f
  | 0o34 => .aluMPlus f
  | 0o35 => .aluMPlusAnd f
  | 0o36 => .aluMPlusOrca f
  | 0o37 => .aluMPlusM f
  | 0o40 => .aluMulstep f
  | 0o41 => .aluDivstep f
  | 0o45 => .aluRemcorr f
  | 0o51 => .aluDivfirst f
  | _ => .aluUndef op f

/-- The pair R (bit 9), P (bit 8) when they are not both set. -/
def linkOf (r p : Bool) : Link :=
  if r then .pop else if p then .push else .none

/-- The fields of the JUMP format (R124). -/
def decodeJumpFields (u : MicroWord) : JumpFields :=
  { popj   := MicroWord.flag u 42
    a      := MicroWord.field u 32 10
    m      := decodeM u
    target := MicroWord.field u 12 14
    sub    := jumpSubOf (MicroWord.field u 10 2)
    link   := linkOf (MicroWord.flag u 9) (MicroWord.flag u 8)
    n      := MicroWord.flag u 7
    inv    := MicroWord.flag u 6 }

/-- The instruction-memory write (R305). -/
def decodeWrimemFields (u : MicroWord) : WrimemFields :=
  { popj   := MicroWord.flag u 42
    a      := MicroWord.field u 32 10
    m      := decodeM u
    target := MicroWord.field u 12 14
    sub    := jumpSubOf (MicroWord.field u 10 2) }

/-- The conditional jump of a condition number (R294 to R302). -/
def condInstrOf (cond : BitVec 3) (f : JumpFields) : Instr :=
  match cond.toNat with
  | 0 => .jumpC0 f
  | 1 => .jumpC1 f
  | 2 => .jumpC2 f
  | 3 => .jumpC3 f
  | 4 => .jumpC4 f
  | 5 => .jumpC5 f
  | 6 => .jumpC6 f
  | _ => .jumpC7 f

/-- `op = 1`: P and R both set is the instruction-memory write whatever the other bits; then `csel`
(bit 5) chooses the bit test or a condition (R130). -/
def decodeJump (u : MicroWord) : Instr :=
  if MicroWord.flag u 9 && MicroWord.flag u 8 then .jumpWrimem (decodeWrimemFields u)
  else if MicroWord.flag u 5 then condInstrOf (MicroWord.field u 0 3) (decodeJumpFields u)
  else .jumpBit (decodeJumpFields u) (MicroWord.field u 0 5)

/-- The fields of the DISPATCH format (R125). -/
def decodeDispatchFields (u : MicroWord) : DispatchFields :=
  { popj      := MicroWord.flag u 42
    dispConst := MicroWord.field u 32 10
    m         := decodeM u
    nPlus1    := MicroWord.flag u 25
    enableIsh := MicroWord.flag u 24
    dispAddr  := MicroWord.field u 12 11
    map       := MicroWord.field u 8 2
    len       := MicroWord.field u 5 3
    pos       := MicroWord.field u 0 5 }

/-- `op = 2`: sub-field 2 is the table load, 3 the LC position, 0 and 1 the plain dispatch (R271). -/
def decodeDispatch (u : MicroWord) : Instr :=
  if MicroWord.flag u 11 then
    if MicroWord.flag u 10 then .dispatchLc (decodeDispatchFields u)
    else .dispatchLoad
      { popj     := MicroWord.flag u 42
        a        := MicroWord.field u 32 10
        m        := decodeM u
        dispAddr := MicroWord.field u 12 11 }
  else .dispatch (MicroWord.flag u 10) (decodeDispatchFields u)

/-- The fields of the BYTE format (R126). -/
def decodeByteFields (u : MicroWord) : ByteFields :=
  { popj    := MicroWord.flag u 42
    a       := MicroWord.field u 32 10
    m       := decodeM u
    dest    := decodeDest u
    widthm1 := MicroWord.field u 5 5
    pos     := MicroWord.field u 0 5 }

/-- `op = 3`: `mode` 0 to 3 (R321). -/
def decodeByte (u : MicroWord) : Instr :=
  match (MicroWord.field u 12 2).toNat with
  | 0 => .byteInvalid (decodeByteFields u)
  | 1 => .byteLdb (decodeByteFields u)
  | 2 => .byteSel (decodeByteFields u)
  | _ => .byteDpb (decodeByteFields u)

/-- The instruction of a word: the primary opcode is 44:43 (R121, R130). Every word has one. -/
def decode (u : MicroWord) : Instr :=
  match (MicroWord.field u 43 2).toNat with
  | 0 => aluInstrOf (MicroWord.field u 3 6) (decodeAluFields u)
  | 1 => decodeJump u
  | 2 => decodeDispatch u
  | _ => decodeByte u

/-! ## From bytes, and from a word numbered as the opcode table numbers it -/

/-- Why bytes hold no instruction. -/
inductive DecodeError where
  /-- Fewer bytes than one 64-bit container of the PROM image (R375). -/
  | truncated
  deriving DecidableEq, Repr

/-- A 16-bit half of the PROM image, low byte first (R375). -/
def le16 (b0 b1 : Byte) : BitVec 16 := b1 ++ b0

/-- A word as the PROM image stores it: four little-endian 16-bit halves, the most significant first;
the top half of the 64-bit container is no part of the instruction (R375, D38). -/
def microWordOfBytes : List Byte → Except DecodeError (MicroWord × List Byte)
  | _ :: _ :: b2 :: b3 :: b4 :: b5 :: b6 :: b7 :: rest =>
      .ok (le16 b2 b3 ++ le16 b4 b5 ++ le16 b6 b7, rest)
  | _ => .error .truncated

/-- The instruction at the head of bytes laid out as the PROM image lays them out, and the bytes left. -/
def decodeBytes (bs : List Byte) : Except DecodeError (Instr × List Byte) :=
  match microWordOfBytes bs with
  | .ok (u, rest) => .ok (decode u, rest)
  | .error e => .error e

/-- The instruction read from the word whose bits are `w`, `nbits` of them given and the rest 0. An
instruction is one word of 48 bits, stored whole (R120, R71): there is no byte order to lay out. -/
def decodeTableWord (nbits w : Nat) : Option Instr :=
  if nbits ≤ 48 then some (decode (BitVec.ofNat 48 (w % 2 ^ nbits))) else none

/-! ## The encoder -/

def encodeM : MSource → BitVec 6
  | .mem k => 0#1 ++ k
  | .func i => 1#1 ++ i

def encodeDest : Dest → BitVec 12
  | .amem a => 1#1 ++ a
  | .func i m => 0#1 ++ i ++ m

def encodeOut : OutCtl → BitVec 2
  | .rotatedM => 0#2
  | .aluOut => 1#2
  | .shiftRight => 2#2
  | .shiftLeft => 3#2

def encodeQ : QCtl → BitVec 2
  | .keep => 0#2
  | .shiftLeft => 1#2
  | .shiftRight => 2#2
  | .load => 3#2

def encodeSub : JumpSub → BitVec 2
  | .plain => 0#2
  | .halt => 1#2
  | .unused => 2#2
  | .warned => 3#2

/-- R then P (bits 9 and 8). -/
def encodeLink : Link → BitVec 2
  | .none => 0#2
  | .push => 1#2
  | .pop => 2#2

/-- The ALU format, from bit 47 down (R121, R123). -/
def encodeAlu (op : BitVec 6) (f : AluFields) : MicroWord :=
  0#3 ++ 0#2 ++ BitVec.ofBool f.popj ++ f.a ++ encodeM f.m ++ encodeDest f.dest ++ encodeOut f.out
    ++ 0#3 ++ op ++ BitVec.ofBool f.cin ++ encodeQ f.qctl

/-- The JUMP format, from bit 47 down (R121, R124); `low` is the six bits `csel`, `rot`. -/
def encodeJump (f : JumpFields) (low : BitVec 6) : MicroWord :=
  0#3 ++ 1#2 ++ BitVec.ofBool f.popj ++ f.a ++ encodeM f.m ++ f.target ++ encodeSub f.sub
    ++ encodeLink f.link ++ BitVec.ofBool f.n ++ BitVec.ofBool f.inv ++ low

/-- The instruction-memory write: P and R set, the ignored low bits 0 (R305). -/
def encodeWrimem (f : WrimemFields) : MicroWord :=
  0#3 ++ 1#2 ++ BitVec.ofBool f.popj ++ f.a ++ encodeM f.m ++ f.target ++ encodeSub f.sub ++ 3#2 ++ 0#8

/-- The DISPATCH format, from bit 47 down (R121, R125). -/
def encodeDispatch (sub : BitVec 2) (f : DispatchFields) : MicroWord :=
  0#3 ++ 2#2 ++ BitVec.ofBool f.popj ++ f.dispConst ++ encodeM f.m ++ BitVec.ofBool f.nPlus1
    ++ BitVec.ofBool f.enableIsh ++ 0#1 ++ f.dispAddr ++ sub ++ f.map ++ f.len ++ f.pos

/-- The table load (R274), its ignored bits 0. -/
def encodeLoad (f : LoadFields) : MicroWord :=
  0#3 ++ 2#2 ++ BitVec.ofBool f.popj ++ f.a ++ encodeM f.m ++ 0#3 ++ f.dispAddr ++ 2#2 ++ 0#10

/-- The BYTE format, from bit 47 down (R121, R126). -/
def encodeByte (mode : BitVec 2) (f : ByteFields) : MicroWord :=
  0#3 ++ 3#2 ++ BitVec.ofBool f.popj ++ f.a ++ encodeM f.m ++ encodeDest f.dest ++ mode ++ 0#2
    ++ f.widthm1 ++ f.pos

/-- The word of an instruction, every ignored bit 0. -/
def encode : Instr → MicroWord
  | .aluSetz f => encodeAlu 0o00#6 f
  | .aluAnd f => encodeAlu 0o01#6 f
  | .aluAndca f => encodeAlu 0o02#6 f
  | .aluSetm f => encodeAlu 0o03#6 f
  | .aluAndcm f => encodeAlu 0o04#6 f
  | .aluSeta f => encodeAlu 0o05#6 f
  | .aluXor f => encodeAlu 0o06#6 f
  | .aluIor f => encodeAlu 0o07#6 f
  | .aluAndcb f => encodeAlu 0o10#6 f
  | .aluEqv f => encodeAlu 0o11#6 f
  | .aluSetca f => encodeAlu 0o12#6 f
  | .aluOrca f => encodeAlu 0o13#6 f
  | .aluSetcm f => encodeAlu 0o14#6 f
  | .aluOrcm f => encodeAlu 0o15#6 f
  | .aluOrcb f => encodeAlu 0o16#6 f
  | .aluSeto f => encodeAlu 0o17#6 f
  | .aluMinusOne f => encodeAlu 0o20#6 f
  | .aluAndMinusOne f => encodeAlu 0o21#6 f
  | .aluAndcaMinusOne f => encodeAlu 0o22#6 f
  | .aluMMinusOne f => encodeAlu 0o23#6 f
  | .aluOrcaPlus f => encodeAlu 0o24#6 f
  | .aluOrcaPlusAnd f => encodeAlu 0o25#6 f
  | .aluSub f => encodeAlu 0o26#6 f
  | .aluOrcaPlusM f => encodeAlu 0o27#6 f
  | .aluIorPlus f => encodeAlu 0o30#6 f
  | .aluAdd f => encodeAlu 0o31#6 f
  | .aluIorPlusAndca f => encodeAlu 0o32#6 f
  | .aluIorPlusM f => encodeAlu 0o33#6 f
  | .aluMPlus f => encodeAlu 0o34#6 f
  | .aluMPlusAnd f => encodeAlu 0o35#6 f
  | .aluMPlusOrca f => encodeAlu 0o36#6 f
  | .aluMPlusM f => encodeAlu 0o37#6 f
  | .aluMulstep f => encodeAlu 0o40#6 f
  | .aluDivstep f => encodeAlu 0o41#6 f
  | .aluRemcorr f => encodeAlu 0o45#6 f
  | .aluDivfirst f => encodeAlu 0o51#6 f
  | .aluUndef op f => encodeAlu op f
  | .jumpWrimem f => encodeWrimem f
  | .jumpBit f rot => encodeJump f (0#1 ++ rot)
  | .jumpC0 f => encodeJump f (1#1 ++ 0#5)
  | .jumpC1 f => encodeJump f (1#1 ++ 1#5)
  | .jumpC2 f => encodeJump f (1#1 ++ 2#5)
  | .jumpC3 f => encodeJump f (1#1 ++ 3#5)
  | .jumpC4 f => encodeJump f (1#1 ++ 4#5)
  | .jumpC5 f => encodeJump f (1#1 ++ 5#5)
  | .jumpC6 f => encodeJump f (1#1 ++ 6#5)
  | .jumpC7 f => encodeJump f (1#1 ++ 7#5)
  | .dispatch sub0 f => encodeDispatch (0#1 ++ BitVec.ofBool sub0) f
  | .dispatchLoad f => encodeLoad f
  | .dispatchLc f => encodeDispatch 3#2 f
  | .byteInvalid f => encodeByte 0#2 f
  | .byteLdb f => encodeByte 1#2 f
  | .byteSel f => encodeByte 2#2 f
  | .byteDpb f => encodeByte 3#2 f

/-! ## The opcode table (spec/opcode_table.json; R130) -/

/-- A row of the opcode table: a word `u` is of the row when `u &&& mask = pattern`. -/
structure OpcodeRow where
  mnemonic : String
  pattern  : MicroWord
  mask     : MicroWord
  deriving DecidableEq, Repr

/-- The rows of the logic operations. -/
def aluLogicRows : List OpcodeRow :=
  [⟨"ALU.SETZ", 0x000000000000#48, 0x1800000001F8#48⟩,
   ⟨"ALU.AND", 0x000000000008#48, 0x1800000001F8#48⟩,
   ⟨"ALU.ANDCA", 0x000000000010#48, 0x1800000001F8#48⟩,
   ⟨"ALU.SETM", 0x000000000018#48, 0x1800000001F8#48⟩,
   ⟨"ALU.ANDCM", 0x000000000020#48, 0x1800000001F8#48⟩,
   ⟨"ALU.SETA", 0x000000000028#48, 0x1800000001F8#48⟩,
   ⟨"ALU.XOR", 0x000000000030#48, 0x1800000001F8#48⟩,
   ⟨"ALU.IOR", 0x000000000038#48, 0x1800000001F8#48⟩,
   ⟨"ALU.ANDCB", 0x000000000040#48, 0x1800000001F8#48⟩,
   ⟨"ALU.EQV", 0x000000000048#48, 0x1800000001F8#48⟩,
   ⟨"ALU.SETCA", 0x000000000050#48, 0x1800000001F8#48⟩,
   ⟨"ALU.ORCA", 0x000000000058#48, 0x1800000001F8#48⟩,
   ⟨"ALU.SETCM", 0x000000000060#48, 0x1800000001F8#48⟩,
   ⟨"ALU.ORCM", 0x000000000068#48, 0x1800000001F8#48⟩,
   ⟨"ALU.ORCB", 0x000000000070#48, 0x1800000001F8#48⟩,
   ⟨"ALU.SETO", 0x000000000078#48, 0x1800000001F8#48⟩]

/-- The rows of the arithmetic operations. -/
def aluArithRows : List OpcodeRow :=
  [⟨"ALU.M1", 0x000000000080#48, 0x1800000001F8#48⟩,
   ⟨"ALU.AND-1", 0x000000000088#48, 0x1800000001F8#48⟩,
   ⟨"ALU.ANDCA-1", 0x000000000090#48, 0x1800000001F8#48⟩,
   ⟨"ALU.M-1", 0x000000000098#48, 0x1800000001F8#48⟩,
   ⟨"ALU.ORCA+", 0x0000000000A0#48, 0x1800000001F8#48⟩,
   ⟨"ALU.ORCA+AND", 0x0000000000A8#48, 0x1800000001F8#48⟩,
   ⟨"ALU.SUB", 0x0000000000B0#48, 0x1800000001F8#48⟩,
   ⟨"ALU.ORCA+M", 0x0000000000B8#48, 0x1800000001F8#48⟩,
   ⟨"ALU.IOR+", 0x0000000000C0#48, 0x1800000001F8#48⟩,
   ⟨"ALU.ADD", 0x0000000000C8#48, 0x1800000001F8#48⟩,
   ⟨"ALU.IOR+ANDCA", 0x0000000000D0#48, 0x1800000001F8#48⟩,
   ⟨"ALU.IOR+M", 0x0000000000D8#48, 0x1800000001F8#48⟩,
   ⟨"ALU.M+", 0x0000000000E0#48, 0x1800000001F8#48⟩,
   ⟨"ALU.M+AND", 0x0000000000E8#48, 0x1800000001F8#48⟩,
   ⟨"ALU.M+ORCA", 0x0000000000F0#48, 0x1800000001F8#48⟩,
   ⟨"ALU.M+M", 0x0000000000F8#48, 0x1800000001F8#48⟩]

/-- The rows of the multiply and divide steps and the unassigned opcodes. -/
def aluOtherRows : List OpcodeRow :=
  [⟨"ALU.MULSTEP", 0x000000000100#48, 0x1800000001F8#48⟩,
   ⟨"ALU.DIVSTEP", 0x000000000108#48, 0x1800000001F8#48⟩,
   ⟨"ALU.REMCORR", 0x000000000128#48, 0x1800000001F8#48⟩,
   ⟨"ALU.DIVFIRST", 0x000000000148#48, 0x1800000001F8#48⟩,
   ⟨"ALU.UNDEF", 0x000000000110#48, 0x1800000001F0#48⟩,
   ⟨"ALU.UNDEF", 0x000000000120#48, 0x1800000001F8#48⟩,
   ⟨"ALU.UNDEF", 0x000000000130#48, 0x1800000001F0#48⟩,
   ⟨"ALU.UNDEF", 0x000000000140#48, 0x1800000001F8#48⟩,
   ⟨"ALU.UNDEF", 0x000000000150#48, 0x1800000001F0#48⟩,
   ⟨"ALU.UNDEF", 0x000000000160#48, 0x1800000001E0#48⟩,
   ⟨"ALU.UNDEF", 0x000000000180#48, 0x180000000180#48⟩]

/-- The rows of the jumps. -/
def jumpTableRows : List OpcodeRow :=
  [⟨"JUMP.WRIMEM", 0x080000000300#48, 0x180000000300#48⟩,
   ⟨"JUMP.BIT", 0x080000000000#48, 0x180000000320#48⟩,
   ⟨"JUMP.BIT", 0x080000000100#48, 0x180000000320#48⟩,
   ⟨"JUMP.BIT", 0x080000000200#48, 0x180000000320#48⟩,
   ⟨"JUMP.C0", 0x080000000020#48, 0x180000000327#48⟩,
   ⟨"JUMP.C0", 0x080000000120#48, 0x180000000327#48⟩,
   ⟨"JUMP.C0", 0x080000000220#48, 0x180000000327#48⟩,
   ⟨"JUMP.C1", 0x080000000021#48, 0x180000000327#48⟩,
   ⟨"JUMP.C1", 0x080000000121#48, 0x180000000327#48⟩,
   ⟨"JUMP.C1", 0x080000000221#48, 0x180000000327#48⟩,
   ⟨"JUMP.C2", 0x080000000022#48, 0x180000000327#48⟩,
   ⟨"JUMP.C2", 0x080000000122#48, 0x180000000327#48⟩,
   ⟨"JUMP.C2", 0x080000000222#48, 0x180000000327#48⟩,
   ⟨"JUMP.C3", 0x080000000023#48, 0x180000000327#48⟩,
   ⟨"JUMP.C3", 0x080000000123#48, 0x180000000327#48⟩,
   ⟨"JUMP.C3", 0x080000000223#48, 0x180000000327#48⟩,
   ⟨"JUMP.C4", 0x080000000024#48, 0x180000000327#48⟩,
   ⟨"JUMP.C4", 0x080000000124#48, 0x180000000327#48⟩,
   ⟨"JUMP.C4", 0x080000000224#48, 0x180000000327#48⟩,
   ⟨"JUMP.C5", 0x080000000025#48, 0x180000000327#48⟩,
   ⟨"JUMP.C5", 0x080000000125#48, 0x180000000327#48⟩,
   ⟨"JUMP.C5", 0x080000000225#48, 0x180000000327#48⟩,
   ⟨"JUMP.C6", 0x080000000026#48, 0x180000000327#48⟩,
   ⟨"JUMP.C6", 0x080000000126#48, 0x180000000327#48⟩,
   ⟨"JUMP.C6", 0x080000000226#48, 0x180000000327#48⟩,
   ⟨"JUMP.C7", 0x080000000027#48, 0x180000000327#48⟩,
   ⟨"JUMP.C7", 0x080000000127#48, 0x180000000327#48⟩,
   ⟨"JUMP.C7", 0x080000000227#48, 0x180000000327#48⟩]

/-- The rows of the dispatches and the byte instructions. -/
def dispatchByteRows : List OpcodeRow :=
  [⟨"DISPATCH", 0x100000000000#48, 0x180000000C00#48⟩,
   ⟨"DISPATCH", 0x100000000400#48, 0x180000000C00#48⟩,
   ⟨"DISPATCH.LOAD", 0x100000000800#48, 0x180000000C00#48⟩,
   ⟨"DISPATCH.LC", 0x100000000C00#48, 0x180000000C00#48⟩,
   ⟨"BYTE.INVALID", 0x180000000000#48, 0x180000003000#48⟩,
   ⟨"BYTE.LDB", 0x180000001000#48, 0x180000003000#48⟩,
   ⟨"BYTE.SEL", 0x180000002000#48, 0x180000003000#48⟩,
   ⟨"BYTE.DPB", 0x180000003000#48, 0x180000003000#48⟩]

/-- The 79 rows. -/
def opcodeRows : List OpcodeRow :=
  aluLogicRows ++ aluArithRows ++ aluOtherRows ++ jumpTableRows ++ dispatchByteRows

/-- The mnemonic of an instruction in the table. -/
def Instr.mnemonic : Instr → String
  | .aluSetz _ => "ALU.SETZ"
  | .aluAnd _ => "ALU.AND"
  | .aluAndca _ => "ALU.ANDCA"
  | .aluSetm _ => "ALU.SETM"
  | .aluAndcm _ => "ALU.ANDCM"
  | .aluSeta _ => "ALU.SETA"
  | .aluXor _ => "ALU.XOR"
  | .aluIor _ => "ALU.IOR"
  | .aluAndcb _ => "ALU.ANDCB"
  | .aluEqv _ => "ALU.EQV"
  | .aluSetca _ => "ALU.SETCA"
  | .aluOrca _ => "ALU.ORCA"
  | .aluSetcm _ => "ALU.SETCM"
  | .aluOrcm _ => "ALU.ORCM"
  | .aluOrcb _ => "ALU.ORCB"
  | .aluSeto _ => "ALU.SETO"
  | .aluMinusOne _ => "ALU.M1"
  | .aluAndMinusOne _ => "ALU.AND-1"
  | .aluAndcaMinusOne _ => "ALU.ANDCA-1"
  | .aluMMinusOne _ => "ALU.M-1"
  | .aluOrcaPlus _ => "ALU.ORCA+"
  | .aluOrcaPlusAnd _ => "ALU.ORCA+AND"
  | .aluSub _ => "ALU.SUB"
  | .aluOrcaPlusM _ => "ALU.ORCA+M"
  | .aluIorPlus _ => "ALU.IOR+"
  | .aluAdd _ => "ALU.ADD"
  | .aluIorPlusAndca _ => "ALU.IOR+ANDCA"
  | .aluIorPlusM _ => "ALU.IOR+M"
  | .aluMPlus _ => "ALU.M+"
  | .aluMPlusAnd _ => "ALU.M+AND"
  | .aluMPlusOrca _ => "ALU.M+ORCA"
  | .aluMPlusM _ => "ALU.M+M"
  | .aluMulstep _ => "ALU.MULSTEP"
  | .aluDivstep _ => "ALU.DIVSTEP"
  | .aluRemcorr _ => "ALU.REMCORR"
  | .aluDivfirst _ => "ALU.DIVFIRST"
  | .aluUndef _ _ => "ALU.UNDEF"
  | .jumpWrimem _ => "JUMP.WRIMEM"
  | .jumpBit _ _ => "JUMP.BIT"
  | .jumpC0 _ => "JUMP.C0"
  | .jumpC1 _ => "JUMP.C1"
  | .jumpC2 _ => "JUMP.C2"
  | .jumpC3 _ => "JUMP.C3"
  | .jumpC4 _ => "JUMP.C4"
  | .jumpC5 _ => "JUMP.C5"
  | .jumpC6 _ => "JUMP.C6"
  | .jumpC7 _ => "JUMP.C7"
  | .dispatch _ _ => "DISPATCH"
  | .dispatchLoad _ => "DISPATCH.LOAD"
  | .dispatchLc _ => "DISPATCH.LC"
  | .byteInvalid _ => "BYTE.INVALID"
  | .byteLdb _ => "BYTE.LDB"
  | .byteSel _ => "BYTE.SEL"
  | .byteDpb _ => "BYTE.DPB"

end Sys2Proof
end

