-- ==== Sys2Proof/Config.lean ====
section
/-! DEFINITION. The configuration of a machine: the implementation parameters of spec/00_scope.md R9, which a
model "takes as configuration fields" (notes/assumptions/1); and the opaque constants for what has no default
or is not the core's to know, so that no proof can see a value (notes/assumptions 7, 8, 10). The sizes that the
document fixes (R8) stand in the types of Machine/State.lean. -/

namespace Sys2Proof

/-- The parameters of R9, one field each; `JUMP_CMP_SIGNED`, which has no default, is
`Config.jumpCmpSigned`. A state carries the configuration of its machine, and nothing changes it. -/
structure Config where
  /-- `IMEM_SIZE`, instruction-memory words (D46). -/
  imemSize : Nat
  /-- `RAM_PAGES`: page numbers at or above it are never RAM (D45). -/
  ramPages : Nat
  /-- `SAVE_PAGES`, the pages a checkpoint carries (D39). -/
  savePages : Nat
  /-- `PN_MASK`, the bits of an L2 entry that are the physical page number (R82, D26). -/
  pnMask : Word
  /-- `ACCESS_BIT` and `WRITE_BIT`, the permission bits of an L2 entry (R82, D26). -/
  accessBit : Nat
  writeBit : Nat
  /-- `FB_SENTINEL`, the frame of the framebuffer and colour windows (R80, D27). -/
  fbSentinel : Word
  /-- `DIAG_SENTINEL`, the frame of the diagnostic window (R80, D27). -/
  diagSentinel : Word
  /-- `PAGE_FB`, `PAGE_BUS`, `PAGE_EXTRA`, the device pages (R90, D28). -/
  pageFb : Word
  pageBus : Word
  pageExtra : Word
  /-- The fields of the interrupt status register (R45, D34). -/
  isVector : Word
  isUbEnable : Word
  isUbPresent : Word
  isXbPresent : Word
  isWritable : Word
  /-- `LCPOS`: none for the formula of R341, else the values of another function of the mode, `LC[1:0]` and the
  five instruction bits, in the order of those eight bits (D20). -/
  lcPosTable : Option (List (BitVec 5))
  /-- `CKPT_MAGIC`, `CKPT_VERSION`, the tags of segments 1 to 22 in the order of R353, `EOF_PAD` (R352, D39). -/
  ckptMagic : List Byte
  ckptVersion : Word
  ckptTags : List (List Byte)
  eofPad : Byte
  /-- `LCHIST_N`, `PCHIST_N`, `PDLHIST_N`, the capacities of the history rings (R62, D51). -/
  lcHistN : Nat
  pcHistN : Nat
  pdlHistN : Nat
  /-- `INTSTAT_PAGE`, `INTSTAT_OFFSET`, `PROMCTL_OFFSET`, `PROMCTL_MASK`: where software reaches the status
  register and the PROM control (R402, D35). -/
  intstatPage : Word
  intstatOffset : BitVec 8
  promctlOffset : BitVec 8
  promctlMask : Word
  deriving DecidableEq, Repr

/-- The four peripherals a virtual access can be routed to (spec/60_exceptions.md R400). -/
inductive Device where
  | display   -- the framebuffer and colour windows
  | fb        -- the framebuffer device page
  | bus       -- the last-page XBUS/UNIBUS device page
  | extra     -- the extra device page
  deriving DecidableEq, Repr

/-- What happened to the push-down list: the two events of the PDL-action-history ring (R179). -/
inductive PdlAction where
  | push
  | pop
  deriving DecidableEq, Repr

/-- `JUMP_CMP_SIGNED`: whether jump conditions 1 and 2 compare as signed. The spec leaves it OPEN, with
no default (R296, D13; notes/assumptions/7). -/
opaque Config.jumpCmpSigned : Bool

/-- What the environment answers to its `n`-th device read (R400: "the core does not know the value",
"may differ from one read to the next"; notes/assumptions/8). A FREE VALUE. -/
opaque Config.deviceValue : Nat → Device → BitVec 24 → Word

/-- The word that a push or a pop of the PDL leaves in the PDL-action-history ring, "in a format the
document does not give" (R179, R62; notes/assumptions/10). A FREE VALUE. -/
opaque Config.pdlHistEntry : PdlAction → BitVec 10 → Word → Word

end Sys2Proof
end

