-- ==== Sys2Proof/Machine/Params.lean ====
section
/-! DEFINITION. The default configuration, with the default that spec/00_scope.md R9 gives each parameter
(notes/assumptions/1); which configurations the rules allow; and the layouts that are no parameter. -/

namespace Sys2Proof.Machine

/-- Words of a page (R8). -/
def pageWords : Nat := 256

/-- Bits of the interrupt-control register (R39, D33). -/
def icrByteMode : Nat := 29
def icrSeqBreak : Nat := 26

/-- The tags of segments 1 to 22, four ASCII bytes each (spec/46_checkpoint.md R353). -/
def defaultTags : List (List Byte) :=
  [[0x50, 0x44, 0x4C, 0x49],   -- PDLI
   [0x50, 0x44, 0x4C, 0x50],   -- PDLP
   [0x4C, 0x43, 0x4E, 0x54],   -- LCNT
   [0x4C, 0x43, 0x48, 0x4C],   -- LCHL
   [0x55, 0x50, 0x43, 0x52],   -- UPCR
   [0x55, 0x53, 0x50, 0x52],   -- USPR
   [0x4D, 0x44, 0x52, 0x47],   -- MDRG
   [0x56, 0x4D, 0x41, 0x52],   -- VMAR
   [0x4F, 0x50, 0x43, 0x52],   -- OPCR
   [0x4F, 0x41, 0x4C, 0x4F],   -- OALO
   [0x4F, 0x41, 0x48, 0x49],   -- OAHI
   [0x49, 0x4D, 0x45, 0x4D],   -- IMEM
   [0x44, 0x4D, 0x45, 0x4D],   -- DMEM
   [0x55, 0x53, 0x54, 0x4B],   -- USTK
   [0x50, 0x43, 0x48, 0x4C],   -- PCHL
   [0x50, 0x44, 0x48, 0x4C],   -- PDHL
   [0x4C, 0x31, 0x4D, 0x50],   -- L1MP
   [0x4C, 0x32, 0x4D, 0x50],   -- L2MP
   [0x50, 0x44, 0x4C, 0x4D],   -- PDLM
   [0x41, 0x4D, 0x45, 0x4D],   -- AMEM
   [0x4D, 0x4D, 0x45, 0x4D],   -- MMEM
   [0x50, 0x4D, 0x45, 0x4D]]   -- PMEM

/-- Every parameter at its default (R9; R352 for the checkpoint). -/
def defaultConfig : Config :=
  { imemSize := 16384, ramPages := 0o4000, savePages := 0o4000
    pnMask := 0x3FFF, accessBit := 23, writeBit := 22
    fbSentinel := 0o36000, diagSentinel := 0o60036777
    pageFb := 0o36000, pageBus := 0o36777, pageExtra := 0o37764
    isVector := 0o1774, isUbEnable := 0o2000, isUbPresent := 0o100000, isXbPresent := 0o40000
    isWritable := 0o36001
    lcPosTable := none
    ckptMagic := [0x55, 0x53, 0x49, 0x4D], ckptVersion := 1, ckptTags := defaultTags, eofPad := 0
    lcHistN := 0, pcHistN := 0, pdlHistN := 0
    intstatPage := 0o36777, intstatOffset := 0o40, promctlOffset := 0o12, promctlMask := 0o44 }

/-- The four bytes of the "EOF" tag (R352). -/
def eofTag (c : Config) : List Byte := [0x45, 0x4F, 0x46, c.eofPad]

/-- What the rules ask of a configuration: the instruction memory has a power of two of words (R12), at most 16K
(R43); `SAVE_PAGES <= RAM_PAGES` (R9); magic and tags are four bytes, one distinct tag for each segment and for
the end (R351, R353); the counts of the segments that vary fit the 32 bits of a `wordcount` (R351). DEDUCED:
notes/assumptions/25. -/
def configOk (c : Config) : Bool :=
  (List.range 15).any (fun k => c.imemSize == 2 ^ k)
    && decide (c.savePages ≤ c.ramPages) && decide (c.savePages * pageWords < 2 ^ 32)
    && decide (c.lcHistN < 2 ^ 32) && decide (c.pcHistN < 2 ^ 32) && decide (c.pdlHistN < 2 ^ 32)
    && c.ckptMagic.length == 4 && c.ckptTags.length == 22 && c.ckptTags.all (fun t => t.length == 4)
    && decide (c.ckptTags.Nodup) && !c.ckptTags.contains (eofTag c)

end Sys2Proof.Machine
end

