-- ==== Sys2Proof/Machine/State.lean ====
section
/-! DEFINITION. The state of the machine as plain data, its reset value, and the reasons a step can stop.
Each field names the rule of spec/10_state.md it stands for. -/

namespace Sys2Proof.Machine

/-- A memory of `w`-bit words: (address, word) pairs, addresses strictly rising, no word equal to what an
unlisted address reads as (`Memory.wf`). The unit is the machine's smallest addressable unit, the word of
that memory (spec/20_memory.md R70, R71; notes/assumptions/5). -/
abbrev Memory (w : Nat) := List (Nat × BitVec w)

/-- A diagnostic history ring: the slot the next record overwrites, and the slots (R62). -/
structure Ring where
  head  : Nat
  slots : Memory 32
  deriving DecidableEq, Repr

/-- An output event `(dev, off, x)` of a device write (spec/60_exceptions.md R401). -/
structure DeviceWrite where
  dev   : Device
  off   : BitVec 24
  value : Word
  deriving DecidableEq, Repr

/-- Why a step stops. The machine has no trap (R380), so no instruction raises one of these. -/
inductive Fault where
  /-- `step` raises it on a machine with HALTED = 1, which takes no step (R15, R410). Safe: the hardware
  does not go on either. -/
  | halted
  deriving DecidableEq, Repr

/-- Why the model has no meaning for what it is asked. -/
inductive Refusal where
  /-- `exec` raises it for an instruction that has no meaning yet; none is left. Safe. -/
  | notModelled (mnemonic : String)
  /-- The host operation `loadProm` raises it for an image that does not hold what its header says: "process
  cannot start", no machine exists (R381, R422). No instruction raises it. Safe. -/
  | promUnreadable
  deriving DecidableEq, Repr

/-- Everything the spec gives the machine, its configuration (`cfg`), and two fields of the model's own
(`devReads`, `trace`). -/
structure State where
  /-- THE CONFIGURATION of this machine, the parameters of R9; nothing changes it (notes/assumptions/1). -/
  cfg : Config
  /-- A-memory, 1024 words (R20). -/
  amem : Memory 32
  /-- M-memory, 32 words (R21). -/
  mmem : Memory 32
  /-- The next-PC, the address of the next fetch (R23). -/
  npc : BitVec 14
  /-- The pipeline register of the word being executed (R24). -/
  p0 : MicroWord
  /-- The pipeline register of the word just fetched (R24). -/
  p1 : MicroWord
  /-- Where `p0` was fetched from (R24). -/
  p0pc : BitVec 14
  /-- Where `p1` was fetched from (R24). -/
  p1pc : BitVec 14
  /-- A bubble is due (R25). -/
  inhibit : Bool
  /-- Fetch reads the PROM (R26). -/
  promEn : Bool
  /-- The terminal state (R27). -/
  halted : Bool
  /-- The low OA register and its valid bit (R28). -/
  oaLo : BitVec 26
  oaLoV : Bool
  /-- The high OA register and its valid bit (R28). -/
  oaHi : BitVec 22
  oaHiV : Bool
  /-- The sticky fault flags (R31). -/
  accessFault : Bool
  writeFault : Bool
  pageFault : Bool
  /-- The dispatch constant, MFMEM slot 0 (R33). -/
  dc : BitVec 10
  /-- The latched frame number, MFMEM slot 6 (R34). -/
  opc : Word
  /-- The multiplier and quotient register, MFMEM slot 7 (R35). -/
  q : Word
  /-- The virtual-memory address, MFMEM slot 0o10 (R36). -/
  vma : Word
  /-- The memory data, MFMEM slot 0o12 (R37). -/
  md : Word
  /-- The location counter in 25:0 and need-fetch in 31, MFMEM slot 0o13 (R38). -/
  lc : Word
  /-- The interrupt-control register (R39). -/
  icr : Word
  /-- The micro-subroutine stack, 32 entries, and its pointer (R40). -/
  spc : Memory 32
  spcPtr : BitVec 5
  /-- The push-down list, 1024 words, its pointer and its index (R41). -/
  pdl : Memory 32
  pdlPtr : BitVec 10
  pdlIdx : BitVec 10
  /-- Dispatch memory, 2048 words (R42). -/
  dmem : Memory 32
  /-- Instruction memory (R43). -/
  imem : Memory 48
  /-- The boot PROM, 512 words (R44). -/
  prom : Memory 48
  /-- The interrupt status register (R45). -/
  intstat : Word
  /-- The two translation tables, 2048 and 1024 entries (R46). -/
  l1 : Memory 32
  l2 : Memory 32
  /-- The words of physical memory, at `page * 256 + offset` (R47). -/
  pmem : Memory 32
  /-- Which pages of physical memory exist: 1 at the number of a page that has been created (R47). -/
  pages : Memory 1
  /-- The deferred-read slot: steps to go, and the data (R48). -/
  rdDelay : Fin 3
  rdValue : Word
  /-- The checkpoint codec has restored once (R50). -/
  restored : Bool
  /-- The three history rings (R62). -/
  lcHist : Ring
  pcHist : Ring
  pdlHist : Ring
  /-- THE MODEL'S OWN: how many device reads the environment has answered (notes/assumptions/8). -/
  devReads : Nat
  /-- THE MODEL'S OWN: the output events, oldest first (R401; notes/assumptions/9). -/
  trace : List DeviceWrite
  deriving DecidableEq, Repr

/-- The reset state (spec/70_reset_and_hazards.md R420) of the machine with the default configuration. The PROM
holds the image that the host loads after this (R422); before that, every word of it is one "the image does not
cover". -/
def State.reset : State :=
  { cfg := defaultConfig
    amem := [], mmem := []
    npc := 0, p0 := 0, p1 := 0, p0pc := 0, p1pc := 0
    inhibit := false, promEn := true, halted := false
    oaLo := 0, oaLoV := false, oaHi := 0, oaHiV := false
    accessFault := false, writeFault := false, pageFault := false
    dc := 0, opc := 0, q := 0, vma := 0, md := 0, lc := 0, icr := 0
    spc := [], spcPtr := 0, pdl := [], pdlPtr := 0, pdlIdx := 0
    dmem := [], imem := [], prom := []
    intstat := 0, l1 := [], l2 := [], pmem := [], pages := []
    rdDelay := 0, rdValue := 0, restored := false
    lcHist := ⟨0, []⟩, pcHist := ⟨0, []⟩, pdlHist := ⟨0, []⟩
    devReads := 0, trace := [] }

/-- The outcome of a step or of an instruction. -/
abbrev Result := Host.Outcome State Fault Refusal

end Sys2Proof.Machine
end

