-- ==== Sys2Proof/Machine/Ops.lean ====
section
/-! DEFINITION. The named operations over the state: memories, history rings, interrupt controller,
devices, physical memory, translation, virtual accesses, stacks, the location counter. The machine has no
exception entry and no return from one (spec/60_exceptions.md R380, R384, R385); what every abnormal access
does instead is the one operation `signalFault` (spec/20_memory.md R89), and a return is `popReturn`. -/

namespace Sys2Proof.Machine

/-! ## Words -/

/-- `rotl32(x, n)`, the 32-bit rotate (spec/00_scope.md R11). -/
def rotl32 (x : Word) (n : BitVec 5) : Word :=
  (x <<< n.toNat) ||| (x >>> (32 - n.toNat))

/-- The word whose bit 0 is `b` and whose other bits are 0. -/
def bitWord (b : Bool) : Word := (BitVec.ofBool b).setWidth 32

/-! ## Memories -/

/-- What an address that a memory does not list reads as: 0, the reset content of every memory (R420) and
of every page (R74). -/
def Memory.unlisted (w : Nat) : BitVec w := 0#w

/-- The word at an address. -/
def Memory.read {w : Nat} : Memory w → Nat → BitVec w
  | [], _ => Memory.unlisted w
  | (k, x) :: rest, a => if k = a then x else Memory.read rest a

/-- The memory without an entry at `a`. -/
def Memory.erase {w : Nat} (m : Memory w) (a : Nat) : Memory w :=
  m.filter (fun c => c.1 != a)

/-- The memory with the entry `(a, v)` put before the first entry of a higher address. -/
def Memory.insert {w : Nat} : Memory w → Nat → BitVec w → Memory w
  | [], a, v => [(a, v)]
  | (k, x) :: rest, a, v => if a < k then (a, v) :: (k, x) :: rest else (k, x) :: Memory.insert rest a v

/-- The memory with `v` at address `a`; writing what an unlisted address reads as removes the entry. -/
def Memory.write {w : Nat} (m : Memory w) (a : Nat) (v : BitVec w) : Memory w :=
  if v = Memory.unlisted w then Memory.erase m a else Memory.insert (Memory.erase m a) a v

/-- The addresses of a memory rise strictly. -/
def Memory.rising {w : Nat} : Memory w → Bool
  | [] => true
  | (k, _) :: rest => rest.all (fun c => k < c.1) && Memory.rising rest

/-- The canonical form: addresses strictly rising, no entry equal to what an unlisted address reads as. -/
def Memory.wf {w : Nat} (m : Memory w) : Bool :=
  Memory.rising m && m.all (fun c => c.2 != Memory.unlisted w)

/-- Every listed address is below the capacity. -/
def Memory.below {w : Nat} (cap : Nat) (m : Memory w) : Bool :=
  m.all (fun c => c.1 < cap)

/-- The memory that holds the words of a list from address `a` on. -/
def Memory.ofWords {w : Nat} : Nat → List (BitVec w) → Memory w
  | _, [] => []
  | a, x :: rest =>
      if x = Memory.unlisted w then Memory.ofWords (a + 1) rest else (a, x) :: Memory.ofWords (a + 1) rest

/-- The first `n` words of a memory, in address order. -/
def Memory.words {w : Nat} (n : Nat) (m : Memory w) : List (BitVec w) :=
  (List.range n).map (Memory.read m)

/-! ## History rings (spec/10_state.md R62; D51) -/

/-- A record in a ring of capacity `cap`, at the head, which moves on; a ring of capacity 0 holds nothing. -/
def Ring.record (cap : Nat) (r : Ring) (x : Word) : Ring :=
  if cap = 0 then r else { head := (r.head + 1) % cap, slots := Memory.write r.slots r.head x }

/-- The entries of a ring of capacity `cap`, oldest first (spec/46_checkpoint.md R355). -/
def Ring.oldestFirst (cap : Nat) (r : Ring) : List Word :=
  (List.range cap).map (fun i => Memory.read r.slots ((r.head + i) % cap))

/-- A restored ring: entry `i` at slot `i`, head 0 (R355). -/
def Ring.ofWords (ws : List Word) : Ring := { head := 0, slots := Memory.ofWords 0 ws }

/-! ## The interrupt controller (spec/60_exceptions.md R390 to R395) -/

/-- `PENDING`: one of the two present bits is set (R394, R32). -/
def pending (s : State) : Bool := (s.intstat &&& (s.cfg.isUbPresent ||| s.cfg.isXbPresent)) != 0#32

/-- `assert_unibus(vector)`: lost while the enable bit is clear (R390). -/
def assertUnibus (vector : Word) (s : State) : State :=
  if (s.intstat &&& s.cfg.isUbEnable) != 0#32 then
    { s with
      intstat := (s.intstat &&& ~~~s.cfg.isVector) ||| (vector &&& s.cfg.isVector) ||| s.cfg.isUbPresent }
  else s

/-- `deassert_unibus()` (R391). -/
def deassertUnibus (s : State) : State :=
  if (s.intstat &&& s.cfg.isUbPresent) != 0#32 then
    { s with intstat := s.intstat &&& ~~~(s.cfg.isUbPresent ||| s.cfg.isVector) }
  else s

/-- `assert_xbus()`, which has no gate (R392). -/
def assertXbus (s : State) : State := { s with intstat := s.intstat ||| s.cfg.isXbPresent }

/-- `deassert_xbus()` (R393). -/
def deassertXbus (s : State) : State :=
  if (s.intstat &&& s.cfg.isXbPresent) != 0#32 then
    { s with intstat := s.intstat &&& ~~~s.cfg.isXbPresent }
  else s

/-- `set_status(value)` replaces the writable bits and preserves the others (R395). -/
def setStatus (value : Word) (s : State) : State :=
  { s with intstat := (s.intstat &&& ~~~s.cfg.isWritable) ||| (value &&& s.cfg.isWritable) }

/-! ## Devices (R400 to R402) -/

/-- The device of a page number, if it is one of the three device pages; the first that matches (R90). -/
def devicePage (c : Config) (pn : Word) : Option Device :=
  if pn = c.pageFb then some .fb
  else if pn = c.pageBus then some .bus
  else if pn = c.pageExtra then some .extra
  else none

/-- The device on whose page the core's own two registers lie: that of `INTSTAT_PAGE`, by default the bus page
(R400, R402). -/
def controlDevice (c : Config) : Option Device := devicePage c c.intstatPage

/-- `DevRead(dev, off)`: the status register at its offset of its page, else the environment's next answer, a
free value (R400). -/
def devRead (dev : Device) (off : BitVec 24) (s : State) : Word × State :=
  if controlDevice s.cfg = some dev ∧ off = s.cfg.intstatOffset.setWidth 24 then (s.intstat, s)
  else (Config.deviceValue s.devReads dev off, { s with devReads := s.devReads + 1 })

/-- What a write to the page of the two registers does to the core's own state (R402). -/
def busEffect (off : BitVec 24) (x : Word) (s : State) : State :=
  let s1 := if off = s.cfg.intstatOffset.setWidth 24 then setStatus x s else s
  if off = s.cfg.promctlOffset.setWidth 24 ∧ (x &&& s.cfg.promctlMask) = s.cfg.promctlMask then
    { s1 with promEn := false }
  else s1

/-- `DevWrite(dev, off, x)`: an output event, and on the page of the two registers the effect of R402 (R401). -/
def devWrite (dev : Device) (off : BitVec 24) (x : Word) (s : State) : State :=
  let s1 := { s with trace := s.trace ++ [⟨dev, off, x⟩] }
  if controlDevice s.cfg = some dev then busEffect off x s1 else s1

/-! ## Physical memory (spec/20_memory.md R74 to R76) -/

/-- Where word `off` of page `pn` stands in `pmem`. -/
def physAddr (pn : Word) (off : BitVec 8) : Nat := pn.toNat * pageWords + off.toNat

/-- The page exists from now on, zero-filled if it did not (R74). -/
def touchPage (pn : Word) (s : State) : State :=
  { s with pages := Memory.write s.pages pn.toNat 1#1 }

/-- `PhysRead(pn, off)` for a page below the budget (R74). -/
def physRead (pn : Word) (off : BitVec 8) (s : State) : Word × State :=
  (Memory.read s.pmem (physAddr pn off), touchPage pn s)

/-- `PhysWrite(pn, off, x)` for a page below the budget (R75). -/
def physWrite (pn : Word) (off : BitVec 8) (x : Word) (s : State) : State :=
  { touchPage pn s with pmem := Memory.write s.pmem (physAddr pn off) x }

/-! ## Translation (R80 to R83) -/

/-- A TranslationResult (R63): the frame value, the offset, the L1 value, and whether the address is in a
display window. -/
structure Translation where
  frame   : Word
  offset  : BitVec 8
  l1      : BitVec 5
  display : Bool
  deriving DecidableEq, Repr

/-- The index of the L1 entry of a virtual address, `v[23:13]` (R83). -/
def l1Index (v : Word) : BitVec 11 := v.extractLsb' 13 11

/-- The low five bits of the L1 entry of a virtual address (R83). -/
def l1Value (v : Word) (s : State) : BitVec 5 := (Memory.read s.l1 (l1Index v).toNat).setWidth 5

/-- The index of the L2 entry that `v` translates through with L1 value `b` (R80 case 3). -/
def l2Index (b : BitVec 5) (v : Word) : BitVec 10 := b ++ v.extractLsb' 8 5

/-- `Translate(v)`: the display windows, the diagnostic window, the tables, in this order (R80). It
changes no state. -/
def translateAddr (v : Word) (s : State) : Translation :=
  let a := v &&& 0o77777777#32
  let offset := v.extractLsb' 0 8
  if (a &&& 0o77700000#32) = 0o77000000#32 ∨ (a &&& 0o77700000#32) = 0o77200000#32 then
    { frame := s.cfg.fbSentinel, offset := offset, l1 := 0#5, display := true }
  else if (a &&& 0o77777400#32) = 0o77377400#32 then
    { frame := s.cfg.diagSentinel, offset := offset, l1 := 0#5, display := false }
  else
    let b := l1Value v s
    { frame := Memory.read s.l2 (l2Index b v).toNat, offset := offset, l1 := b, display := false }

/-- The page number of a frame value, `frame & PN_MASK` (R82). -/
def pageOf (c : Config) (frame : Word) : Word := frame &&& c.pnMask

/-! ## Virtual accesses (R88 to R91) -/

/-- The three sticky flags are cleared at the start of every virtual access (R88). -/
def clearFaults (s : State) : State :=
  { s with accessFault := false, writeFault := false, pageFault := false }

/-- How a failed access signals: the page-fault flag, the specific flag, the latched frame number (R89). -/
def signalFault (access write : Bool) (pn : Word) (s : State) : State :=
  { s with accessFault := access, writeFault := write, pageFault := true, opc := pn }

/-- `MemRead(v)` (R90). -/
def memRead (v : Word) (s : State) : Word × State :=
  let s1 := clearFaults s
  let t := translateAddr v s1
  if t.display then devRead .display (v.setWidth 24) s1
  else if t.frame.getLsbD s.cfg.accessBit = false then (0#32, signalFault true false (pageOf s.cfg t.frame) s1)
  else
    let pn := pageOf s.cfg t.frame
    match devicePage s.cfg pn with
    | some dev => devRead dev (t.offset.setWidth 24) s1
    | none =>
      if pn.toNat < s.cfg.ramPages then physRead pn t.offset s1
      else (0#32, signalFault false false pn s1)

/-- `MemWrite(v, x)` (R91). -/
def memWrite (v x : Word) (s : State) : State :=
  let s1 := clearFaults s
  let t := translateAddr v s1
  if t.display then devWrite .display (v.setWidth 24) x s1
  else if t.frame.getLsbD s.cfg.accessBit = false then signalFault true false (pageOf s.cfg t.frame) s1
  else if t.frame.getLsbD s.cfg.writeBit = false then signalFault false true (pageOf s.cfg t.frame) s1
  else
    let pn := pageOf s.cfg t.frame
    match devicePage s.cfg pn with
    | some dev => devWrite dev (t.offset.setWidth 24) x s1
    | none =>
      if pn.toNat < s.cfg.ramPages then physWrite pn t.offset x s1
      else signalFault false false pn s1

/-- The physical word that a write to `v` stores to, if it reaches RAM; the same tests as `memWrite`. -/
def storeAddr (v : Word) (s : State) : Option Nat :=
  let t := translateAddr v s
  let pn := pageOf s.cfg t.frame
  if t.display = false ∧ t.frame.getLsbD s.cfg.accessBit = true ∧ t.frame.getLsbD s.cfg.writeBit = true
      ∧ devicePage s.cfg pn = none ∧ pn.toNat < s.cfg.ramPages then
    some (physAddr pn t.offset)
  else none

/-- `IssueRead(v)`: the access happens now, its data reaches `MD` two steps later (R95). -/
def issueRead (v : Word) (s : State) : State :=
  let r := memRead v s
  { r.2 with rdValue := r.1, rdDelay := 2 }

/-- `WriteMap()`: `MD` gives the address, `VMA` the data and the two select bits (R100). -/
def writeMap (s : State) : State :=
  let s1 :=
    if s.vma.getLsbD 26 then
      { s with l1 := Memory.write s.l1 (l1Index s.md).toNat ((s.vma.extractLsb' 27 5).setWidth 32) }
    else s
  if s.vma.getLsbD 25 then
    { s1 with l2 := Memory.write s1.l2 (l2Index (l1Value s.md s1) s.md).toNat (s.vma &&& 0o77777777#32) }
  else s1

/-! ## Stacks (spec/40_step_and_operands.md R178, R179) -/

/-- `SpcPush(v)` (R178). -/
def spcPush (v : Word) (s : State) : State :=
  let p := s.spcPtr + 1
  { s with spcPtr := p, spc := Memory.write s.spc p.toNat v }

/-- The entry that the stack pointer points at (R40). -/
def spcTop (s : State) : Word := Memory.read s.spc s.spcPtr.toNat

/-- `SpcPop()` (R178). -/
def spcPop (s : State) : Word × State := (spcTop s, { s with spcPtr := s.spcPtr - 1 })

/-- A push or a pop in the PDL-action-history ring (R179). -/
def recordPdl (act : PdlAction) (p : BitVec 10) (v : Word) (s : State) : State :=
  { s with pdlHist := Ring.record s.cfg.pdlHistN s.pdlHist (Config.pdlHistEntry act p v) }

/-- `PdlPush(v)` (R179). -/
def pdlPush (v : Word) (s : State) : State :=
  let p := s.pdlPtr + 1
  recordPdl .push p v { s with pdlPtr := p, pdl := Memory.write s.pdl p.toNat v }

/-- The word that the PDL pointer points at (R41). -/
def pdlTop (s : State) : Word := Memory.read s.pdl s.pdlPtr.toNat

/-- `PdlPop()` (R179). -/
def pdlPop (s : State) : Word × State :=
  (pdlTop s, recordPdl .pop s.pdlPtr (pdlTop s) { s with pdlPtr := s.pdlPtr - 1 })

/-! ## The location counter (spec/45_lc_advance.md R335 to R341) -/

/-- Byte mode, `ICR[29]`; otherwise 16-bit mode (R335). -/
def byteMode (s : State) : Bool := s.icr.getLsbD icrByteMode

/-- The LC register of a counter and a need-fetch bit; bits 30:26 are 0 (R38). -/
def lcWord (needFetch : Bool) (counter : BitVec 26) : Word :=
  BitVec.ofBool needFetch ++ 0#5 ++ counter

/-- The counter after an advance (R336 statement 2). -/
def lcNext (s : State) : BitVec 26 :=
  s.lc.setWidth 26 + (if byteMode s then 1#26 else 2#26)

/-- `LCAdvance` (R336): the state after, and whether no fetch was needed, in which case the caller's popped
return address has 2 ORed into it (R338). What is recorded is the old LC register, `LC` as it still stands at
statement 3: the counter and, in bit 31, the need-fetch bit (R62, D51; DEDUCED: notes/assumptions/22). -/
def lcAdvance (s : State) : State × Bool :=
  let old : BitVec 26 := s.lc.setWidth 26
  let nf := s.lc.getLsbD 31
  let byte := byteMode s
  let new := lcNext s
  let s1 :=
    if nf then
      let v : Word := (old >>> 2).setWidth 32
      let s2 := issueRead v { s with vma := v }
      { s2 with lcHist := Ring.record s.cfg.lcHistN s2.lcHist s.lc }
    else s
  let last := !(byte && new.getLsbD 0) && !new.getLsbD 1
  ({ s1 with lc := lcWord last new }, !nf)

/-- A return: pop the micro-subroutine stack, run LC-advance if bit 14 of the popped value is set, mask to
14 bits (R190, R306; spec/42_dispatch.md R272 statement 12; spec/43_jump.md R291 statement 6). -/
def popReturn (s : State) : BitVec 14 × State :=
  let r := spcPop s
  if r.1.getLsbD 14 then
    let adv := lcAdvance r.2
    let t := if adv.2 then r.1 ||| 2#32 else r.1
    (t.setWidth 14, adv.1)
  else (r.1.setWidth 14, r.2)

/-- `Popj()` (R190). -/
def popj (s : State) : State :=
  let r := popReturn s
  { r.2 with npc := r.1 }

/-- Statement 8 of the step: popj runs if the flag is still set (R150). -/
def popjIf (flag : Bool) (s : State) : State := if flag then popj s else s

end Sys2Proof.Machine
end

