-- ==== Sys2Proof/Machine/Flags.lean ====
section
/-! DEFINITION. The machine has no condition-code register (spec/10_state.md R29). This file holds what
stands in its place: the carry of the ALU, which lives inside one instruction (R30), the two modifiers that
can keep it (spec/41_alu.md R250 to R258), and the conditions a jump can test (spec/43_jump.md R293 to
R302). -/

namespace Sys2Proof.Machine

/-- `alu_out` and `alu_carry` (R30). -/
structure AluResult where
  out   : Word
  carry : Bool
  deriving DecidableEq, Repr

/-- The result of an operation whose exact integer value is `r`: reduce it modulo `2^33`; the low 32 bits
are `alu_out`, bit 32 is `alu_carry` (R201). -/
def AluResult.ofInt (r : Int) : AluResult :=
  let r33 := BitVec.ofInt 33 r
  { out := r33.setWidth 32, carry := r33.getLsbD 32 }

/-- The result of a logic operation: carry 0 (section 2 of spec/41_alu.md, D10). -/
def AluResult.logic (w : Word) : AluResult := { out := w, carry := false }

/-- A word as an unsigned integer (R201). -/
def uint (x : Word) : Int := (x.toNat : Int)

/-- The carry-in as an integer. -/
def carryIn (cin : Bool) : Int := if cin then 1 else 0

/-- `|A|`, the magnitude of `A` read as two's complement (R201). -/
def magnitude (a : Word) : Int := if a.getLsbD 31 then 2 ^ 32 - uint a else uint a

/-- Q-control: the new `Q` (R250 to R253). -/
def qControl (c : QCtl) (oldQ : Word) (r : AluResult) : Word :=
  match c with
  | .keep => oldQ
  | .shiftLeft => (oldQ <<< 1) ||| bitWord (!r.out.getLsbD 31)
  | .shiftRight => (oldQ >>> 1) ||| (bitWord r.carry <<< 31)
  | .load => r.out

/-- Out-control: the word on the output bus; `low` is `u[4:0]`, the rotate count of "rotated M"
(R255 to R258). -/
def outControl (c : OutCtl) (m : Word) (r : AluResult) (oldQ : Word) (low : BitVec 5) : Word :=
  match c with
  | .rotatedM => rotl32 m low
  | .aluOut => r.out
  | .shiftRight => (r.out >>> 1) ||| (bitWord r.carry <<< 31)
  | .shiftLeft => (r.out <<< 1) ||| bitWord (oldQ.getLsbD 31)

/-! ## Jump conditions -/

/-- The bit test: bit 0 of `M` rotated left (R293). -/
def condBit (rot : BitVec 5) (m : Word) : Bool := (rotl32 m rot).getLsbD 0

/-- Condition 1, `M < A`, signed or not as the parameter says (R296). -/
def condLess (m a : Word) : Bool := if Config.jumpCmpSigned then m.slt a else m.ult a

/-- Condition 2, `M <= A`, signed or not as the parameter says (R297). -/
def condLessEq (m a : Word) : Bool := if Config.jumpCmpSigned then m.sle a else m.ule a

/-- Condition 5 (R300). -/
def condFaultOrPending (s : State) : Bool := s.pageFault || pending s

/-- Condition 6 (R301). -/
def condFaultOrPendingOrSeqBreak (s : State) : Bool := s.pageFault || pending s || s.icr.getLsbD icrSeqBreak

end Sys2Proof.Machine
end

