-- ==== Sys2Proof/Machine/Operands.lean ====
section
/-! DEFINITION. The operand forms of spec/40_step_and_operands.md: the M operand with its functional
sources (R160 to R177), the destination write with its functional destinations (R180 to R189), and the two
positions and masks that the dispatch and byte units compute (spec/45_lc_advance.md R341,
spec/44_byte.md R326). -/

namespace Sys2Proof.Machine

/-! ## Functional sources -/

/-- The functional sources by name (R161). -/
inductive FuncSource where
  | dc | spcTop | pdlPtr | pdlIdx | pdlAtIdx | opc | q | vma | mapWord | md | lc | spcPop | pdlPop | pdlTop
  | unknown
  deriving DecidableEq, Repr

/-- The functional source of an index; 4, 0o15 to 0o23 and 0o26 to 0o37 have no entry (R161, R172). -/
def funcSource (i : BitVec 5) : FuncSource :=
  match i.toNat with
  | 0o00 => .dc
  | 0o01 => .spcTop
  | 0o02 => .pdlPtr
  | 0o03 => .pdlIdx
  | 0o05 => .pdlAtIdx
  | 0o06 => .opc
  | 0o07 => .q
  | 0o10 => .vma
  | 0o11 => .mapWord
  | 0o12 => .md
  | 0o13 => .lc
  | 0o14 => .spcPop
  | 0o24 => .pdlPop
  | 0o25 => .pdlTop
  | _ => .unknown

/-- The packed stack word: the pointer in 28:24, the low 18 bits of the entry in 17:0 (R163). -/
def stackWord (s : State) : Word := (s.spcPtr.setWidth 32 <<< 24) ||| (spcTop s &&& 0x3FFFF#32)

/-- The composite translation word of the address in `MD`; it is no access (R170). -/
def mapWord (s : State) : Word :=
  let t := translateAddr s.md s
  (bitWord s.writeFault <<< 31) ||| (bitWord s.accessFault <<< 30) ||| (t.l1.setWidth 32 <<< 24)
    ||| (t.frame &&& 0o77777777#32)

/-- `LC` as source 0o13 reads it: bit 0 is 0 in 16-bit mode (R173). -/
def lcSource (s : State) : Word := if byteMode s then s.lc else s.lc &&& ~~~1#32

/-- `mfread` of a functional source: the value, and the state after the side effect (R162 to R176). -/
def readSource (src : FuncSource) (s : State) : Word × State :=
  match src with
  | .dc => (s.dc.setWidth 32, s)
  | .spcTop => (stackWord s, s)
  | .pdlPtr => (s.pdlPtr.setWidth 32, s)
  | .pdlIdx => (s.pdlIdx.setWidth 32, s)
  | .pdlAtIdx => (Memory.read s.pdl s.pdlIdx.toNat, s)
  | .opc => (s.opc, s)
  | .q => (s.q, s)
  | .vma => (s.vma, s)
  | .mapWord => (mapWord s, s)
  | .md => (s.md, s)
  | .lc => (lcSource s, s)
  | .spcPop => (stackWord s, (spcPop s).2)
  | .pdlPop => pdlPop s
  | .pdlTop => (pdlTop s, s)
  | .unknown => (0#32, s)

/-- The M operand (R160). -/
def readM (src : MSource) (s : State) : Word × State :=
  match src with
  | .mem k => (Memory.read s.mmem k.toNat, s)
  | .func i => readSource (funcSource i) s

/-- The A operand (R158). -/
def readA (a : BitVec 10) (s : State) : Word := Memory.read s.amem a.toNat

/-! ## Destinations -/

/-- What a functional destination of the VMA or MD group starts after its load, by the low two bits of its
index (R187, R188). -/
inductive Started where
  | nothing | read | write | map
  deriving DecidableEq, Repr

/-- The functional destinations by name (R181). -/
inductive FuncDest where
  | none | lc | icr | pdlAtPtr | pdlPush | pdlAtIdx | pdlIdx | pdlPtr | spcPush | oaLo | oaHi
  | vma (start : Started)
  | md (start : Started)
  | unknown
  deriving DecidableEq, Repr

/-- The functional destination of an index; 3 to 7, 0o24 to 0o27 and 0o34 to 0o37 have no entry
(R181, R184). -/
def funcDest (f : BitVec 5) : FuncDest :=
  match f.toNat with
  | 0o00 => .none
  | 0o01 => .lc
  | 0o02 => .icr
  | 0o10 => .pdlAtPtr
  | 0o11 => .pdlPush
  | 0o12 => .pdlAtIdx
  | 0o13 => .pdlIdx
  | 0o14 => .pdlPtr
  | 0o15 => .spcPush
  | 0o16 => .oaLo
  | 0o17 => .oaHi
  | 0o20 => .vma .nothing
  | 0o21 => .vma .read
  | 0o22 => .vma .write
  | 0o23 => .vma .map
  | 0o30 => .md .nothing
  | 0o31 => .md .read
  | 0o32 => .md .write
  | 0o33 => .md .map
  | _ => .unknown

/-- What is started, with `VMA` and `MD` as they stand after the load (R187, R188, R97). -/
def startAccess (start : Started) (s : State) : State :=
  match start with
  | .nothing => s
  | .read => issueRead s.vma s
  | .write => memWrite s.vma s.md s
  | .map => writeMap s

/-- `mfwrite` of a functional destination (R182 to R189). -/
def writeFunc (d : FuncDest) (v : Word) (s : State) : State :=
  match d with
  | .none => s
  | .lc => { s with lc := lcWord true (v.setWidth 26) }
  | .icr => { s with icr := v }
  | .pdlAtPtr => { s with pdl := Memory.write s.pdl s.pdlPtr.toNat v }
  | .pdlPush => pdlPush v s
  | .pdlAtIdx => { s with pdl := Memory.write s.pdl s.pdlIdx.toNat v }
  | .pdlIdx => { s with pdlIdx := v.setWidth 10 }
  | .pdlPtr => { s with pdlPtr := v.setWidth 10 }
  | .spcPush => spcPush v s
  | .oaLo => { s with oaLo := v.setWidth 26, oaLoV := true }
  | .oaHi => { s with oaHi := v.setWidth 22, oaHiV := true }
  | .vma start => startAccess start { s with vma := v }
  | .md start => startAccess start { s with md := v }
  | .unknown => s

/-- The address `dest & 0x7FF` of a direct A write, wrapped to 1024 words (R180; spec/00_scope.md R12). -/
def destAddr (addr : BitVec 11) : Nat := addr.toNat % 1024

/-- The functional destination of the bits `dest[10:5]`: the index is `(dest >> 5) & 0x1F`, so bit 10 is
dropped (R127). -/
def destFunc (index : BitVec 6) : FuncDest := funcDest (index.setWidth 5)

/-- `WriteDest(dest, v)` (R180). -/
def writeDest (d : Dest) (v : Word) (s : State) : State :=
  match d with
  | .amem addr => { s with amem := Memory.write s.amem (destAddr addr) v }
  | .func index m =>
    let s1 := writeFunc (destFunc index) v s
    { s1 with mmem := Memory.write s1.mmem m.toNat v, amem := Memory.write s1.amem m.toNat v }

/-! ## Positions and masks -/

/-- The formula for `LCPOS(u)` of the five bits `u[4:0]` (spec/45_lc_advance.md R341). -/
def lcPosFormula (low : BitVec 5) (s : State) : BitVec 5 :=
  let lc0 := s.lc.getLsbD 0
  let lc1 := s.lc.getLsbD 1
  if byteMode s then
    BitVec.ofBool (low.getLsbD 4 ^^ lc1 ^^ lc0) ++ BitVec.ofBool (low.getLsbD 3 ^^ lc0) ++ low.extractLsb' 0 3
  else BitVec.ofBool (low.getLsbD 4 ^^ lc1) ++ low.extractLsb' 0 4

/-- The eight bits that `LCPOS` reads: the mode, `LC[1:0]`, `u[4:0]`. -/
def lcPosIndex (low : BitVec 5) (s : State) : BitVec 8 :=
  BitVec.ofBool (byteMode s) ++ s.lc.extractLsb' 0 2 ++ low

/-- `LCPOS(u)`, a parameter whose default is the formula (R341; spec/00_scope.md R9). -/
def lcPos (low : BitVec 5) (s : State) : BitVec 5 :=
  match s.cfg.lcPosTable with
  | none => lcPosFormula low s
  | some t => t.getD (lcPosIndex low s).toNat 0#5

/-- `FieldMask(mpos, widthm1)`: the bits at or below the top of the field and at or above its lowest bit; the
top position wraps modulo 32 (spec/44_byte.md R326). -/
def fieldMask (mpos widthm1 : BitVec 5) : Word :=
  let left := mpos + widthm1
  (0xFFFFFFFF#32 >>> (31 - left.toNat)) &&& (0xFFFFFFFF#32 <<< mpos.toNat)

end Sys2Proof.Machine
end

