-- ==== Sys2Proof/Machine/AluUnit.lean ====
section
/-! DEFINITION. What every ALU instruction does with the function of its opcode (spec/41_alu.md R200). -/

namespace Sys2Proof.Machine

/-- `u[4:0]` of an ALU instruction: the low two bits of `aluop`, the carry-in, Q-control (R255). -/
def aluLow (aluop : BitVec 6) (cin : Bool) (c : QCtl) : BitVec 5 :=
  aluop.extractLsb' 0 2 ++ BitVec.ofBool cin ++ encodeQ c

/-- Q-control, out-control and the destination write with the result of an operation (R200); `m` is the
M operand, `s` the state after the operand reads. -/
def aluFinish (aluop : BitVec 6) (f : AluFields) (m : Word) (r : AluResult) (s : State) : State :=
  let bus := outControl f.out m r s.q (aluLow aluop f.cin f.qctl)
  writeDest f.dest bus { s with q := qControl f.qctl s.q r }

/-- The ALU instruction of opcode `aluop` and function `op` of `M`, `A`, the carry-in and `Q`: the operand
reads, the operation, Q-control, out-control, the destination, popj (R150 statements 6 to 8, R200). -/
def aluUnit (aluop : BitVec 6) (op : Word → Word → Bool → Word → AluResult) (f : AluFields) (s : State) :
    Result :=
  let a := readA f.a s
  let m := readM f.m s
  let r := op m.1 a f.cin m.2.q
  .next (popjIf f.popj (aluFinish aluop f m.1 r m.2))

end Sys2Proof.Machine
end

