-- ==== Sys2Proof/Machine/Arith.lean ====
section
/-! DEFINITION. The 16 arithmetic operations, `aluop` 0o20 to 0o37 (spec/41_alu.md R220 to R235): the exact integer of
each, reduced as R201 says. All ignore `Q`. -/

namespace Sys2Proof.Machine

/-- `ALU.M1`: `-1 + cin` (R220). -/
def execAluMinusOne (f : AluFields) (s : State) : Result :=
  aluUnit 0o20#6 (fun _ _ cin _ => .ofInt (-1 + carryIn cin)) f s

/-- `ALU.AND-1`: `(M & A) - 1 + cin` (R221). -/
def execAluAndMinusOne (f : AluFields) (s : State) : Result :=
  aluUnit 0o21#6 (fun m a cin _ => .ofInt (uint (m &&& a) - 1 + carryIn cin)) f s

/-- `ALU.ANDCA-1`: `(M & ~A) - 1 + cin` (R222). -/
def execAluAndcaMinusOne (f : AluFields) (s : State) : Result :=
  aluUnit 0o22#6 (fun m a cin _ => .ofInt (uint (m &&& ~~~a) - 1 + carryIn cin)) f s

/-- `ALU.M-1`: `M - 1 + cin` (R223). -/
def execAluMMinusOne (f : AluFields) (s : State) : Result :=
  aluUnit 0o23#6 (fun m _ cin _ => .ofInt (uint m - 1 + carryIn cin)) f s

/-- `ALU.ORCA+`: `(M | ~A) + cin` (R224). -/
def execAluOrcaPlus (f : AluFields) (s : State) : Result :=
  aluUnit 0o24#6 (fun m a cin _ => .ofInt (uint (m ||| ~~~a) + carryIn cin)) f s

/-- `ALU.ORCA+AND`: `(M | ~A) + (M & A) + cin` (R225). -/
def execAluOrcaPlusAnd (f : AluFields) (s : State) : Result :=
  aluUnit 0o25#6 (fun m a cin _ => .ofInt (uint (m ||| ~~~a) + uint (m &&& a) + carryIn cin)) f s

/-- `ALU.SUB`: `M - A - 1 + cin` (R226). -/
def execAluSub (f : AluFields) (s : State) : Result :=
  aluUnit 0o26#6 (fun m a cin _ => .ofInt (uint m - uint a - 1 + carryIn cin)) f s

/-- `ALU.ORCA+M`: `(M | ~A) + M + cin` (R227). -/
def execAluOrcaPlusM (f : AluFields) (s : State) : Result :=
  aluUnit 0o27#6 (fun m a cin _ => .ofInt (uint (m ||| ~~~a) + uint m + carryIn cin)) f s

/-- `ALU.IOR+`: `(M | A) + cin` (R228). -/
def execAluIorPlus (f : AluFields) (s : State) : Result :=
  aluUnit 0o30#6 (fun m a cin _ => .ofInt (uint (m ||| a) + carryIn cin)) f s

/-- `ALU.ADD`: `M + A + cin` (R229). -/
def execAluAdd (f : AluFields) (s : State) : Result :=
  aluUnit 0o31#6 (fun m a cin _ => .ofInt (uint m + uint a + carryIn cin)) f s

/-- `ALU.IOR+ANDCA`: `(M | A) + (M & ~A) + cin` (R230). -/
def execAluIorPlusAndca (f : AluFields) (s : State) : Result :=
  aluUnit 0o32#6 (fun m a cin _ => .ofInt (uint (m ||| a) + uint (m &&& ~~~a) + carryIn cin)) f s

/-- `ALU.IOR+M`: `(M | A) + M + cin` (R231). -/
def execAluIorPlusM (f : AluFields) (s : State) : Result :=
  aluUnit 0o33#6 (fun m a cin _ => .ofInt (uint (m ||| a) + uint m + carryIn cin)) f s

/-- `ALU.M+`: `M + cin` (R232). -/
def execAluMPlus (f : AluFields) (s : State) : Result :=
  aluUnit 0o34#6 (fun m _ cin _ => .ofInt (uint m + carryIn cin)) f s

/-- `ALU.M+AND`: `M + (M & A) + cin` (R233). -/
def execAluMPlusAnd (f : AluFields) (s : State) : Result :=
  aluUnit 0o35#6 (fun m a cin _ => .ofInt (uint m + uint (m &&& a) + carryIn cin)) f s

/-- `ALU.M+ORCA`: `M + (M | ~A) + cin` (R234). -/
def execAluMPlusOrca (f : AluFields) (s : State) : Result :=
  aluUnit 0o36#6 (fun m a cin _ => .ofInt (uint m + uint (m ||| ~~~a) + carryIn cin)) f s

/-- `ALU.M+M`: `M + M + cin` (R235). -/
def execAluMPlusM (f : AluFields) (s : State) : Result :=
  aluUnit 0o37#6 (fun m _ cin _ => .ofInt (uint m + uint m + carryIn cin)) f s

end Sys2Proof.Machine
end

