-- ==== Sys2Proof/Machine/ByteUnit.lean ====
section
/-! DEFINITION. The byte and field unit (spec/44_byte.md R320 to R327). -/

namespace Sys2Proof.Machine

/-- `M` inside the mask, `A` outside (R321). -/
def mergeField (mask m a : Word) : Word := (m &&& mask) ||| (a &&& ~~~mask)

/-- The byte unit and popj: the operand reads, the output of `M`, `A` and the state after the reads, the
destination write (R320, R321). -/
def byteUnit (output : Word → Word → State → Word) (f : ByteFields) (s : State) : Result :=
  let a := readA f.a s
  let m := readM f.m s
  .next (popjIf f.popj (writeDest f.dest (output m.1 a m.2) m.2))

/-- `BYTE.INVALID`: the output is 0, and it is written (R322). -/
def execByteInvalid (f : ByteFields) (s : State) : Result :=
  byteUnit (fun _ _ _ => 0#32) f s

/-- `BYTE.LDB`: `M` rotated, under a mask anchored at bit 0 (R323). -/
def execByteLdb (f : ByteFields) (s : State) : Result :=
  byteUnit (fun m a _ => mergeField (fieldMask 0#5 f.widthm1) (rotl32 m f.pos) a) f s

/-- `BYTE.SEL`: `M` not rotated, under the mask at `pos` (R324). -/
def execByteSel (f : ByteFields) (s : State) : Result :=
  byteUnit (fun m a _ => mergeField (fieldMask f.pos f.widthm1) m a) f s

/-- `BYTE.DPB`: `M` rotated by `LCPOS`, under the mask at `LCPOS` (R325). -/
def execByteDpb (f : ByteFields) (s : State) : Result :=
  byteUnit (fun m a t =>
    mergeField (fieldMask (lcPos f.pos t) f.widthm1) (rotl32 m (lcPos f.pos t)) a) f s

end Sys2Proof.Machine
end

