-- ==== Sys2Proof/Machine/DispatchUnit.lean ====
section
/-! DEFINITION. The dispatch unit (spec/42_dispatch.md R270 to R276). -/

namespace Sys2Proof.Machine

/-- The map bit: the frame bits 18 and 19 of the translation of `MD` that `map` selects, ORed (R272
statement 4). -/
def mapBit (map : BitVec 2) (s : State) : Bool :=
  let frame := (translateAddr s.md s).frame
  (map.getLsbD 0 && frame.getLsbD 18) || (map.getLsbD 1 && frame.getLsbD 19)

/-- The address of the lookup (R272 statements 3 to 5). -/
def dispatchAddr (f : DispatchFields) (pos : BitVec 5) (m : Word) (s : State) : BitVec 11 :=
  let mask : Word := (1#32 <<< f.len.toNat) - 1#32
  let daddr : Word := f.dispAddr.setWidth 32 ||| (rotl32 m pos &&& mask) ||| bitWord (mapBit f.map s)
  daddr.setWidth 11

/-- The transfer of a dispatch word whose P and R are not both set (R272 statements 11 to 13). -/
def dispatchTransfer (w : Word) (s : State) : State :=
  let s1 :=
    if w.getLsbD 15 then spcPush ((if w.getLsbD 14 then s.npc - 1 else s.npc).setWidth 32) s else s
  let r : BitVec 14 × State := if w.getLsbD 16 then popReturn s1 else (w.setWidth 14, s1)
  { r.2 with npc := r.1 }

/-- The dispatch with table word `w` (R272 statements 6 to 10): the dispatch constant, the decrement of
`n_plus1`, LC-advance, the inhibit flag. -/
def dispatchPrepare (f : DispatchFields) (w : Word) (s : State) : State :=
  let nd := w.getLsbD 14
  let s1 := { s with dc := f.dispConst }
  let s2 := if f.nPlus1 && nd then { s1 with npc := s1.npc - 1 } else s1
  let s3 := if f.enableIsh then (lcAdvance s2).1 else s2
  if nd then { s3 with inhibit := true } else s3

/-- The dispatch unit and popj (R272): `position` is the rotate count, from the state after the operand
reads. With P and R both set there is no transfer and popj is left as it is; else the popj flag is
cleared. -/
def dispatchUnit (position : State → BitVec 5) (f : DispatchFields) (s : State) : Result :=
  let m := readM f.m s
  let w := Memory.read m.2.dmem (dispatchAddr f (position m.2) m.1 m.2).toNat
  let s1 := dispatchPrepare f w m.2
  .next (if w.getLsbD 15 && w.getLsbD 16 then popjIf f.popj s1 else dispatchTransfer w s1)

/-- `DISPATCH` (R272); the sub-fields 0 and 1 are the same (R271). -/
def execDispatch (_sub0 : Bool) (f : DispatchFields) (s : State) : Result :=
  dispatchUnit (fun _ => f.pos) f s

/-- `DISPATCH.LC`: the position is `LCPOS` (R275). -/
def execDispatchLc (f : DispatchFields) (s : State) : Result :=
  dispatchUnit (fun t => lcPos f.pos t) f s

/-- `DISPATCH.LOAD`: the table load and nothing else; the operands have been read (R274). -/
def execDispatchLoad (f : LoadFields) (s : State) : Result :=
  let a := readA f.a s
  let m := readM f.m s
  .next (popjIf f.popj { m.2 with dmem := Memory.write m.2.dmem f.dispAddr.toNat a })

end Sys2Proof.Machine
end

