-- ==== Sys2Proof/Machine/JumpUnit.lean ====
section
/-! DEFINITION. The jump and subroutine unit (spec/43_jump.md R290 to R308). -/

namespace Sys2Proof.Machine

/-- Statement 1 of R291: sub-field 1 halts; 3 logs a warning, which is no state; 0 and 2 do nothing
(R303, R304). -/
def haltIf (sub : JumpSub) (s : State) : State :=
  if sub = .halt then { s with halted := true } else s

/-- A taken jump (R291 statements 5 to 7): the push or the pop, then the transfer and the inhibit flag. -/
def jumpTaken (f : JumpFields) (s : State) : State :=
  let r : BitVec 14 × State :=
    match f.link with
    | .none => (f.target, s)
    | .push => (f.target, spcPush ((if f.n then s.npc - 1 else s.npc).setWidth 32) s)
    | .pop => popReturn s
  { r.2 with npc := r.1, inhibit := s.inhibit || f.n }

/-- The jump unit and popj with a condition of `M`, `A` and the state after the operand reads (R291). A
taken jump clears the popj flag. -/
def jumpUnit (cond : Word → Word → State → Bool) (f : JumpFields) (s : State) : Result :=
  let a := readA f.a s
  let m := readM f.m s
  let s1 := haltIf f.sub m.2
  let c := cond m.1 a s1 ^^ f.inv
  .next (if c then jumpTaken f s1 else popjIf f.popj s1)

/-- `JUMP.BIT` (R293). -/
def execJumpBit (f : JumpFields) (rot : BitVec 5) (s : State) : Result :=
  jumpUnit (fun m _ _ => condBit rot m) f s

/-- `JUMP.C0`: unconditional-false (R295). -/
def execJumpC0 (f : JumpFields) (s : State) : Result :=
  jumpUnit (fun _ _ _ => false) f s

/-- `JUMP.C1`: `M < A` (R296). -/
def execJumpC1 (f : JumpFields) (s : State) : Result :=
  jumpUnit (fun m a _ => condLess m a) f s

/-- `JUMP.C2`: `M <= A` (R297). -/
def execJumpC2 (f : JumpFields) (s : State) : Result :=
  jumpUnit (fun m a _ => condLessEq m a) f s

/-- `JUMP.C3`: `M == A` (R298). -/
def execJumpC3 (f : JumpFields) (s : State) : Result :=
  jumpUnit (fun m a _ => m == a) f s

/-- `JUMP.C4`: the sticky page-fault flag (R299). -/
def execJumpC4 (f : JumpFields) (s : State) : Result :=
  jumpUnit (fun _ _ t => t.pageFault) f s

/-- `JUMP.C5`: page fault or pending interrupt (R300). -/
def execJumpC5 (f : JumpFields) (s : State) : Result :=
  jumpUnit (fun _ _ t => condFaultOrPending t) f s

/-- `JUMP.C6`: page fault, pending interrupt or sequence-break request (R301). -/
def execJumpC6 (f : JumpFields) (s : State) : Result :=
  jumpUnit (fun _ _ t => condFaultOrPendingOrSeqBreak t) f s

/-- `JUMP.C7`: unconditional-true (R302). -/
def execJumpC7 (f : JumpFields) (s : State) : Result :=
  jumpUnit (fun _ _ _ => true) f s

/-- `JUMP.WRIMEM`: the low 16 bits of `A` above `M` go to instruction memory at `target`, which wraps to the
size of the memory; popj is left as it is (R305). -/
def execJumpWrimem (f : WrimemFields) (s : State) : Result :=
  let a := readA f.a s
  let m := readM f.m s
  let s1 := haltIf f.sub m.2
  let word : MicroWord := a.setWidth 16 ++ m.1
  .next (popjIf f.popj { s1 with imem := Memory.write s1.imem (f.target.toNat % s.cfg.imemSize) word })

end Sys2Proof.Machine
end

