-- ==== Sys2Proof/Machine/Logic.lean ====
section
/-! DEFINITION. The 16 logic operations, `aluop` 0o00 to 0o17 (spec/41_alu.md R202 to R217). Each ignores the carry-in
and `Q` and has carry 0 (D10). -/

namespace Sys2Proof.Machine

/-- `ALU.SETZ`: `alu_out = 0` (R202). -/
def execAluSetz (f : AluFields) (s : State) : Result :=
  aluUnit 0o00#6 (fun _ _ _ _ => .logic 0#32) f s

/-- `ALU.AND`: `M & A` (R203). -/
def execAluAnd (f : AluFields) (s : State) : Result :=
  aluUnit 0o01#6 (fun m a _ _ => .logic (m &&& a)) f s

/-- `ALU.ANDCA`: `M & ~A` (R204). -/
def execAluAndca (f : AluFields) (s : State) : Result :=
  aluUnit 0o02#6 (fun m a _ _ => .logic (m &&& ~~~a)) f s

/-- `ALU.SETM`: `M` (R205). -/
def execAluSetm (f : AluFields) (s : State) : Result :=
  aluUnit 0o03#6 (fun m _ _ _ => .logic m) f s

/-- `ALU.ANDCM`: `~M & A` (R206). -/
def execAluAndcm (f : AluFields) (s : State) : Result :=
  aluUnit 0o04#6 (fun m a _ _ => .logic (~~~m &&& a)) f s

/-- `ALU.SETA`: `A` (R207). -/
def execAluSeta (f : AluFields) (s : State) : Result :=
  aluUnit 0o05#6 (fun _ a _ _ => .logic a) f s

/-- `ALU.XOR`: `M ^ A` (R208). -/
def execAluXor (f : AluFields) (s : State) : Result :=
  aluUnit 0o06#6 (fun m a _ _ => .logic (m ^^^ a)) f s

/-- `ALU.IOR`: `M | A` (R209). -/
def execAluIor (f : AluFields) (s : State) : Result :=
  aluUnit 0o07#6 (fun m a _ _ => .logic (m ||| a)) f s

/-- `ALU.ANDCB`: `~M & ~A` (R210). -/
def execAluAndcb (f : AluFields) (s : State) : Result :=
  aluUnit 0o10#6 (fun m a _ _ => .logic (~~~m &&& ~~~a)) f s

/-- `ALU.EQV`: 1 if `M == A`, else 0 (R211). -/
def execAluEqv (f : AluFields) (s : State) : Result :=
  aluUnit 0o11#6 (fun m a _ _ => .logic (bitWord (m == a))) f s

/-- `ALU.SETCA`: `~A` (R212). -/
def execAluSetca (f : AluFields) (s : State) : Result :=
  aluUnit 0o12#6 (fun _ a _ _ => .logic (~~~a)) f s

/-- `ALU.ORCA`: `M | ~A` (R213). -/
def execAluOrca (f : AluFields) (s : State) : Result :=
  aluUnit 0o13#6 (fun m a _ _ => .logic (m ||| ~~~a)) f s

/-- `ALU.SETCM`: `~M` (R214). -/
def execAluSetcm (f : AluFields) (s : State) : Result :=
  aluUnit 0o14#6 (fun m _ _ _ => .logic (~~~m)) f s

/-- `ALU.ORCM`: `~M | A` (R215). -/
def execAluOrcm (f : AluFields) (s : State) : Result :=
  aluUnit 0o15#6 (fun m a _ _ => .logic (~~~m ||| a)) f s

/-- `ALU.ORCB`: `~M | ~A` (R216). -/
def execAluOrcb (f : AluFields) (s : State) : Result :=
  aluUnit 0o16#6 (fun m a _ _ => .logic (~~~m ||| ~~~a)) f s

/-- `ALU.SETO`: `0xFFFFFFFF` (R217). -/
def execAluSeto (f : AluFields) (s : State) : Result :=
  aluUnit 0o17#6 (fun _ _ _ _ => .logic 0xFFFFFFFF#32) f s

end Sys2Proof.Machine
end

