-- ==== Sys2Proof/Machine/MulDiv.lean ====
section
/-! DEFINITION. The multiply and divide steps, `aluop` 0o40, 0o41, 0o45, 0o51 (spec/41_alu.md R240 to R243), and the
unassigned opcodes (R245). -/

namespace Sys2Proof.Machine

/-- `ALU.MULSTEP`: `Q[0] = 1` adds `A`; `Q[0] = 0` passes `M` with its sign as the carry (R240). -/
def execAluMulstep (f : AluFields) (s : State) : Result :=
  aluUnit 0o40#6 (fun m a _ q =>
    if q.getLsbD 0 then .ofInt (uint m + uint a) else { out := m, carry := m.getLsbD 31 }) f s

/-- `ALU.DIVSTEP`: `Q[0] = 1` subtracts `|A|`; `Q[0] = 0` adds it (R241). -/
def execAluDivstep (f : AluFields) (s : State) : Result :=
  aluUnit 0o41#6 (fun m a _ q =>
    if q.getLsbD 0 then .ofInt (uint m - magnitude a) else .ofInt (uint m + magnitude a)) f s

/-- `ALU.REMCORR`: `Q[0] = 1` passes `M` with carry 0; `Q[0] = 0` adds `|A|` (R242). -/
def execAluRemcorr (f : AluFields) (s : State) : Result :=
  aluUnit 0o45#6 (fun m a _ q =>
    if q.getLsbD 0 then { out := m, carry := false } else .ofInt (uint m + magnitude a)) f s

/-- `ALU.DIVFIRST`: `M - |A| - (1 - cin)` (R243). -/
def execAluDivfirst (f : AluFields) (s : State) : Result :=
  aluUnit 0o51#6 (fun m a cin _ => .ofInt (uint m - magnitude a - (1 - carryIn cin))) f s

/-- `ALU.UNDEF`: an unassigned opcode gives `alu_out = 0`, `alu_carry = 0`, and the rest of the instruction
proceeds (R245). -/
def execAluUndef (op : BitVec 6) (f : AluFields) (s : State) : Result :=
  aluUnit op (fun _ _ _ _ => .logic 0#32) f s

end Sys2Proof.Machine
end

