-- ==== Sys2Proof/Machine/Dispatch.lean ====
section
/-! DEFINITION. One arm per instruction: the executing state of a step, statements 6 to 8 of
spec/40_step_and_operands.md R150, of the instruction that the merged word decodes to. -/

namespace Sys2Proof.Machine

def exec (i : Instr) (s : State) : Host.Outcome State Fault Refusal :=
  match i with
  | .aluSetz f => Sys2Proof.Machine.execAluSetz f s
  | .aluAnd f => Sys2Proof.Machine.execAluAnd f s
  | .aluAndca f => Sys2Proof.Machine.execAluAndca f s
  | .aluSetm f => Sys2Proof.Machine.execAluSetm f s
  | .aluAndcm f => Sys2Proof.Machine.execAluAndcm f s
  | .aluSeta f => Sys2Proof.Machine.execAluSeta f s
  | .aluXor f => Sys2Proof.Machine.execAluXor f s
  | .aluIor f => Sys2Proof.Machine.execAluIor f s
  | .aluAndcb f => Sys2Proof.Machine.execAluAndcb f s
  | .aluEqv f => Sys2Proof.Machine.execAluEqv f s
  | .aluSetca f => Sys2Proof.Machine.execAluSetca f s
  | .aluOrca f => Sys2Proof.Machine.execAluOrca f s
  | .aluSetcm f => Sys2Proof.Machine.execAluSetcm f s
  | .aluOrcm f => Sys2Proof.Machine.execAluOrcm f s
  | .aluOrcb f => Sys2Proof.Machine.execAluOrcb f s
  | .aluSeto f => Sys2Proof.Machine.execAluSeto f s
  | .aluMinusOne f => Sys2Proof.Machine.execAluMinusOne f s
  | .aluAndMinusOne f => Sys2Proof.Machine.execAluAndMinusOne f s
  | .aluAndcaMinusOne f => Sys2Proof.Machine.execAluAndcaMinusOne f s
  | .aluMMinusOne f => Sys2Proof.Machine.execAluMMinusOne f s
  | .aluOrcaPlus f => Sys2Proof.Machine.execAluOrcaPlus f s
  | .aluOrcaPlusAnd f => Sys2Proof.Machine.execAluOrcaPlusAnd f s
  | .aluSub f => Sys2Proof.Machine.execAluSub f s
  | .aluOrcaPlusM f => Sys2Proof.Machine.execAluOrcaPlusM f s
  | .aluIorPlus f => Sys2Proof.Machine.execAluIorPlus f s
  | .aluAdd f => Sys2Proof.Machine.execAluAdd f s
  | .aluIorPlusAndca f => Sys2Proof.Machine.execAluIorPlusAndca f s
  | .aluIorPlusM f => Sys2Proof.Machine.execAluIorPlusM f s
  | .aluMPlus f => Sys2Proof.Machine.execAluMPlus f s
  | .aluMPlusAnd f => Sys2Proof.Machine.execAluMPlusAnd f s
  | .aluMPlusOrca f => Sys2Proof.Machine.execAluMPlusOrca f s
  | .aluMPlusM f => Sys2Proof.Machine.execAluMPlusM f s
  | .aluMulstep f => Sys2Proof.Machine.execAluMulstep f s
  | .aluDivstep f => Sys2Proof.Machine.execAluDivstep f s
  | .aluRemcorr f => Sys2Proof.Machine.execAluRemcorr f s
  | .aluDivfirst f => Sys2Proof.Machine.execAluDivfirst f s
  | .aluUndef op f => Sys2Proof.Machine.execAluUndef op f s
  | .jumpWrimem f => Sys2Proof.Machine.execJumpWrimem f s
  | .jumpBit f rot => Sys2Proof.Machine.execJumpBit f rot s
  | .jumpC0 f => Sys2Proof.Machine.execJumpC0 f s
  | .jumpC1 f => Sys2Proof.Machine.execJumpC1 f s
  | .jumpC2 f => Sys2Proof.Machine.execJumpC2 f s
  | .jumpC3 f => Sys2Proof.Machine.execJumpC3 f s
  | .jumpC4 f => Sys2Proof.Machine.execJumpC4 f s
  | .jumpC5 f => Sys2Proof.Machine.execJumpC5 f s
  | .jumpC6 f => Sys2Proof.Machine.execJumpC6 f s
  | .jumpC7 f => Sys2Proof.Machine.execJumpC7 f s
  | .dispatch sub0 f => Sys2Proof.Machine.execDispatch sub0 f s
  | .dispatchLoad f => Sys2Proof.Machine.execDispatchLoad f s
  | .dispatchLc f => Sys2Proof.Machine.execDispatchLc f s
  | .byteInvalid f => Sys2Proof.Machine.execByteInvalid f s
  | .byteLdb f => Sys2Proof.Machine.execByteLdb f s
  | .byteSel f => Sys2Proof.Machine.execByteSel f s
  | .byteDpb f => Sys2Proof.Machine.execByteDpb f s

end Sys2Proof.Machine
end

