-- ==== Sys2Proof/Machine/Fetch.lean ====
section
/-! DEFINITION. The fetching state of a step, statements 1 to 5 of spec/40_step_and_operands.md R150. -/

namespace Sys2Proof.Machine

/-- Arrival of a deferred read, at the very start of a step (spec/20_memory.md R96). -/
def arrive (s : State) : State :=
  match s.rdDelay with
  | 0 => s
  | 1 => { s with rdDelay := 0, md := s.rdValue }
  | 2 => { s with rdDelay := 1 }

/-- The word a fetch reads at an address: the PROM wraps to 512 words, instruction memory to its size
(R152; spec/00_scope.md R12). -/
def fetchWord (addr : BitVec 14) (s : State) : MicroWord :=
  if s.promEn then Memory.read s.prom (addr.toNat % 512) else Memory.read s.imem (addr.toNat % s.cfg.imemSize)

/-- `ShiftFetch()` (R152). -/
def shiftFetch (s : State) : State :=
  { s with p0 := s.p1, p0pc := s.p1pc, p1 := fetchWord s.npc s, p1pc := s.npc, npc := s.npc + 1 }

/-- The bubble: with `INHIBIT` set the flag is cleared and one more word is fetched, and the word in between
is discarded (R153). -/
def bubble (s : State) : State :=
  if s.inhibit then shiftFetch { s with inhibit := false } else s

/-- The word that executes: `P0` with the valid OA registers ORed in (R155). -/
def mergedWord (s : State) : MicroWord :=
  s.p0 ||| (if s.oaLoV then s.oaLo.setWidth 48 else 0#48) ||| (if s.oaHiV then s.oaHi.setWidth 48 <<< 26 else 0#48)

/-- The OA registers are cleared by being used (R150 statement 4). A register that is not valid keeps its
value. -/
def clearOa (s : State) : State :=
  { s with oaLo := if s.oaLoV then 0 else s.oaLo, oaLoV := false
           oaHi := if s.oaHiV then 0 else s.oaHi, oaHiV := false }

/-- The address of the executing word in the PC-history ring (R150 statement 5). -/
def recordPc (s : State) : State :=
  { s with pcHist := Ring.record s.cfg.pcHistN s.pcHist (s.p0pc.setWidth 32) }

/-- The machine with the word in `P0` that is about to execute (R150 statements 1 to 3). -/
def fetched (s : State) : State := bubble (shiftFetch (arrive s))

/-- The state in which the instruction executes (R150 statements 1 to 5). -/
def readyState (s : State) : State := recordPc (clearOa (fetched s))

/-- The instruction word of the next step (R150 statement 4). -/
def nextWord (s : State) : MicroWord := mergedWord (fetched s)

end Sys2Proof.Machine
end

