-- ==== Sys2Proof/Machine/Step.lean ====
section
/-! DEFINITION. One step of the engine (spec/40_step_and_operands.md R150). -/

namespace Sys2Proof.Machine

/-- One step: none when `HALTED = 1` (R15, R410); else the fetching state, and then the instruction that the
merged word decodes to. -/
def step (s : State) : Host.Outcome State Fault Refusal :=
  if s.halted then .fault .halted else exec (decode (nextWord s)) (readyState s)

/-- `s` with the word `w` of `nbits` bits where the next step takes the word it executes: `P1`, or, when a
bubble is due, the fetch store at `NPC`, and with no OA register waiting to be merged into it
(notes/assumptions/17). A halted machine stays halted. -/
def State.withFetchWord (s : State) (nbits w : Nat) : State :=
  let u : MicroWord := BitVec.ofNat 48 (w % 2 ^ nbits)
  let s1 := { s with oaLo := 0, oaLoV := false, oaHi := 0, oaHiV := false }
  if s.inhibit then
    if s.promEn then { s1 with prom := Memory.write s.prom (s.npc.toNat % 512) u }
    else { s1 with imem := Memory.write s.imem (s.npc.toNat % s.cfg.imemSize) u }
  else { s1 with p1 := u }

end Sys2Proof.Machine
end

