-- ==== Sys2Proof/Machine/Checkpoint.lean ====
section
/-! DEFINITION. The checkpoint codec and the PROM image loader, host operations between steps
(spec/46_checkpoint.md). -/

namespace Sys2Proof.Machine

/-! ## The container (R351, R352) -/

/-- A word of the checkpoint, the byte at the lowest offset first (R351). -/
def le32 (x : Word) : List Byte :=
  [x.extractLsb' 0 8, x.extractLsb' 8 8, x.extractLsb' 16 8, x.extractLsb' 24 8]

/-- The word of four bytes, the lowest first (R351). -/
def ofLe32 (b0 b1 b2 b3 : Byte) : Word := b3 ++ b2 ++ b1 ++ b0

/-! ## The segments (R353) -/

/-- The segments, in the order `Dump` writes them. -/
inductive Segment where
  | pdli | pdlp | lcnt | lchl | upcr | uspr | mdrg | vmar | opcr | oalo | oahi | imem | dmem | ustk
  | pchl | pdhl | l1mp | l2mp | pdlm | amem | mmem | pmem
  deriving DecidableEq, Repr

/-- Segments 1 to 22 (R353). -/
def allSegments : List Segment :=
  [.pdli, .pdlp, .lcnt, .lchl, .upcr, .uspr, .mdrg, .vmar, .opcr, .oalo, .oahi, .imem, .dmem, .ustk,
   .pchl, .pdhl, .l1mp, .l2mp, .pdlm, .amem, .mmem, .pmem]

/-- The tag of a segment, in file order (R353). -/
def segmentTag (c : Config) (g : Segment) : List Byte := c.ckptTags.getD (allSegments.idxOf g) []

/-- The `wordcount` of a segment (R353). -/
def segmentWords (c : Config) : Segment → Nat
  | .pdli | .pdlp | .lcnt | .upcr | .uspr | .mdrg | .vmar | .opcr | .oalo | .oahi => 1
  | .lchl => c.lcHistN
  | .imem => 2 * c.imemSize
  | .dmem => 2048
  | .ustk => 32
  | .pchl => c.pcHistN
  | .pdhl => c.pdlHistN
  | .l1mp => 2048
  | .l2mp => 1024
  | .pdlm => 1024
  | .amem => 1024
  | .mmem => 32
  | .pmem => c.savePages * pageWords

/-- Two payload words of an instruction word: the low 32 bits, then the high 16 (R357). -/
def microWordPair (u : MicroWord) : List Word := [u.setWidth 32, (u.extractLsb' 32 16).setWidth 32]

/-- The payload of a segment (R354 to R360). -/
def segmentPayload (g : Segment) (s : State) : List Word :=
  match g with
  | .pdli => [s.pdlIdx.setWidth 32]
  | .pdlp => [s.pdlPtr.setWidth 32]
  | .lcnt => [s.lc]
  | .lchl => Ring.oldestFirst s.cfg.lcHistN s.lcHist
  | .upcr => [s.npc.setWidth 32]
  | .uspr => [s.spcPtr.setWidth 32]
  | .mdrg => [s.md]
  | .vmar => [s.vma]
  | .opcr => [s.opc]
  | .oalo => [BitVec.ofBool s.oaLoV ++ 0#5 ++ s.oaLo]
  | .oahi => [BitVec.ofBool s.oaHiV ++ 0#9 ++ s.oaHi]
  | .imem => (Memory.words s.cfg.imemSize s.imem).flatMap microWordPair
  | .dmem => Memory.words 2048 s.dmem
  | .ustk => Memory.words 32 s.spc
  | .pchl => Ring.oldestFirst s.cfg.pcHistN s.pcHist
  | .pdhl => Ring.oldestFirst s.cfg.pdlHistN s.pdlHist
  | .l1mp => Memory.words 2048 s.l1
  | .l2mp => Memory.words 1024 s.l2
  | .pdlm => Memory.words 1024 s.pdl
  | .amem => Memory.words 1024 s.amem
  | .mmem => Memory.words 32 s.mmem
  | .pmem => Memory.words (s.cfg.savePages * pageWords) s.pmem

/-! ## Dump (R350, R361) -/

/-- A segment of the file: tag, word count, payload (R351). -/
def segmentBytes (tag : List Byte) (payload : List Word) : List Byte :=
  tag ++ le32 (BitVec.ofNat 32 payload.length) ++ payload.flatMap le32

/-- `Dump()`: magic, version, segments 1 to 22, the EOF segment; it changes no state (R350, R361). -/
def dump (s : State) : List Byte :=
  s.cfg.ckptMagic ++ le32 s.cfg.ckptVersion
    ++ allSegments.flatMap (fun g => segmentBytes (segmentTag s.cfg g) (segmentPayload g s))
    ++ segmentBytes (eofTag s.cfg) []

/-! ## Restore (R367 to R370) -/

/-- The words of a payload; bytes that fill no word are dropped (R351). -/
def wordsOfBytes : List Byte → List Word
  | b0 :: b1 :: b2 :: b3 :: rest => ofLe32 b0 b1 b2 b3 :: wordsOfBytes rest
  | _ => []

/-- The instruction words of a payload, low word first; the high word of a pair is truncated to 16 bits
(R357, R369). -/
def microWordsOfWords : List Word → List MicroWord
  | lo :: hi :: rest => (hi.setWidth 16 ++ lo) :: microWordsOfWords rest
  | _ => []

/-- The segments of a file, from offset 8 to the EOF tag; none if the file ends first (R367 statement 4).
`fuel` bounds the number of segments; the length of the file is enough. -/
def scanSegments (c : Config) : (fuel : Nat) → List Byte → Option (List (List Byte × List Word))
  | 0, _ => none
  | fuel + 1, t0 :: t1 :: t2 :: t3 :: c0 :: c1 :: c2 :: c3 :: rest =>
      let tag := [t0, t1, t2, t3]
      let count := (ofLe32 c0 c1 c2 c3).toNat
      if tag = eofTag c then (if count = 0 then some [] else none)
      else if rest.length < 4 * count then none
      else
        (scanSegments c fuel (rest.drop (4 * count))).map
          ((tag, wordsOfBytes (rest.take (4 * count))) :: ·)
  | _, _ => none

/-- The segment of a tag; an unknown tag has none (R367 statement 5). -/
def segmentOfTag (c : Config) (tag : List Byte) : Option Segment :=
  allSegments.find? (fun g => segmentTag c g == tag)

/-- A known tag has the word count of R353 (R367 statement 4). -/
def segmentSound (c : Config) (seg : List Byte × List Word) : Bool :=
  match segmentOfTag c seg.1 with
  | some g => seg.2.length == segmentWords c g
  | none => true

/-- Load one word of a payload that has one (R369). -/
def firstWord (ws : List Word) : Word := ws.headD 0#32

/-- The pages of a machine after pages 0 to `SAVE_PAGES - 1` have been created (R369). -/
def pagesAfterRestore (savePages : Nat) (pages : Memory 1) : Memory 1 :=
  Memory.ofWords 0 (List.replicate savePages 1#1) ++ pages.filter (fun c => savePages ≤ c.1)

/-- Load a segment: the inverse of the dump of it, every value truncated to its register (R369). Pages that
the file does not cover are left as they are. -/
def loadSegment (g : Segment) (ws : List Word) (s : State) : State :=
  let w := firstWord ws
  match g with
  | .pdli => { s with pdlIdx := w.setWidth 10 }
  | .pdlp => { s with pdlPtr := w.setWidth 10 }
  | .lcnt => { s with lc := lcWord (w.getLsbD 31) (w.setWidth 26) }
  | .lchl => { s with lcHist := Ring.ofWords ws }
  | .upcr => { s with npc := w.setWidth 14 }
  | .uspr => { s with spcPtr := w.setWidth 5 }
  | .mdrg => { s with md := w }
  | .vmar => { s with vma := w }
  | .opcr => { s with opc := w }
  | .oalo => { s with oaLo := w.setWidth 26, oaLoV := w.getLsbD 31 }
  | .oahi => { s with oaHi := w.setWidth 22, oaHiV := w.getLsbD 31 }
  | .imem => { s with imem := Memory.ofWords 0 (microWordsOfWords ws) }
  | .dmem => { s with dmem := Memory.ofWords 0 ws }
  | .ustk => { s with spc := Memory.ofWords 0 ws }
  | .pchl => { s with pcHist := Ring.ofWords ws }
  | .pdhl => { s with pdlHist := Ring.ofWords ws }
  | .l1mp => { s with l1 := Memory.ofWords 0 ws }
  | .l2mp => { s with l2 := Memory.ofWords 0 ws }
  | .pdlm => { s with pdl := Memory.ofWords 0 ws }
  | .amem => { s with amem := Memory.ofWords 0 ws }
  | .mmem => { s with mmem := Memory.ofWords 0 ws }
  | .pmem =>
      { s with
        pmem := Memory.ofWords 0 ws ++ s.pmem.filter (fun c => s.cfg.savePages * pageWords ≤ c.1)
        pages := pagesAfterRestore s.cfg.savePages s.pages }

/-- Statement 5 for one segment: load it if its tag is known, else skip it (R367). -/
def loadTagged (s : State) (seg : List Byte × List Word) : State :=
  match segmentOfTag s.cfg seg.1 with
  | some g => loadSegment g seg.2 s
  | none => s

/-- The segments of a sound file: magic, version and every segment have been checked (R367 statements 3
and 4). -/
def soundSegments (c : Config) (bytes : List Byte) : Option (List (List Byte × List Word)) :=
  if bytes.take 8 = c.ckptMagic ++ le32 c.ckptVersion then
    match scanSegments c bytes.length (bytes.drop 8) with
    | some segs =>
      if segs.all (segmentSound c) && segs.any (fun seg => segmentOfTag c seg.1 == some .pmem) then some segs
      else none
    | none => none
  else none

/-- `Restore`: a file that cannot be opened is `none` (R367). It is idempotent (R368), and a file that is
not sound changes nothing (R370). -/
def restore (file : Option (List Byte)) (s : State) : State :=
  if s.restored then s
  else
    match file with
    | none => s
    | some bytes =>
      match soundSegments s.cfg bytes with
      | none => s
      | some segs => { segs.foldl loadTagged s with restored := true }

/-! ## The PROM image (R375) -/

/-- A header word, "PDP (middle) endian" (R375). -/
def me32 (b0 b1 b2 b3 : Byte) : Word := le16 b0 b1 ++ le16 b2 b3

/-- Place `count` instructions of the image from address `addr` on; an image longer than the PROM wraps. None
if the image ends first. -/
def placeProm : (count : Nat) → (addr : Nat) → List Byte → Memory 48 → Option (Memory 48)
  | 0, _, _, prom => some prom
  | count + 1, addr, bytes, prom =>
    match microWordOfBytes bytes with
    | .ok (u, rest) => placeProm count (addr + 1) rest (Memory.write prom (addr % 512) u)
    | .error _ => none

/-- `LoadProm(bytes)`: three header words, then the instructions; none if the bytes do not hold what the
header says (R375; notes/assumptions/15). -/
def loadProm (bytes : List Byte) (s : State) : Option State :=
  match bytes with
  | _ :: _ :: _ :: _ :: a0 :: a1 :: a2 :: a3 :: n0 :: n1 :: n2 :: n3 :: rest =>
    (placeProm (me32 n0 n1 n2 n3).toNat (me32 a0 a1 a2 a3).toNat rest s.prom).map
      (fun prom => { s with prom := prom })
  | _ => none

end Sys2Proof.Machine
end

