-- ==== Sys2Proof/Machine/System.lean ====
section
/-! DEFINITION. The three agents of spec/00_scope.md R7: the engine's step, the environment's calls of the
interrupt controller, the host's operations, each a whole action between which nothing else happens
(spec/40_step_and_operands.md R151; spec/60_exceptions.md R403; spec/46_checkpoint.md R350). -/

namespace Sys2Proof.Machine

/-- The host's explicit halt request, between steps (R410). -/
def haltRequest (s : State) : State := { s with halted := true }

/-- The reset state of a machine with a configuration (R420, R422 statement 1). -/
def resetWith (c : Config) : State := { State.reset with cfg := c }

/-- What an agent does next. `Dump` is no action: it changes no state (R350). -/
inductive Action where
  /-- The engine takes a step (R150). -/
  | step
  /-- The environment's four calls (R390 to R393). -/
  | assertUnibus (vector : Word)
  | deassertUnibus
  | assertXbus
  | deassertXbus
  /-- The host's requests (R410, R367, R375, R420). -/
  | haltRequest
  | restore (file : Option (List Byte))
  | loadProm (image : List Byte)
  | reset
  deriving DecidableEq, Repr

/-- One action. -/
def act (a : Action) (s : State) : Result :=
  match a with
  | .step => step s
  | .assertUnibus v => .next (assertUnibus v s)
  | .deassertUnibus => .next (deassertUnibus s)
  | .assertXbus => .next (assertXbus s)
  | .deassertXbus => .next (deassertXbus s)
  | .haltRequest => .next (haltRequest s)
  | .restore file => .next (restore file s)
  | .loadProm image =>
    match loadProm image s with
    | some t => .next t
    | none => .refused .promUnreadable
  | .reset => .next (resetWith s.cfg)

/-- A finite sequence of actions, stopping at the first that gives no next state. -/
def acts : List Action → State → Result
  | [], s => .next s
  | a :: rest, s =>
    match act a s with
    | .next t => acts rest t
    | .fault r => .fault r
    | .refused r => .refused r

/-- The host's start with a configuration: the reset state, the PROM image (fatal if it cannot be loaded),
optionally a restore (spec/70_reset_and_hazards.md R422). -/
def boot (c : Config) (image : List Byte) (checkpoint : Option (List Byte)) : Result :=
  match loadProm image (resetWith c) with
  | some s => .next (restore checkpoint s)
  | none => .refused .promUnreadable

end Sys2Proof.Machine
end

