-- ==== Sys2Proof/Safety.lean ====
section
/-! DEFINITION. What a good state is, and what the agents can reach. -/

namespace Sys2Proof.Machine

/-- A memory is in canonical form and lists no address at or above its capacity. -/
def Memory.good {w : Nat} (cap : Nat) (m : Memory w) : Bool := Memory.wf m && Memory.below cap m

/-- A ring of capacity `cap` is good: its head and its slots are below its capacity; a ring of capacity 0
has its head at 0 and holds nothing (R62). -/
def Ring.good (cap : Nat) (r : Ring) : Bool :=
  (r.head == 0 || r.head < cap) && Memory.good cap r.slots

/-- The bits of the interrupt status register that some rule can set (R45): the two present bits, the
vector, the writable bits. -/
def intstatBits (c : Config) : Word := c.isUbPresent ||| c.isXbPresent ||| c.isVector ||| c.isWritable

/-- The invariant of the machine: the configuration is one the rules allow (R9), every memory is in canonical form
within its capacity (R8), a listed word of physical memory stands in a page that exists (R47), bits 30:26 of `LC`
are 0 (R38), the bits of `INTSTAT` that no rule sets are 0 (R45), the rings are good (R62). -/
structure Inv (s : State) : Prop where
  cfg     : configOk s.cfg = true
  amem    : Memory.good 1024 s.amem = true
  mmem    : Memory.good 32 s.mmem = true
  spc     : Memory.good 32 s.spc = true
  pdl     : Memory.good 1024 s.pdl = true
  dmem    : Memory.good 2048 s.dmem = true
  imem    : Memory.good s.cfg.imemSize s.imem = true
  prom    : Memory.good 512 s.prom = true
  l1      : Memory.good 2048 s.l1 = true
  l2      : Memory.good 1024 s.l2 = true
  pmem    : Memory.good (s.cfg.ramPages * pageWords) s.pmem = true
  pages   : Memory.good s.cfg.ramPages s.pages = true
  created : s.pmem.all (fun c => Memory.read s.pages (c.1 / pageWords) == 1#1) = true
  lc      : s.lc.extractLsb' 26 5 = 0#5
  intstat : s.intstat &&& ~~~intstatBits s.cfg = 0#32
  lcHist  : Ring.good s.cfg.lcHistN s.lcHist = true
  pcHist  : Ring.good s.cfg.pcHistN s.pcHist = true
  pdlHist : Ring.good s.cfg.pdlHistN s.pdlHist = true

/-- The machine can take a step from `s` (R410). -/
def Running (s : State) : Prop := s.halted = false

/-- The states that the agents can bring about from `s`. -/
inductive Reaches : State → State → Prop where
  | here (s : State) : Reaches s s
  | next {s t u : State} (a : Action) : Reaches s t → act a t = .next u → Reaches s u

end Sys2Proof.Machine
end

