-- ==== Sys2Proof/Certificates/Slice0/Obligations.lean ====
section
/-! DEFINITION. The statements for the provers. The first part, `Sys2Proof.Reading`, reads the spec's
rules a second time, in other terms than the machine does: bits and integers instead of masks and shifts,
and which operand fields an instruction has. The statements follow. A statement whose rules carry a decision
of the spec ("[decision: see ...]") or a derivation of it says in its docstring which. -/

namespace Sys2Proof.Reading

open Sys2Proof.Machine

/-! ## Which fields an instruction has -/

/-- The opcode and the fields of an ALU instruction. -/
def aluPart : Instr → Option (BitVec 6 × AluFields)
  | .aluSetz f => some (0o00#6, f)
  | .aluAnd f => some (0o01#6, f)
  | .aluAndca f => some (0o02#6, f)
  | .aluSetm f => some (0o03#6, f)
  | .aluAndcm f => some (0o04#6, f)
  | .aluSeta f => some (0o05#6, f)
  | .aluXor f => some (0o06#6, f)
  | .aluIor f => some (0o07#6, f)
  | .aluAndcb f => some (0o10#6, f)
  | .aluEqv f => some (0o11#6, f)
  | .aluSetca f => some (0o12#6, f)
  | .aluOrca f => some (0o13#6, f)
  | .aluSetcm f => some (0o14#6, f)
  | .aluOrcm f => some (0o15#6, f)
  | .aluOrcb f => some (0o16#6, f)
  | .aluSeto f => some (0o17#6, f)
  | .aluMinusOne f => some (0o20#6, f)
  | .aluAndMinusOne f => some (0o21#6, f)
  | .aluAndcaMinusOne f => some (0o22#6, f)
  | .aluMMinusOne f => some (0o23#6, f)
  | .aluOrcaPlus f => some (0o24#6, f)
  | .aluOrcaPlusAnd f => some (0o25#6, f)
  | .aluSub f => some (0o26#6, f)
  | .aluOrcaPlusM f => some (0o27#6, f)
  | .aluIorPlus f => some (0o30#6, f)
  | .aluAdd f => some (0o31#6, f)
  | .aluIorPlusAndca f => some (0o32#6, f)
  | .aluIorPlusM f => some (0o33#6, f)
  | .aluMPlus f => some (0o34#6, f)
  | .aluMPlusAnd f => some (0o35#6, f)
  | .aluMPlusOrca f => some (0o36#6, f)
  | .aluMPlusM f => some (0o37#6, f)
  | .aluMulstep f => some (0o40#6, f)
  | .aluDivstep f => some (0o41#6, f)
  | .aluRemcorr f => some (0o45#6, f)
  | .aluDivfirst f => some (0o51#6, f)
  | .aluUndef op f => some (op, f)
  | _ => none

/-- The fields of a byte instruction. -/
def bytePart : Instr → Option ByteFields
  | .byteInvalid f | .byteLdb f | .byteSel f | .byteDpb f => some f
  | _ => none

/-- The fields of a jump other than the instruction-memory write. -/
def jumpPart : Instr → Option JumpFields
  | .jumpBit f _ | .jumpC0 f | .jumpC1 f | .jumpC2 f | .jumpC3 f | .jumpC4 f | .jumpC5 f | .jumpC6 f
  | .jumpC7 f => some f
  | _ => none

/-- The fields of a dispatch other than the table load. -/
def dispatchPart : Instr → Option DispatchFields
  | .dispatch _ f | .dispatchLc f => some f
  | _ => none

/-- The sub-field of a jump, of either form. -/
def jumpSub : Instr → Option JumpSub
  | .jumpWrimem f => some f.sub
  | i => (jumpPart i).map (fun f => f.sub)

/-- The destination of an ALU or byte instruction. -/
def destination (i : Instr) : Option Dest :=
  match aluPart i, bytePart i with
  | some (_, f), _ => some f.dest
  | none, some f => some f.dest
  | none, none => none

/-- The M operand. -/
def mOperand (i : Instr) : MSource :=
  match i with
  | .jumpWrimem f => f.m
  | .dispatchLoad f => f.m
  | _ =>
    match aluPart i, bytePart i, jumpPart i, dispatchPart i with
    | some (_, f), _, _, _ => f.m
    | _, some f, _, _ => f.m
    | _, _, some f, _ => f.m
    | _, _, _, some f => f.m
    | _, _, _, _ => .mem 0#5

/-- The popj bit. -/
def popjBit (i : Instr) : Bool :=
  match i with
  | .jumpWrimem f => f.popj
  | .dispatchLoad f => f.popj
  | _ =>
    match aluPart i, bytePart i, jumpPart i, dispatchPart i with
    | some (_, f), _, _, _ => f.popj
    | _, some f, _, _ => f.popj
    | _, _, some f, _ => f.popj
    | _, _, _, some f => f.popj
    | _, _, _, _ => false

/-! ## The encoding (R121 to R127, R305, R274) -/

/-- The bits of a word that some field of its form covers. -/
def usedBits (u : MicroWord) : MicroWord :=
  if u.extractLsb' 43 2 = 0#2 then 0x1FFFFFFFF1FF#48
  else if u.extractLsb' 43 2 = 1#2 then
    if u.extractLsb' 8 2 = 3#2 then 0x1FFFFFFFFF00#48
    else if u.getLsbD 5 then 0x1FFFFFFFFFE7#48 else 0x1FFFFFFFFFFF#48
  else if u.extractLsb' 43 2 = 2#2 then
    if u.extractLsb' 10 2 = 2#2 then 0x1FFFFC7FFC00#48 else 0x1FFFFF7FFFFF#48
  else 0x1FFFFFFFF3FF#48

/-! ## The fetching state (R96, R152, R153, R155) -/

/-- The word at an instruction address. -/
def wordAt (s : State) (a : BitVec 14) : MicroWord :=
  if s.promEn then Memory.read s.prom (a.toNat % 512) else Memory.read s.imem (a.toNat % s.cfg.imemSize)

/-- What a record leaves in a ring of capacity `n`: the entry in the slot at the head, and the head on the next
slot; a ring of capacity 0 holds nothing (R62). -/
def recorded (n : Nat) (r : Ring) (x : Word) : Ring :=
  match n with
  | 0 => r
  | k + 1 => ⟨(r.head + 1) % (k + 1), Memory.write r.slots r.head x⟩

/-- One fetch. -/
def fetchOnce (s : State) : State :=
  { s with p0 := s.p1, p0pc := s.p1pc, p1 := wordAt s s.npc, p1pc := s.npc, npc := s.npc + 1 }

/-- The instruction itself starts a read: it leaves one pending even where none was pending before, and `x` is
the data of that read (R95). -/
def startsRead (i : Instr) (s : State) (x : Word) : Prop :=
  ∃ u, exec i { s with rdDelay := 0 } = .next u ∧ u.rdDelay = 2 ∧ u.rdValue = x

/-- The state after the arrival of a deferred read. -/
def afterArrival (s : State) : State :=
  if s.rdDelay = 2 then { s with rdDelay := 1 }
  else if s.rdDelay = 1 then { s with rdDelay := 0, md := s.rdValue }
  else s

/-! ## The ALU (R200, R250 to R258) -/

/-- The new `Q`, in bits: a shift drops one bit and takes one in. -/
def newQ (c : QCtl) (q out : Word) (carry : Bool) : Word :=
  match c with
  | .keep => q
  | .shiftLeft => q.extractLsb' 0 31 ++ BitVec.ofBool (!out.getLsbD 31)
  | .shiftRight => BitVec.ofBool carry ++ q.extractLsb' 1 31
  | .load => out

/-- The word on the output bus, in bits; `low` is `u[4:0]`. -/
def busWord (c : OutCtl) (m out : Word) (carry : Bool) (q : Word) (low : BitVec 5) : Word :=
  match c with
  | .rotatedM => m.rotateLeft low.toNat
  | .aluOut => out
  | .shiftRight => BitVec.ofBool carry ++ out.extractLsb' 1 31
  | .shiftLeft => out.extractLsb' 0 31 ++ BitVec.ofBool (q.getLsbD 31)

/-- The whole effect of an ALU instruction whose operation gives `out` and `carry`: both modifiers, the
destination write, then popj. -/
def aluNext (op : BitVec 6) (f : AluFields) (out : Word) (carry : Bool) (s : State) : State :=
  let m := readM f.m s
  let bus := busWord f.out m.1 out carry m.2.q ((encodeAlu op f).extractLsb' 0 5)
  popjIf f.popj (writeDest f.dest bus { m.2 with q := newQ f.qctl m.2.q out carry })

/-- The bitwise logic operations, each with what it does to one bit of M and one of A (R202 to R217). -/
def logicRows : List ((AluFields → Instr) × BitVec 6 × (Bool → Bool → Bool)) :=
  [(.aluSetz, 0o00#6, fun _ _ => false),
   (.aluAnd, 0o01#6, fun m a => m && a),
   (.aluAndca, 0o02#6, fun m a => m && !a),
   (.aluSetm, 0o03#6, fun m _ => m),
   (.aluAndcm, 0o04#6, fun m a => !m && a),
   (.aluSeta, 0o05#6, fun _ a => a),
   (.aluXor, 0o06#6, fun m a => m != a),
   (.aluIor, 0o07#6, fun m a => m || a),
   (.aluAndcb, 0o10#6, fun m a => !m && !a),
   (.aluSetca, 0o12#6, fun _ a => !a),
   (.aluOrca, 0o13#6, fun m a => m || !a),
   (.aluSetcm, 0o14#6, fun m _ => !m),
   (.aluOrcm, 0o15#6, fun m a => !m || a),
   (.aluOrcb, 0o16#6, fun m a => !m || !a),
   (.aluSeto, 0o17#6, fun _ _ => true)]

/-- A word as a natural number inside the integers. -/
def nat (x : Word) : Int := x.toNat

/-- `~A` as the integer R201 gives it. -/
def comp (a : Word) : Word := BitVec.ofNat 32 (2 ^ 32 - 1 - a.toNat)

/-- The arithmetic operations, each with the integer it computes from M, A and the carry-in
(R220 to R235). -/
def arithRows : List ((AluFields → Instr) × BitVec 6 × (Word → Word → Int → Int)) :=
  [(.aluMinusOne, 0o20#6, fun _ _ c => -1 + c),
   (.aluAndMinusOne, 0o21#6, fun m a c => nat (m &&& a) - 1 + c),
   (.aluAndcaMinusOne, 0o22#6, fun m a c => nat (m &&& comp a) - 1 + c),
   (.aluMMinusOne, 0o23#6, fun m _ c => nat m - 1 + c),
   (.aluOrcaPlus, 0o24#6, fun m a c => nat (m ||| comp a) + c),
   (.aluOrcaPlusAnd, 0o25#6, fun m a c => nat (m ||| comp a) + nat (m &&& a) + c),
   (.aluSub, 0o26#6, fun m a c => nat m - nat a - 1 + c),
   (.aluOrcaPlusM, 0o27#6, fun m a c => nat (m ||| comp a) + nat m + c),
   (.aluIorPlus, 0o30#6, fun m a c => nat (m ||| a) + c),
   (.aluAdd, 0o31#6, fun m a c => nat m + nat a + c),
   (.aluIorPlusAndca, 0o32#6, fun m a c => nat (m ||| a) + nat (m &&& comp a) + c),
   (.aluIorPlusM, 0o33#6, fun m a c => nat (m ||| a) + nat m + c),
   (.aluMPlus, 0o34#6, fun m _ c => nat m + c),
   (.aluMPlusAnd, 0o35#6, fun m a c => nat m + nat (m &&& a) + c),
   (.aluMPlusOrca, 0o36#6, fun m a c => nat m + nat (m ||| comp a) + c),
   (.aluMPlusM, 0o37#6, fun m _ c => nat m + nat m + c)]

/-- The low 32 bits of the residue of `r` modulo `2^33` (R201). -/
def low32 (r : Int) : Word := BitVec.ofNat 32 (r % 2 ^ 33).toNat

/-- Bit 32 of the residue of `r` modulo `2^33` (R201). -/
def bit32 (r : Int) : Bool := decide (2 ^ 32 ≤ r % 2 ^ 33)

/-- The magnitude of A read as two's complement (R201). -/
def mag (a : Word) : Int := a.toInt.natAbs

/-! ## The byte unit -/

/-- The whole effect of a byte instruction that puts out `out`. -/
def byteNext (f : ByteFields) (out : Word) (s : State) : State :=
  popjIf f.popj (writeDest f.dest out (readM f.m s).2)

/-! ## The jump unit -/

/-- Some bit of the mask is set in the word. -/
def anyBit (x mask : Word) : Prop := ∃ k < 32, x.getLsbD k = true ∧ mask.getLsbD k = true

/-- An interrupt is present: one of the two present bits of the status register is set (R394). -/
def interruptPresent (s : State) : Prop :=
  anyBit s.intstat s.cfg.isUbPresent ∨ anyBit s.intstat s.cfg.isXbPresent

/-- The jumps, each with its condition before the inversion (R293 to R302); the signedness of conditions 1
and 2 is the open parameter. -/
def jumpRows (rot : BitVec 5) : List ((JumpFields → Instr) × (Word → Word → State → Prop)) :=
  [(fun f => .jumpBit f rot, fun m _ _ => m.getLsbD ((32 - rot.toNat) % 32) = true),
   (.jumpC0, fun _ _ _ => False),
   (.jumpC1, fun m a _ => if Config.jumpCmpSigned = true then m.toInt < a.toInt else m.toNat < a.toNat),
   (.jumpC2, fun m a _ => if Config.jumpCmpSigned = true then m.toInt ≤ a.toInt else m.toNat ≤ a.toNat),
   (.jumpC3, fun m a _ => m = a),
   (.jumpC4, fun _ _ s => s.pageFault = true),
   (.jumpC5, fun _ _ s => s.pageFault = true ∨ interruptPresent s),
   (.jumpC6, fun _ _ s => s.pageFault = true ∨ interruptPresent s ∨ s.icr.getLsbD 26 = true),
   (.jumpC7, fun _ _ _ => True)]

/-- The state after the operand reads of a jump and after its halt. -/
def jumpReady (f : JumpFields) (s : State) : State :=
  { (readM f.m s).2 with halted := (readM f.m s).2.halted || decide (f.sub = .halt) }

/-- The address a call saves. -/
def savedAddress (n : Bool) (npc : BitVec 14) : Word := 0#18 ++ (if n then npc - 1 else npc)

/-! ## Stack returns and the location counter -/

/-- What `LC` becomes when it advances (R336, R337), as a number. -/
def advancedLc (s : State) : Nat :=
  let new := (s.lc.toNat % 2 ^ 26 + (if s.icr.getLsbD 29 then 1 else 2)) % 2 ^ 26
  let fetchNext : Bool := if s.icr.getLsbD 29 then decide (new % 4 = 0) else decide (new % 4 < 2)
  (if fetchNext then 2 ^ 31 else 0) + new

/-- LC-advance (R336): the read it starts and the record of the old LC register (D51, notes/assumptions/22), if the
need-fetch bit is set, and the counter. -/
def advanced (s : State) : State :=
  if s.lc.getLsbD 31 then
    let v : Word := BitVec.ofNat 32 (s.lc.toNat % 2 ^ 26 / 4)
    { issueRead v { s with vma := v } with
      lc := BitVec.ofNat 32 (advancedLc s)
      lcHist := recorded s.cfg.lcHistN s.lcHist s.lc }
  else { s with lc := BitVec.ofNat 32 (advancedLc s) }

/-- The state after a return, and the address returned to (R190, R306, R338). -/
def returned (s : State) : BitVec 14 × State :=
  let top := Memory.read s.spc s.spcPtr.toNat
  let t := { s with spcPtr := s.spcPtr - 1 }
  if top.getLsbD 14 then
    ((if s.lc.getLsbD 31 then top else top ||| 2#32).extractLsb' 0 14, advanced t)
  else (top.extractLsb' 0 14, t)

/-! ## The dispatch unit -/

/-- A dispatch with the lookup position `pos` (R272). -/
def dispatchNext (pos : BitVec 5) (f : DispatchFields) (s : State) : State :=
  let m := readM f.m s
  let w := Memory.read m.2.dmem (dispatchAddr f pos m.1 m.2).toNat
  let n := w.getLsbD 14
  let b := { m.2 with dc := f.dispConst, npc := if f.nPlus1 && n then m.2.npc - 1 else m.2.npc }
  let c := if f.enableIsh then advanced b else b
  let d := { c with inhibit := c.inhibit || n }
  match w.getLsbD 16, w.getLsbD 15 with
  | true, true => popjIf f.popj d
  | false, false => { d with npc := w.extractLsb' 0 14 }
  | false, true =>
    { d with
      npc := w.extractLsb' 0 14
      spcPtr := d.spcPtr + 1
      spc := Memory.write d.spc (d.spcPtr + 1).toNat (savedAddress n d.npc) }
  | true, false => { (returned d).2 with npc := (returned d).1 }

/-! ## Destinations and memory -/

/-- The functional destination that a destination names; an A-memory destination names none. -/
def functionOf : Dest → FuncDest
  | .amem _ => .none
  | .func i _ => destFunc i

/-- Where a destination stores in A-memory. -/
def aIndex : Dest → Nat
  | .amem a => a.toNat % 1024
  | .func _ m => m.toNat

/-- The functional destination starts a read or a write of memory. -/
def startsAccess : FuncDest → Bool
  | .vma .read | .vma .write | .md .read | .md .write => true
  | _ => false

/-- The functional destination starts a write of memory. -/
def startsWrite : FuncDest → Bool
  | .vma .write | .md .write => true
  | _ => false

/-- The functional destination writes the map. -/
def startsMap : FuncDest → Bool
  | .vma .map | .md .map => true
  | _ => false

/-- The physical word that a destination write of `v` stores to, if any: `storeAddr` of the address that
the started write uses, the new `VMA` for destination 0o22, the old one for 0o32 (R187, R188). -/
def storeTarget (d : Dest) (v : Word) (s : State) : Option Nat :=
  match functionOf d with
  | .vma .write => storeAddr v s
  | .md .write => storeAddr s.vma s
  | _ => none

/-- The frame that the tables give for an address (R80 case 3, R83). -/
def tableFrame (v : Word) (s : State) : Word :=
  Memory.read s.l2 ((Memory.read s.l1 (v.extractLsb' 13 11).toNat).toNat % 32 * 32 + (v.extractLsb' 8 5).toNat)

/-- The address lies in the framebuffer or the colour window (R81). -/
def inDisplay (v : Word) : Prop :=
  (0o77000000 ≤ v.toNat % 2 ^ 24 ∧ v.toNat % 2 ^ 24 ≤ 0o77077777) ∨
    (0o77200000 ≤ v.toNat % 2 ^ 24 ∧ v.toNat % 2 ^ 24 ≤ 0o77277777)

/-- The address lies in the diagnostic window (R81). -/
def inDiag (v : Word) : Prop :=
  0o77377400 ≤ v.toNat % 2 ^ 24 ∧ v.toNat % 2 ^ 24 ≤ 0o77377777

/-- The state with the three sticky flags, and `OPC` if a frame number is latched. -/
def flags (access write page : Bool) (s : State) : State :=
  { s with accessFault := access, writeFault := write, pageFault := page }

/-- A failed access (R89). -/
def failed (access write : Bool) (pn : Word) (s : State) : State :=
  { flags access write true s with opc := pn }

/-- The page number of a frame (R82). -/
def pageNumber (frame : Word) (s : State) : Word := frame &&& s.cfg.pnMask

/-- The page number is that of one of the three device pages (R90). -/
def isDevicePage (pn : Word) (s : State) : Prop :=
  pn = s.cfg.pageFb ∨ pn = s.cfg.pageBus ∨ pn = s.cfg.pageExtra

/-- The status register and the PROM control lie on the page of this device: `INTSTAT_PAGE` is its page, and that
of no device before it in the order of R90. -/
def holdsControls (c : Config) : Device → Bool
  | .display => false
  | .fb => c.intstatPage == c.pageFb
  | .bus => c.intstatPage == c.pageBus && c.intstatPage != c.pageFb
  | .extra => c.intstatPage == c.pageExtra && c.intstatPage != c.pageBus && c.intstatPage != c.pageFb

/-- The M and A mirrors of a destination write (R180). -/
def mirrored (m : BitVec 5) (v : Word) (s : State) : State :=
  { s with mmem := Memory.write s.mmem m.toNat v, amem := Memory.write s.amem m.toNat v }

/-! ## Files -/

/-- A 16-bit value as the files store it, low byte first. -/
def half (x : BitVec 16) : List Byte := [x.extractLsb' 0 8, x.extractLsb' 8 8]

/-- The ring `r'` holds what the ring `r` of capacity `n` holds, oldest first from slot 0 (R355). -/
def ringRestored (n : Nat) (r r' : Ring) : Prop :=
  r'.head = 0 ∧ ∀ i < n, Memory.read r'.slots i = Memory.read r.slots ((r.head + i) % n)

/-- A header word of the PROM image: the high half first. -/
def headerWord (x : Word) : List Byte := half (x.extractLsb' 16 16) ++ half (x.extractLsb' 0 16)

/-- An instruction of the PROM image: an unused half, then the word's three halves, the highest first. -/
def imageWord (unused : BitVec 16) (u : MicroWord) : List Byte :=
  half unused ++ half (u.extractLsb' 32 16) ++ half (u.extractLsb' 16 16) ++ half (u.extractLsb' 0 16)

end Sys2Proof.Reading

open Sys2Proof Sys2Proof.Machine Sys2Proof.Reading

/-! ## The encoding -/

/-- Decoding the encoding of a well-formed instruction gives the instruction back, for every instruction and
every operand value the encoding admits. -/
def Obligations.DecodeEncodeRoundTrip : Prop :=
  ∀ i : Instr, i.wf = true → decode (encode i) = i

/-- Encoding what was decoded keeps every bit that a field of the word's form covers, and clears the bits
that are ignored. Which bits are ignored is the spec's own decision D5 (and D16, D17 for two forms). -/
def Obligations.EncodeOfDecodeKeepsUsedBits : Prop :=
  ∀ u : MicroWord, encode (decode u) = u &&& usedBits u

/-- Every 48-bit word lies in exactly one row of the opcode table, the decoder reads from it an instruction
of that row's mnemonic, and that instruction is well formed: no encoding traps. -/
def Obligations.DecodeFollowsOpcodeTable : Prop :=
  ∀ u : MicroWord,
    (opcodeRows.filter (fun r => u &&& r.mask == r.pattern)).map (fun r => r.mnemonic) = [(decode u).mnemonic]
      ∧ (decode u).wf = true

/-- A few words written out from the formats of R121 to R127 decode to the instructions they stand for. -/
def Obligations.SampleWordsDecode : Prop :=
  decode 0x00010800D0CC#48 =
      .aluAdd { popj := false, a := 1, m := .mem 2, dest := .func 0 3, out := .aluOut, cin := true, qctl := .keep }
  ∧ decode 0x0805180201A3#48 =
      .jumpC3 { popj := false, a := 5, m := .mem 6, target := 0o40, sub := .plain, link := .push, n := true,
                inv := false }
  ∧ decode 0x100F08040060#48 =
      .dispatch false { popj := false, dispConst := 0o17, m := .mem 2, nPlus1 := false, enableIsh := false,
                        dispAddr := 0o100, map := 0, len := 3, pos := 0 }
  ∧ decode 0x18010800F0E8#48 =
      .byteDpb { popj := false, a := 1, m := .mem 2, dest := .func 0 3, widthm1 := 7, pos := 8 }

/-! ## The step -/

/-- A step of a running machine is `exec` of the instruction that the merged word decodes to, in the state
that the fetching part of the step has prepared (R150). `nextWord` and `readyState` are what the next three
statements are about. -/
def Obligations.StepRunsTheDecodedInstruction : Prop :=
  ∀ (s : State) (i : Instr), s.halted = false → decode (nextWord s) = i → step s = exec i (readyState s)

/-- The fetching part of a step: the arrival of a deferred read, then one fetch, then a second one if a
bubble was due, which discards the word in between; then the OA registers that were valid are cleared. The
bubble being part of the same step is the spec's decision D42, the wrap of `NPC` D46, the ring of executed
addresses D51. That an OA register which is not valid keeps its value is the model's reading of R150 and R155
(DEDUCED, unsafe: notes/assumptions/20). -/
def Obligations.FetchMovesThePipeline : Prop :=
  ∀ s : State,
    let a := afterArrival s
    let f := if s.inhibit then fetchOnce (fetchOnce { a with inhibit := false }) else fetchOnce a
    readyState s =
      { f with oaLoV := false, oaHiV := false
               oaLo := if s.oaLoV then 0 else s.oaLo
               oaHi := if s.oaHiV then 0 else s.oaHi
               pcHist := recorded s.cfg.pcHistN s.pcHist (0#18 ++ f.p0pc) }

/-- The word that executes, when no bubble is due, is the word that was in `P1`; when one is due, it is the
word at `NPC` and the word that was in `P1` is discarded. In both cases each valid OA register is ORed into
its bits (decision D2 for the OR and the split at bit 26). -/
def Obligations.MergedWordExecutes : Prop :=
  ∀ s : State, ∀ k < 48,
    (nextWord s).getLsbD k =
      ((if s.inhibit then wordAt s s.npc else s.p1).getLsbD k
        || (s.oaLoV && decide (k < 26) && s.oaLo.getLsbD k)
        || (s.oaHiV && decide (26 ≤ k) && s.oaHi.getLsbD (k - 26)))

/-- A read that a step leaves pending: in the next step the instruction still sees the old `MD`, with one step to
go; unless that instruction itself starts a read, the instruction after it sees the data in `MD`, whatever the
first one wrote to `MD`, and nothing is pending any more. Only an instruction that starts a read itself leaves two
steps to go, and then with its own data (decision D23). -/
def Obligations.DeferredDataArrivesInSecondStep : Prop :=
  ∀ s t : State, s.rdDelay = 2 → step s = .next t →
    let i := decode (nextWord s)
    let r := readyState s
    (r.md = s.md ∧ r.rdDelay = 1 ∧ r.rdValue = s.rdValue)
      ∧ ((t.rdDelay = 2 ∧ startsRead i r t.rdValue)
        ∨ (t.rdDelay = 1 ∧ (∀ x, ¬ startsRead i r x) ∧ t.rdValue = s.rdValue
            ∧ (readyState t).md = s.rdValue ∧ (readyState t).rdDelay = 0))

/-- The outcome of a step is a next state, or no step at all because the machine is halted; there is no trap
and no refusal. -/
def Obligations.StepIsTotalUnlessHalted : Prop :=
  ∀ s : State, (s.halted = true → step s = .fault .halted) ∧ (s.halted = false → ∃ t, step s = .next t)

/-- Every register, flag and pointer at reset, and every memory reading 0 (the spec's decision D37), whatever the
configuration. The PROM is empty here: the image is loaded after this (notes/assumptions/11). That
`State.reset` has the default configuration is notes/assumptions/1. -/
def Obligations.ResetValues : Prop :=
  State.reset = resetWith defaultConfig ∧ ∀ c : Config,
  let r := resetWith c
  r.cfg = c
  ∧ (r.npc = 0 ∧ r.p0 = 0 ∧ r.p1 = 0 ∧ r.p0pc = 0 ∧ r.p1pc = 0)
  ∧ (r.inhibit = false ∧ r.promEn = true ∧ r.halted = false ∧ r.restored = false)
  ∧ (r.oaLo = 0 ∧ r.oaLoV = false ∧ r.oaHi = 0 ∧ r.oaHiV = false)
  ∧ (r.accessFault = false ∧ r.writeFault = false ∧ r.pageFault = false)
  ∧ (r.dc = 0 ∧ r.opc = 0 ∧ r.q = 0 ∧ r.vma = 0 ∧ r.md = 0 ∧ r.lc = 0 ∧ r.icr = 0 ∧ r.intstat = 0)
  ∧ (r.spcPtr = 0 ∧ r.pdlPtr = 0 ∧ r.pdlIdx = 0 ∧ r.rdDelay = 0 ∧ r.rdValue = 0)
  ∧ (∀ a, Memory.read r.amem a = 0 ∧ Memory.read r.mmem a = 0 ∧ Memory.read r.spc a = 0
      ∧ Memory.read r.pdl a = 0 ∧ Memory.read r.dmem a = 0 ∧ Memory.read r.imem a = 0
      ∧ Memory.read r.prom a = 0 ∧ Memory.read r.l1 a = 0 ∧ Memory.read r.l2 a = 0
      ∧ Memory.read r.pmem a = 0 ∧ Memory.read r.pages a = 0)
  ∧ (pending r = false ∧ (∀ a, Memory.read r.lcHist.slots a = 0 ∧ Memory.read r.pcHist.slots a = 0
      ∧ Memory.read r.pdlHist.slots a = 0) ∧ r.lcHist.head = 0 ∧ r.pcHist.head = 0 ∧ r.pdlHist.head = 0)

/-- From reset with any configuration and any PROM, the first step runs the zero word, which changes nothing but
the pipeline and the ring of executed addresses; the second step runs the word at PROM address 0 with the word at
address 1 behind it. The reset values are the spec's decision D37; that the PROM image is loaded between
`State.reset` and the first step is the model's reading (DEDUCED: notes/assumptions/11). -/
def Obligations.FirstTwoStepsAfterReset : Prop :=
  ∀ (c : Config) (prom : Memory 48),
    let s := { resetWith c with prom := prom }
    let ring := recorded c.pcHistN ⟨0, []⟩ 0#32
    let t := { s with p1 := Memory.read prom 0, npc := 1, pcHist := ring }
    step s = .next t
      ∧ step t = exec (decode (Memory.read prom 0))
          { t with p0 := Memory.read prom 0, p1 := Memory.read prom 1, p1pc := 1, npc := 2
                   pcHist := recorded c.pcHistN ring 0#32 }

/-! ## Invariants -/

/-- The invariant holds at reset, with the default configuration and with every configuration that the rules
allow (which these are is the model's reading, DEDUCED: notes/assumptions/25). -/
def Obligations.ResetMeetsInvariant : Prop :=
  Inv State.reset ∧ ∀ c : Config, configOk c = true → Inv (resetWith c)

/-- Every step keeps the invariant: the configuration stays one that the rules allow (notes/assumptions/25), the
memories stay in canonical form within their capacities, listed words of physical memory stand in pages that exist,
bits 30:26 of `LC` and the bits of `INTSTAT` that no rule sets stay 0, the rings stay within their capacities. -/
def Obligations.StepKeepsInvariant : Prop :=
  ∀ s t : State, Inv s → step s = .next t → Inv t

/-- Every action of an agent keeps the invariant: a step, an interrupt operation of the environment, a
restore of any file, a PROM load of any image, a halt request, a reset (what the invariant asks of the configuration
is notes/assumptions/25). -/
def Obligations.ActionsKeepInvariant : Prop :=
  ∀ (a : Action) (s t : State), Inv s → act a s = .next t → Inv t

/-! ## What an instruction may write -/

/-- After an ALU or byte instruction whose destination has bit 11 clear, the M location it names and the A
location of the same number hold the same word (R22). -/
def Obligations.MirroredLocationsAgree : Prop :=
  ∀ (i : Instr) (x : BitVec 6) (m : BitVec 5) (s t : State),
    destination i = some (.func x m) → exec i s = .next t →
      Memory.read t.mmem m.toNat = Memory.read t.amem m.toNat

/-- No instruction writes the PROM, only `JUMP.WRIMEM` writes instruction memory, and only `DISPATCH.LOAD`
writes dispatch memory. -/
def Obligations.MicrocodeMemoriesHaveOneWriter : Prop :=
  ∀ (i : Instr) (s t : State), exec i s = .next t →
    t.prom = s.prom
      ∧ ((∀ f, i ≠ .jumpWrimem f) → t.imem = s.imem)
      ∧ ((∀ f, i ≠ .dispatchLoad f) → t.dmem = s.dmem)

/-- An instruction halts the machine exactly when it is a jump with sub-field 1, whatever its condition. -/
def Obligations.HaltingIsSubFieldOne : Prop :=
  ∀ (i : Instr) (s t : State), exec i s = .next t →
    (t.halted = true ↔ s.halted = true ∨ jumpSub i = some .halt)

/-- `Q` is written only by the Q-control of an ALU instruction. -/
def Obligations.QChangesOnlyByQControl : Prop :=
  ∀ (i : Instr) (s t : State), exec i s = .next t →
    (∀ op f, aluPart i = some (op, f) → f.qctl = .keep) → t.q = s.q

/-- Every dispatch that is no table load leaves its ten constant bits in `DC`; nothing else writes `DC`. -/
def Obligations.DispatchConstantIsLoadedByDispatch : Prop :=
  ∀ (i : Instr) (s t : State), exec i s = .next t →
    t.dc = (match dispatchPart i with | some f => f.dispConst | none => s.dc)

/-- No instruction sets `PROM_EN` again, and no instruction changes a present bit, the vector or any other
bit of `INTSTAT` that is not in the mask of the writable ones (decisions D34 and D35). -/
def Obligations.PresentBitsAndPromEnableAreProtected : Prop :=
  ∀ (i : Instr) (s t : State), exec i s = .next t →
    (s.promEn = false → t.promEn = false)
      ∧ ∀ k, s.cfg.isWritable.getLsbD k = false → t.intstat.getLsbD k = s.intstat.getLsbD k

/-- What an ALU or byte instruction leaves as it was, register by register and word by word of the
engine's own memories: everything but the destination, the M operand's stack, `Q` under Q-control, and, when
the popj bit is set, what a return changes. Of the history rings, whatever their
capacities, only a push or a pop of the PDL and an LC-advance can record (R179, R336; decision D51,
notes/assumptions/10). -/
def Obligations.FrameOfAluAndByte : Prop :=
  ∀ (i : Instr) (d : Dest) (s t : State), destination i = some d → exec i s = .next t →
    (∀ a, a ≠ aIndex d → Memory.read t.amem a = Memory.read s.amem a)
    ∧ (∀ k, (∀ x m, d = .func x m → k ≠ m.toNat) → Memory.read t.mmem k = Memory.read s.mmem k)
    ∧ (popjBit i = false → t.npc = s.npc)
    ∧ (t.p0 = s.p0 ∧ t.p1 = s.p1 ∧ t.p0pc = s.p0pc ∧ t.p1pc = s.p1pc ∧ t.inhibit = s.inhibit
        ∧ t.halted = s.halted ∧ t.dc = s.dc ∧ t.dmem = s.dmem ∧ t.imem = s.imem ∧ t.prom = s.prom
        ∧ t.restored = s.restored ∧ t.pcHist = s.pcHist ∧ t.cfg = s.cfg)
    ∧ (popjBit i = false → t.lcHist = s.lcHist)
    ∧ (functionOf d ≠ .pdlPush → mOperand i ≠ .func 0o24#5 → t.pdlHist = s.pdlHist)
    ∧ ((∀ op f, aluPart i = some (op, f) → f.qctl = .keep) → t.q = s.q)
    ∧ (functionOf d ≠ .icr → t.icr = s.icr)
    ∧ (functionOf d ≠ .lc → popjBit i = false → t.lc = s.lc)
    ∧ ((∀ st, functionOf d ≠ .vma st) → popjBit i = false → t.vma = s.vma)
    ∧ ((∀ st, functionOf d ≠ .md st) → t.md = s.md)
    ∧ (functionOf d ≠ .oaLo → t.oaLo = s.oaLo ∧ t.oaLoV = s.oaLoV)
    ∧ (functionOf d ≠ .oaHi → t.oaHi = s.oaHi ∧ t.oaHiV = s.oaHiV)
    ∧ (functionOf d ≠ .pdlIdx → t.pdlIdx = s.pdlIdx)
    ∧ (functionOf d ≠ .pdlPtr → functionOf d ≠ .pdlPush → mOperand i ≠ .func 0o24#5 → t.pdlPtr = s.pdlPtr)
    ∧ (functionOf d ≠ .pdlAtPtr → functionOf d ≠ .pdlPush → functionOf d ≠ .pdlAtIdx → t.pdl = s.pdl)
    ∧ (functionOf d ≠ .spcPush → t.spc = s.spc)
    ∧ (functionOf d ≠ .spcPush → mOperand i ≠ .func 0o14#5 → popjBit i = false → t.spcPtr = s.spcPtr)
    ∧ (startsMap (functionOf d) = false → t.l1 = s.l1 ∧ t.l2 = s.l2)
    ∧ (startsAccess (functionOf d) = false → popjBit i = false →
        t.accessFault = s.accessFault ∧ t.writeFault = s.writeFault ∧ t.pageFault = s.pageFault
          ∧ t.opc = s.opc ∧ t.rdDelay = s.rdDelay ∧ t.rdValue = s.rdValue ∧ t.devReads = s.devReads
          ∧ t.pages = s.pages)
    ∧ (startsWrite (functionOf d) = false →
        t.pmem = s.pmem ∧ t.intstat = s.intstat ∧ t.promEn = s.promEn ∧ t.trace = s.trace)

/-- The stack words and physical words that an ALU or byte instruction writes: one word of the PDL or of the
micro-subroutine stack where the destination pushes or stores, at the pointer that the M operand has left,
and in physical memory no word but the one that the started write stores to. The value written is read back
from the destination's A location, where R180 puts it. -/
def Obligations.DestinationStoresOneWord : Prop :=
  ∀ (i : Instr) (d : Dest) (s t : State), destination i = some d → exec i s = .next t →
    let v := Memory.read t.amem (aIndex d)
    let m := (readM (mOperand i) s).2
    (∀ a, storeTarget d v s ≠ some a → Memory.read t.pmem a = Memory.read s.pmem a)
    ∧ (∀ a, ¬ (functionOf d = .spcPush ∧ a = (m.spcPtr + 1).toNat) → Memory.read t.spc a = Memory.read s.spc a)
    ∧ (∀ a, ¬ ((functionOf d = .pdlPush ∧ a = (m.pdlPtr + 1).toNat)
            ∨ (functionOf d = .pdlAtPtr ∧ a = m.pdlPtr.toNat)
            ∨ (functionOf d = .pdlAtIdx ∧ a = s.pdlIdx.toNat)) →
          Memory.read t.pdl a = Memory.read s.pdl a)

/-- What a jump leaves as it was. A jump writes no operand file, no memory but a stack entry of a taken call
(or, for `JUMP.WRIMEM`, one instruction word), and starts no write; what a return can change it changes only
with the pop or the popj bit. Of the history rings only a PDL pop and an LC-advance can record, whatever their
capacities (decision D51, notes/assumptions/10). -/
def Obligations.FrameOfJumps : Prop :=
  ∀ (i : Instr) (s t : State), (jumpSub i).isSome = true → exec i s = .next t →
    (t.amem = s.amem ∧ t.mmem = s.mmem ∧ t.dmem = s.dmem ∧ t.prom = s.prom ∧ t.pdl = s.pdl ∧ t.l1 = s.l1
      ∧ t.l2 = s.l2 ∧ t.pmem = s.pmem ∧ t.trace = s.trace)
    ∧ (t.p0 = s.p0 ∧ t.p1 = s.p1 ∧ t.p0pc = s.p0pc ∧ t.p1pc = s.p1pc ∧ t.promEn = s.promEn ∧ t.oaLo = s.oaLo
      ∧ t.oaLoV = s.oaLoV ∧ t.oaHi = s.oaHi ∧ t.oaHiV = s.oaHiV ∧ t.dc = s.dc ∧ t.q = s.q ∧ t.md = s.md
      ∧ t.icr = s.icr ∧ t.intstat = s.intstat ∧ t.pdlIdx = s.pdlIdx ∧ t.restored = s.restored
      ∧ t.pcHist = s.pcHist ∧ t.cfg = s.cfg)
    ∧ (mOperand i ≠ .func 0o24#5 → t.pdlPtr = s.pdlPtr ∧ t.pdlHist = s.pdlHist)
    ∧ (∀ a, (∀ f, i = .jumpWrimem f → a ≠ f.target.toNat % s.cfg.imemSize) →
        Memory.read t.imem a = Memory.read s.imem a)
    ∧ (∀ a, (∀ f, jumpPart i = some f → f.link = .push → a ≠ ((readM (mOperand i) s).2.spcPtr + 1).toNat) →
        Memory.read t.spc a = Memory.read s.spc a)
    ∧ ((∀ f, jumpPart i = some f → f.n = false) → t.inhibit = s.inhibit)
    ∧ (popjBit i = false → (∀ f, jumpPart i = some f → f.link ≠ .pop) →
        t.lc = s.lc ∧ t.vma = s.vma ∧ t.accessFault = s.accessFault ∧ t.writeFault = s.writeFault
          ∧ t.pageFault = s.pageFault ∧ t.opc = s.opc ∧ t.rdDelay = s.rdDelay ∧ t.rdValue = s.rdValue
          ∧ t.devReads = s.devReads ∧ t.pages = s.pages ∧ t.lcHist = s.lcHist)
    ∧ (popjBit i = false → (∀ f, jumpPart i = some f → f.link = .none) → mOperand i ≠ .func 0o14#5 →
        t.spcPtr = s.spcPtr)

/-- What a dispatch leaves as it was; for the table load, all but one word of dispatch memory and what its M
operand and its popj bit change. Of the history rings only a PDL pop and an LC-advance can record, whatever their
capacities (decision D51, notes/assumptions/10). -/
def Obligations.FrameOfDispatches : Prop :=
  ∀ (i : Instr) (s t : State), ((dispatchPart i).isSome = true ∨ ∃ f, i = .dispatchLoad f) →
    exec i s = .next t →
    (t.amem = s.amem ∧ t.mmem = s.mmem ∧ t.imem = s.imem ∧ t.prom = s.prom ∧ t.pdl = s.pdl ∧ t.l1 = s.l1
      ∧ t.l2 = s.l2 ∧ t.pmem = s.pmem ∧ t.trace = s.trace)
    ∧ (t.p0 = s.p0 ∧ t.p1 = s.p1 ∧ t.p0pc = s.p0pc ∧ t.p1pc = s.p1pc ∧ t.promEn = s.promEn
      ∧ t.halted = s.halted ∧ t.oaLo = s.oaLo ∧ t.oaLoV = s.oaLoV ∧ t.oaHi = s.oaHi ∧ t.oaHiV = s.oaHiV
      ∧ t.q = s.q ∧ t.md = s.md ∧ t.icr = s.icr ∧ t.intstat = s.intstat ∧ t.pdlIdx = s.pdlIdx
      ∧ t.restored = s.restored ∧ t.pcHist = s.pcHist ∧ t.cfg = s.cfg)
    ∧ (mOperand i ≠ .func 0o24#5 → t.pdlPtr = s.pdlPtr ∧ t.pdlHist = s.pdlHist)
    ∧ (∀ a, (∀ f, i = .dispatchLoad f → a ≠ f.dispAddr.toNat) → Memory.read t.dmem a = Memory.read s.dmem a)
    ∧ ((∀ f, dispatchPart i = some f → f.enableIsh = false) → s.lc.getLsbD 31 = false → t.lcHist = s.lcHist)
    ∧ ((∃ f, i = .dispatchLoad f) → t.dc = s.dc ∧ t.inhibit = s.inhibit ∧ t.spc = s.spc)
    ∧ ((∃ f, i = .dispatchLoad f) → popjBit i = false →
        t.npc = s.npc ∧ t.lc = s.lc ∧ t.vma = s.vma ∧ t.accessFault = s.accessFault
          ∧ t.writeFault = s.writeFault ∧ t.pageFault = s.pageFault ∧ t.opc = s.opc ∧ t.rdDelay = s.rdDelay
          ∧ t.rdValue = s.rdValue ∧ t.devReads = s.devReads ∧ t.pages = s.pages ∧ t.lcHist = s.lcHist
          ∧ (mOperand i ≠ .func 0o14#5 → t.spcPtr = s.spcPtr))
    ∧ (∀ a, a ≠ ((readM (mOperand i) s).2.spcPtr + 1).toNat → Memory.read t.spc a = Memory.read s.spc a)

/-! ## What each instruction gives -/

/-- The 15 bitwise logic operations complete, for every operand, with each result bit the Boolean function of
the two operand bits and with carry 0; then Q-control, out-control, the destination and popj. Which opcode
has which function is the spec's decision D6, the carry 0 its decision D10, the numbering of the two modifiers
D11. -/
def Obligations.BitwiseLogicResults : Prop :=
  ∀ row ∈ logicRows, ∀ (f : AluFields) (s : State), ∃ out : Word,
    (∀ k < 32, out.getLsbD k = row.2.2 ((readM f.m s).1.getLsbD k) ((readA f.a s).getLsbD k))
      ∧ exec (row.1 f) s = .next (aluNext row.2.1 f out false s)

/-- `ALU.EQV` gives the integer 1 when the two operands agree in all 32 bits and 0 otherwise (R211, for which
conflict C6 is resolved). Its carry 0 is decision D10, and what `aluNext` adds is decision D11 for the rotate count
`u[4:0]` of out-control 0 and for the numbering of the modifiers (notes/assumptions/2). -/
def Obligations.EqualityTestResult : Prop :=
  ∀ (f : AluFields) (s : State),
    ((readM f.m s).1 = readA f.a s → exec (.aluEqv f) s = .next (aluNext 0o11#6 f 1#32 false s))
      ∧ ((readM f.m s).1 ≠ readA f.a s → exec (.aluEqv f) s = .next (aluNext 0o11#6 f 0#32 false s))

/-- The 16 arithmetic operations complete, for every operand, with the low 32 bits of the integer result
modulo `2^33` and bit 32 of it as the carry (decision D7), then both modifiers, the destination and popj. -/
def Obligations.ArithmeticResults : Prop :=
  ∀ row ∈ arithRows, ∀ (f : AluFields) (s : State),
    let r := row.2.2 (readM f.m s).1 (readA f.a s) (if f.cin then 1 else 0)
    exec (row.1 f) s = .next (aluNext row.2.1 f (low32 r) (bit32 r) s)

/-- `ALU.ADD` gives M + A + carry-in: the sum modulo `2^32`, and the carry exactly when the sum reaches `2^32`
(R229; the carry in general is R201 with decision D7). What `aluNext` adds is decision D11 for the rotate count
`u[4:0]` of out-control 0 and for the numbering of the modifiers (notes/assumptions/2). -/
def Obligations.AddResult : Prop :=
  ∀ (f : AluFields) (s : State),
    let sum := (readM f.m s).1.toNat + (readA f.a s).toNat + (if f.cin then 1 else 0)
    exec (.aluAdd f) s = .next (aluNext 0o31#6 f (BitVec.ofNat 32 sum) (decide (2 ^ 32 ≤ sum)) s)

/-- The multiply step, the divide step, the remainder correction and the first divide step complete with the
results that `Q[0]` selects; `Q` is read as it stands before the instruction (decision D8). -/
def Obligations.MultiplyDivideResults : Prop :=
  ∀ (f : AluFields) (s : State),
    let m := (readM f.m s).1
    let a := readA f.a s
    let q0 := (readM f.m s).2.q.getLsbD 0
    let sum := nat m + nat a
    let plus := nat m + mag a
    let minus := nat m - mag a
    let first := nat m - mag a - (1 - (if f.cin then 1 else 0))
    exec (.aluMulstep f) s = .next (if q0 then aluNext 0o40#6 f (low32 sum) (bit32 sum) s
        else aluNext 0o40#6 f m (m.getLsbD 31) s)
      ∧ exec (.aluDivstep f) s = .next (if q0 then aluNext 0o41#6 f (low32 minus) (bit32 minus) s
        else aluNext 0o41#6 f (low32 plus) (bit32 plus) s)
      ∧ exec (.aluRemcorr f) s = .next (if q0 then aluNext 0o45#6 f m false s
        else aluNext 0o45#6 f (low32 plus) (bit32 plus) s)
      ∧ exec (.aluDivfirst f) s = .next (aluNext 0o51#6 f (low32 first) (bit32 first) s)

/-- An unassigned opcode gives 0 with carry 0, and the rest of the instruction proceeds (decision D9). -/
def Obligations.UnassignedOpcodeResult : Prop :=
  ∀ (op : BitVec 6) (f : AluFields) (s : State),
    exec (.aluUndef op f) s = .next (aluNext op f 0#32 false s)

/-- `BYTE.LDB`: the low `widthm1 + 1` bits of the result are the bits of M from bit `-pos` modulo 32 up,
cyclically; the other bits are those of A. -/
def Obligations.LoadByteResult : Prop :=
  ∀ (f : ByteFields) (s : State), ∃ out : Word,
    (∀ k < 32, out.getLsbD k =
      if k ≤ f.widthm1.toNat then (readM f.m s).1.getLsbD ((k + 32 - f.pos.toNat) % 32)
      else (readA f.a s).getLsbD k)
    ∧ exec (.byteLdb f) s = .next (byteNext f out s)

/-- `BYTE.SEL` and `BYTE.DPB`: the bits `pos` to `pos + widthm1` of the result come from M, for the first not
rotated and for the second rotated left by the position, which is then `LCPOS`; the others come from A. A
field that would run off the top of the word is empty: the result is A (decision D18; D19 for `LCPOS`). -/
def Obligations.DepositResults : Prop :=
  ∀ (f : ByteFields) (s : State),
    (∃ out : Word,
      (∀ k < 32, out.getLsbD k =
        if f.pos.toNat + f.widthm1.toNat < 32 ∧ f.pos.toNat ≤ k ∧ k ≤ f.pos.toNat + f.widthm1.toNat then
          (readM f.m s).1.getLsbD k
        else (readA f.a s).getLsbD k)
      ∧ exec (.byteSel f) s = .next (byteNext f out s))
    ∧ (∃ out : Word,
      let p := (lcPos f.pos (readM f.m s).2).toNat
      (∀ k < 32, out.getLsbD k =
        if p + f.widthm1.toNat < 32 ∧ p ≤ k ∧ k ≤ p + f.widthm1.toNat then
          (readM f.m s).1.getLsbD ((k + 32 - p) % 32)
        else (readA f.a s).getLsbD k)
      ∧ exec (.byteDpb f) s = .next (byteNext f out s))

/-- `BYTE.INVALID` puts out 0, writes it to its destination with the destination's side effect, and the
machine goes on. -/
def Obligations.InvalidByteResult : Prop :=
  ∀ (f : ByteFields) (s : State),
    exec (.byteInvalid f) s = .next (byteNext f 0#32 s)
      ∧ (byteNext f 0#32 s).halted = s.halted

/-- A jump whose condition, after the inversion, is false does nothing but the halt of sub-field 1 and a
popj. The conditions are those of R293 to R302; the signedness of two of them is open (decision D13) and the
positions of the interrupt and sequence-break bits are decisions D33 and D34. -/
def Obligations.JumpNotTaken : Prop :=
  ∀ rot, ∀ row ∈ jumpRows rot, ∀ (f : JumpFields) (s : State),
    let c := row.2 (readM f.m s).1 (readA f.a s) (readM f.m s).2
    (if f.inv = true then c else ¬ c) → exec (row.1 f) s = .next (popjIf f.popj (jumpReady f s))

/-- A jump whose condition, after the inversion, is true transfers: it jumps, calls or returns, annuls the next
word if N is set, and ignores its popj bit. The signedness of two conditions is open (decision D13); the positions
of the interrupt and sequence-break bits are decisions D33 and D34, and the 2 that a return ORs into the popped
address is decision D22 (notes/assumptions/2). What a return that advances `LC` records in the LC-history ring is the
model's reading (D51; DEDUCED: notes/assumptions/22). -/
def Obligations.JumpTaken : Prop :=
  ∀ rot, ∀ row ∈ jumpRows rot, ∀ (f : JumpFields) (s : State),
    let c := row.2 (readM f.m s).1 (readA f.a s) (readM f.m s).2
    let r := jumpReady f s
    (if f.inv = true then ¬ c else c) →
      exec (row.1 f) s = .next
        (match f.link with
         | .none => { r with npc := f.target, inhibit := r.inhibit || f.n }
         | .push =>
           { r with
             npc := f.target
             inhibit := r.inhibit || f.n
             spcPtr := r.spcPtr + 1
             spc := Memory.write r.spc (r.spcPtr + 1).toNat (savedAddress f.n r.npc) }
         | .pop =>
           { (returned r).2 with npc := (returned r).1, inhibit := (returned r).2.inhibit || f.n })

/-- `JUMP.WRIMEM` stores the low 16 bits of A above M at `target` and leaves the pipeline as it is; a halt
and a popj happen as in any jump (decision D16 for the dropped bits of A). -/
def Obligations.WriteInstructionMemoryResult : Prop :=
  ∀ (f : WrimemFields) (s : State),
    let m := readM f.m s
    exec (.jumpWrimem f) s = .next (popjIf f.popj
      { m.2 with
        halted := m.2.halted || decide (f.sub = .halt)
        imem := Memory.write m.2.imem (f.target.toNat % s.cfg.imemSize) ((readA f.a s).extractLsb' 0 16 ++ m.1) })

/-- `DISPATCH.LOAD` stores A at `disp_addr` and does nothing else but its operand read and its popj (decision
D17 for the width stored, D50 for the popj). -/
def Obligations.TableLoadResult : Prop :=
  ∀ (f : LoadFields) (s : State),
    let m := readM f.m s
    exec (.dispatchLoad f) s =
      .next (popjIf f.popj { m.2 with dmem := Memory.write m.2.dmem f.dispAddr.toNat (readA f.a s) })

/-- The address of a dispatch, bit by bit: `disp_addr`, ORed with the low `len` bits of the rotated M, ORed at
bit 0 with the selected frame bits 18 and 19 of the translation of `MD` (decision D17 for bit 0). -/
def Obligations.DispatchAddressBits : Prop :=
  ∀ (f : DispatchFields) (pos : BitVec 5) (m : Word) (s : State), ∀ k < 11,
    let frame := (translateAddr s.md s).frame
    (dispatchAddr f pos m s).getLsbD k =
      (f.dispAddr.getLsbD k
        || (decide (k < f.len.toNat) && m.getLsbD ((k + 32 - pos.toNat) % 32))
        || (decide (k = 0)
            && ((f.map.getLsbD 0 && frame.getLsbD 18) || (f.map.getLsbD 1 && frame.getLsbD 19))))

/-- Both dispatches complete as R272 says for every table word: the constant, the decrement, the optional
LC-advance, the inhibit flag, and the transfer, call, return or fall-through that the word's R and P select.
The plain one is the same for both values of its sub-field bit; the other takes its position from `LCPOS`.
(Decisions D17, D22 and D50; what LC-advance records in the LC-history ring is the model's reading, D51, DEDUCED:
notes/assumptions/22.) -/
def Obligations.DispatchResults : Prop :=
  ∀ (f : DispatchFields) (s : State),
    (∀ sub0, exec (.dispatch sub0 f) s = .next (dispatchNext f.pos f s))
      ∧ exec (.dispatchLc f) s = .next (dispatchNext (lcPos f.pos (readM f.m s).2) f s)

/-- A popj, set or not: the pop of the micro-subroutine stack, LC-advance if bit 14 of the entry is set, and
the low 14 bits as the next address (decision D50; D22 for the ORed 2). What LC-advance records in the LC-history
ring is the model's reading (D51; DEDUCED: notes/assumptions/22). -/
def Obligations.PopjReturns : Prop :=
  ∀ (flag : Bool) (s : State),
    popjIf flag s = if flag then { (returned s).2 with npc := (returned s).1 } else s

/-- LC-advance: by 1 in byte mode and by 2 in 16-bit mode, modulo `2^26`; with the need-fetch bit set it
starts the read of the word that the old counter points into, without it it touches nothing else and reports
that no fetch was needed; the new need-fetch bit says that the counter has reached a new word (decision
D21). With the read it records in the LC-history ring, of whatever capacity (decision D51, notes/assumptions/10):
that the entry is the whole old LC register, counter and need-fetch bit, is the model's reading of R336 with D51
(DEDUCED, unsafe: notes/assumptions/22). -/
def Obligations.LcAdvanceResult : Prop :=
  ∀ s : State, lcAdvance s = (advanced s, !s.lc.getLsbD 31)

/-- `LCPOS` with its default formula: which instruction bits are exclusive-ORed with which `LC` bits in each mode,
and that for instruction bits 0 it right-justifies the half-word or byte `LC` points at (decision D20). With
another function in the configuration, its value is that function's of the mode, `LC[1:0]` and the five
instruction bits (R9; how the function is held is notes/assumptions/1). -/
def Obligations.LcPositionResult : Prop :=
  ∀ (low : BitVec 5) (s : State),
    (s.cfg.lcPosTable = none → s.icr.getLsbD 29 = true →
      (lcPos low s).getLsbD 3 = (low.getLsbD 3 != s.lc.getLsbD 0)
        ∧ (lcPos low s).getLsbD 4 = ((low.getLsbD 4 != s.lc.getLsbD 1) != s.lc.getLsbD 0)
        ∧ (∀ k < 3, (lcPos low s).getLsbD k = low.getLsbD k)
        ∧ (low = 0#5 → (lcPos low s).toNat = (32 - 8 * (s.lc.toNat % 4)) % 32))
    ∧ (s.cfg.lcPosTable = none → s.icr.getLsbD 29 = false →
      (lcPos low s).getLsbD 4 = (low.getLsbD 4 != s.lc.getLsbD 1)
        ∧ (∀ k < 4, (lcPos low s).getLsbD k = low.getLsbD k)
        ∧ (low = 0#5 → (lcPos low s).toNat = 16 * (s.lc.toNat / 2 % 2)))
    ∧ (∀ table, s.cfg.lcPosTable = some table →
      lcPos low s =
        table.getD ((if s.icr.getLsbD 29 then 128 else 0) + 32 * (s.lc.toNat % 4) + low.toNat) 0#5)

/-! ## Operands -/

/-- Every functional source: its value and the state after (decisions D21 and D31 for the packed formats; the ring
record of a PDL pop is decision D51, its entry a free value, notes/assumptions/10). -/
def Obligations.FunctionalSources : Prop :=
  ∀ s : State,
    let t := translateAddr s.md s
    let packed : Word := 0#3 ++ s.spcPtr ++ 0#6 ++ (Memory.read s.spc s.spcPtr.toNat).extractLsb' 0 18
    let r := fun i : BitVec 5 => readM (.func i) s
    r 0o00#5 = (0#22 ++ s.dc, s)
    ∧ r 0o01#5 = (packed, s)
    ∧ r 0o02#5 = (0#22 ++ s.pdlPtr, s)
    ∧ r 0o03#5 = (0#22 ++ s.pdlIdx, s)
    ∧ r 0o05#5 = (Memory.read s.pdl s.pdlIdx.toNat, s)
    ∧ r 0o06#5 = (s.opc, s)
    ∧ r 0o07#5 = (s.q, s)
    ∧ r 0o10#5 = (s.vma, s)
    ∧ r 0o11#5 = (BitVec.ofBool s.writeFault ++ BitVec.ofBool s.accessFault ++ 0#1 ++ t.l1
                    ++ t.frame.extractLsb' 0 24, s)
    ∧ r 0o12#5 = (s.md, s)
    ∧ r 0o13#5 = (if s.icr.getLsbD 29 then s.lc else s.lc.extractLsb' 1 31 ++ 0#1, s)
    ∧ r 0o14#5 = (packed, { s with spcPtr := s.spcPtr - 1 })
    ∧ r 0o24#5 = (Memory.read s.pdl s.pdlPtr.toNat,
        { s with
          pdlPtr := s.pdlPtr - 1
          pdlHist := recorded s.cfg.pdlHistN s.pdlHist
            (Config.pdlHistEntry .pop s.pdlPtr (Memory.read s.pdl s.pdlPtr.toNat)) })
    ∧ r 0o25#5 = (Memory.read s.pdl s.pdlPtr.toNat, s)
    ∧ (∀ i : BitVec 5, i.toNat ∈ [0o04, 0o15, 0o16, 0o17, 0o20, 0o21, 0o22, 0o23, 0o26, 0o27, 0o30, 0o31, 0o32,
          0o33, 0o34, 0o35, 0o36, 0o37] → r i = (0#32, s))
    ∧ (∀ k : BitVec 5, readM (.mem k) s = (Memory.read s.mmem k.toNat, s))

/-- Every destination: an A-memory one stores only there; a functional one has its effect and then the two mirrors.
Bit 10 of the field makes no difference (decision D30 for the indices; D21, D23, D29; the ring record of a PDL push
is decision D51, its entry a free value, notes/assumptions/10). -/
def Obligations.DestinationWrites : Prop :=
  ∀ (v : Word) (s : State),
    (∀ a : BitVec 11, writeDest (.amem a) v s = { s with amem := Memory.write s.amem (a.toNat % 1024) v })
    ∧ ∀ (x : BitVec 6) (m : BitVec 5),
      let w := fun (i : BitVec 5) (t : State) => x.extractLsb' 0 5 = i → writeDest (.func x m) v s = mirrored m v t
      w 0o01#5 { s with lc := 1#1 ++ 0#5 ++ v.extractLsb' 0 26 }
      ∧ w 0o02#5 { s with icr := v }
      ∧ w 0o10#5 { s with pdl := Memory.write s.pdl s.pdlPtr.toNat v }
      ∧ w 0o11#5
          { s with
            pdlPtr := s.pdlPtr + 1, pdl := Memory.write s.pdl (s.pdlPtr + 1).toNat v
            pdlHist := recorded s.cfg.pdlHistN s.pdlHist (Config.pdlHistEntry .push (s.pdlPtr + 1) v) }
      ∧ w 0o12#5 { s with pdl := Memory.write s.pdl s.pdlIdx.toNat v }
      ∧ w 0o13#5 { s with pdlIdx := v.extractLsb' 0 10 }
      ∧ w 0o14#5 { s with pdlPtr := v.extractLsb' 0 10 }
      ∧ w 0o15#5 { s with spcPtr := s.spcPtr + 1, spc := Memory.write s.spc (s.spcPtr + 1).toNat v }
      ∧ w 0o16#5 { s with oaLo := v.extractLsb' 0 26, oaLoV := true }
      ∧ w 0o17#5 { s with oaHi := v.extractLsb' 0 22, oaHiV := true }
      ∧ w 0o20#5 { s with vma := v }
      ∧ w 0o21#5 (issueRead v { s with vma := v })
      ∧ w 0o22#5 (memWrite v s.md { s with vma := v })
      ∧ w 0o23#5 (writeMap { s with vma := v })
      ∧ w 0o30#5 { s with md := v }
      ∧ w 0o31#5 (issueRead s.vma { s with md := v })
      ∧ w 0o32#5 (memWrite s.vma v { s with md := v })
      ∧ w 0o33#5 (writeMap { s with md := v })
      ∧ (∀ i : BitVec 5, i.toNat ∈ [0o00, 0o03, 0o04, 0o05, 0o06, 0o07, 0o24, 0o25, 0o26, 0o27, 0o34, 0o35, 0o36,
            0o37] → w i s)

/-- A push and then a pop of either stack gives the word pushed and the pointer as it was; 32 pushes on the
micro-subroutine stack and 1024 on the PDL bring the pointer back, so the stacks wrap silently. -/
def Obligations.StacksPushPopAndWrap : Prop :=
  ∀ (v : Word) (s : State),
    ((spcPop (spcPush v s)).1 = v ∧ (spcPop (spcPush v s)).2 = { s with spc := (spcPush v s).spc })
    ∧ ((pdlPop (pdlPush v s)).1 = v ∧ (pdlPop (pdlPush v s)).2 =
        { s with pdl := (pdlPush v s).pdl, pdlHist := (pdlPop (pdlPush v s)).2.pdlHist })
    ∧ (((spcPush v)^[32] s).spcPtr = s.spcPtr ∧ ((pdlPush v)^[1024] s).pdlPtr = s.pdlPtr)

/-! ## Memory -/

/-- Translation in plain numbers: the two display windows, the diagnostic window, and for every other address
the frame of the tables; only the low 24 bits of the address count (decision D27 for the window results). -/
def Obligations.TranslationCases : Prop :=
  ∀ (v : Word) (s : State),
    (inDisplay v → translateAddr v s = ⟨s.cfg.fbSentinel, v.extractLsb' 0 8, 0#5, true⟩)
    ∧ (inDiag v → translateAddr v s = ⟨s.cfg.diagSentinel, v.extractLsb' 0 8, 0#5, false⟩)
    ∧ (¬ inDisplay v → ¬ inDiag v →
        translateAddr v s =
          ⟨tableFrame v s, v.extractLsb' 0 8, (Memory.read s.l1 (v.extractLsb' 13 11).toNat).extractLsb' 0 5, false⟩)

/-- A virtual read, case by case in the order of the checks: display, missing access permission, the three
device pages, RAM, beyond the budget (decisions D24 to D28 and D45; the permission bits, the page-number mask, the
device pages and the budget are those of the configuration, notes/assumptions/1). -/
def Obligations.VirtualReadCases : Prop :=
  ∀ (v : Word) (s : State),
    let t := translateAddr v s
    let pn := pageNumber t.frame s
    let c := flags false false false s
    let ok := t.display = false ∧ t.frame.getLsbD s.cfg.accessBit = true
    let off : BitVec 24 := 0#16 ++ t.offset
    (t.display = true → memRead v s = devRead .display (v.extractLsb' 0 24) c)
    ∧ (t.display = false → t.frame.getLsbD s.cfg.accessBit = false →
        memRead v s = (0#32, failed true false pn s))
    ∧ (ok → pn = s.cfg.pageFb → memRead v s = devRead .fb off c)
    ∧ (ok → pn = s.cfg.pageBus → pn ≠ s.cfg.pageFb → memRead v s = devRead .bus off c)
    ∧ (ok → pn = s.cfg.pageExtra → pn ≠ s.cfg.pageFb → pn ≠ s.cfg.pageBus → memRead v s = devRead .extra off c)
    ∧ (ok → ¬ isDevicePage pn s → pn.toNat < s.cfg.ramPages →
        memRead v s = (Memory.read s.pmem (256 * pn.toNat + t.offset.toNat),
          { c with pages := Memory.write s.pages pn.toNat 1#1 }))
    ∧ (ok → ¬ isDevicePage pn s → s.cfg.ramPages ≤ pn.toNat → memRead v s = (0#32, failed false false pn s))

/-- A virtual write, case by case in the order of the checks: display, missing access permission, missing write
permission, the three device pages, RAM, beyond the budget (decisions D24 to D28 and D45; the permission bits, the
page-number mask, the device pages and the budget are those of the configuration, notes/assumptions/1). -/
def Obligations.VirtualWriteCases : Prop :=
  ∀ (v x : Word) (s : State),
    let t := translateAddr v s
    let pn := pageNumber t.frame s
    let c := flags false false false s
    let ok := t.display = false ∧ t.frame.getLsbD s.cfg.accessBit = true ∧ t.frame.getLsbD s.cfg.writeBit = true
    let off : BitVec 24 := 0#16 ++ t.offset
    (t.display = true → memWrite v x s = devWrite .display (v.extractLsb' 0 24) x c)
    ∧ (t.display = false → t.frame.getLsbD s.cfg.accessBit = false → memWrite v x s = failed true false pn s)
    ∧ (t.display = false → t.frame.getLsbD s.cfg.accessBit = true → t.frame.getLsbD s.cfg.writeBit = false →
        memWrite v x s = failed false true pn s)
    ∧ (ok → pn = s.cfg.pageFb → memWrite v x s = devWrite .fb off x c)
    ∧ (ok → pn = s.cfg.pageBus → pn ≠ s.cfg.pageFb → memWrite v x s = devWrite .bus off x c)
    ∧ (ok → pn = s.cfg.pageExtra → pn ≠ s.cfg.pageFb → pn ≠ s.cfg.pageBus → memWrite v x s = devWrite .extra off x c)
    ∧ (ok → ¬ isDevicePage pn s → pn.toNat < s.cfg.ramPages →
        memWrite v x s =
          { c with pmem := Memory.write s.pmem (256 * pn.toNat + t.offset.toNat) x
                   pages := Memory.write s.pages pn.toNat 1#1 })
    ∧ (ok → ¬ isDevicePage pn s → s.cfg.ramPages ≤ pn.toNat → memWrite v x s = failed false false pn s)

/-- The document's first two testable properties (R92). For a table-translated address with both permission bits
and a page of RAM that is no device page, a write followed by a read gives the word written. For one without the
access bit, a read sets `ACCESS_FAULT` and leaves physical memory unmodified. The permission bits, the page-number
mask, the device pages and the budget are those of the configuration, so decisions D26, D28 and D45 and
notes/assumptions/1 stand behind what they are. -/
def Obligations.MemoryRoundTrip : Prop :=
  ∀ (v x : Word) (s : State), ¬ inDisplay v → ¬ inDiag v →
    let frame := tableFrame v s
    (frame.getLsbD s.cfg.accessBit = true → frame.getLsbD s.cfg.writeBit = true →
        ¬ isDevicePage (pageNumber frame s) s → (pageNumber frame s).toNat < s.cfg.ramPages →
        (memRead v (memWrite v x s)).1 = x)
    ∧ (frame.getLsbD s.cfg.accessBit = false →
        (memRead v s).2.accessFault = true ∧ (memRead v s).2.pmem = s.pmem)

/-- The map write: which table entries it writes and with what, and that the next translation of the same
address uses the new block and the new frame; nothing else changes (decision D29). -/
def Obligations.MapWriteTakesEffectAtOnce : Prop :=
  ∀ s : State,
    let first := s.vma.getLsbD 26
    let second := s.vma.getLsbD 25
    let old : BitVec 5 := (Memory.read s.l1 (s.md.extractLsb' 13 11).toNat).extractLsb' 0 5
    let block : BitVec 5 := if first then s.vma.extractLsb' 27 5 else old
    let entry := 32 * block.toNat + (s.md.extractLsb' 8 5).toNat
    writeMap s =
        { s with
          l1 := if first then Memory.write s.l1 (s.md.extractLsb' 13 11).toNat (0#27 ++ s.vma.extractLsb' 27 5)
                else s.l1
          l2 := if second then Memory.write s.l2 entry (0#8 ++ s.vma.extractLsb' 0 24) else s.l2 }
      ∧ (¬ inDisplay s.md → ¬ inDiag s.md → second = true →
          translateAddr s.md (writeMap s) = ⟨0#8 ++ s.vma.extractLsb' 0 24, s.md.extractLsb' 0 8, block, false⟩)

/-- The device contract: a read is the environment's next answer, a free value (notes/assumptions/8), but for the
status register on its page; a write is an output event, and on that page two offsets act on the core: one
replaces the writable bits of `INTSTAT`, the other turns the PROM off when the written word has every bit of the
mask (decisions D35 and D48; the page, the offsets and the masks are those of the configuration). -/
def Obligations.DeviceAccesses : Prop :=
  ∀ (dev : Device) (off : BitVec 24) (x : Word) (s : State),
    let controls := holdsControls s.cfg dev
    let atStatus := controls && off == 0#16 ++ s.cfg.intstatOffset
    let atProm := controls && off == 0#16 ++ s.cfg.promctlOffset
    let w := s.cfg.isWritable
    let e := { s with trace := s.trace ++ [⟨dev, off, x⟩] }
    let status : Word := BitVec.ofNat 32 (s.intstat.toNat - (s.intstat &&& w).toNat) ||| (x &&& w)
    let f := if atStatus then { e with intstat := status } else e
    (atStatus = true → devRead dev off s = (s.intstat, s))
    ∧ (atStatus = false →
        devRead dev off s = (Config.deviceValue s.devReads dev off, { s with devReads := s.devReads + 1 }))
    ∧ (atProm = true → (∀ k, s.cfg.promctlMask.getLsbD k = true → x.getLsbD k = true) →
        devWrite dev off x s = { f with promEn := false })
    ∧ (atProm = true → (∃ k, s.cfg.promctlMask.getLsbD k = true ∧ x.getLsbD k = false) → devWrite dev off x s = f)
    ∧ (atProm = false → devWrite dev off x s = f)

/-- The interrupt controller: a Unibus assert is lost while the enable bit is clear, else it sets the present
bit and replaces the vector; its deassert clears both; the Xbus pair moves one bit; pending is the two present
bits; each operation leaves every other bit and every other register (decision D34 for the positions, which are
those of the configuration). -/
def Obligations.InterruptController : Prop :=
  ∀ (v : Word) (s : State),
    let c := s.cfg
    (¬ anyBit s.intstat c.isUbEnable → assertUnibus v s = s)
    ∧ (anyBit s.intstat c.isUbEnable →
        assertUnibus v s = { s with intstat := (assertUnibus v s).intstat }
          ∧ ∀ k < 32, (assertUnibus v s).intstat.getLsbD k =
              if c.isUbPresent.getLsbD k then true
              else if c.isVector.getLsbD k then v.getLsbD k else s.intstat.getLsbD k)
    ∧ (¬ anyBit s.intstat c.isUbPresent → deassertUnibus s = s)
    ∧ (anyBit s.intstat c.isUbPresent →
        deassertUnibus s = { s with intstat := (deassertUnibus s).intstat }
          ∧ ∀ k < 32, (deassertUnibus s).intstat.getLsbD k =
              if c.isUbPresent.getLsbD k || c.isVector.getLsbD k then false else s.intstat.getLsbD k)
    ∧ (assertXbus s = { s with intstat := (assertXbus s).intstat }
        ∧ ∀ k < 32, (assertXbus s).intstat.getLsbD k =
            if c.isXbPresent.getLsbD k then true else s.intstat.getLsbD k)
    ∧ (deassertXbus s = { s with intstat := (deassertXbus s).intstat }
        ∧ ∀ k < 32, (deassertXbus s).intstat.getLsbD k =
            if c.isXbPresent.getLsbD k then false else s.intstat.getLsbD k)
    ∧ (pending s = true ↔ interruptPresent s)

/-! ## The checkpoint codec and the PROM image -/

/-- The round-trip law: the dump of any state that meets the invariant, restored on an engine of the same
configuration in its reset state with any PROM, gives that engine with everything the file carries, and its own
reset values elsewhere; the rings come back oldest first from slot 0; every page below the save count then exists,
and the pages above it are not carried (decisions D39 to D41 and D51). -/
def Obligations.CheckpointRoundTrip : Prop :=
  ∀ (s : State) (prom : Memory 48), Inv s →
    let r := { resetWith s.cfg with prom := prom }
    let t := restore (some (dump s)) r
    t = { r with
          restored := true
          pdlIdx := s.pdlIdx, pdlPtr := s.pdlPtr, lc := s.lc, npc := s.npc, spcPtr := s.spcPtr, md := s.md
          vma := s.vma, opc := s.opc, oaLo := s.oaLo, oaLoV := s.oaLoV, oaHi := s.oaHi, oaHiV := s.oaHiV
          imem := s.imem, dmem := s.dmem, spc := s.spc, l1 := s.l1, l2 := s.l2, pdl := s.pdl, amem := s.amem
          mmem := s.mmem
          pmem := s.pmem.filter (fun c => c.1 < 256 * s.cfg.savePages)
          pages := Memory.ofWords 0 (List.replicate s.cfg.savePages 1#1)
          lcHist := t.lcHist, pcHist := t.pcHist, pdlHist := t.pdlHist }
      ∧ ringRestored s.cfg.lcHistN s.lcHist t.lcHist
      ∧ ringRestored s.cfg.pcHistN s.pcHist t.pcHist
      ∧ ringRestored s.cfg.pdlHistN s.pdlHist t.pdlHist

/-- A dump that is cut short, at any byte, restores nothing on a machine of the same configuration: the machine is
as it was (for a configuration that the rules allow, notes/assumptions/25). -/
def Obligations.TruncatedCheckpointRestoresNothing : Prop :=
  ∀ (s t : State) (n : Nat), configOk s.cfg = true → t.cfg = s.cfg → n < (dump s).length →
    restore (some ((dump s).take n)) t = t

/-- A restore after a successful one is a no-op whatever bytes it is given; a restore that fails leaves the
machine as it was and another attempt possible; no instruction touches the flag, and reset clears it. -/
def Obligations.RestoreHappensOnce : Prop :=
  (∀ (file : Option (List Byte)) (s : State), s.restored = true → restore file s = s)
    ∧ (∀ (file : Option (List Byte)) (s : State), restore file s = s ∨ (restore file s).restored = true)
    ∧ (∀ (i : Instr) (s t : State), exec i s = .next t → t.restored = s.restored)
    ∧ State.reset.restored = false

/-- The PROM image: three header words and the instructions, at `start` and on, wrapping at 512, so that of a longer
image the last 512 instructions stay; the code word and the unused half of each instruction are ignored, and
nothing but the PROM changes (decision D38). -/
def Obligations.PromImageLoads : Prop :=
  ∀ (code start : Word) (us : List (BitVec 16 × MicroWord)) (s : State), us.length < 2 ^ 32 →
    ∃ t, loadProm (headerWord code ++ headerWord start ++ headerWord (BitVec.ofNat 32 us.length)
            ++ us.flatMap (fun p => imageWord p.1 p.2)) s = some t
      ∧ t = { s with prom := t.prom }
      ∧ (∀ k < us.length, us.length ≤ k + 512 →
          Memory.read t.prom ((start.toNat + k) % 512) = (us.getD k (0, 0)).2)
      ∧ (∀ a, (∀ k < us.length, a ≠ (start.toNat + k) % 512) → Memory.read t.prom a = Memory.read s.prom a)

/-! ## The configuration -/

/-- The default configuration has the default that R9 gives each parameter (the grounds are decisions D20, D26 to
D28, D34, D35, D39, D45, D46 and D51, many of them from general knowledge: notes/assumptions/2), and it is one that
the rules allow (notes/assumptions/25). `JUMP_CMP_SIGNED` has no default and is none of its fields. -/
def Obligations.DefaultConfiguration : Prop :=
  let c := defaultConfig
  (c.imemSize = 2 ^ 14 ∧ c.ramPages = 2048 ∧ c.savePages = c.ramPages)
  ∧ (∀ k, c.pnMask.getLsbD k = decide (k < 14)) ∧ (c.accessBit = 23 ∧ c.writeBit = 22)
  ∧ (c.fbSentinel = 0o36000#32 ∧ c.diagSentinel = 0o60036777#32)
  ∧ (c.pageFb = 0o36000#32 ∧ c.pageBus = 0o36777#32 ∧ c.pageExtra = 0o37764#32)
  ∧ (∀ k, c.isVector.getLsbD k = decide (2 ≤ k ∧ k ≤ 9))
  ∧ (c.isUbEnable = 1#32 <<< 10 ∧ c.isUbPresent = 1#32 <<< 15 ∧ c.isXbPresent = 1#32 <<< 14)
  ∧ (∀ k, c.isWritable.getLsbD k = decide (k = 0 ∨ 10 ≤ k ∧ k ≤ 13))
  ∧ c.lcPosTable = none
  ∧ (c.ckptMagic = "USIM".toList.map (fun ch => BitVec.ofNat 8 ch.toNat) ∧ c.ckptVersion = 1#32 ∧ c.eofPad = 0#8)
  ∧ c.ckptTags =
      ["PDLI", "PDLP", "LCNT", "LCHL", "UPCR", "USPR", "MDRG", "VMAR", "OPCR", "OALO", "OAHI", "IMEM", "DMEM",
       "USTK", "PCHL", "PDHL", "L1MP", "L2MP", "PDLM", "AMEM", "MMEM", "PMEM"].map
        (fun tag => tag.toList.map (fun ch => BitVec.ofNat 8 ch.toNat))
  ∧ (c.lcHistN = 0 ∧ c.pcHistN = 0 ∧ c.pdlHistN = 0)
  ∧ (c.intstatPage = c.pageBus ∧ c.intstatOffset = 0o40#8 ∧ c.promctlOffset = 0o12#8 ∧ c.promctlMask = 0o44#32)
  ∧ configOk c = true

/-- No action of any agent changes the configuration: no step, no interrupt operation, no restore of any file, no
PROM load, no halt request, no reset. That the configuration is a field of the state is the model's choice
(notes/assumptions/1). -/
def Obligations.ConfigurationNeverChanges : Prop :=
  ∀ (a : Action) (s t : State), act a s = .next t → t.cfg = s.cfg
end

