-- ==== Sys2Proof/Laws/State.lean ====
section
/-! SUPPORT. One lemma per field per named update of the state, each true by unfolding the update. -/

namespace Sys2Proof.Machine

/-! ## `clearFaults` -/

@[simp] theorem clearFaults_cfg (s : State) :
    (clearFaults s).cfg = s.cfg := rfl
@[simp] theorem clearFaults_amem (s : State) :
    (clearFaults s).amem = s.amem := rfl
@[simp] theorem clearFaults_mmem (s : State) :
    (clearFaults s).mmem = s.mmem := rfl
@[simp] theorem clearFaults_npc (s : State) :
    (clearFaults s).npc = s.npc := rfl
@[simp] theorem clearFaults_p0 (s : State) :
    (clearFaults s).p0 = s.p0 := rfl
@[simp] theorem clearFaults_p1 (s : State) :
    (clearFaults s).p1 = s.p1 := rfl
@[simp] theorem clearFaults_p0pc (s : State) :
    (clearFaults s).p0pc = s.p0pc := rfl
@[simp] theorem clearFaults_p1pc (s : State) :
    (clearFaults s).p1pc = s.p1pc := rfl
@[simp] theorem clearFaults_inhibit (s : State) :
    (clearFaults s).inhibit = s.inhibit := rfl
@[simp] theorem clearFaults_promEn (s : State) :
    (clearFaults s).promEn = s.promEn := rfl
@[simp] theorem clearFaults_halted (s : State) :
    (clearFaults s).halted = s.halted := rfl
@[simp] theorem clearFaults_oaLo (s : State) :
    (clearFaults s).oaLo = s.oaLo := rfl
@[simp] theorem clearFaults_oaLoV (s : State) :
    (clearFaults s).oaLoV = s.oaLoV := rfl
@[simp] theorem clearFaults_oaHi (s : State) :
    (clearFaults s).oaHi = s.oaHi := rfl
@[simp] theorem clearFaults_oaHiV (s : State) :
    (clearFaults s).oaHiV = s.oaHiV := rfl
@[simp] theorem clearFaults_accessFault (s : State) :
    (clearFaults s).accessFault = false := rfl
@[simp] theorem clearFaults_writeFault (s : State) :
    (clearFaults s).writeFault = false := rfl
@[simp] theorem clearFaults_pageFault (s : State) :
    (clearFaults s).pageFault = false := rfl
@[simp] theorem clearFaults_dc (s : State) :
    (clearFaults s).dc = s.dc := rfl
@[simp] theorem clearFaults_opc (s : State) :
    (clearFaults s).opc = s.opc := rfl
@[simp] theorem clearFaults_q (s : State) :
    (clearFaults s).q = s.q := rfl
@[simp] theorem clearFaults_vma (s : State) :
    (clearFaults s).vma = s.vma := rfl
@[simp] theorem clearFaults_md (s : State) :
    (clearFaults s).md = s.md := rfl
@[simp] theorem clearFaults_lc (s : State) :
    (clearFaults s).lc = s.lc := rfl
@[simp] theorem clearFaults_icr (s : State) :
    (clearFaults s).icr = s.icr := rfl
@[simp] theorem clearFaults_spc (s : State) :
    (clearFaults s).spc = s.spc := rfl
@[simp] theorem clearFaults_spcPtr (s : State) :
    (clearFaults s).spcPtr = s.spcPtr := rfl
@[simp] theorem clearFaults_pdl (s : State) :
    (clearFaults s).pdl = s.pdl := rfl
@[simp] theorem clearFaults_pdlPtr (s : State) :
    (clearFaults s).pdlPtr = s.pdlPtr := rfl
@[simp] theorem clearFaults_pdlIdx (s : State) :
    (clearFaults s).pdlIdx = s.pdlIdx := rfl
@[simp] theorem clearFaults_dmem (s : State) :
    (clearFaults s).dmem = s.dmem := rfl
@[simp] theorem clearFaults_imem (s : State) :
    (clearFaults s).imem = s.imem := rfl
@[simp] theorem clearFaults_prom (s : State) :
    (clearFaults s).prom = s.prom := rfl
@[simp] theorem clearFaults_intstat (s : State) :
    (clearFaults s).intstat = s.intstat := rfl
@[simp] theorem clearFaults_l1 (s : State) :
    (clearFaults s).l1 = s.l1 := rfl
@[simp] theorem clearFaults_l2 (s : State) :
    (clearFaults s).l2 = s.l2 := rfl
@[simp] theorem clearFaults_pmem (s : State) :
    (clearFaults s).pmem = s.pmem := rfl
@[simp] theorem clearFaults_pages (s : State) :
    (clearFaults s).pages = s.pages := rfl
@[simp] theorem clearFaults_rdDelay (s : State) :
    (clearFaults s).rdDelay = s.rdDelay := rfl
@[simp] theorem clearFaults_rdValue (s : State) :
    (clearFaults s).rdValue = s.rdValue := rfl
@[simp] theorem clearFaults_restored (s : State) :
    (clearFaults s).restored = s.restored := rfl
@[simp] theorem clearFaults_lcHist (s : State) :
    (clearFaults s).lcHist = s.lcHist := rfl
@[simp] theorem clearFaults_pcHist (s : State) :
    (clearFaults s).pcHist = s.pcHist := rfl
@[simp] theorem clearFaults_pdlHist (s : State) :
    (clearFaults s).pdlHist = s.pdlHist := rfl
@[simp] theorem clearFaults_devReads (s : State) :
    (clearFaults s).devReads = s.devReads := rfl
@[simp] theorem clearFaults_trace (s : State) :
    (clearFaults s).trace = s.trace := rfl

/-! ## `signalFault` -/

@[simp] theorem signalFault_cfg (a w : Bool) (pn : Word) (s : State) :
    (signalFault a w pn s).cfg = s.cfg := rfl
@[simp] theorem signalFault_amem (a w : Bool) (pn : Word) (s : State) :
    (signalFault a w pn s).amem = s.amem := rfl
@[simp] theorem signalFault_mmem (a w : Bool) (pn : Word) (s : State) :
    (signalFault a w pn s).mmem = s.mmem := rfl
@[simp] theorem signalFault_npc (a w : Bool) (pn : Word) (s : State) :
    (signalFault a w pn s).npc = s.npc := rfl
@[simp] theorem signalFault_p0 (a w : Bool) (pn : Word) (s : State) :
    (signalFault a w pn s).p0 = s.p0 := rfl
@[simp] theorem signalFault_p1 (a w : Bool) (pn : Word) (s : State) :
    (signalFault a w pn s).p1 = s.p1 := rfl
@[simp] theorem signalFault_p0pc (a w : Bool) (pn : Word) (s : State) :
    (signalFault a w pn s).p0pc = s.p0pc := rfl
@[simp] theorem signalFault_p1pc (a w : Bool) (pn : Word) (s : State) :
    (signalFault a w pn s).p1pc = s.p1pc := rfl
@[simp] theorem signalFault_inhibit (a w : Bool) (pn : Word) (s : State) :
    (signalFault a w pn s).inhibit = s.inhibit := rfl
@[simp] theorem signalFault_promEn (a w : Bool) (pn : Word) (s : State) :
    (signalFault a w pn s).promEn = s.promEn := rfl
@[simp] theorem signalFault_halted (a w : Bool) (pn : Word) (s : State) :
    (signalFault a w pn s).halted = s.halted := rfl
@[simp] theorem signalFault_oaLo (a w : Bool) (pn : Word) (s : State) :
    (signalFault a w pn s).oaLo = s.oaLo := rfl
@[simp] theorem signalFault_oaLoV (a w : Bool) (pn : Word) (s : State) :
    (signalFault a w pn s).oaLoV = s.oaLoV := rfl
@[simp] theorem signalFault_oaHi (a w : Bool) (pn : Word) (s : State) :
    (signalFault a w pn s).oaHi = s.oaHi := rfl
@[simp] theorem signalFault_oaHiV (a w : Bool) (pn : Word) (s : State) :
    (signalFault a w pn s).oaHiV = s.oaHiV := rfl
@[simp] theorem signalFault_accessFault (a w : Bool) (pn : Word) (s : State) :
    (signalFault a w pn s).accessFault = a := rfl
@[simp] theorem signalFault_writeFault (a w : Bool) (pn : Word) (s : State) :
    (signalFault a w pn s).writeFault = w := rfl
@[simp] theorem signalFault_pageFault (a w : Bool) (pn : Word) (s : State) :
    (signalFault a w pn s).pageFault = true := rfl
@[simp] theorem signalFault_dc (a w : Bool) (pn : Word) (s : State) :
    (signalFault a w pn s).dc = s.dc := rfl
@[simp] theorem signalFault_opc (a w : Bool) (pn : Word) (s : State) :
    (signalFault a w pn s).opc = pn := rfl
@[simp] theorem signalFault_q (a w : Bool) (pn : Word) (s : State) :
    (signalFault a w pn s).q = s.q := rfl
@[simp] theorem signalFault_vma (a w : Bool) (pn : Word) (s : State) :
    (signalFault a w pn s).vma = s.vma := rfl
@[simp] theorem signalFault_md (a w : Bool) (pn : Word) (s : State) :
    (signalFault a w pn s).md = s.md := rfl
@[simp] theorem signalFault_lc (a w : Bool) (pn : Word) (s : State) :
    (signalFault a w pn s).lc = s.lc := rfl
@[simp] theorem signalFault_icr (a w : Bool) (pn : Word) (s : State) :
    (signalFault a w pn s).icr = s.icr := rfl
@[simp] theorem signalFault_spc (a w : Bool) (pn : Word) (s : State) :
    (signalFault a w pn s).spc = s.spc := rfl
@[simp] theorem signalFault_spcPtr (a w : Bool) (pn : Word) (s : State) :
    (signalFault a w pn s).spcPtr = s.spcPtr := rfl
@[simp] theorem signalFault_pdl (a w : Bool) (pn : Word) (s : State) :
    (signalFault a w pn s).pdl = s.pdl := rfl
@[simp] theorem signalFault_pdlPtr (a w : Bool) (pn : Word) (s : State) :
    (signalFault a w pn s).pdlPtr = s.pdlPtr := rfl
@[simp] theorem signalFault_pdlIdx (a w : Bool) (pn : Word) (s : State) :
    (signalFault a w pn s).pdlIdx = s.pdlIdx := rfl
@[simp] theorem signalFault_dmem (a w : Bool) (pn : Word) (s : State) :
    (signalFault a w pn s).dmem = s.dmem := rfl
@[simp] theorem signalFault_imem (a w : Bool) (pn : Word) (s : State) :
    (signalFault a w pn s).imem = s.imem := rfl
@[simp] theorem signalFault_prom (a w : Bool) (pn : Word) (s : State) :
    (signalFault a w pn s).prom = s.prom := rfl
@[simp] theorem signalFault_intstat (a w : Bool) (pn : Word) (s : State) :
    (signalFault a w pn s).intstat = s.intstat := rfl
@[simp] theorem signalFault_l1 (a w : Bool) (pn : Word) (s : State) :
    (signalFault a w pn s).l1 = s.l1 := rfl
@[simp] theorem signalFault_l2 (a w : Bool) (pn : Word) (s : State) :
    (signalFault a w pn s).l2 = s.l2 := rfl
@[simp] theorem signalFault_pmem (a w : Bool) (pn : Word) (s : State) :
    (signalFault a w pn s).pmem = s.pmem := rfl
@[simp] theorem signalFault_pages (a w : Bool) (pn : Word) (s : State) :
    (signalFault a w pn s).pages = s.pages := rfl
@[simp] theorem signalFault_rdDelay (a w : Bool) (pn : Word) (s : State) :
    (signalFault a w pn s).rdDelay = s.rdDelay := rfl
@[simp] theorem signalFault_rdValue (a w : Bool) (pn : Word) (s : State) :
    (signalFault a w pn s).rdValue = s.rdValue := rfl
@[simp] theorem signalFault_restored (a w : Bool) (pn : Word) (s : State) :
    (signalFault a w pn s).restored = s.restored := rfl
@[simp] theorem signalFault_lcHist (a w : Bool) (pn : Word) (s : State) :
    (signalFault a w pn s).lcHist = s.lcHist := rfl
@[simp] theorem signalFault_pcHist (a w : Bool) (pn : Word) (s : State) :
    (signalFault a w pn s).pcHist = s.pcHist := rfl
@[simp] theorem signalFault_pdlHist (a w : Bool) (pn : Word) (s : State) :
    (signalFault a w pn s).pdlHist = s.pdlHist := rfl
@[simp] theorem signalFault_devReads (a w : Bool) (pn : Word) (s : State) :
    (signalFault a w pn s).devReads = s.devReads := rfl
@[simp] theorem signalFault_trace (a w : Bool) (pn : Word) (s : State) :
    (signalFault a w pn s).trace = s.trace := rfl

/-! ## `setStatus` -/

@[simp] theorem setStatus_cfg (x : Word) (s : State) :
    (setStatus x s).cfg = s.cfg := rfl
@[simp] theorem setStatus_amem (x : Word) (s : State) :
    (setStatus x s).amem = s.amem := rfl
@[simp] theorem setStatus_mmem (x : Word) (s : State) :
    (setStatus x s).mmem = s.mmem := rfl
@[simp] theorem setStatus_npc (x : Word) (s : State) :
    (setStatus x s).npc = s.npc := rfl
@[simp] theorem setStatus_p0 (x : Word) (s : State) :
    (setStatus x s).p0 = s.p0 := rfl
@[simp] theorem setStatus_p1 (x : Word) (s : State) :
    (setStatus x s).p1 = s.p1 := rfl
@[simp] theorem setStatus_p0pc (x : Word) (s : State) :
    (setStatus x s).p0pc = s.p0pc := rfl
@[simp] theorem setStatus_p1pc (x : Word) (s : State) :
    (setStatus x s).p1pc = s.p1pc := rfl
@[simp] theorem setStatus_inhibit (x : Word) (s : State) :
    (setStatus x s).inhibit = s.inhibit := rfl
@[simp] theorem setStatus_promEn (x : Word) (s : State) :
    (setStatus x s).promEn = s.promEn := rfl
@[simp] theorem setStatus_halted (x : Word) (s : State) :
    (setStatus x s).halted = s.halted := rfl
@[simp] theorem setStatus_oaLo (x : Word) (s : State) :
    (setStatus x s).oaLo = s.oaLo := rfl
@[simp] theorem setStatus_oaLoV (x : Word) (s : State) :
    (setStatus x s).oaLoV = s.oaLoV := rfl
@[simp] theorem setStatus_oaHi (x : Word) (s : State) :
    (setStatus x s).oaHi = s.oaHi := rfl
@[simp] theorem setStatus_oaHiV (x : Word) (s : State) :
    (setStatus x s).oaHiV = s.oaHiV := rfl
@[simp] theorem setStatus_accessFault (x : Word) (s : State) :
    (setStatus x s).accessFault = s.accessFault := rfl
@[simp] theorem setStatus_writeFault (x : Word) (s : State) :
    (setStatus x s).writeFault = s.writeFault := rfl
@[simp] theorem setStatus_pageFault (x : Word) (s : State) :
    (setStatus x s).pageFault = s.pageFault := rfl
@[simp] theorem setStatus_dc (x : Word) (s : State) :
    (setStatus x s).dc = s.dc := rfl
@[simp] theorem setStatus_opc (x : Word) (s : State) :
    (setStatus x s).opc = s.opc := rfl
@[simp] theorem setStatus_q (x : Word) (s : State) :
    (setStatus x s).q = s.q := rfl
@[simp] theorem setStatus_vma (x : Word) (s : State) :
    (setStatus x s).vma = s.vma := rfl
@[simp] theorem setStatus_md (x : Word) (s : State) :
    (setStatus x s).md = s.md := rfl
@[simp] theorem setStatus_lc (x : Word) (s : State) :
    (setStatus x s).lc = s.lc := rfl
@[simp] theorem setStatus_icr (x : Word) (s : State) :
    (setStatus x s).icr = s.icr := rfl
@[simp] theorem setStatus_spc (x : Word) (s : State) :
    (setStatus x s).spc = s.spc := rfl
@[simp] theorem setStatus_spcPtr (x : Word) (s : State) :
    (setStatus x s).spcPtr = s.spcPtr := rfl
@[simp] theorem setStatus_pdl (x : Word) (s : State) :
    (setStatus x s).pdl = s.pdl := rfl
@[simp] theorem setStatus_pdlPtr (x : Word) (s : State) :
    (setStatus x s).pdlPtr = s.pdlPtr := rfl
@[simp] theorem setStatus_pdlIdx (x : Word) (s : State) :
    (setStatus x s).pdlIdx = s.pdlIdx := rfl
@[simp] theorem setStatus_dmem (x : Word) (s : State) :
    (setStatus x s).dmem = s.dmem := rfl
@[simp] theorem setStatus_imem (x : Word) (s : State) :
    (setStatus x s).imem = s.imem := rfl
@[simp] theorem setStatus_prom (x : Word) (s : State) :
    (setStatus x s).prom = s.prom := rfl
@[simp] theorem setStatus_intstat (x : Word) (s : State) :
    (setStatus x s).intstat = (s.intstat &&& ~~~s.cfg.isWritable) ||| (x &&& s.cfg.isWritable) := rfl
@[simp] theorem setStatus_l1 (x : Word) (s : State) :
    (setStatus x s).l1 = s.l1 := rfl
@[simp] theorem setStatus_l2 (x : Word) (s : State) :
    (setStatus x s).l2 = s.l2 := rfl
@[simp] theorem setStatus_pmem (x : Word) (s : State) :
    (setStatus x s).pmem = s.pmem := rfl
@[simp] theorem setStatus_pages (x : Word) (s : State) :
    (setStatus x s).pages = s.pages := rfl
@[simp] theorem setStatus_rdDelay (x : Word) (s : State) :
    (setStatus x s).rdDelay = s.rdDelay := rfl
@[simp] theorem setStatus_rdValue (x : Word) (s : State) :
    (setStatus x s).rdValue = s.rdValue := rfl
@[simp] theorem setStatus_restored (x : Word) (s : State) :
    (setStatus x s).restored = s.restored := rfl
@[simp] theorem setStatus_lcHist (x : Word) (s : State) :
    (setStatus x s).lcHist = s.lcHist := rfl
@[simp] theorem setStatus_pcHist (x : Word) (s : State) :
    (setStatus x s).pcHist = s.pcHist := rfl
@[simp] theorem setStatus_pdlHist (x : Word) (s : State) :
    (setStatus x s).pdlHist = s.pdlHist := rfl
@[simp] theorem setStatus_devReads (x : Word) (s : State) :
    (setStatus x s).devReads = s.devReads := rfl
@[simp] theorem setStatus_trace (x : Word) (s : State) :
    (setStatus x s).trace = s.trace := rfl

/-! ## `assertXbus` -/

@[simp] theorem assertXbus_cfg (s : State) :
    (assertXbus s).cfg = s.cfg := rfl
@[simp] theorem assertXbus_amem (s : State) :
    (assertXbus s).amem = s.amem := rfl
@[simp] theorem assertXbus_mmem (s : State) :
    (assertXbus s).mmem = s.mmem := rfl
@[simp] theorem assertXbus_npc (s : State) :
    (assertXbus s).npc = s.npc := rfl
@[simp] theorem assertXbus_p0 (s : State) :
    (assertXbus s).p0 = s.p0 := rfl
@[simp] theorem assertXbus_p1 (s : State) :
    (assertXbus s).p1 = s.p1 := rfl
@[simp] theorem assertXbus_p0pc (s : State) :
    (assertXbus s).p0pc = s.p0pc := rfl
@[simp] theorem assertXbus_p1pc (s : State) :
    (assertXbus s).p1pc = s.p1pc := rfl
@[simp] theorem assertXbus_inhibit (s : State) :
    (assertXbus s).inhibit = s.inhibit := rfl
@[simp] theorem assertXbus_promEn (s : State) :
    (assertXbus s).promEn = s.promEn := rfl
@[simp] theorem assertXbus_halted (s : State) :
    (assertXbus s).halted = s.halted := rfl
@[simp] theorem assertXbus_oaLo (s : State) :
    (assertXbus s).oaLo = s.oaLo := rfl
@[simp] theorem assertXbus_oaLoV (s : State) :
    (assertXbus s).oaLoV = s.oaLoV := rfl
@[simp] theorem assertXbus_oaHi (s : State) :
    (assertXbus s).oaHi = s.oaHi := rfl
@[simp] theorem assertXbus_oaHiV (s : State) :
    (assertXbus s).oaHiV = s.oaHiV := rfl
@[simp] theorem assertXbus_accessFault (s : State) :
    (assertXbus s).accessFault = s.accessFault := rfl
@[simp] theorem assertXbus_writeFault (s : State) :
    (assertXbus s).writeFault = s.writeFault := rfl
@[simp] theorem assertXbus_pageFault (s : State) :
    (assertXbus s).pageFault = s.pageFault := rfl
@[simp] theorem assertXbus_dc (s : State) :
    (assertXbus s).dc = s.dc := rfl
@[simp] theorem assertXbus_opc (s : State) :
    (assertXbus s).opc = s.opc := rfl
@[simp] theorem assertXbus_q (s : State) :
    (assertXbus s).q = s.q := rfl
@[simp] theorem assertXbus_vma (s : State) :
    (assertXbus s).vma = s.vma := rfl
@[simp] theorem assertXbus_md (s : State) :
    (assertXbus s).md = s.md := rfl
@[simp] theorem assertXbus_lc (s : State) :
    (assertXbus s).lc = s.lc := rfl
@[simp] theorem assertXbus_icr (s : State) :
    (assertXbus s).icr = s.icr := rfl
@[simp] theorem assertXbus_spc (s : State) :
    (assertXbus s).spc = s.spc := rfl
@[simp] theorem assertXbus_spcPtr (s : State) :
    (assertXbus s).spcPtr = s.spcPtr := rfl
@[simp] theorem assertXbus_pdl (s : State) :
    (assertXbus s).pdl = s.pdl := rfl
@[simp] theorem assertXbus_pdlPtr (s : State) :
    (assertXbus s).pdlPtr = s.pdlPtr := rfl
@[simp] theorem assertXbus_pdlIdx (s : State) :
    (assertXbus s).pdlIdx = s.pdlIdx := rfl
@[simp] theorem assertXbus_dmem (s : State) :
    (assertXbus s).dmem = s.dmem := rfl
@[simp] theorem assertXbus_imem (s : State) :
    (assertXbus s).imem = s.imem := rfl
@[simp] theorem assertXbus_prom (s : State) :
    (assertXbus s).prom = s.prom := rfl
@[simp] theorem assertXbus_intstat (s : State) :
    (assertXbus s).intstat = s.intstat ||| s.cfg.isXbPresent := rfl
@[simp] theorem assertXbus_l1 (s : State) :
    (assertXbus s).l1 = s.l1 := rfl
@[simp] theorem assertXbus_l2 (s : State) :
    (assertXbus s).l2 = s.l2 := rfl
@[simp] theorem assertXbus_pmem (s : State) :
    (assertXbus s).pmem = s.pmem := rfl
@[simp] theorem assertXbus_pages (s : State) :
    (assertXbus s).pages = s.pages := rfl
@[simp] theorem assertXbus_rdDelay (s : State) :
    (assertXbus s).rdDelay = s.rdDelay := rfl
@[simp] theorem assertXbus_rdValue (s : State) :
    (assertXbus s).rdValue = s.rdValue := rfl
@[simp] theorem assertXbus_restored (s : State) :
    (assertXbus s).restored = s.restored := rfl
@[simp] theorem assertXbus_lcHist (s : State) :
    (assertXbus s).lcHist = s.lcHist := rfl
@[simp] theorem assertXbus_pcHist (s : State) :
    (assertXbus s).pcHist = s.pcHist := rfl
@[simp] theorem assertXbus_pdlHist (s : State) :
    (assertXbus s).pdlHist = s.pdlHist := rfl
@[simp] theorem assertXbus_devReads (s : State) :
    (assertXbus s).devReads = s.devReads := rfl
@[simp] theorem assertXbus_trace (s : State) :
    (assertXbus s).trace = s.trace := rfl

/-! ## `touchPage` -/

@[simp] theorem touchPage_cfg (pn : Word) (s : State) :
    (touchPage pn s).cfg = s.cfg := rfl
@[simp] theorem touchPage_amem (pn : Word) (s : State) :
    (touchPage pn s).amem = s.amem := rfl
@[simp] theorem touchPage_mmem (pn : Word) (s : State) :
    (touchPage pn s).mmem = s.mmem := rfl
@[simp] theorem touchPage_npc (pn : Word) (s : State) :
    (touchPage pn s).npc = s.npc := rfl
@[simp] theorem touchPage_p0 (pn : Word) (s : State) :
    (touchPage pn s).p0 = s.p0 := rfl
@[simp] theorem touchPage_p1 (pn : Word) (s : State) :
    (touchPage pn s).p1 = s.p1 := rfl
@[simp] theorem touchPage_p0pc (pn : Word) (s : State) :
    (touchPage pn s).p0pc = s.p0pc := rfl
@[simp] theorem touchPage_p1pc (pn : Word) (s : State) :
    (touchPage pn s).p1pc = s.p1pc := rfl
@[simp] theorem touchPage_inhibit (pn : Word) (s : State) :
    (touchPage pn s).inhibit = s.inhibit := rfl
@[simp] theorem touchPage_promEn (pn : Word) (s : State) :
    (touchPage pn s).promEn = s.promEn := rfl
@[simp] theorem touchPage_halted (pn : Word) (s : State) :
    (touchPage pn s).halted = s.halted := rfl
@[simp] theorem touchPage_oaLo (pn : Word) (s : State) :
    (touchPage pn s).oaLo = s.oaLo := rfl
@[simp] theorem touchPage_oaLoV (pn : Word) (s : State) :
    (touchPage pn s).oaLoV = s.oaLoV := rfl
@[simp] theorem touchPage_oaHi (pn : Word) (s : State) :
    (touchPage pn s).oaHi = s.oaHi := rfl
@[simp] theorem touchPage_oaHiV (pn : Word) (s : State) :
    (touchPage pn s).oaHiV = s.oaHiV := rfl
@[simp] theorem touchPage_accessFault (pn : Word) (s : State) :
    (touchPage pn s).accessFault = s.accessFault := rfl
@[simp] theorem touchPage_writeFault (pn : Word) (s : State) :
    (touchPage pn s).writeFault = s.writeFault := rfl
@[simp] theorem touchPage_pageFault (pn : Word) (s : State) :
    (touchPage pn s).pageFault = s.pageFault := rfl
@[simp] theorem touchPage_dc (pn : Word) (s : State) :
    (touchPage pn s).dc = s.dc := rfl
@[simp] theorem touchPage_opc (pn : Word) (s : State) :
    (touchPage pn s).opc = s.opc := rfl
@[simp] theorem touchPage_q (pn : Word) (s : State) :
    (touchPage pn s).q = s.q := rfl
@[simp] theorem touchPage_vma (pn : Word) (s : State) :
    (touchPage pn s).vma = s.vma := rfl
@[simp] theorem touchPage_md (pn : Word) (s : State) :
    (touchPage pn s).md = s.md := rfl
@[simp] theorem touchPage_lc (pn : Word) (s : State) :
    (touchPage pn s).lc = s.lc := rfl
@[simp] theorem touchPage_icr (pn : Word) (s : State) :
    (touchPage pn s).icr = s.icr := rfl
@[simp] theorem touchPage_spc (pn : Word) (s : State) :
    (touchPage pn s).spc = s.spc := rfl
@[simp] theorem touchPage_spcPtr (pn : Word) (s : State) :
    (touchPage pn s).spcPtr = s.spcPtr := rfl
@[simp] theorem touchPage_pdl (pn : Word) (s : State) :
    (touchPage pn s).pdl = s.pdl := rfl
@[simp] theorem touchPage_pdlPtr (pn : Word) (s : State) :
    (touchPage pn s).pdlPtr = s.pdlPtr := rfl
@[simp] theorem touchPage_pdlIdx (pn : Word) (s : State) :
    (touchPage pn s).pdlIdx = s.pdlIdx := rfl
@[simp] theorem touchPage_dmem (pn : Word) (s : State) :
    (touchPage pn s).dmem = s.dmem := rfl
@[simp] theorem touchPage_imem (pn : Word) (s : State) :
    (touchPage pn s).imem = s.imem := rfl
@[simp] theorem touchPage_prom (pn : Word) (s : State) :
    (touchPage pn s).prom = s.prom := rfl
@[simp] theorem touchPage_intstat (pn : Word) (s : State) :
    (touchPage pn s).intstat = s.intstat := rfl
@[simp] theorem touchPage_l1 (pn : Word) (s : State) :
    (touchPage pn s).l1 = s.l1 := rfl
@[simp] theorem touchPage_l2 (pn : Word) (s : State) :
    (touchPage pn s).l2 = s.l2 := rfl
@[simp] theorem touchPage_pmem (pn : Word) (s : State) :
    (touchPage pn s).pmem = s.pmem := rfl
@[simp] theorem touchPage_pages (pn : Word) (s : State) :
    (touchPage pn s).pages = Memory.write s.pages pn.toNat 1#1 := rfl
@[simp] theorem touchPage_rdDelay (pn : Word) (s : State) :
    (touchPage pn s).rdDelay = s.rdDelay := rfl
@[simp] theorem touchPage_rdValue (pn : Word) (s : State) :
    (touchPage pn s).rdValue = s.rdValue := rfl
@[simp] theorem touchPage_restored (pn : Word) (s : State) :
    (touchPage pn s).restored = s.restored := rfl
@[simp] theorem touchPage_lcHist (pn : Word) (s : State) :
    (touchPage pn s).lcHist = s.lcHist := rfl
@[simp] theorem touchPage_pcHist (pn : Word) (s : State) :
    (touchPage pn s).pcHist = s.pcHist := rfl
@[simp] theorem touchPage_pdlHist (pn : Word) (s : State) :
    (touchPage pn s).pdlHist = s.pdlHist := rfl
@[simp] theorem touchPage_devReads (pn : Word) (s : State) :
    (touchPage pn s).devReads = s.devReads := rfl
@[simp] theorem touchPage_trace (pn : Word) (s : State) :
    (touchPage pn s).trace = s.trace := rfl

/-! ## `physWrite` -/

@[simp] theorem physWrite_cfg (pn : Word) (off : BitVec 8) (x : Word) (s : State) :
    (physWrite pn off x s).cfg = s.cfg := rfl
@[simp] theorem physWrite_amem (pn : Word) (off : BitVec 8) (x : Word) (s : State) :
    (physWrite pn off x s).amem = s.amem := rfl
@[simp] theorem physWrite_mmem (pn : Word) (off : BitVec 8) (x : Word) (s : State) :
    (physWrite pn off x s).mmem = s.mmem := rfl
@[simp] theorem physWrite_npc (pn : Word) (off : BitVec 8) (x : Word) (s : State) :
    (physWrite pn off x s).npc = s.npc := rfl
@[simp] theorem physWrite_p0 (pn : Word) (off : BitVec 8) (x : Word) (s : State) :
    (physWrite pn off x s).p0 = s.p0 := rfl
@[simp] theorem physWrite_p1 (pn : Word) (off : BitVec 8) (x : Word) (s : State) :
    (physWrite pn off x s).p1 = s.p1 := rfl
@[simp] theorem physWrite_p0pc (pn : Word) (off : BitVec 8) (x : Word) (s : State) :
    (physWrite pn off x s).p0pc = s.p0pc := rfl
@[simp] theorem physWrite_p1pc (pn : Word) (off : BitVec 8) (x : Word) (s : State) :
    (physWrite pn off x s).p1pc = s.p1pc := rfl
@[simp] theorem physWrite_inhibit (pn : Word) (off : BitVec 8) (x : Word) (s : State) :
    (physWrite pn off x s).inhibit = s.inhibit := rfl
@[simp] theorem physWrite_promEn (pn : Word) (off : BitVec 8) (x : Word) (s : State) :
    (physWrite pn off x s).promEn = s.promEn := rfl
@[simp] theorem physWrite_halted (pn : Word) (off : BitVec 8) (x : Word) (s : State) :
    (physWrite pn off x s).halted = s.halted := rfl
@[simp] theorem physWrite_oaLo (pn : Word) (off : BitVec 8) (x : Word) (s : State) :
    (physWrite pn off x s).oaLo = s.oaLo := rfl
@[simp] theorem physWrite_oaLoV (pn : Word) (off : BitVec 8) (x : Word) (s : State) :
    (physWrite pn off x s).oaLoV = s.oaLoV := rfl
@[simp] theorem physWrite_oaHi (pn : Word) (off : BitVec 8) (x : Word) (s : State) :
    (physWrite pn off x s).oaHi = s.oaHi := rfl
@[simp] theorem physWrite_oaHiV (pn : Word) (off : BitVec 8) (x : Word) (s : State) :
    (physWrite pn off x s).oaHiV = s.oaHiV := rfl
@[simp] theorem physWrite_accessFault (pn : Word) (off : BitVec 8) (x : Word) (s : State) :
    (physWrite pn off x s).accessFault = s.accessFault := rfl
@[simp] theorem physWrite_writeFault (pn : Word) (off : BitVec 8) (x : Word) (s : State) :
    (physWrite pn off x s).writeFault = s.writeFault := rfl
@[simp] theorem physWrite_pageFault (pn : Word) (off : BitVec 8) (x : Word) (s : State) :
    (physWrite pn off x s).pageFault = s.pageFault := rfl
@[simp] theorem physWrite_dc (pn : Word) (off : BitVec 8) (x : Word) (s : State) :
    (physWrite pn off x s).dc = s.dc := rfl
@[simp] theorem physWrite_opc (pn : Word) (off : BitVec 8) (x : Word) (s : State) :
    (physWrite pn off x s).opc = s.opc := rfl
@[simp] theorem physWrite_q (pn : Word) (off : BitVec 8) (x : Word) (s : State) :
    (physWrite pn off x s).q = s.q := rfl
@[simp] theorem physWrite_vma (pn : Word) (off : BitVec 8) (x : Word) (s : State) :
    (physWrite pn off x s).vma = s.vma := rfl
@[simp] theorem physWrite_md (pn : Word) (off : BitVec 8) (x : Word) (s : State) :
    (physWrite pn off x s).md = s.md := rfl
@[simp] theorem physWrite_lc (pn : Word) (off : BitVec 8) (x : Word) (s : State) :
    (physWrite pn off x s).lc = s.lc := rfl
@[simp] theorem physWrite_icr (pn : Word) (off : BitVec 8) (x : Word) (s : State) :
    (physWrite pn off x s).icr = s.icr := rfl
@[simp] theorem physWrite_spc (pn : Word) (off : BitVec 8) (x : Word) (s : State) :
    (physWrite pn off x s).spc = s.spc := rfl
@[simp] theorem physWrite_spcPtr (pn : Word) (off : BitVec 8) (x : Word) (s : State) :
    (physWrite pn off x s).spcPtr = s.spcPtr := rfl
@[simp] theorem physWrite_pdl (pn : Word) (off : BitVec 8) (x : Word) (s : State) :
    (physWrite pn off x s).pdl = s.pdl := rfl
@[simp] theorem physWrite_pdlPtr (pn : Word) (off : BitVec 8) (x : Word) (s : State) :
    (physWrite pn off x s).pdlPtr = s.pdlPtr := rfl
@[simp] theorem physWrite_pdlIdx (pn : Word) (off : BitVec 8) (x : Word) (s : State) :
    (physWrite pn off x s).pdlIdx = s.pdlIdx := rfl
@[simp] theorem physWrite_dmem (pn : Word) (off : BitVec 8) (x : Word) (s : State) :
    (physWrite pn off x s).dmem = s.dmem := rfl
@[simp] theorem physWrite_imem (pn : Word) (off : BitVec 8) (x : Word) (s : State) :
    (physWrite pn off x s).imem = s.imem := rfl
@[simp] theorem physWrite_prom (pn : Word) (off : BitVec 8) (x : Word) (s : State) :
    (physWrite pn off x s).prom = s.prom := rfl
@[simp] theorem physWrite_intstat (pn : Word) (off : BitVec 8) (x : Word) (s : State) :
    (physWrite pn off x s).intstat = s.intstat := rfl
@[simp] theorem physWrite_l1 (pn : Word) (off : BitVec 8) (x : Word) (s : State) :
    (physWrite pn off x s).l1 = s.l1 := rfl
@[simp] theorem physWrite_l2 (pn : Word) (off : BitVec 8) (x : Word) (s : State) :
    (physWrite pn off x s).l2 = s.l2 := rfl
@[simp] theorem physWrite_pmem (pn : Word) (off : BitVec 8) (x : Word) (s : State) :
    (physWrite pn off x s).pmem = Memory.write s.pmem (physAddr pn off) x := rfl
@[simp] theorem physWrite_pages (pn : Word) (off : BitVec 8) (x : Word) (s : State) :
    (physWrite pn off x s).pages = Memory.write s.pages pn.toNat 1#1 := rfl
@[simp] theorem physWrite_rdDelay (pn : Word) (off : BitVec 8) (x : Word) (s : State) :
    (physWrite pn off x s).rdDelay = s.rdDelay := rfl
@[simp] theorem physWrite_rdValue (pn : Word) (off : BitVec 8) (x : Word) (s : State) :
    (physWrite pn off x s).rdValue = s.rdValue := rfl
@[simp] theorem physWrite_restored (pn : Word) (off : BitVec 8) (x : Word) (s : State) :
    (physWrite pn off x s).restored = s.restored := rfl
@[simp] theorem physWrite_lcHist (pn : Word) (off : BitVec 8) (x : Word) (s : State) :
    (physWrite pn off x s).lcHist = s.lcHist := rfl
@[simp] theorem physWrite_pcHist (pn : Word) (off : BitVec 8) (x : Word) (s : State) :
    (physWrite pn off x s).pcHist = s.pcHist := rfl
@[simp] theorem physWrite_pdlHist (pn : Word) (off : BitVec 8) (x : Word) (s : State) :
    (physWrite pn off x s).pdlHist = s.pdlHist := rfl
@[simp] theorem physWrite_devReads (pn : Word) (off : BitVec 8) (x : Word) (s : State) :
    (physWrite pn off x s).devReads = s.devReads := rfl
@[simp] theorem physWrite_trace (pn : Word) (off : BitVec 8) (x : Word) (s : State) :
    (physWrite pn off x s).trace = s.trace := rfl

/-! ## `spcPush` -/

@[simp] theorem spcPush_cfg (v : Word) (s : State) :
    (spcPush v s).cfg = s.cfg := rfl
@[simp] theorem spcPush_amem (v : Word) (s : State) :
    (spcPush v s).amem = s.amem := rfl
@[simp] theorem spcPush_mmem (v : Word) (s : State) :
    (spcPush v s).mmem = s.mmem := rfl
@[simp] theorem spcPush_npc (v : Word) (s : State) :
    (spcPush v s).npc = s.npc := rfl
@[simp] theorem spcPush_p0 (v : Word) (s : State) :
    (spcPush v s).p0 = s.p0 := rfl
@[simp] theorem spcPush_p1 (v : Word) (s : State) :
    (spcPush v s).p1 = s.p1 := rfl
@[simp] theorem spcPush_p0pc (v : Word) (s : State) :
    (spcPush v s).p0pc = s.p0pc := rfl
@[simp] theorem spcPush_p1pc (v : Word) (s : State) :
    (spcPush v s).p1pc = s.p1pc := rfl
@[simp] theorem spcPush_inhibit (v : Word) (s : State) :
    (spcPush v s).inhibit = s.inhibit := rfl
@[simp] theorem spcPush_promEn (v : Word) (s : State) :
    (spcPush v s).promEn = s.promEn := rfl
@[simp] theorem spcPush_halted (v : Word) (s : State) :
    (spcPush v s).halted = s.halted := rfl
@[simp] theorem spcPush_oaLo (v : Word) (s : State) :
    (spcPush v s).oaLo = s.oaLo := rfl
@[simp] theorem spcPush_oaLoV (v : Word) (s : State) :
    (spcPush v s).oaLoV = s.oaLoV := rfl
@[simp] theorem spcPush_oaHi (v : Word) (s : State) :
    (spcPush v s).oaHi = s.oaHi := rfl
@[simp] theorem spcPush_oaHiV (v : Word) (s : State) :
    (spcPush v s).oaHiV = s.oaHiV := rfl
@[simp] theorem spcPush_accessFault (v : Word) (s : State) :
    (spcPush v s).accessFault = s.accessFault := rfl
@[simp] theorem spcPush_writeFault (v : Word) (s : State) :
    (spcPush v s).writeFault = s.writeFault := rfl
@[simp] theorem spcPush_pageFault (v : Word) (s : State) :
    (spcPush v s).pageFault = s.pageFault := rfl
@[simp] theorem spcPush_dc (v : Word) (s : State) :
    (spcPush v s).dc = s.dc := rfl
@[simp] theorem spcPush_opc (v : Word) (s : State) :
    (spcPush v s).opc = s.opc := rfl
@[simp] theorem spcPush_q (v : Word) (s : State) :
    (spcPush v s).q = s.q := rfl
@[simp] theorem spcPush_vma (v : Word) (s : State) :
    (spcPush v s).vma = s.vma := rfl
@[simp] theorem spcPush_md (v : Word) (s : State) :
    (spcPush v s).md = s.md := rfl
@[simp] theorem spcPush_lc (v : Word) (s : State) :
    (spcPush v s).lc = s.lc := rfl
@[simp] theorem spcPush_icr (v : Word) (s : State) :
    (spcPush v s).icr = s.icr := rfl
@[simp] theorem spcPush_spc (v : Word) (s : State) :
    (spcPush v s).spc = Memory.write s.spc (s.spcPtr + 1).toNat v := rfl
@[simp] theorem spcPush_spcPtr (v : Word) (s : State) :
    (spcPush v s).spcPtr = s.spcPtr + 1 := rfl
@[simp] theorem spcPush_pdl (v : Word) (s : State) :
    (spcPush v s).pdl = s.pdl := rfl
@[simp] theorem spcPush_pdlPtr (v : Word) (s : State) :
    (spcPush v s).pdlPtr = s.pdlPtr := rfl
@[simp] theorem spcPush_pdlIdx (v : Word) (s : State) :
    (spcPush v s).pdlIdx = s.pdlIdx := rfl
@[simp] theorem spcPush_dmem (v : Word) (s : State) :
    (spcPush v s).dmem = s.dmem := rfl
@[simp] theorem spcPush_imem (v : Word) (s : State) :
    (spcPush v s).imem = s.imem := rfl
@[simp] theorem spcPush_prom (v : Word) (s : State) :
    (spcPush v s).prom = s.prom := rfl
@[simp] theorem spcPush_intstat (v : Word) (s : State) :
    (spcPush v s).intstat = s.intstat := rfl
@[simp] theorem spcPush_l1 (v : Word) (s : State) :
    (spcPush v s).l1 = s.l1 := rfl
@[simp] theorem spcPush_l2 (v : Word) (s : State) :
    (spcPush v s).l2 = s.l2 := rfl
@[simp] theorem spcPush_pmem (v : Word) (s : State) :
    (spcPush v s).pmem = s.pmem := rfl
@[simp] theorem spcPush_pages (v : Word) (s : State) :
    (spcPush v s).pages = s.pages := rfl
@[simp] theorem spcPush_rdDelay (v : Word) (s : State) :
    (spcPush v s).rdDelay = s.rdDelay := rfl
@[simp] theorem spcPush_rdValue (v : Word) (s : State) :
    (spcPush v s).rdValue = s.rdValue := rfl
@[simp] theorem spcPush_restored (v : Word) (s : State) :
    (spcPush v s).restored = s.restored := rfl
@[simp] theorem spcPush_lcHist (v : Word) (s : State) :
    (spcPush v s).lcHist = s.lcHist := rfl
@[simp] theorem spcPush_pcHist (v : Word) (s : State) :
    (spcPush v s).pcHist = s.pcHist := rfl
@[simp] theorem spcPush_pdlHist (v : Word) (s : State) :
    (spcPush v s).pdlHist = s.pdlHist := rfl
@[simp] theorem spcPush_devReads (v : Word) (s : State) :
    (spcPush v s).devReads = s.devReads := rfl
@[simp] theorem spcPush_trace (v : Word) (s : State) :
    (spcPush v s).trace = s.trace := rfl

/-! ## `spcPop` -/

@[simp] theorem spcPop_cfg (s : State) :
    (spcPop s).2.cfg = s.cfg := rfl
@[simp] theorem spcPop_amem (s : State) :
    (spcPop s).2.amem = s.amem := rfl
@[simp] theorem spcPop_mmem (s : State) :
    (spcPop s).2.mmem = s.mmem := rfl
@[simp] theorem spcPop_npc (s : State) :
    (spcPop s).2.npc = s.npc := rfl
@[simp] theorem spcPop_p0 (s : State) :
    (spcPop s).2.p0 = s.p0 := rfl
@[simp] theorem spcPop_p1 (s : State) :
    (spcPop s).2.p1 = s.p1 := rfl
@[simp] theorem spcPop_p0pc (s : State) :
    (spcPop s).2.p0pc = s.p0pc := rfl
@[simp] theorem spcPop_p1pc (s : State) :
    (spcPop s).2.p1pc = s.p1pc := rfl
@[simp] theorem spcPop_inhibit (s : State) :
    (spcPop s).2.inhibit = s.inhibit := rfl
@[simp] theorem spcPop_promEn (s : State) :
    (spcPop s).2.promEn = s.promEn := rfl
@[simp] theorem spcPop_halted (s : State) :
    (spcPop s).2.halted = s.halted := rfl
@[simp] theorem spcPop_oaLo (s : State) :
    (spcPop s).2.oaLo = s.oaLo := rfl
@[simp] theorem spcPop_oaLoV (s : State) :
    (spcPop s).2.oaLoV = s.oaLoV := rfl
@[simp] theorem spcPop_oaHi (s : State) :
    (spcPop s).2.oaHi = s.oaHi := rfl
@[simp] theorem spcPop_oaHiV (s : State) :
    (spcPop s).2.oaHiV = s.oaHiV := rfl
@[simp] theorem spcPop_accessFault (s : State) :
    (spcPop s).2.accessFault = s.accessFault := rfl
@[simp] theorem spcPop_writeFault (s : State) :
    (spcPop s).2.writeFault = s.writeFault := rfl
@[simp] theorem spcPop_pageFault (s : State) :
    (spcPop s).2.pageFault = s.pageFault := rfl
@[simp] theorem spcPop_dc (s : State) :
    (spcPop s).2.dc = s.dc := rfl
@[simp] theorem spcPop_opc (s : State) :
    (spcPop s).2.opc = s.opc := rfl
@[simp] theorem spcPop_q (s : State) :
    (spcPop s).2.q = s.q := rfl
@[simp] theorem spcPop_vma (s : State) :
    (spcPop s).2.vma = s.vma := rfl
@[simp] theorem spcPop_md (s : State) :
    (spcPop s).2.md = s.md := rfl
@[simp] theorem spcPop_lc (s : State) :
    (spcPop s).2.lc = s.lc := rfl
@[simp] theorem spcPop_icr (s : State) :
    (spcPop s).2.icr = s.icr := rfl
@[simp] theorem spcPop_spc (s : State) :
    (spcPop s).2.spc = s.spc := rfl
@[simp] theorem spcPop_spcPtr (s : State) :
    (spcPop s).2.spcPtr = s.spcPtr - 1 := rfl
@[simp] theorem spcPop_pdl (s : State) :
    (spcPop s).2.pdl = s.pdl := rfl
@[simp] theorem spcPop_pdlPtr (s : State) :
    (spcPop s).2.pdlPtr = s.pdlPtr := rfl
@[simp] theorem spcPop_pdlIdx (s : State) :
    (spcPop s).2.pdlIdx = s.pdlIdx := rfl
@[simp] theorem spcPop_dmem (s : State) :
    (spcPop s).2.dmem = s.dmem := rfl
@[simp] theorem spcPop_imem (s : State) :
    (spcPop s).2.imem = s.imem := rfl
@[simp] theorem spcPop_prom (s : State) :
    (spcPop s).2.prom = s.prom := rfl
@[simp] theorem spcPop_intstat (s : State) :
    (spcPop s).2.intstat = s.intstat := rfl
@[simp] theorem spcPop_l1 (s : State) :
    (spcPop s).2.l1 = s.l1 := rfl
@[simp] theorem spcPop_l2 (s : State) :
    (spcPop s).2.l2 = s.l2 := rfl
@[simp] theorem spcPop_pmem (s : State) :
    (spcPop s).2.pmem = s.pmem := rfl
@[simp] theorem spcPop_pages (s : State) :
    (spcPop s).2.pages = s.pages := rfl
@[simp] theorem spcPop_rdDelay (s : State) :
    (spcPop s).2.rdDelay = s.rdDelay := rfl
@[simp] theorem spcPop_rdValue (s : State) :
    (spcPop s).2.rdValue = s.rdValue := rfl
@[simp] theorem spcPop_restored (s : State) :
    (spcPop s).2.restored = s.restored := rfl
@[simp] theorem spcPop_lcHist (s : State) :
    (spcPop s).2.lcHist = s.lcHist := rfl
@[simp] theorem spcPop_pcHist (s : State) :
    (spcPop s).2.pcHist = s.pcHist := rfl
@[simp] theorem spcPop_pdlHist (s : State) :
    (spcPop s).2.pdlHist = s.pdlHist := rfl
@[simp] theorem spcPop_devReads (s : State) :
    (spcPop s).2.devReads = s.devReads := rfl
@[simp] theorem spcPop_trace (s : State) :
    (spcPop s).2.trace = s.trace := rfl

/-! ## `pdlPush` -/

@[simp] theorem pdlPush_cfg (v : Word) (s : State) :
    (pdlPush v s).cfg = s.cfg := rfl
@[simp] theorem pdlPush_amem (v : Word) (s : State) :
    (pdlPush v s).amem = s.amem := rfl
@[simp] theorem pdlPush_mmem (v : Word) (s : State) :
    (pdlPush v s).mmem = s.mmem := rfl
@[simp] theorem pdlPush_npc (v : Word) (s : State) :
    (pdlPush v s).npc = s.npc := rfl
@[simp] theorem pdlPush_p0 (v : Word) (s : State) :
    (pdlPush v s).p0 = s.p0 := rfl
@[simp] theorem pdlPush_p1 (v : Word) (s : State) :
    (pdlPush v s).p1 = s.p1 := rfl
@[simp] theorem pdlPush_p0pc (v : Word) (s : State) :
    (pdlPush v s).p0pc = s.p0pc := rfl
@[simp] theorem pdlPush_p1pc (v : Word) (s : State) :
    (pdlPush v s).p1pc = s.p1pc := rfl
@[simp] theorem pdlPush_inhibit (v : Word) (s : State) :
    (pdlPush v s).inhibit = s.inhibit := rfl
@[simp] theorem pdlPush_promEn (v : Word) (s : State) :
    (pdlPush v s).promEn = s.promEn := rfl
@[simp] theorem pdlPush_halted (v : Word) (s : State) :
    (pdlPush v s).halted = s.halted := rfl
@[simp] theorem pdlPush_oaLo (v : Word) (s : State) :
    (pdlPush v s).oaLo = s.oaLo := rfl
@[simp] theorem pdlPush_oaLoV (v : Word) (s : State) :
    (pdlPush v s).oaLoV = s.oaLoV := rfl
@[simp] theorem pdlPush_oaHi (v : Word) (s : State) :
    (pdlPush v s).oaHi = s.oaHi := rfl
@[simp] theorem pdlPush_oaHiV (v : Word) (s : State) :
    (pdlPush v s).oaHiV = s.oaHiV := rfl
@[simp] theorem pdlPush_accessFault (v : Word) (s : State) :
    (pdlPush v s).accessFault = s.accessFault := rfl
@[simp] theorem pdlPush_writeFault (v : Word) (s : State) :
    (pdlPush v s).writeFault = s.writeFault := rfl
@[simp] theorem pdlPush_pageFault (v : Word) (s : State) :
    (pdlPush v s).pageFault = s.pageFault := rfl
@[simp] theorem pdlPush_dc (v : Word) (s : State) :
    (pdlPush v s).dc = s.dc := rfl
@[simp] theorem pdlPush_opc (v : Word) (s : State) :
    (pdlPush v s).opc = s.opc := rfl
@[simp] theorem pdlPush_q (v : Word) (s : State) :
    (pdlPush v s).q = s.q := rfl
@[simp] theorem pdlPush_vma (v : Word) (s : State) :
    (pdlPush v s).vma = s.vma := rfl
@[simp] theorem pdlPush_md (v : Word) (s : State) :
    (pdlPush v s).md = s.md := rfl
@[simp] theorem pdlPush_lc (v : Word) (s : State) :
    (pdlPush v s).lc = s.lc := rfl
@[simp] theorem pdlPush_icr (v : Word) (s : State) :
    (pdlPush v s).icr = s.icr := rfl
@[simp] theorem pdlPush_spc (v : Word) (s : State) :
    (pdlPush v s).spc = s.spc := rfl
@[simp] theorem pdlPush_spcPtr (v : Word) (s : State) :
    (pdlPush v s).spcPtr = s.spcPtr := rfl
@[simp] theorem pdlPush_pdl (v : Word) (s : State) :
    (pdlPush v s).pdl = Memory.write s.pdl (s.pdlPtr + 1).toNat v := rfl
@[simp] theorem pdlPush_pdlPtr (v : Word) (s : State) :
    (pdlPush v s).pdlPtr = s.pdlPtr + 1 := rfl
@[simp] theorem pdlPush_pdlIdx (v : Word) (s : State) :
    (pdlPush v s).pdlIdx = s.pdlIdx := rfl
@[simp] theorem pdlPush_dmem (v : Word) (s : State) :
    (pdlPush v s).dmem = s.dmem := rfl
@[simp] theorem pdlPush_imem (v : Word) (s : State) :
    (pdlPush v s).imem = s.imem := rfl
@[simp] theorem pdlPush_prom (v : Word) (s : State) :
    (pdlPush v s).prom = s.prom := rfl
@[simp] theorem pdlPush_intstat (v : Word) (s : State) :
    (pdlPush v s).intstat = s.intstat := rfl
@[simp] theorem pdlPush_l1 (v : Word) (s : State) :
    (pdlPush v s).l1 = s.l1 := rfl
@[simp] theorem pdlPush_l2 (v : Word) (s : State) :
    (pdlPush v s).l2 = s.l2 := rfl
@[simp] theorem pdlPush_pmem (v : Word) (s : State) :
    (pdlPush v s).pmem = s.pmem := rfl
@[simp] theorem pdlPush_pages (v : Word) (s : State) :
    (pdlPush v s).pages = s.pages := rfl
@[simp] theorem pdlPush_rdDelay (v : Word) (s : State) :
    (pdlPush v s).rdDelay = s.rdDelay := rfl
@[simp] theorem pdlPush_rdValue (v : Word) (s : State) :
    (pdlPush v s).rdValue = s.rdValue := rfl
@[simp] theorem pdlPush_restored (v : Word) (s : State) :
    (pdlPush v s).restored = s.restored := rfl
@[simp] theorem pdlPush_lcHist (v : Word) (s : State) :
    (pdlPush v s).lcHist = s.lcHist := rfl
@[simp] theorem pdlPush_pcHist (v : Word) (s : State) :
    (pdlPush v s).pcHist = s.pcHist := rfl
@[simp] theorem pdlPush_pdlHist (v : Word) (s : State) :
    (pdlPush v s).pdlHist = Ring.record s.cfg.pdlHistN s.pdlHist (Config.pdlHistEntry .push (s.pdlPtr + 1) v) := rfl
@[simp] theorem pdlPush_devReads (v : Word) (s : State) :
    (pdlPush v s).devReads = s.devReads := rfl
@[simp] theorem pdlPush_trace (v : Word) (s : State) :
    (pdlPush v s).trace = s.trace := rfl

/-! ## `pdlPop` -/

@[simp] theorem pdlPop_cfg (s : State) :
    (pdlPop s).2.cfg = s.cfg := rfl
@[simp] theorem pdlPop_amem (s : State) :
    (pdlPop s).2.amem = s.amem := rfl
@[simp] theorem pdlPop_mmem (s : State) :
    (pdlPop s).2.mmem = s.mmem := rfl
@[simp] theorem pdlPop_npc (s : State) :
    (pdlPop s).2.npc = s.npc := rfl
@[simp] theorem pdlPop_p0 (s : State) :
    (pdlPop s).2.p0 = s.p0 := rfl
@[simp] theorem pdlPop_p1 (s : State) :
    (pdlPop s).2.p1 = s.p1 := rfl
@[simp] theorem pdlPop_p0pc (s : State) :
    (pdlPop s).2.p0pc = s.p0pc := rfl
@[simp] theorem pdlPop_p1pc (s : State) :
    (pdlPop s).2.p1pc = s.p1pc := rfl
@[simp] theorem pdlPop_inhibit (s : State) :
    (pdlPop s).2.inhibit = s.inhibit := rfl
@[simp] theorem pdlPop_promEn (s : State) :
    (pdlPop s).2.promEn = s.promEn := rfl
@[simp] theorem pdlPop_halted (s : State) :
    (pdlPop s).2.halted = s.halted := rfl
@[simp] theorem pdlPop_oaLo (s : State) :
    (pdlPop s).2.oaLo = s.oaLo := rfl
@[simp] theorem pdlPop_oaLoV (s : State) :
    (pdlPop s).2.oaLoV = s.oaLoV := rfl
@[simp] theorem pdlPop_oaHi (s : State) :
    (pdlPop s).2.oaHi = s.oaHi := rfl
@[simp] theorem pdlPop_oaHiV (s : State) :
    (pdlPop s).2.oaHiV = s.oaHiV := rfl
@[simp] theorem pdlPop_accessFault (s : State) :
    (pdlPop s).2.accessFault = s.accessFault := rfl
@[simp] theorem pdlPop_writeFault (s : State) :
    (pdlPop s).2.writeFault = s.writeFault := rfl
@[simp] theorem pdlPop_pageFault (s : State) :
    (pdlPop s).2.pageFault = s.pageFault := rfl
@[simp] theorem pdlPop_dc (s : State) :
    (pdlPop s).2.dc = s.dc := rfl
@[simp] theorem pdlPop_opc (s : State) :
    (pdlPop s).2.opc = s.opc := rfl
@[simp] theorem pdlPop_q (s : State) :
    (pdlPop s).2.q = s.q := rfl
@[simp] theorem pdlPop_vma (s : State) :
    (pdlPop s).2.vma = s.vma := rfl
@[simp] theorem pdlPop_md (s : State) :
    (pdlPop s).2.md = s.md := rfl
@[simp] theorem pdlPop_lc (s : State) :
    (pdlPop s).2.lc = s.lc := rfl
@[simp] theorem pdlPop_icr (s : State) :
    (pdlPop s).2.icr = s.icr := rfl
@[simp] theorem pdlPop_spc (s : State) :
    (pdlPop s).2.spc = s.spc := rfl
@[simp] theorem pdlPop_spcPtr (s : State) :
    (pdlPop s).2.spcPtr = s.spcPtr := rfl
@[simp] theorem pdlPop_pdl (s : State) :
    (pdlPop s).2.pdl = s.pdl := rfl
@[simp] theorem pdlPop_pdlPtr (s : State) :
    (pdlPop s).2.pdlPtr = s.pdlPtr - 1 := rfl
@[simp] theorem pdlPop_pdlIdx (s : State) :
    (pdlPop s).2.pdlIdx = s.pdlIdx := rfl
@[simp] theorem pdlPop_dmem (s : State) :
    (pdlPop s).2.dmem = s.dmem := rfl
@[simp] theorem pdlPop_imem (s : State) :
    (pdlPop s).2.imem = s.imem := rfl
@[simp] theorem pdlPop_prom (s : State) :
    (pdlPop s).2.prom = s.prom := rfl
@[simp] theorem pdlPop_intstat (s : State) :
    (pdlPop s).2.intstat = s.intstat := rfl
@[simp] theorem pdlPop_l1 (s : State) :
    (pdlPop s).2.l1 = s.l1 := rfl
@[simp] theorem pdlPop_l2 (s : State) :
    (pdlPop s).2.l2 = s.l2 := rfl
@[simp] theorem pdlPop_pmem (s : State) :
    (pdlPop s).2.pmem = s.pmem := rfl
@[simp] theorem pdlPop_pages (s : State) :
    (pdlPop s).2.pages = s.pages := rfl
@[simp] theorem pdlPop_rdDelay (s : State) :
    (pdlPop s).2.rdDelay = s.rdDelay := rfl
@[simp] theorem pdlPop_rdValue (s : State) :
    (pdlPop s).2.rdValue = s.rdValue := rfl
@[simp] theorem pdlPop_restored (s : State) :
    (pdlPop s).2.restored = s.restored := rfl
@[simp] theorem pdlPop_lcHist (s : State) :
    (pdlPop s).2.lcHist = s.lcHist := rfl
@[simp] theorem pdlPop_pcHist (s : State) :
    (pdlPop s).2.pcHist = s.pcHist := rfl
@[simp] theorem pdlPop_pdlHist (s : State) :
    (pdlPop s).2.pdlHist = Ring.record s.cfg.pdlHistN s.pdlHist (Config.pdlHistEntry .pop s.pdlPtr (pdlTop s)) := rfl
@[simp] theorem pdlPop_devReads (s : State) :
    (pdlPop s).2.devReads = s.devReads := rfl
@[simp] theorem pdlPop_trace (s : State) :
    (pdlPop s).2.trace = s.trace := rfl

/-! ## `shiftFetch` -/

@[simp] theorem shiftFetch_cfg (s : State) :
    (shiftFetch s).cfg = s.cfg := rfl
@[simp] theorem shiftFetch_amem (s : State) :
    (shiftFetch s).amem = s.amem := rfl
@[simp] theorem shiftFetch_mmem (s : State) :
    (shiftFetch s).mmem = s.mmem := rfl
@[simp] theorem shiftFetch_npc (s : State) :
    (shiftFetch s).npc = s.npc + 1 := rfl
@[simp] theorem shiftFetch_p0 (s : State) :
    (shiftFetch s).p0 = s.p1 := rfl
@[simp] theorem shiftFetch_p1 (s : State) :
    (shiftFetch s).p1 = fetchWord s.npc s := rfl
@[simp] theorem shiftFetch_p0pc (s : State) :
    (shiftFetch s).p0pc = s.p1pc := rfl
@[simp] theorem shiftFetch_p1pc (s : State) :
    (shiftFetch s).p1pc = s.npc := rfl
@[simp] theorem shiftFetch_inhibit (s : State) :
    (shiftFetch s).inhibit = s.inhibit := rfl
@[simp] theorem shiftFetch_promEn (s : State) :
    (shiftFetch s).promEn = s.promEn := rfl
@[simp] theorem shiftFetch_halted (s : State) :
    (shiftFetch s).halted = s.halted := rfl
@[simp] theorem shiftFetch_oaLo (s : State) :
    (shiftFetch s).oaLo = s.oaLo := rfl
@[simp] theorem shiftFetch_oaLoV (s : State) :
    (shiftFetch s).oaLoV = s.oaLoV := rfl
@[simp] theorem shiftFetch_oaHi (s : State) :
    (shiftFetch s).oaHi = s.oaHi := rfl
@[simp] theorem shiftFetch_oaHiV (s : State) :
    (shiftFetch s).oaHiV = s.oaHiV := rfl
@[simp] theorem shiftFetch_accessFault (s : State) :
    (shiftFetch s).accessFault = s.accessFault := rfl
@[simp] theorem shiftFetch_writeFault (s : State) :
    (shiftFetch s).writeFault = s.writeFault := rfl
@[simp] theorem shiftFetch_pageFault (s : State) :
    (shiftFetch s).pageFault = s.pageFault := rfl
@[simp] theorem shiftFetch_dc (s : State) :
    (shiftFetch s).dc = s.dc := rfl
@[simp] theorem shiftFetch_opc (s : State) :
    (shiftFetch s).opc = s.opc := rfl
@[simp] theorem shiftFetch_q (s : State) :
    (shiftFetch s).q = s.q := rfl
@[simp] theorem shiftFetch_vma (s : State) :
    (shiftFetch s).vma = s.vma := rfl
@[simp] theorem shiftFetch_md (s : State) :
    (shiftFetch s).md = s.md := rfl
@[simp] theorem shiftFetch_lc (s : State) :
    (shiftFetch s).lc = s.lc := rfl
@[simp] theorem shiftFetch_icr (s : State) :
    (shiftFetch s).icr = s.icr := rfl
@[simp] theorem shiftFetch_spc (s : State) :
    (shiftFetch s).spc = s.spc := rfl
@[simp] theorem shiftFetch_spcPtr (s : State) :
    (shiftFetch s).spcPtr = s.spcPtr := rfl
@[simp] theorem shiftFetch_pdl (s : State) :
    (shiftFetch s).pdl = s.pdl := rfl
@[simp] theorem shiftFetch_pdlPtr (s : State) :
    (shiftFetch s).pdlPtr = s.pdlPtr := rfl
@[simp] theorem shiftFetch_pdlIdx (s : State) :
    (shiftFetch s).pdlIdx = s.pdlIdx := rfl
@[simp] theorem shiftFetch_dmem (s : State) :
    (shiftFetch s).dmem = s.dmem := rfl
@[simp] theorem shiftFetch_imem (s : State) :
    (shiftFetch s).imem = s.imem := rfl
@[simp] theorem shiftFetch_prom (s : State) :
    (shiftFetch s).prom = s.prom := rfl
@[simp] theorem shiftFetch_intstat (s : State) :
    (shiftFetch s).intstat = s.intstat := rfl
@[simp] theorem shiftFetch_l1 (s : State) :
    (shiftFetch s).l1 = s.l1 := rfl
@[simp] theorem shiftFetch_l2 (s : State) :
    (shiftFetch s).l2 = s.l2 := rfl
@[simp] theorem shiftFetch_pmem (s : State) :
    (shiftFetch s).pmem = s.pmem := rfl
@[simp] theorem shiftFetch_pages (s : State) :
    (shiftFetch s).pages = s.pages := rfl
@[simp] theorem shiftFetch_rdDelay (s : State) :
    (shiftFetch s).rdDelay = s.rdDelay := rfl
@[simp] theorem shiftFetch_rdValue (s : State) :
    (shiftFetch s).rdValue = s.rdValue := rfl
@[simp] theorem shiftFetch_restored (s : State) :
    (shiftFetch s).restored = s.restored := rfl
@[simp] theorem shiftFetch_lcHist (s : State) :
    (shiftFetch s).lcHist = s.lcHist := rfl
@[simp] theorem shiftFetch_pcHist (s : State) :
    (shiftFetch s).pcHist = s.pcHist := rfl
@[simp] theorem shiftFetch_pdlHist (s : State) :
    (shiftFetch s).pdlHist = s.pdlHist := rfl
@[simp] theorem shiftFetch_devReads (s : State) :
    (shiftFetch s).devReads = s.devReads := rfl
@[simp] theorem shiftFetch_trace (s : State) :
    (shiftFetch s).trace = s.trace := rfl

/-! ## `clearOa` -/

@[simp] theorem clearOa_cfg (s : State) :
    (clearOa s).cfg = s.cfg := rfl
@[simp] theorem clearOa_amem (s : State) :
    (clearOa s).amem = s.amem := rfl
@[simp] theorem clearOa_mmem (s : State) :
    (clearOa s).mmem = s.mmem := rfl
@[simp] theorem clearOa_npc (s : State) :
    (clearOa s).npc = s.npc := rfl
@[simp] theorem clearOa_p0 (s : State) :
    (clearOa s).p0 = s.p0 := rfl
@[simp] theorem clearOa_p1 (s : State) :
    (clearOa s).p1 = s.p1 := rfl
@[simp] theorem clearOa_p0pc (s : State) :
    (clearOa s).p0pc = s.p0pc := rfl
@[simp] theorem clearOa_p1pc (s : State) :
    (clearOa s).p1pc = s.p1pc := rfl
@[simp] theorem clearOa_inhibit (s : State) :
    (clearOa s).inhibit = s.inhibit := rfl
@[simp] theorem clearOa_promEn (s : State) :
    (clearOa s).promEn = s.promEn := rfl
@[simp] theorem clearOa_halted (s : State) :
    (clearOa s).halted = s.halted := rfl
@[simp] theorem clearOa_oaLo (s : State) :
    (clearOa s).oaLo = if s.oaLoV then 0 else s.oaLo := rfl
@[simp] theorem clearOa_oaLoV (s : State) :
    (clearOa s).oaLoV = false := rfl
@[simp] theorem clearOa_oaHi (s : State) :
    (clearOa s).oaHi = if s.oaHiV then 0 else s.oaHi := rfl
@[simp] theorem clearOa_oaHiV (s : State) :
    (clearOa s).oaHiV = false := rfl
@[simp] theorem clearOa_accessFault (s : State) :
    (clearOa s).accessFault = s.accessFault := rfl
@[simp] theorem clearOa_writeFault (s : State) :
    (clearOa s).writeFault = s.writeFault := rfl
@[simp] theorem clearOa_pageFault (s : State) :
    (clearOa s).pageFault = s.pageFault := rfl
@[simp] theorem clearOa_dc (s : State) :
    (clearOa s).dc = s.dc := rfl
@[simp] theorem clearOa_opc (s : State) :
    (clearOa s).opc = s.opc := rfl
@[simp] theorem clearOa_q (s : State) :
    (clearOa s).q = s.q := rfl
@[simp] theorem clearOa_vma (s : State) :
    (clearOa s).vma = s.vma := rfl
@[simp] theorem clearOa_md (s : State) :
    (clearOa s).md = s.md := rfl
@[simp] theorem clearOa_lc (s : State) :
    (clearOa s).lc = s.lc := rfl
@[simp] theorem clearOa_icr (s : State) :
    (clearOa s).icr = s.icr := rfl
@[simp] theorem clearOa_spc (s : State) :
    (clearOa s).spc = s.spc := rfl
@[simp] theorem clearOa_spcPtr (s : State) :
    (clearOa s).spcPtr = s.spcPtr := rfl
@[simp] theorem clearOa_pdl (s : State) :
    (clearOa s).pdl = s.pdl := rfl
@[simp] theorem clearOa_pdlPtr (s : State) :
    (clearOa s).pdlPtr = s.pdlPtr := rfl
@[simp] theorem clearOa_pdlIdx (s : State) :
    (clearOa s).pdlIdx = s.pdlIdx := rfl
@[simp] theorem clearOa_dmem (s : State) :
    (clearOa s).dmem = s.dmem := rfl
@[simp] theorem clearOa_imem (s : State) :
    (clearOa s).imem = s.imem := rfl
@[simp] theorem clearOa_prom (s : State) :
    (clearOa s).prom = s.prom := rfl
@[simp] theorem clearOa_intstat (s : State) :
    (clearOa s).intstat = s.intstat := rfl
@[simp] theorem clearOa_l1 (s : State) :
    (clearOa s).l1 = s.l1 := rfl
@[simp] theorem clearOa_l2 (s : State) :
    (clearOa s).l2 = s.l2 := rfl
@[simp] theorem clearOa_pmem (s : State) :
    (clearOa s).pmem = s.pmem := rfl
@[simp] theorem clearOa_pages (s : State) :
    (clearOa s).pages = s.pages := rfl
@[simp] theorem clearOa_rdDelay (s : State) :
    (clearOa s).rdDelay = s.rdDelay := rfl
@[simp] theorem clearOa_rdValue (s : State) :
    (clearOa s).rdValue = s.rdValue := rfl
@[simp] theorem clearOa_restored (s : State) :
    (clearOa s).restored = s.restored := rfl
@[simp] theorem clearOa_lcHist (s : State) :
    (clearOa s).lcHist = s.lcHist := rfl
@[simp] theorem clearOa_pcHist (s : State) :
    (clearOa s).pcHist = s.pcHist := rfl
@[simp] theorem clearOa_pdlHist (s : State) :
    (clearOa s).pdlHist = s.pdlHist := rfl
@[simp] theorem clearOa_devReads (s : State) :
    (clearOa s).devReads = s.devReads := rfl
@[simp] theorem clearOa_trace (s : State) :
    (clearOa s).trace = s.trace := rfl

/-! ## `recordPc` -/

@[simp] theorem recordPc_cfg (s : State) :
    (recordPc s).cfg = s.cfg := rfl
@[simp] theorem recordPc_amem (s : State) :
    (recordPc s).amem = s.amem := rfl
@[simp] theorem recordPc_mmem (s : State) :
    (recordPc s).mmem = s.mmem := rfl
@[simp] theorem recordPc_npc (s : State) :
    (recordPc s).npc = s.npc := rfl
@[simp] theorem recordPc_p0 (s : State) :
    (recordPc s).p0 = s.p0 := rfl
@[simp] theorem recordPc_p1 (s : State) :
    (recordPc s).p1 = s.p1 := rfl
@[simp] theorem recordPc_p0pc (s : State) :
    (recordPc s).p0pc = s.p0pc := rfl
@[simp] theorem recordPc_p1pc (s : State) :
    (recordPc s).p1pc = s.p1pc := rfl
@[simp] theorem recordPc_inhibit (s : State) :
    (recordPc s).inhibit = s.inhibit := rfl
@[simp] theorem recordPc_promEn (s : State) :
    (recordPc s).promEn = s.promEn := rfl
@[simp] theorem recordPc_halted (s : State) :
    (recordPc s).halted = s.halted := rfl
@[simp] theorem recordPc_oaLo (s : State) :
    (recordPc s).oaLo = s.oaLo := rfl
@[simp] theorem recordPc_oaLoV (s : State) :
    (recordPc s).oaLoV = s.oaLoV := rfl
@[simp] theorem recordPc_oaHi (s : State) :
    (recordPc s).oaHi = s.oaHi := rfl
@[simp] theorem recordPc_oaHiV (s : State) :
    (recordPc s).oaHiV = s.oaHiV := rfl
@[simp] theorem recordPc_accessFault (s : State) :
    (recordPc s).accessFault = s.accessFault := rfl
@[simp] theorem recordPc_writeFault (s : State) :
    (recordPc s).writeFault = s.writeFault := rfl
@[simp] theorem recordPc_pageFault (s : State) :
    (recordPc s).pageFault = s.pageFault := rfl
@[simp] theorem recordPc_dc (s : State) :
    (recordPc s).dc = s.dc := rfl
@[simp] theorem recordPc_opc (s : State) :
    (recordPc s).opc = s.opc := rfl
@[simp] theorem recordPc_q (s : State) :
    (recordPc s).q = s.q := rfl
@[simp] theorem recordPc_vma (s : State) :
    (recordPc s).vma = s.vma := rfl
@[simp] theorem recordPc_md (s : State) :
    (recordPc s).md = s.md := rfl
@[simp] theorem recordPc_lc (s : State) :
    (recordPc s).lc = s.lc := rfl
@[simp] theorem recordPc_icr (s : State) :
    (recordPc s).icr = s.icr := rfl
@[simp] theorem recordPc_spc (s : State) :
    (recordPc s).spc = s.spc := rfl
@[simp] theorem recordPc_spcPtr (s : State) :
    (recordPc s).spcPtr = s.spcPtr := rfl
@[simp] theorem recordPc_pdl (s : State) :
    (recordPc s).pdl = s.pdl := rfl
@[simp] theorem recordPc_pdlPtr (s : State) :
    (recordPc s).pdlPtr = s.pdlPtr := rfl
@[simp] theorem recordPc_pdlIdx (s : State) :
    (recordPc s).pdlIdx = s.pdlIdx := rfl
@[simp] theorem recordPc_dmem (s : State) :
    (recordPc s).dmem = s.dmem := rfl
@[simp] theorem recordPc_imem (s : State) :
    (recordPc s).imem = s.imem := rfl
@[simp] theorem recordPc_prom (s : State) :
    (recordPc s).prom = s.prom := rfl
@[simp] theorem recordPc_intstat (s : State) :
    (recordPc s).intstat = s.intstat := rfl
@[simp] theorem recordPc_l1 (s : State) :
    (recordPc s).l1 = s.l1 := rfl
@[simp] theorem recordPc_l2 (s : State) :
    (recordPc s).l2 = s.l2 := rfl
@[simp] theorem recordPc_pmem (s : State) :
    (recordPc s).pmem = s.pmem := rfl
@[simp] theorem recordPc_pages (s : State) :
    (recordPc s).pages = s.pages := rfl
@[simp] theorem recordPc_rdDelay (s : State) :
    (recordPc s).rdDelay = s.rdDelay := rfl
@[simp] theorem recordPc_rdValue (s : State) :
    (recordPc s).rdValue = s.rdValue := rfl
@[simp] theorem recordPc_restored (s : State) :
    (recordPc s).restored = s.restored := rfl
@[simp] theorem recordPc_lcHist (s : State) :
    (recordPc s).lcHist = s.lcHist := rfl
@[simp] theorem recordPc_pcHist (s : State) :
    (recordPc s).pcHist = Ring.record s.cfg.pcHistN s.pcHist (s.p0pc.setWidth 32) := rfl
@[simp] theorem recordPc_pdlHist (s : State) :
    (recordPc s).pdlHist = s.pdlHist := rfl
@[simp] theorem recordPc_devReads (s : State) :
    (recordPc s).devReads = s.devReads := rfl
@[simp] theorem recordPc_trace (s : State) :
    (recordPc s).trace = s.trace := rfl

/-! ## `haltRequest` -/

@[simp] theorem haltRequest_cfg (s : State) :
    (haltRequest s).cfg = s.cfg := rfl
@[simp] theorem haltRequest_amem (s : State) :
    (haltRequest s).amem = s.amem := rfl
@[simp] theorem haltRequest_mmem (s : State) :
    (haltRequest s).mmem = s.mmem := rfl
@[simp] theorem haltRequest_npc (s : State) :
    (haltRequest s).npc = s.npc := rfl
@[simp] theorem haltRequest_p0 (s : State) :
    (haltRequest s).p0 = s.p0 := rfl
@[simp] theorem haltRequest_p1 (s : State) :
    (haltRequest s).p1 = s.p1 := rfl
@[simp] theorem haltRequest_p0pc (s : State) :
    (haltRequest s).p0pc = s.p0pc := rfl
@[simp] theorem haltRequest_p1pc (s : State) :
    (haltRequest s).p1pc = s.p1pc := rfl
@[simp] theorem haltRequest_inhibit (s : State) :
    (haltRequest s).inhibit = s.inhibit := rfl
@[simp] theorem haltRequest_promEn (s : State) :
    (haltRequest s).promEn = s.promEn := rfl
@[simp] theorem haltRequest_halted (s : State) :
    (haltRequest s).halted = true := rfl
@[simp] theorem haltRequest_oaLo (s : State) :
    (haltRequest s).oaLo = s.oaLo := rfl
@[simp] theorem haltRequest_oaLoV (s : State) :
    (haltRequest s).oaLoV = s.oaLoV := rfl
@[simp] theorem haltRequest_oaHi (s : State) :
    (haltRequest s).oaHi = s.oaHi := rfl
@[simp] theorem haltRequest_oaHiV (s : State) :
    (haltRequest s).oaHiV = s.oaHiV := rfl
@[simp] theorem haltRequest_accessFault (s : State) :
    (haltRequest s).accessFault = s.accessFault := rfl
@[simp] theorem haltRequest_writeFault (s : State) :
    (haltRequest s).writeFault = s.writeFault := rfl
@[simp] theorem haltRequest_pageFault (s : State) :
    (haltRequest s).pageFault = s.pageFault := rfl
@[simp] theorem haltRequest_dc (s : State) :
    (haltRequest s).dc = s.dc := rfl
@[simp] theorem haltRequest_opc (s : State) :
    (haltRequest s).opc = s.opc := rfl
@[simp] theorem haltRequest_q (s : State) :
    (haltRequest s).q = s.q := rfl
@[simp] theorem haltRequest_vma (s : State) :
    (haltRequest s).vma = s.vma := rfl
@[simp] theorem haltRequest_md (s : State) :
    (haltRequest s).md = s.md := rfl
@[simp] theorem haltRequest_lc (s : State) :
    (haltRequest s).lc = s.lc := rfl
@[simp] theorem haltRequest_icr (s : State) :
    (haltRequest s).icr = s.icr := rfl
@[simp] theorem haltRequest_spc (s : State) :
    (haltRequest s).spc = s.spc := rfl
@[simp] theorem haltRequest_spcPtr (s : State) :
    (haltRequest s).spcPtr = s.spcPtr := rfl
@[simp] theorem haltRequest_pdl (s : State) :
    (haltRequest s).pdl = s.pdl := rfl
@[simp] theorem haltRequest_pdlPtr (s : State) :
    (haltRequest s).pdlPtr = s.pdlPtr := rfl
@[simp] theorem haltRequest_pdlIdx (s : State) :
    (haltRequest s).pdlIdx = s.pdlIdx := rfl
@[simp] theorem haltRequest_dmem (s : State) :
    (haltRequest s).dmem = s.dmem := rfl
@[simp] theorem haltRequest_imem (s : State) :
    (haltRequest s).imem = s.imem := rfl
@[simp] theorem haltRequest_prom (s : State) :
    (haltRequest s).prom = s.prom := rfl
@[simp] theorem haltRequest_intstat (s : State) :
    (haltRequest s).intstat = s.intstat := rfl
@[simp] theorem haltRequest_l1 (s : State) :
    (haltRequest s).l1 = s.l1 := rfl
@[simp] theorem haltRequest_l2 (s : State) :
    (haltRequest s).l2 = s.l2 := rfl
@[simp] theorem haltRequest_pmem (s : State) :
    (haltRequest s).pmem = s.pmem := rfl
@[simp] theorem haltRequest_pages (s : State) :
    (haltRequest s).pages = s.pages := rfl
@[simp] theorem haltRequest_rdDelay (s : State) :
    (haltRequest s).rdDelay = s.rdDelay := rfl
@[simp] theorem haltRequest_rdValue (s : State) :
    (haltRequest s).rdValue = s.rdValue := rfl
@[simp] theorem haltRequest_restored (s : State) :
    (haltRequest s).restored = s.restored := rfl
@[simp] theorem haltRequest_lcHist (s : State) :
    (haltRequest s).lcHist = s.lcHist := rfl
@[simp] theorem haltRequest_pcHist (s : State) :
    (haltRequest s).pcHist = s.pcHist := rfl
@[simp] theorem haltRequest_pdlHist (s : State) :
    (haltRequest s).pdlHist = s.pdlHist := rfl
@[simp] theorem haltRequest_devReads (s : State) :
    (haltRequest s).devReads = s.devReads := rfl
@[simp] theorem haltRequest_trace (s : State) :
    (haltRequest s).trace = s.trace := rfl

/-! ## Reset -/

@[simp] theorem resetWith_cfg (c : Config) : (resetWith c).cfg = c := rfl
@[simp] theorem resetWith_defaultConfig : resetWith defaultConfig = State.reset := rfl

/-- Every memory of the reset state is in canonical form. -/
theorem reset_memories_wf :
    (Memory.wf State.reset.amem && Memory.wf State.reset.mmem && Memory.wf State.reset.spc
      && Memory.wf State.reset.pdl && Memory.wf State.reset.dmem && Memory.wf State.reset.imem
      && Memory.wf State.reset.prom && Memory.wf State.reset.l1 && Memory.wf State.reset.l2
      && Memory.wf State.reset.pmem && Memory.wf State.reset.pages) = true := by decide

end Sys2Proof.Machine
end

