-- ==== Sys2Proof/Laws/Frames.lean ====
section
/-! SUPPORT. What each shared operation leaves as it was. `<op>_frame` says it once: the state after is the
state before but for the fields that it lists; each field it does not list then has a lemma of its own. -/

namespace Sys2Proof.Machine

/-- A device read changes these fields and no other. -/
theorem devRead_frame (dev : Device) (off : BitVec 24) (s : State) : (devRead dev off s).2 =
    { s with devReads := (devRead dev off s).2.devReads } := by
  unfold devRead; split <;> rfl

@[simp] theorem devRead_cfg (dev : Device) (off : BitVec 24) (s : State) : (devRead dev off s).2.cfg = s.cfg :=
  (congrArg State.cfg (devRead_frame dev off s) :)
@[simp] theorem devRead_amem (dev : Device) (off : BitVec 24) (s : State) : (devRead dev off s).2.amem = s.amem :=
  (congrArg State.amem (devRead_frame dev off s) :)
@[simp] theorem devRead_mmem (dev : Device) (off : BitVec 24) (s : State) : (devRead dev off s).2.mmem = s.mmem :=
  (congrArg State.mmem (devRead_frame dev off s) :)
@[simp] theorem devRead_npc (dev : Device) (off : BitVec 24) (s : State) : (devRead dev off s).2.npc = s.npc :=
  (congrArg State.npc (devRead_frame dev off s) :)
@[simp] theorem devRead_p0 (dev : Device) (off : BitVec 24) (s : State) : (devRead dev off s).2.p0 = s.p0 :=
  (congrArg State.p0 (devRead_frame dev off s) :)
@[simp] theorem devRead_p1 (dev : Device) (off : BitVec 24) (s : State) : (devRead dev off s).2.p1 = s.p1 :=
  (congrArg State.p1 (devRead_frame dev off s) :)
@[simp] theorem devRead_p0pc (dev : Device) (off : BitVec 24) (s : State) : (devRead dev off s).2.p0pc = s.p0pc :=
  (congrArg State.p0pc (devRead_frame dev off s) :)
@[simp] theorem devRead_p1pc (dev : Device) (off : BitVec 24) (s : State) : (devRead dev off s).2.p1pc = s.p1pc :=
  (congrArg State.p1pc (devRead_frame dev off s) :)
@[simp] theorem devRead_inhibit (dev : Device) (off : BitVec 24) (s : State) : (devRead dev off s).2.inhibit = s.inhibit :=
  (congrArg State.inhibit (devRead_frame dev off s) :)
@[simp] theorem devRead_promEn (dev : Device) (off : BitVec 24) (s : State) : (devRead dev off s).2.promEn = s.promEn :=
  (congrArg State.promEn (devRead_frame dev off s) :)
@[simp] theorem devRead_halted (dev : Device) (off : BitVec 24) (s : State) : (devRead dev off s).2.halted = s.halted :=
  (congrArg State.halted (devRead_frame dev off s) :)
@[simp] theorem devRead_oaLo (dev : Device) (off : BitVec 24) (s : State) : (devRead dev off s).2.oaLo = s.oaLo :=
  (congrArg State.oaLo (devRead_frame dev off s) :)
@[simp] theorem devRead_oaLoV (dev : Device) (off : BitVec 24) (s : State) : (devRead dev off s).2.oaLoV = s.oaLoV :=
  (congrArg State.oaLoV (devRead_frame dev off s) :)
@[simp] theorem devRead_oaHi (dev : Device) (off : BitVec 24) (s : State) : (devRead dev off s).2.oaHi = s.oaHi :=
  (congrArg State.oaHi (devRead_frame dev off s) :)
@[simp] theorem devRead_oaHiV (dev : Device) (off : BitVec 24) (s : State) : (devRead dev off s).2.oaHiV = s.oaHiV :=
  (congrArg State.oaHiV (devRead_frame dev off s) :)
@[simp] theorem devRead_accessFault (dev : Device) (off : BitVec 24) (s : State) : (devRead dev off s).2.accessFault = s.accessFault :=
  (congrArg State.accessFault (devRead_frame dev off s) :)
@[simp] theorem devRead_writeFault (dev : Device) (off : BitVec 24) (s : State) : (devRead dev off s).2.writeFault = s.writeFault :=
  (congrArg State.writeFault (devRead_frame dev off s) :)
@[simp] theorem devRead_pageFault (dev : Device) (off : BitVec 24) (s : State) : (devRead dev off s).2.pageFault = s.pageFault :=
  (congrArg State.pageFault (devRead_frame dev off s) :)
@[simp] theorem devRead_dc (dev : Device) (off : BitVec 24) (s : State) : (devRead dev off s).2.dc = s.dc :=
  (congrArg State.dc (devRead_frame dev off s) :)
@[simp] theorem devRead_opc (dev : Device) (off : BitVec 24) (s : State) : (devRead dev off s).2.opc = s.opc :=
  (congrArg State.opc (devRead_frame dev off s) :)
@[simp] theorem devRead_q (dev : Device) (off : BitVec 24) (s : State) : (devRead dev off s).2.q = s.q :=
  (congrArg State.q (devRead_frame dev off s) :)
@[simp] theorem devRead_vma (dev : Device) (off : BitVec 24) (s : State) : (devRead dev off s).2.vma = s.vma :=
  (congrArg State.vma (devRead_frame dev off s) :)
@[simp] theorem devRead_md (dev : Device) (off : BitVec 24) (s : State) : (devRead dev off s).2.md = s.md :=
  (congrArg State.md (devRead_frame dev off s) :)
@[simp] theorem devRead_lc (dev : Device) (off : BitVec 24) (s : State) : (devRead dev off s).2.lc = s.lc :=
  (congrArg State.lc (devRead_frame dev off s) :)
@[simp] theorem devRead_icr (dev : Device) (off : BitVec 24) (s : State) : (devRead dev off s).2.icr = s.icr :=
  (congrArg State.icr (devRead_frame dev off s) :)
@[simp] theorem devRead_spc (dev : Device) (off : BitVec 24) (s : State) : (devRead dev off s).2.spc = s.spc :=
  (congrArg State.spc (devRead_frame dev off s) :)
@[simp] theorem devRead_spcPtr (dev : Device) (off : BitVec 24) (s : State) : (devRead dev off s).2.spcPtr = s.spcPtr :=
  (congrArg State.spcPtr (devRead_frame dev off s) :)
@[simp] theorem devRead_pdl (dev : Device) (off : BitVec 24) (s : State) : (devRead dev off s).2.pdl = s.pdl :=
  (congrArg State.pdl (devRead_frame dev off s) :)
@[simp] theorem devRead_pdlPtr (dev : Device) (off : BitVec 24) (s : State) : (devRead dev off s).2.pdlPtr = s.pdlPtr :=
  (congrArg State.pdlPtr (devRead_frame dev off s) :)
@[simp] theorem devRead_pdlIdx (dev : Device) (off : BitVec 24) (s : State) : (devRead dev off s).2.pdlIdx = s.pdlIdx :=
  (congrArg State.pdlIdx (devRead_frame dev off s) :)
@[simp] theorem devRead_dmem (dev : Device) (off : BitVec 24) (s : State) : (devRead dev off s).2.dmem = s.dmem :=
  (congrArg State.dmem (devRead_frame dev off s) :)
@[simp] theorem devRead_imem (dev : Device) (off : BitVec 24) (s : State) : (devRead dev off s).2.imem = s.imem :=
  (congrArg State.imem (devRead_frame dev off s) :)
@[simp] theorem devRead_prom (dev : Device) (off : BitVec 24) (s : State) : (devRead dev off s).2.prom = s.prom :=
  (congrArg State.prom (devRead_frame dev off s) :)
@[simp] theorem devRead_intstat (dev : Device) (off : BitVec 24) (s : State) : (devRead dev off s).2.intstat = s.intstat :=
  (congrArg State.intstat (devRead_frame dev off s) :)
@[simp] theorem devRead_l1 (dev : Device) (off : BitVec 24) (s : State) : (devRead dev off s).2.l1 = s.l1 :=
  (congrArg State.l1 (devRead_frame dev off s) :)
@[simp] theorem devRead_l2 (dev : Device) (off : BitVec 24) (s : State) : (devRead dev off s).2.l2 = s.l2 :=
  (congrArg State.l2 (devRead_frame dev off s) :)
@[simp] theorem devRead_pmem (dev : Device) (off : BitVec 24) (s : State) : (devRead dev off s).2.pmem = s.pmem :=
  (congrArg State.pmem (devRead_frame dev off s) :)
@[simp] theorem devRead_pages (dev : Device) (off : BitVec 24) (s : State) : (devRead dev off s).2.pages = s.pages :=
  (congrArg State.pages (devRead_frame dev off s) :)
@[simp] theorem devRead_rdDelay (dev : Device) (off : BitVec 24) (s : State) : (devRead dev off s).2.rdDelay = s.rdDelay :=
  (congrArg State.rdDelay (devRead_frame dev off s) :)
@[simp] theorem devRead_rdValue (dev : Device) (off : BitVec 24) (s : State) : (devRead dev off s).2.rdValue = s.rdValue :=
  (congrArg State.rdValue (devRead_frame dev off s) :)
@[simp] theorem devRead_restored (dev : Device) (off : BitVec 24) (s : State) : (devRead dev off s).2.restored = s.restored :=
  (congrArg State.restored (devRead_frame dev off s) :)
@[simp] theorem devRead_lcHist (dev : Device) (off : BitVec 24) (s : State) : (devRead dev off s).2.lcHist = s.lcHist :=
  (congrArg State.lcHist (devRead_frame dev off s) :)
@[simp] theorem devRead_pcHist (dev : Device) (off : BitVec 24) (s : State) : (devRead dev off s).2.pcHist = s.pcHist :=
  (congrArg State.pcHist (devRead_frame dev off s) :)
@[simp] theorem devRead_pdlHist (dev : Device) (off : BitVec 24) (s : State) : (devRead dev off s).2.pdlHist = s.pdlHist :=
  (congrArg State.pdlHist (devRead_frame dev off s) :)
@[simp] theorem devRead_trace (dev : Device) (off : BitVec 24) (s : State) : (devRead dev off s).2.trace = s.trace :=
  (congrArg State.trace (devRead_frame dev off s) :)

/-- A write to the bus page changes these fields and no other. -/
theorem busEffect_frame (off : BitVec 24) (x : Word) (s : State) : (busEffect off x s) =
    { s with intstat := (busEffect off x s).intstat, promEn := (busEffect off x s).promEn } := by
  unfold busEffect; simp only []; split <;> split <;> rfl

@[simp] theorem busEffect_cfg (off : BitVec 24) (x : Word) (s : State) : (busEffect off x s).cfg = s.cfg :=
  (congrArg State.cfg (busEffect_frame off x s) :)
@[simp] theorem busEffect_amem (off : BitVec 24) (x : Word) (s : State) : (busEffect off x s).amem = s.amem :=
  (congrArg State.amem (busEffect_frame off x s) :)
@[simp] theorem busEffect_mmem (off : BitVec 24) (x : Word) (s : State) : (busEffect off x s).mmem = s.mmem :=
  (congrArg State.mmem (busEffect_frame off x s) :)
@[simp] theorem busEffect_npc (off : BitVec 24) (x : Word) (s : State) : (busEffect off x s).npc = s.npc :=
  (congrArg State.npc (busEffect_frame off x s) :)
@[simp] theorem busEffect_p0 (off : BitVec 24) (x : Word) (s : State) : (busEffect off x s).p0 = s.p0 :=
  (congrArg State.p0 (busEffect_frame off x s) :)
@[simp] theorem busEffect_p1 (off : BitVec 24) (x : Word) (s : State) : (busEffect off x s).p1 = s.p1 :=
  (congrArg State.p1 (busEffect_frame off x s) :)
@[simp] theorem busEffect_p0pc (off : BitVec 24) (x : Word) (s : State) : (busEffect off x s).p0pc = s.p0pc :=
  (congrArg State.p0pc (busEffect_frame off x s) :)
@[simp] theorem busEffect_p1pc (off : BitVec 24) (x : Word) (s : State) : (busEffect off x s).p1pc = s.p1pc :=
  (congrArg State.p1pc (busEffect_frame off x s) :)
@[simp] theorem busEffect_inhibit (off : BitVec 24) (x : Word) (s : State) : (busEffect off x s).inhibit = s.inhibit :=
  (congrArg State.inhibit (busEffect_frame off x s) :)
@[simp] theorem busEffect_halted (off : BitVec 24) (x : Word) (s : State) : (busEffect off x s).halted = s.halted :=
  (congrArg State.halted (busEffect_frame off x s) :)
@[simp] theorem busEffect_oaLo (off : BitVec 24) (x : Word) (s : State) : (busEffect off x s).oaLo = s.oaLo :=
  (congrArg State.oaLo (busEffect_frame off x s) :)
@[simp] theorem busEffect_oaLoV (off : BitVec 24) (x : Word) (s : State) : (busEffect off x s).oaLoV = s.oaLoV :=
  (congrArg State.oaLoV (busEffect_frame off x s) :)
@[simp] theorem busEffect_oaHi (off : BitVec 24) (x : Word) (s : State) : (busEffect off x s).oaHi = s.oaHi :=
  (congrArg State.oaHi (busEffect_frame off x s) :)
@[simp] theorem busEffect_oaHiV (off : BitVec 24) (x : Word) (s : State) : (busEffect off x s).oaHiV = s.oaHiV :=
  (congrArg State.oaHiV (busEffect_frame off x s) :)
@[simp] theorem busEffect_accessFault (off : BitVec 24) (x : Word) (s : State) : (busEffect off x s).accessFault = s.accessFault :=
  (congrArg State.accessFault (busEffect_frame off x s) :)
@[simp] theorem busEffect_writeFault (off : BitVec 24) (x : Word) (s : State) : (busEffect off x s).writeFault = s.writeFault :=
  (congrArg State.writeFault (busEffect_frame off x s) :)
@[simp] theorem busEffect_pageFault (off : BitVec 24) (x : Word) (s : State) : (busEffect off x s).pageFault = s.pageFault :=
  (congrArg State.pageFault (busEffect_frame off x s) :)
@[simp] theorem busEffect_dc (off : BitVec 24) (x : Word) (s : State) : (busEffect off x s).dc = s.dc :=
  (congrArg State.dc (busEffect_frame off x s) :)
@[simp] theorem busEffect_opc (off : BitVec 24) (x : Word) (s : State) : (busEffect off x s).opc = s.opc :=
  (congrArg State.opc (busEffect_frame off x s) :)
@[simp] theorem busEffect_q (off : BitVec 24) (x : Word) (s : State) : (busEffect off x s).q = s.q :=
  (congrArg State.q (busEffect_frame off x s) :)
@[simp] theorem busEffect_vma (off : BitVec 24) (x : Word) (s : State) : (busEffect off x s).vma = s.vma :=
  (congrArg State.vma (busEffect_frame off x s) :)
@[simp] theorem busEffect_md (off : BitVec 24) (x : Word) (s : State) : (busEffect off x s).md = s.md :=
  (congrArg State.md (busEffect_frame off x s) :)
@[simp] theorem busEffect_lc (off : BitVec 24) (x : Word) (s : State) : (busEffect off x s).lc = s.lc :=
  (congrArg State.lc (busEffect_frame off x s) :)
@[simp] theorem busEffect_icr (off : BitVec 24) (x : Word) (s : State) : (busEffect off x s).icr = s.icr :=
  (congrArg State.icr (busEffect_frame off x s) :)
@[simp] theorem busEffect_spc (off : BitVec 24) (x : Word) (s : State) : (busEffect off x s).spc = s.spc :=
  (congrArg State.spc (busEffect_frame off x s) :)
@[simp] theorem busEffect_spcPtr (off : BitVec 24) (x : Word) (s : State) : (busEffect off x s).spcPtr = s.spcPtr :=
  (congrArg State.spcPtr (busEffect_frame off x s) :)
@[simp] theorem busEffect_pdl (off : BitVec 24) (x : Word) (s : State) : (busEffect off x s).pdl = s.pdl :=
  (congrArg State.pdl (busEffect_frame off x s) :)
@[simp] theorem busEffect_pdlPtr (off : BitVec 24) (x : Word) (s : State) : (busEffect off x s).pdlPtr = s.pdlPtr :=
  (congrArg State.pdlPtr (busEffect_frame off x s) :)
@[simp] theorem busEffect_pdlIdx (off : BitVec 24) (x : Word) (s : State) : (busEffect off x s).pdlIdx = s.pdlIdx :=
  (congrArg State.pdlIdx (busEffect_frame off x s) :)
@[simp] theorem busEffect_dmem (off : BitVec 24) (x : Word) (s : State) : (busEffect off x s).dmem = s.dmem :=
  (congrArg State.dmem (busEffect_frame off x s) :)
@[simp] theorem busEffect_imem (off : BitVec 24) (x : Word) (s : State) : (busEffect off x s).imem = s.imem :=
  (congrArg State.imem (busEffect_frame off x s) :)
@[simp] theorem busEffect_prom (off : BitVec 24) (x : Word) (s : State) : (busEffect off x s).prom = s.prom :=
  (congrArg State.prom (busEffect_frame off x s) :)
@[simp] theorem busEffect_l1 (off : BitVec 24) (x : Word) (s : State) : (busEffect off x s).l1 = s.l1 :=
  (congrArg State.l1 (busEffect_frame off x s) :)
@[simp] theorem busEffect_l2 (off : BitVec 24) (x : Word) (s : State) : (busEffect off x s).l2 = s.l2 :=
  (congrArg State.l2 (busEffect_frame off x s) :)
@[simp] theorem busEffect_pmem (off : BitVec 24) (x : Word) (s : State) : (busEffect off x s).pmem = s.pmem :=
  (congrArg State.pmem (busEffect_frame off x s) :)
@[simp] theorem busEffect_pages (off : BitVec 24) (x : Word) (s : State) : (busEffect off x s).pages = s.pages :=
  (congrArg State.pages (busEffect_frame off x s) :)
@[simp] theorem busEffect_rdDelay (off : BitVec 24) (x : Word) (s : State) : (busEffect off x s).rdDelay = s.rdDelay :=
  (congrArg State.rdDelay (busEffect_frame off x s) :)
@[simp] theorem busEffect_rdValue (off : BitVec 24) (x : Word) (s : State) : (busEffect off x s).rdValue = s.rdValue :=
  (congrArg State.rdValue (busEffect_frame off x s) :)
@[simp] theorem busEffect_restored (off : BitVec 24) (x : Word) (s : State) : (busEffect off x s).restored = s.restored :=
  (congrArg State.restored (busEffect_frame off x s) :)
@[simp] theorem busEffect_lcHist (off : BitVec 24) (x : Word) (s : State) : (busEffect off x s).lcHist = s.lcHist :=
  (congrArg State.lcHist (busEffect_frame off x s) :)
@[simp] theorem busEffect_pcHist (off : BitVec 24) (x : Word) (s : State) : (busEffect off x s).pcHist = s.pcHist :=
  (congrArg State.pcHist (busEffect_frame off x s) :)
@[simp] theorem busEffect_pdlHist (off : BitVec 24) (x : Word) (s : State) : (busEffect off x s).pdlHist = s.pdlHist :=
  (congrArg State.pdlHist (busEffect_frame off x s) :)
@[simp] theorem busEffect_devReads (off : BitVec 24) (x : Word) (s : State) : (busEffect off x s).devReads = s.devReads :=
  (congrArg State.devReads (busEffect_frame off x s) :)
@[simp] theorem busEffect_trace (off : BitVec 24) (x : Word) (s : State) : (busEffect off x s).trace = s.trace :=
  (congrArg State.trace (busEffect_frame off x s) :)

/-- A device write changes these fields and no other. -/
theorem devWrite_frame (dev : Device) (off : BitVec 24) (x : Word) (s : State) : (devWrite dev off x s) =
    { s with intstat := (devWrite dev off x s).intstat, promEn := (devWrite dev off x s).promEn,
             trace := (devWrite dev off x s).trace } := by
  unfold devWrite; split
  · rw [busEffect_frame]
  · rfl

@[simp] theorem devWrite_cfg (dev : Device) (off : BitVec 24) (x : Word) (s : State) : (devWrite dev off x s).cfg = s.cfg :=
  (congrArg State.cfg (devWrite_frame dev off x s) :)
@[simp] theorem devWrite_amem (dev : Device) (off : BitVec 24) (x : Word) (s : State) : (devWrite dev off x s).amem = s.amem :=
  (congrArg State.amem (devWrite_frame dev off x s) :)
@[simp] theorem devWrite_mmem (dev : Device) (off : BitVec 24) (x : Word) (s : State) : (devWrite dev off x s).mmem = s.mmem :=
  (congrArg State.mmem (devWrite_frame dev off x s) :)
@[simp] theorem devWrite_npc (dev : Device) (off : BitVec 24) (x : Word) (s : State) : (devWrite dev off x s).npc = s.npc :=
  (congrArg State.npc (devWrite_frame dev off x s) :)
@[simp] theorem devWrite_p0 (dev : Device) (off : BitVec 24) (x : Word) (s : State) : (devWrite dev off x s).p0 = s.p0 :=
  (congrArg State.p0 (devWrite_frame dev off x s) :)
@[simp] theorem devWrite_p1 (dev : Device) (off : BitVec 24) (x : Word) (s : State) : (devWrite dev off x s).p1 = s.p1 :=
  (congrArg State.p1 (devWrite_frame dev off x s) :)
@[simp] theorem devWrite_p0pc (dev : Device) (off : BitVec 24) (x : Word) (s : State) : (devWrite dev off x s).p0pc = s.p0pc :=
  (congrArg State.p0pc (devWrite_frame dev off x s) :)
@[simp] theorem devWrite_p1pc (dev : Device) (off : BitVec 24) (x : Word) (s : State) : (devWrite dev off x s).p1pc = s.p1pc :=
  (congrArg State.p1pc (devWrite_frame dev off x s) :)
@[simp] theorem devWrite_inhibit (dev : Device) (off : BitVec 24) (x : Word) (s : State) : (devWrite dev off x s).inhibit = s.inhibit :=
  (congrArg State.inhibit (devWrite_frame dev off x s) :)
@[simp] theorem devWrite_halted (dev : Device) (off : BitVec 24) (x : Word) (s : State) : (devWrite dev off x s).halted = s.halted :=
  (congrArg State.halted (devWrite_frame dev off x s) :)
@[simp] theorem devWrite_oaLo (dev : Device) (off : BitVec 24) (x : Word) (s : State) : (devWrite dev off x s).oaLo = s.oaLo :=
  (congrArg State.oaLo (devWrite_frame dev off x s) :)
@[simp] theorem devWrite_oaLoV (dev : Device) (off : BitVec 24) (x : Word) (s : State) : (devWrite dev off x s).oaLoV = s.oaLoV :=
  (congrArg State.oaLoV (devWrite_frame dev off x s) :)
@[simp] theorem devWrite_oaHi (dev : Device) (off : BitVec 24) (x : Word) (s : State) : (devWrite dev off x s).oaHi = s.oaHi :=
  (congrArg State.oaHi (devWrite_frame dev off x s) :)
@[simp] theorem devWrite_oaHiV (dev : Device) (off : BitVec 24) (x : Word) (s : State) : (devWrite dev off x s).oaHiV = s.oaHiV :=
  (congrArg State.oaHiV (devWrite_frame dev off x s) :)
@[simp] theorem devWrite_accessFault (dev : Device) (off : BitVec 24) (x : Word) (s : State) : (devWrite dev off x s).accessFault = s.accessFault :=
  (congrArg State.accessFault (devWrite_frame dev off x s) :)
@[simp] theorem devWrite_writeFault (dev : Device) (off : BitVec 24) (x : Word) (s : State) : (devWrite dev off x s).writeFault = s.writeFault :=
  (congrArg State.writeFault (devWrite_frame dev off x s) :)
@[simp] theorem devWrite_pageFault (dev : Device) (off : BitVec 24) (x : Word) (s : State) : (devWrite dev off x s).pageFault = s.pageFault :=
  (congrArg State.pageFault (devWrite_frame dev off x s) :)
@[simp] theorem devWrite_dc (dev : Device) (off : BitVec 24) (x : Word) (s : State) : (devWrite dev off x s).dc = s.dc :=
  (congrArg State.dc (devWrite_frame dev off x s) :)
@[simp] theorem devWrite_opc (dev : Device) (off : BitVec 24) (x : Word) (s : State) : (devWrite dev off x s).opc = s.opc :=
  (congrArg State.opc (devWrite_frame dev off x s) :)
@[simp] theorem devWrite_q (dev : Device) (off : BitVec 24) (x : Word) (s : State) : (devWrite dev off x s).q = s.q :=
  (congrArg State.q (devWrite_frame dev off x s) :)
@[simp] theorem devWrite_vma (dev : Device) (off : BitVec 24) (x : Word) (s : State) : (devWrite dev off x s).vma = s.vma :=
  (congrArg State.vma (devWrite_frame dev off x s) :)
@[simp] theorem devWrite_md (dev : Device) (off : BitVec 24) (x : Word) (s : State) : (devWrite dev off x s).md = s.md :=
  (congrArg State.md (devWrite_frame dev off x s) :)
@[simp] theorem devWrite_lc (dev : Device) (off : BitVec 24) (x : Word) (s : State) : (devWrite dev off x s).lc = s.lc :=
  (congrArg State.lc (devWrite_frame dev off x s) :)
@[simp] theorem devWrite_icr (dev : Device) (off : BitVec 24) (x : Word) (s : State) : (devWrite dev off x s).icr = s.icr :=
  (congrArg State.icr (devWrite_frame dev off x s) :)
@[simp] theorem devWrite_spc (dev : Device) (off : BitVec 24) (x : Word) (s : State) : (devWrite dev off x s).spc = s.spc :=
  (congrArg State.spc (devWrite_frame dev off x s) :)
@[simp] theorem devWrite_spcPtr (dev : Device) (off : BitVec 24) (x : Word) (s : State) : (devWrite dev off x s).spcPtr = s.spcPtr :=
  (congrArg State.spcPtr (devWrite_frame dev off x s) :)
@[simp] theorem devWrite_pdl (dev : Device) (off : BitVec 24) (x : Word) (s : State) : (devWrite dev off x s).pdl = s.pdl :=
  (congrArg State.pdl (devWrite_frame dev off x s) :)
@[simp] theorem devWrite_pdlPtr (dev : Device) (off : BitVec 24) (x : Word) (s : State) : (devWrite dev off x s).pdlPtr = s.pdlPtr :=
  (congrArg State.pdlPtr (devWrite_frame dev off x s) :)
@[simp] theorem devWrite_pdlIdx (dev : Device) (off : BitVec 24) (x : Word) (s : State) : (devWrite dev off x s).pdlIdx = s.pdlIdx :=
  (congrArg State.pdlIdx (devWrite_frame dev off x s) :)
@[simp] theorem devWrite_dmem (dev : Device) (off : BitVec 24) (x : Word) (s : State) : (devWrite dev off x s).dmem = s.dmem :=
  (congrArg State.dmem (devWrite_frame dev off x s) :)
@[simp] theorem devWrite_imem (dev : Device) (off : BitVec 24) (x : Word) (s : State) : (devWrite dev off x s).imem = s.imem :=
  (congrArg State.imem (devWrite_frame dev off x s) :)
@[simp] theorem devWrite_prom (dev : Device) (off : BitVec 24) (x : Word) (s : State) : (devWrite dev off x s).prom = s.prom :=
  (congrArg State.prom (devWrite_frame dev off x s) :)
@[simp] theorem devWrite_l1 (dev : Device) (off : BitVec 24) (x : Word) (s : State) : (devWrite dev off x s).l1 = s.l1 :=
  (congrArg State.l1 (devWrite_frame dev off x s) :)
@[simp] theorem devWrite_l2 (dev : Device) (off : BitVec 24) (x : Word) (s : State) : (devWrite dev off x s).l2 = s.l2 :=
  (congrArg State.l2 (devWrite_frame dev off x s) :)
@[simp] theorem devWrite_pmem (dev : Device) (off : BitVec 24) (x : Word) (s : State) : (devWrite dev off x s).pmem = s.pmem :=
  (congrArg State.pmem (devWrite_frame dev off x s) :)
@[simp] theorem devWrite_pages (dev : Device) (off : BitVec 24) (x : Word) (s : State) : (devWrite dev off x s).pages = s.pages :=
  (congrArg State.pages (devWrite_frame dev off x s) :)
@[simp] theorem devWrite_rdDelay (dev : Device) (off : BitVec 24) (x : Word) (s : State) : (devWrite dev off x s).rdDelay = s.rdDelay :=
  (congrArg State.rdDelay (devWrite_frame dev off x s) :)
@[simp] theorem devWrite_rdValue (dev : Device) (off : BitVec 24) (x : Word) (s : State) : (devWrite dev off x s).rdValue = s.rdValue :=
  (congrArg State.rdValue (devWrite_frame dev off x s) :)
@[simp] theorem devWrite_restored (dev : Device) (off : BitVec 24) (x : Word) (s : State) : (devWrite dev off x s).restored = s.restored :=
  (congrArg State.restored (devWrite_frame dev off x s) :)
@[simp] theorem devWrite_lcHist (dev : Device) (off : BitVec 24) (x : Word) (s : State) : (devWrite dev off x s).lcHist = s.lcHist :=
  (congrArg State.lcHist (devWrite_frame dev off x s) :)
@[simp] theorem devWrite_pcHist (dev : Device) (off : BitVec 24) (x : Word) (s : State) : (devWrite dev off x s).pcHist = s.pcHist :=
  (congrArg State.pcHist (devWrite_frame dev off x s) :)
@[simp] theorem devWrite_pdlHist (dev : Device) (off : BitVec 24) (x : Word) (s : State) : (devWrite dev off x s).pdlHist = s.pdlHist :=
  (congrArg State.pdlHist (devWrite_frame dev off x s) :)
@[simp] theorem devWrite_devReads (dev : Device) (off : BitVec 24) (x : Word) (s : State) : (devWrite dev off x s).devReads = s.devReads :=
  (congrArg State.devReads (devWrite_frame dev off x s) :)

/-- A virtual read changes these fields and no other. -/
theorem memRead_frame (v : Word) (s : State) : (memRead v s).2 =
    { s with accessFault := (memRead v s).2.accessFault,
             writeFault := (memRead v s).2.writeFault, pageFault := (memRead v s).2.pageFault,
             opc := (memRead v s).2.opc, pages := (memRead v s).2.pages,
             devReads := (memRead v s).2.devReads } := by
  unfold memRead; simp only []; split
  · rw [devRead_frame]; rfl
  · split
    · rfl
    · split
      · rw [devRead_frame]; rfl
      · split <;> rfl

@[simp] theorem memRead_cfg (v : Word) (s : State) : (memRead v s).2.cfg = s.cfg :=
  (congrArg State.cfg (memRead_frame v s) :)
@[simp] theorem memRead_amem (v : Word) (s : State) : (memRead v s).2.amem = s.amem :=
  (congrArg State.amem (memRead_frame v s) :)
@[simp] theorem memRead_mmem (v : Word) (s : State) : (memRead v s).2.mmem = s.mmem :=
  (congrArg State.mmem (memRead_frame v s) :)
@[simp] theorem memRead_npc (v : Word) (s : State) : (memRead v s).2.npc = s.npc :=
  (congrArg State.npc (memRead_frame v s) :)
@[simp] theorem memRead_p0 (v : Word) (s : State) : (memRead v s).2.p0 = s.p0 :=
  (congrArg State.p0 (memRead_frame v s) :)
@[simp] theorem memRead_p1 (v : Word) (s : State) : (memRead v s).2.p1 = s.p1 :=
  (congrArg State.p1 (memRead_frame v s) :)
@[simp] theorem memRead_p0pc (v : Word) (s : State) : (memRead v s).2.p0pc = s.p0pc :=
  (congrArg State.p0pc (memRead_frame v s) :)
@[simp] theorem memRead_p1pc (v : Word) (s : State) : (memRead v s).2.p1pc = s.p1pc :=
  (congrArg State.p1pc (memRead_frame v s) :)
@[simp] theorem memRead_inhibit (v : Word) (s : State) : (memRead v s).2.inhibit = s.inhibit :=
  (congrArg State.inhibit (memRead_frame v s) :)
@[simp] theorem memRead_promEn (v : Word) (s : State) : (memRead v s).2.promEn = s.promEn :=
  (congrArg State.promEn (memRead_frame v s) :)
@[simp] theorem memRead_halted (v : Word) (s : State) : (memRead v s).2.halted = s.halted :=
  (congrArg State.halted (memRead_frame v s) :)
@[simp] theorem memRead_oaLo (v : Word) (s : State) : (memRead v s).2.oaLo = s.oaLo :=
  (congrArg State.oaLo (memRead_frame v s) :)
@[simp] theorem memRead_oaLoV (v : Word) (s : State) : (memRead v s).2.oaLoV = s.oaLoV :=
  (congrArg State.oaLoV (memRead_frame v s) :)
@[simp] theorem memRead_oaHi (v : Word) (s : State) : (memRead v s).2.oaHi = s.oaHi :=
  (congrArg State.oaHi (memRead_frame v s) :)
@[simp] theorem memRead_oaHiV (v : Word) (s : State) : (memRead v s).2.oaHiV = s.oaHiV :=
  (congrArg State.oaHiV (memRead_frame v s) :)
@[simp] theorem memRead_dc (v : Word) (s : State) : (memRead v s).2.dc = s.dc :=
  (congrArg State.dc (memRead_frame v s) :)
@[simp] theorem memRead_q (v : Word) (s : State) : (memRead v s).2.q = s.q :=
  (congrArg State.q (memRead_frame v s) :)
@[simp] theorem memRead_vma (v : Word) (s : State) : (memRead v s).2.vma = s.vma :=
  (congrArg State.vma (memRead_frame v s) :)
@[simp] theorem memRead_md (v : Word) (s : State) : (memRead v s).2.md = s.md :=
  (congrArg State.md (memRead_frame v s) :)
@[simp] theorem memRead_lc (v : Word) (s : State) : (memRead v s).2.lc = s.lc :=
  (congrArg State.lc (memRead_frame v s) :)
@[simp] theorem memRead_icr (v : Word) (s : State) : (memRead v s).2.icr = s.icr :=
  (congrArg State.icr (memRead_frame v s) :)
@[simp] theorem memRead_spc (v : Word) (s : State) : (memRead v s).2.spc = s.spc :=
  (congrArg State.spc (memRead_frame v s) :)
@[simp] theorem memRead_spcPtr (v : Word) (s : State) : (memRead v s).2.spcPtr = s.spcPtr :=
  (congrArg State.spcPtr (memRead_frame v s) :)
@[simp] theorem memRead_pdl (v : Word) (s : State) : (memRead v s).2.pdl = s.pdl :=
  (congrArg State.pdl (memRead_frame v s) :)
@[simp] theorem memRead_pdlPtr (v : Word) (s : State) : (memRead v s).2.pdlPtr = s.pdlPtr :=
  (congrArg State.pdlPtr (memRead_frame v s) :)
@[simp] theorem memRead_pdlIdx (v : Word) (s : State) : (memRead v s).2.pdlIdx = s.pdlIdx :=
  (congrArg State.pdlIdx (memRead_frame v s) :)
@[simp] theorem memRead_dmem (v : Word) (s : State) : (memRead v s).2.dmem = s.dmem :=
  (congrArg State.dmem (memRead_frame v s) :)
@[simp] theorem memRead_imem (v : Word) (s : State) : (memRead v s).2.imem = s.imem :=
  (congrArg State.imem (memRead_frame v s) :)
@[simp] theorem memRead_prom (v : Word) (s : State) : (memRead v s).2.prom = s.prom :=
  (congrArg State.prom (memRead_frame v s) :)
@[simp] theorem memRead_intstat (v : Word) (s : State) : (memRead v s).2.intstat = s.intstat :=
  (congrArg State.intstat (memRead_frame v s) :)
@[simp] theorem memRead_l1 (v : Word) (s : State) : (memRead v s).2.l1 = s.l1 :=
  (congrArg State.l1 (memRead_frame v s) :)
@[simp] theorem memRead_l2 (v : Word) (s : State) : (memRead v s).2.l2 = s.l2 :=
  (congrArg State.l2 (memRead_frame v s) :)
@[simp] theorem memRead_pmem (v : Word) (s : State) : (memRead v s).2.pmem = s.pmem :=
  (congrArg State.pmem (memRead_frame v s) :)
@[simp] theorem memRead_rdDelay (v : Word) (s : State) : (memRead v s).2.rdDelay = s.rdDelay :=
  (congrArg State.rdDelay (memRead_frame v s) :)
@[simp] theorem memRead_rdValue (v : Word) (s : State) : (memRead v s).2.rdValue = s.rdValue :=
  (congrArg State.rdValue (memRead_frame v s) :)
@[simp] theorem memRead_restored (v : Word) (s : State) : (memRead v s).2.restored = s.restored :=
  (congrArg State.restored (memRead_frame v s) :)
@[simp] theorem memRead_lcHist (v : Word) (s : State) : (memRead v s).2.lcHist = s.lcHist :=
  (congrArg State.lcHist (memRead_frame v s) :)
@[simp] theorem memRead_pcHist (v : Word) (s : State) : (memRead v s).2.pcHist = s.pcHist :=
  (congrArg State.pcHist (memRead_frame v s) :)
@[simp] theorem memRead_pdlHist (v : Word) (s : State) : (memRead v s).2.pdlHist = s.pdlHist :=
  (congrArg State.pdlHist (memRead_frame v s) :)
@[simp] theorem memRead_trace (v : Word) (s : State) : (memRead v s).2.trace = s.trace :=
  (congrArg State.trace (memRead_frame v s) :)

/-- A virtual write changes these fields and no other. -/
theorem memWrite_frame (v x : Word) (s : State) : (memWrite v x s) =
    { s with accessFault := (memWrite v x s).accessFault,
             writeFault := (memWrite v x s).writeFault, pageFault := (memWrite v x s).pageFault,
             opc := (memWrite v x s).opc, pages := (memWrite v x s).pages,
             pmem := (memWrite v x s).pmem, intstat := (memWrite v x s).intstat,
             promEn := (memWrite v x s).promEn, trace := (memWrite v x s).trace } := by
  unfold memWrite; simp only []; split
  · rw [devWrite_frame]; rfl
  · split
    · rfl
    · split
      · rfl
      · split
        · rw [devWrite_frame]; rfl
        · split <;> rfl

@[simp] theorem memWrite_cfg (v x : Word) (s : State) : (memWrite v x s).cfg = s.cfg :=
  (congrArg State.cfg (memWrite_frame v x s) :)
@[simp] theorem memWrite_amem (v x : Word) (s : State) : (memWrite v x s).amem = s.amem :=
  (congrArg State.amem (memWrite_frame v x s) :)
@[simp] theorem memWrite_mmem (v x : Word) (s : State) : (memWrite v x s).mmem = s.mmem :=
  (congrArg State.mmem (memWrite_frame v x s) :)
@[simp] theorem memWrite_npc (v x : Word) (s : State) : (memWrite v x s).npc = s.npc :=
  (congrArg State.npc (memWrite_frame v x s) :)
@[simp] theorem memWrite_p0 (v x : Word) (s : State) : (memWrite v x s).p0 = s.p0 :=
  (congrArg State.p0 (memWrite_frame v x s) :)
@[simp] theorem memWrite_p1 (v x : Word) (s : State) : (memWrite v x s).p1 = s.p1 :=
  (congrArg State.p1 (memWrite_frame v x s) :)
@[simp] theorem memWrite_p0pc (v x : Word) (s : State) : (memWrite v x s).p0pc = s.p0pc :=
  (congrArg State.p0pc (memWrite_frame v x s) :)
@[simp] theorem memWrite_p1pc (v x : Word) (s : State) : (memWrite v x s).p1pc = s.p1pc :=
  (congrArg State.p1pc (memWrite_frame v x s) :)
@[simp] theorem memWrite_inhibit (v x : Word) (s : State) : (memWrite v x s).inhibit = s.inhibit :=
  (congrArg State.inhibit (memWrite_frame v x s) :)
@[simp] theorem memWrite_halted (v x : Word) (s : State) : (memWrite v x s).halted = s.halted :=
  (congrArg State.halted (memWrite_frame v x s) :)
@[simp] theorem memWrite_oaLo (v x : Word) (s : State) : (memWrite v x s).oaLo = s.oaLo :=
  (congrArg State.oaLo (memWrite_frame v x s) :)
@[simp] theorem memWrite_oaLoV (v x : Word) (s : State) : (memWrite v x s).oaLoV = s.oaLoV :=
  (congrArg State.oaLoV (memWrite_frame v x s) :)
@[simp] theorem memWrite_oaHi (v x : Word) (s : State) : (memWrite v x s).oaHi = s.oaHi :=
  (congrArg State.oaHi (memWrite_frame v x s) :)
@[simp] theorem memWrite_oaHiV (v x : Word) (s : State) : (memWrite v x s).oaHiV = s.oaHiV :=
  (congrArg State.oaHiV (memWrite_frame v x s) :)
@[simp] theorem memWrite_dc (v x : Word) (s : State) : (memWrite v x s).dc = s.dc :=
  (congrArg State.dc (memWrite_frame v x s) :)
@[simp] theorem memWrite_q (v x : Word) (s : State) : (memWrite v x s).q = s.q :=
  (congrArg State.q (memWrite_frame v x s) :)
@[simp] theorem memWrite_vma (v x : Word) (s : State) : (memWrite v x s).vma = s.vma :=
  (congrArg State.vma (memWrite_frame v x s) :)
@[simp] theorem memWrite_md (v x : Word) (s : State) : (memWrite v x s).md = s.md :=
  (congrArg State.md (memWrite_frame v x s) :)
@[simp] theorem memWrite_lc (v x : Word) (s : State) : (memWrite v x s).lc = s.lc :=
  (congrArg State.lc (memWrite_frame v x s) :)
@[simp] theorem memWrite_icr (v x : Word) (s : State) : (memWrite v x s).icr = s.icr :=
  (congrArg State.icr (memWrite_frame v x s) :)
@[simp] theorem memWrite_spc (v x : Word) (s : State) : (memWrite v x s).spc = s.spc :=
  (congrArg State.spc (memWrite_frame v x s) :)
@[simp] theorem memWrite_spcPtr (v x : Word) (s : State) : (memWrite v x s).spcPtr = s.spcPtr :=
  (congrArg State.spcPtr (memWrite_frame v x s) :)
@[simp] theorem memWrite_pdl (v x : Word) (s : State) : (memWrite v x s).pdl = s.pdl :=
  (congrArg State.pdl (memWrite_frame v x s) :)
@[simp] theorem memWrite_pdlPtr (v x : Word) (s : State) : (memWrite v x s).pdlPtr = s.pdlPtr :=
  (congrArg State.pdlPtr (memWrite_frame v x s) :)
@[simp] theorem memWrite_pdlIdx (v x : Word) (s : State) : (memWrite v x s).pdlIdx = s.pdlIdx :=
  (congrArg State.pdlIdx (memWrite_frame v x s) :)
@[simp] theorem memWrite_dmem (v x : Word) (s : State) : (memWrite v x s).dmem = s.dmem :=
  (congrArg State.dmem (memWrite_frame v x s) :)
@[simp] theorem memWrite_imem (v x : Word) (s : State) : (memWrite v x s).imem = s.imem :=
  (congrArg State.imem (memWrite_frame v x s) :)
@[simp] theorem memWrite_prom (v x : Word) (s : State) : (memWrite v x s).prom = s.prom :=
  (congrArg State.prom (memWrite_frame v x s) :)
@[simp] theorem memWrite_l1 (v x : Word) (s : State) : (memWrite v x s).l1 = s.l1 :=
  (congrArg State.l1 (memWrite_frame v x s) :)
@[simp] theorem memWrite_l2 (v x : Word) (s : State) : (memWrite v x s).l2 = s.l2 :=
  (congrArg State.l2 (memWrite_frame v x s) :)
@[simp] theorem memWrite_rdDelay (v x : Word) (s : State) : (memWrite v x s).rdDelay = s.rdDelay :=
  (congrArg State.rdDelay (memWrite_frame v x s) :)
@[simp] theorem memWrite_rdValue (v x : Word) (s : State) : (memWrite v x s).rdValue = s.rdValue :=
  (congrArg State.rdValue (memWrite_frame v x s) :)
@[simp] theorem memWrite_restored (v x : Word) (s : State) : (memWrite v x s).restored = s.restored :=
  (congrArg State.restored (memWrite_frame v x s) :)
@[simp] theorem memWrite_lcHist (v x : Word) (s : State) : (memWrite v x s).lcHist = s.lcHist :=
  (congrArg State.lcHist (memWrite_frame v x s) :)
@[simp] theorem memWrite_pcHist (v x : Word) (s : State) : (memWrite v x s).pcHist = s.pcHist :=
  (congrArg State.pcHist (memWrite_frame v x s) :)
@[simp] theorem memWrite_pdlHist (v x : Word) (s : State) : (memWrite v x s).pdlHist = s.pdlHist :=
  (congrArg State.pdlHist (memWrite_frame v x s) :)
@[simp] theorem memWrite_devReads (v x : Word) (s : State) : (memWrite v x s).devReads = s.devReads :=
  (congrArg State.devReads (memWrite_frame v x s) :)

/-- A started read changes these fields and no other. -/
theorem issueRead_frame (v : Word) (s : State) : (issueRead v s) =
    { s with accessFault := (issueRead v s).accessFault,
             writeFault := (issueRead v s).writeFault, pageFault := (issueRead v s).pageFault,
             opc := (issueRead v s).opc, pages := (issueRead v s).pages,
             devReads := (issueRead v s).devReads, rdValue := (issueRead v s).rdValue,
             rdDelay := (issueRead v s).rdDelay } := by
  unfold issueRead; simp only []; rw [memRead_frame]

@[simp] theorem issueRead_cfg (v : Word) (s : State) : (issueRead v s).cfg = s.cfg :=
  (congrArg State.cfg (issueRead_frame v s) :)
@[simp] theorem issueRead_amem (v : Word) (s : State) : (issueRead v s).amem = s.amem :=
  (congrArg State.amem (issueRead_frame v s) :)
@[simp] theorem issueRead_mmem (v : Word) (s : State) : (issueRead v s).mmem = s.mmem :=
  (congrArg State.mmem (issueRead_frame v s) :)
@[simp] theorem issueRead_npc (v : Word) (s : State) : (issueRead v s).npc = s.npc :=
  (congrArg State.npc (issueRead_frame v s) :)
@[simp] theorem issueRead_p0 (v : Word) (s : State) : (issueRead v s).p0 = s.p0 :=
  (congrArg State.p0 (issueRead_frame v s) :)
@[simp] theorem issueRead_p1 (v : Word) (s : State) : (issueRead v s).p1 = s.p1 :=
  (congrArg State.p1 (issueRead_frame v s) :)
@[simp] theorem issueRead_p0pc (v : Word) (s : State) : (issueRead v s).p0pc = s.p0pc :=
  (congrArg State.p0pc (issueRead_frame v s) :)
@[simp] theorem issueRead_p1pc (v : Word) (s : State) : (issueRead v s).p1pc = s.p1pc :=
  (congrArg State.p1pc (issueRead_frame v s) :)
@[simp] theorem issueRead_inhibit (v : Word) (s : State) : (issueRead v s).inhibit = s.inhibit :=
  (congrArg State.inhibit (issueRead_frame v s) :)
@[simp] theorem issueRead_promEn (v : Word) (s : State) : (issueRead v s).promEn = s.promEn :=
  (congrArg State.promEn (issueRead_frame v s) :)
@[simp] theorem issueRead_halted (v : Word) (s : State) : (issueRead v s).halted = s.halted :=
  (congrArg State.halted (issueRead_frame v s) :)
@[simp] theorem issueRead_oaLo (v : Word) (s : State) : (issueRead v s).oaLo = s.oaLo :=
  (congrArg State.oaLo (issueRead_frame v s) :)
@[simp] theorem issueRead_oaLoV (v : Word) (s : State) : (issueRead v s).oaLoV = s.oaLoV :=
  (congrArg State.oaLoV (issueRead_frame v s) :)
@[simp] theorem issueRead_oaHi (v : Word) (s : State) : (issueRead v s).oaHi = s.oaHi :=
  (congrArg State.oaHi (issueRead_frame v s) :)
@[simp] theorem issueRead_oaHiV (v : Word) (s : State) : (issueRead v s).oaHiV = s.oaHiV :=
  (congrArg State.oaHiV (issueRead_frame v s) :)
@[simp] theorem issueRead_dc (v : Word) (s : State) : (issueRead v s).dc = s.dc :=
  (congrArg State.dc (issueRead_frame v s) :)
@[simp] theorem issueRead_q (v : Word) (s : State) : (issueRead v s).q = s.q :=
  (congrArg State.q (issueRead_frame v s) :)
@[simp] theorem issueRead_vma (v : Word) (s : State) : (issueRead v s).vma = s.vma :=
  (congrArg State.vma (issueRead_frame v s) :)
@[simp] theorem issueRead_md (v : Word) (s : State) : (issueRead v s).md = s.md :=
  (congrArg State.md (issueRead_frame v s) :)
@[simp] theorem issueRead_lc (v : Word) (s : State) : (issueRead v s).lc = s.lc :=
  (congrArg State.lc (issueRead_frame v s) :)
@[simp] theorem issueRead_icr (v : Word) (s : State) : (issueRead v s).icr = s.icr :=
  (congrArg State.icr (issueRead_frame v s) :)
@[simp] theorem issueRead_spc (v : Word) (s : State) : (issueRead v s).spc = s.spc :=
  (congrArg State.spc (issueRead_frame v s) :)
@[simp] theorem issueRead_spcPtr (v : Word) (s : State) : (issueRead v s).spcPtr = s.spcPtr :=
  (congrArg State.spcPtr (issueRead_frame v s) :)
@[simp] theorem issueRead_pdl (v : Word) (s : State) : (issueRead v s).pdl = s.pdl :=
  (congrArg State.pdl (issueRead_frame v s) :)
@[simp] theorem issueRead_pdlPtr (v : Word) (s : State) : (issueRead v s).pdlPtr = s.pdlPtr :=
  (congrArg State.pdlPtr (issueRead_frame v s) :)
@[simp] theorem issueRead_pdlIdx (v : Word) (s : State) : (issueRead v s).pdlIdx = s.pdlIdx :=
  (congrArg State.pdlIdx (issueRead_frame v s) :)
@[simp] theorem issueRead_dmem (v : Word) (s : State) : (issueRead v s).dmem = s.dmem :=
  (congrArg State.dmem (issueRead_frame v s) :)
@[simp] theorem issueRead_imem (v : Word) (s : State) : (issueRead v s).imem = s.imem :=
  (congrArg State.imem (issueRead_frame v s) :)
@[simp] theorem issueRead_prom (v : Word) (s : State) : (issueRead v s).prom = s.prom :=
  (congrArg State.prom (issueRead_frame v s) :)
@[simp] theorem issueRead_intstat (v : Word) (s : State) : (issueRead v s).intstat = s.intstat :=
  (congrArg State.intstat (issueRead_frame v s) :)
@[simp] theorem issueRead_l1 (v : Word) (s : State) : (issueRead v s).l1 = s.l1 :=
  (congrArg State.l1 (issueRead_frame v s) :)
@[simp] theorem issueRead_l2 (v : Word) (s : State) : (issueRead v s).l2 = s.l2 :=
  (congrArg State.l2 (issueRead_frame v s) :)
@[simp] theorem issueRead_pmem (v : Word) (s : State) : (issueRead v s).pmem = s.pmem :=
  (congrArg State.pmem (issueRead_frame v s) :)
@[simp] theorem issueRead_restored (v : Word) (s : State) : (issueRead v s).restored = s.restored :=
  (congrArg State.restored (issueRead_frame v s) :)
@[simp] theorem issueRead_lcHist (v : Word) (s : State) : (issueRead v s).lcHist = s.lcHist :=
  (congrArg State.lcHist (issueRead_frame v s) :)
@[simp] theorem issueRead_pcHist (v : Word) (s : State) : (issueRead v s).pcHist = s.pcHist :=
  (congrArg State.pcHist (issueRead_frame v s) :)
@[simp] theorem issueRead_pdlHist (v : Word) (s : State) : (issueRead v s).pdlHist = s.pdlHist :=
  (congrArg State.pdlHist (issueRead_frame v s) :)
@[simp] theorem issueRead_trace (v : Word) (s : State) : (issueRead v s).trace = s.trace :=
  (congrArg State.trace (issueRead_frame v s) :)

/-- The map write changes these fields and no other. -/
theorem writeMap_frame (s : State) : (writeMap s) =
    { s with l1 := (writeMap s).l1, l2 := (writeMap s).l2 } := by
  unfold writeMap; simp only []; split <;> split <;> rfl

@[simp] theorem writeMap_cfg (s : State) : (writeMap s).cfg = s.cfg :=
  (congrArg State.cfg (writeMap_frame s) :)
@[simp] theorem writeMap_amem (s : State) : (writeMap s).amem = s.amem :=
  (congrArg State.amem (writeMap_frame s) :)
@[simp] theorem writeMap_mmem (s : State) : (writeMap s).mmem = s.mmem :=
  (congrArg State.mmem (writeMap_frame s) :)
@[simp] theorem writeMap_npc (s : State) : (writeMap s).npc = s.npc :=
  (congrArg State.npc (writeMap_frame s) :)
@[simp] theorem writeMap_p0 (s : State) : (writeMap s).p0 = s.p0 :=
  (congrArg State.p0 (writeMap_frame s) :)
@[simp] theorem writeMap_p1 (s : State) : (writeMap s).p1 = s.p1 :=
  (congrArg State.p1 (writeMap_frame s) :)
@[simp] theorem writeMap_p0pc (s : State) : (writeMap s).p0pc = s.p0pc :=
  (congrArg State.p0pc (writeMap_frame s) :)
@[simp] theorem writeMap_p1pc (s : State) : (writeMap s).p1pc = s.p1pc :=
  (congrArg State.p1pc (writeMap_frame s) :)
@[simp] theorem writeMap_inhibit (s : State) : (writeMap s).inhibit = s.inhibit :=
  (congrArg State.inhibit (writeMap_frame s) :)
@[simp] theorem writeMap_promEn (s : State) : (writeMap s).promEn = s.promEn :=
  (congrArg State.promEn (writeMap_frame s) :)
@[simp] theorem writeMap_halted (s : State) : (writeMap s).halted = s.halted :=
  (congrArg State.halted (writeMap_frame s) :)
@[simp] theorem writeMap_oaLo (s : State) : (writeMap s).oaLo = s.oaLo :=
  (congrArg State.oaLo (writeMap_frame s) :)
@[simp] theorem writeMap_oaLoV (s : State) : (writeMap s).oaLoV = s.oaLoV :=
  (congrArg State.oaLoV (writeMap_frame s) :)
@[simp] theorem writeMap_oaHi (s : State) : (writeMap s).oaHi = s.oaHi :=
  (congrArg State.oaHi (writeMap_frame s) :)
@[simp] theorem writeMap_oaHiV (s : State) : (writeMap s).oaHiV = s.oaHiV :=
  (congrArg State.oaHiV (writeMap_frame s) :)
@[simp] theorem writeMap_accessFault (s : State) : (writeMap s).accessFault = s.accessFault :=
  (congrArg State.accessFault (writeMap_frame s) :)
@[simp] theorem writeMap_writeFault (s : State) : (writeMap s).writeFault = s.writeFault :=
  (congrArg State.writeFault (writeMap_frame s) :)
@[simp] theorem writeMap_pageFault (s : State) : (writeMap s).pageFault = s.pageFault :=
  (congrArg State.pageFault (writeMap_frame s) :)
@[simp] theorem writeMap_dc (s : State) : (writeMap s).dc = s.dc :=
  (congrArg State.dc (writeMap_frame s) :)
@[simp] theorem writeMap_opc (s : State) : (writeMap s).opc = s.opc :=
  (congrArg State.opc (writeMap_frame s) :)
@[simp] theorem writeMap_q (s : State) : (writeMap s).q = s.q :=
  (congrArg State.q (writeMap_frame s) :)
@[simp] theorem writeMap_vma (s : State) : (writeMap s).vma = s.vma :=
  (congrArg State.vma (writeMap_frame s) :)
@[simp] theorem writeMap_md (s : State) : (writeMap s).md = s.md :=
  (congrArg State.md (writeMap_frame s) :)
@[simp] theorem writeMap_lc (s : State) : (writeMap s).lc = s.lc :=
  (congrArg State.lc (writeMap_frame s) :)
@[simp] theorem writeMap_icr (s : State) : (writeMap s).icr = s.icr :=
  (congrArg State.icr (writeMap_frame s) :)
@[simp] theorem writeMap_spc (s : State) : (writeMap s).spc = s.spc :=
  (congrArg State.spc (writeMap_frame s) :)
@[simp] theorem writeMap_spcPtr (s : State) : (writeMap s).spcPtr = s.spcPtr :=
  (congrArg State.spcPtr (writeMap_frame s) :)
@[simp] theorem writeMap_pdl (s : State) : (writeMap s).pdl = s.pdl :=
  (congrArg State.pdl (writeMap_frame s) :)
@[simp] theorem writeMap_pdlPtr (s : State) : (writeMap s).pdlPtr = s.pdlPtr :=
  (congrArg State.pdlPtr (writeMap_frame s) :)
@[simp] theorem writeMap_pdlIdx (s : State) : (writeMap s).pdlIdx = s.pdlIdx :=
  (congrArg State.pdlIdx (writeMap_frame s) :)
@[simp] theorem writeMap_dmem (s : State) : (writeMap s).dmem = s.dmem :=
  (congrArg State.dmem (writeMap_frame s) :)
@[simp] theorem writeMap_imem (s : State) : (writeMap s).imem = s.imem :=
  (congrArg State.imem (writeMap_frame s) :)
@[simp] theorem writeMap_prom (s : State) : (writeMap s).prom = s.prom :=
  (congrArg State.prom (writeMap_frame s) :)
@[simp] theorem writeMap_intstat (s : State) : (writeMap s).intstat = s.intstat :=
  (congrArg State.intstat (writeMap_frame s) :)
@[simp] theorem writeMap_pmem (s : State) : (writeMap s).pmem = s.pmem :=
  (congrArg State.pmem (writeMap_frame s) :)
@[simp] theorem writeMap_pages (s : State) : (writeMap s).pages = s.pages :=
  (congrArg State.pages (writeMap_frame s) :)
@[simp] theorem writeMap_rdDelay (s : State) : (writeMap s).rdDelay = s.rdDelay :=
  (congrArg State.rdDelay (writeMap_frame s) :)
@[simp] theorem writeMap_rdValue (s : State) : (writeMap s).rdValue = s.rdValue :=
  (congrArg State.rdValue (writeMap_frame s) :)
@[simp] theorem writeMap_restored (s : State) : (writeMap s).restored = s.restored :=
  (congrArg State.restored (writeMap_frame s) :)
@[simp] theorem writeMap_lcHist (s : State) : (writeMap s).lcHist = s.lcHist :=
  (congrArg State.lcHist (writeMap_frame s) :)
@[simp] theorem writeMap_pcHist (s : State) : (writeMap s).pcHist = s.pcHist :=
  (congrArg State.pcHist (writeMap_frame s) :)
@[simp] theorem writeMap_pdlHist (s : State) : (writeMap s).pdlHist = s.pdlHist :=
  (congrArg State.pdlHist (writeMap_frame s) :)
@[simp] theorem writeMap_devReads (s : State) : (writeMap s).devReads = s.devReads :=
  (congrArg State.devReads (writeMap_frame s) :)
@[simp] theorem writeMap_trace (s : State) : (writeMap s).trace = s.trace :=
  (congrArg State.trace (writeMap_frame s) :)

/-- LC-advance changes these fields and no other. -/
theorem lcAdvance_frame (s : State) : (lcAdvance s).1 =
    { s with accessFault := (lcAdvance s).1.accessFault,
             writeFault := (lcAdvance s).1.writeFault, pageFault := (lcAdvance s).1.pageFault,
             opc := (lcAdvance s).1.opc, pages := (lcAdvance s).1.pages,
             devReads := (lcAdvance s).1.devReads, rdValue := (lcAdvance s).1.rdValue,
             rdDelay := (lcAdvance s).1.rdDelay, vma := (lcAdvance s).1.vma,
             lc := (lcAdvance s).1.lc, lcHist := (lcAdvance s).1.lcHist } := by
  unfold lcAdvance; simp only []; split
  · rw [issueRead_frame]
  · rfl

@[simp] theorem lcAdvance_cfg (s : State) : (lcAdvance s).1.cfg = s.cfg :=
  (congrArg State.cfg (lcAdvance_frame s) :)
@[simp] theorem lcAdvance_amem (s : State) : (lcAdvance s).1.amem = s.amem :=
  (congrArg State.amem (lcAdvance_frame s) :)
@[simp] theorem lcAdvance_mmem (s : State) : (lcAdvance s).1.mmem = s.mmem :=
  (congrArg State.mmem (lcAdvance_frame s) :)
@[simp] theorem lcAdvance_npc (s : State) : (lcAdvance s).1.npc = s.npc :=
  (congrArg State.npc (lcAdvance_frame s) :)
@[simp] theorem lcAdvance_p0 (s : State) : (lcAdvance s).1.p0 = s.p0 :=
  (congrArg State.p0 (lcAdvance_frame s) :)
@[simp] theorem lcAdvance_p1 (s : State) : (lcAdvance s).1.p1 = s.p1 :=
  (congrArg State.p1 (lcAdvance_frame s) :)
@[simp] theorem lcAdvance_p0pc (s : State) : (lcAdvance s).1.p0pc = s.p0pc :=
  (congrArg State.p0pc (lcAdvance_frame s) :)
@[simp] theorem lcAdvance_p1pc (s : State) : (lcAdvance s).1.p1pc = s.p1pc :=
  (congrArg State.p1pc (lcAdvance_frame s) :)
@[simp] theorem lcAdvance_inhibit (s : State) : (lcAdvance s).1.inhibit = s.inhibit :=
  (congrArg State.inhibit (lcAdvance_frame s) :)
@[simp] theorem lcAdvance_promEn (s : State) : (lcAdvance s).1.promEn = s.promEn :=
  (congrArg State.promEn (lcAdvance_frame s) :)
@[simp] theorem lcAdvance_halted (s : State) : (lcAdvance s).1.halted = s.halted :=
  (congrArg State.halted (lcAdvance_frame s) :)
@[simp] theorem lcAdvance_oaLo (s : State) : (lcAdvance s).1.oaLo = s.oaLo :=
  (congrArg State.oaLo (lcAdvance_frame s) :)
@[simp] theorem lcAdvance_oaLoV (s : State) : (lcAdvance s).1.oaLoV = s.oaLoV :=
  (congrArg State.oaLoV (lcAdvance_frame s) :)
@[simp] theorem lcAdvance_oaHi (s : State) : (lcAdvance s).1.oaHi = s.oaHi :=
  (congrArg State.oaHi (lcAdvance_frame s) :)
@[simp] theorem lcAdvance_oaHiV (s : State) : (lcAdvance s).1.oaHiV = s.oaHiV :=
  (congrArg State.oaHiV (lcAdvance_frame s) :)
@[simp] theorem lcAdvance_dc (s : State) : (lcAdvance s).1.dc = s.dc :=
  (congrArg State.dc (lcAdvance_frame s) :)
@[simp] theorem lcAdvance_q (s : State) : (lcAdvance s).1.q = s.q :=
  (congrArg State.q (lcAdvance_frame s) :)
@[simp] theorem lcAdvance_md (s : State) : (lcAdvance s).1.md = s.md :=
  (congrArg State.md (lcAdvance_frame s) :)
@[simp] theorem lcAdvance_icr (s : State) : (lcAdvance s).1.icr = s.icr :=
  (congrArg State.icr (lcAdvance_frame s) :)
@[simp] theorem lcAdvance_spc (s : State) : (lcAdvance s).1.spc = s.spc :=
  (congrArg State.spc (lcAdvance_frame s) :)
@[simp] theorem lcAdvance_spcPtr (s : State) : (lcAdvance s).1.spcPtr = s.spcPtr :=
  (congrArg State.spcPtr (lcAdvance_frame s) :)
@[simp] theorem lcAdvance_pdl (s : State) : (lcAdvance s).1.pdl = s.pdl :=
  (congrArg State.pdl (lcAdvance_frame s) :)
@[simp] theorem lcAdvance_pdlPtr (s : State) : (lcAdvance s).1.pdlPtr = s.pdlPtr :=
  (congrArg State.pdlPtr (lcAdvance_frame s) :)
@[simp] theorem lcAdvance_pdlIdx (s : State) : (lcAdvance s).1.pdlIdx = s.pdlIdx :=
  (congrArg State.pdlIdx (lcAdvance_frame s) :)
@[simp] theorem lcAdvance_dmem (s : State) : (lcAdvance s).1.dmem = s.dmem :=
  (congrArg State.dmem (lcAdvance_frame s) :)
@[simp] theorem lcAdvance_imem (s : State) : (lcAdvance s).1.imem = s.imem :=
  (congrArg State.imem (lcAdvance_frame s) :)
@[simp] theorem lcAdvance_prom (s : State) : (lcAdvance s).1.prom = s.prom :=
  (congrArg State.prom (lcAdvance_frame s) :)
@[simp] theorem lcAdvance_intstat (s : State) : (lcAdvance s).1.intstat = s.intstat :=
  (congrArg State.intstat (lcAdvance_frame s) :)
@[simp] theorem lcAdvance_l1 (s : State) : (lcAdvance s).1.l1 = s.l1 :=
  (congrArg State.l1 (lcAdvance_frame s) :)
@[simp] theorem lcAdvance_l2 (s : State) : (lcAdvance s).1.l2 = s.l2 :=
  (congrArg State.l2 (lcAdvance_frame s) :)
@[simp] theorem lcAdvance_pmem (s : State) : (lcAdvance s).1.pmem = s.pmem :=
  (congrArg State.pmem (lcAdvance_frame s) :)
@[simp] theorem lcAdvance_restored (s : State) : (lcAdvance s).1.restored = s.restored :=
  (congrArg State.restored (lcAdvance_frame s) :)
@[simp] theorem lcAdvance_pcHist (s : State) : (lcAdvance s).1.pcHist = s.pcHist :=
  (congrArg State.pcHist (lcAdvance_frame s) :)
@[simp] theorem lcAdvance_pdlHist (s : State) : (lcAdvance s).1.pdlHist = s.pdlHist :=
  (congrArg State.pdlHist (lcAdvance_frame s) :)
@[simp] theorem lcAdvance_trace (s : State) : (lcAdvance s).1.trace = s.trace :=
  (congrArg State.trace (lcAdvance_frame s) :)

/-- A return changes these fields and no other. -/
theorem popReturn_frame (s : State) : (popReturn s).2 =
    { s with accessFault := (popReturn s).2.accessFault,
             writeFault := (popReturn s).2.writeFault, pageFault := (popReturn s).2.pageFault,
             opc := (popReturn s).2.opc, pages := (popReturn s).2.pages,
             devReads := (popReturn s).2.devReads, rdValue := (popReturn s).2.rdValue,
             rdDelay := (popReturn s).2.rdDelay, vma := (popReturn s).2.vma,
             lc := (popReturn s).2.lc, lcHist := (popReturn s).2.lcHist,
             spcPtr := (popReturn s).2.spcPtr } := by
  unfold popReturn; simp only []; split
  · rw [lcAdvance_frame]; rfl
  · rfl

@[simp] theorem popReturn_cfg (s : State) : (popReturn s).2.cfg = s.cfg :=
  (congrArg State.cfg (popReturn_frame s) :)
@[simp] theorem popReturn_amem (s : State) : (popReturn s).2.amem = s.amem :=
  (congrArg State.amem (popReturn_frame s) :)
@[simp] theorem popReturn_mmem (s : State) : (popReturn s).2.mmem = s.mmem :=
  (congrArg State.mmem (popReturn_frame s) :)
@[simp] theorem popReturn_npc (s : State) : (popReturn s).2.npc = s.npc :=
  (congrArg State.npc (popReturn_frame s) :)
@[simp] theorem popReturn_p0 (s : State) : (popReturn s).2.p0 = s.p0 :=
  (congrArg State.p0 (popReturn_frame s) :)
@[simp] theorem popReturn_p1 (s : State) : (popReturn s).2.p1 = s.p1 :=
  (congrArg State.p1 (popReturn_frame s) :)
@[simp] theorem popReturn_p0pc (s : State) : (popReturn s).2.p0pc = s.p0pc :=
  (congrArg State.p0pc (popReturn_frame s) :)
@[simp] theorem popReturn_p1pc (s : State) : (popReturn s).2.p1pc = s.p1pc :=
  (congrArg State.p1pc (popReturn_frame s) :)
@[simp] theorem popReturn_inhibit (s : State) : (popReturn s).2.inhibit = s.inhibit :=
  (congrArg State.inhibit (popReturn_frame s) :)
@[simp] theorem popReturn_promEn (s : State) : (popReturn s).2.promEn = s.promEn :=
  (congrArg State.promEn (popReturn_frame s) :)
@[simp] theorem popReturn_halted (s : State) : (popReturn s).2.halted = s.halted :=
  (congrArg State.halted (popReturn_frame s) :)
@[simp] theorem popReturn_oaLo (s : State) : (popReturn s).2.oaLo = s.oaLo :=
  (congrArg State.oaLo (popReturn_frame s) :)
@[simp] theorem popReturn_oaLoV (s : State) : (popReturn s).2.oaLoV = s.oaLoV :=
  (congrArg State.oaLoV (popReturn_frame s) :)
@[simp] theorem popReturn_oaHi (s : State) : (popReturn s).2.oaHi = s.oaHi :=
  (congrArg State.oaHi (popReturn_frame s) :)
@[simp] theorem popReturn_oaHiV (s : State) : (popReturn s).2.oaHiV = s.oaHiV :=
  (congrArg State.oaHiV (popReturn_frame s) :)
@[simp] theorem popReturn_dc (s : State) : (popReturn s).2.dc = s.dc :=
  (congrArg State.dc (popReturn_frame s) :)
@[simp] theorem popReturn_q (s : State) : (popReturn s).2.q = s.q :=
  (congrArg State.q (popReturn_frame s) :)
@[simp] theorem popReturn_md (s : State) : (popReturn s).2.md = s.md :=
  (congrArg State.md (popReturn_frame s) :)
@[simp] theorem popReturn_icr (s : State) : (popReturn s).2.icr = s.icr :=
  (congrArg State.icr (popReturn_frame s) :)
@[simp] theorem popReturn_spc (s : State) : (popReturn s).2.spc = s.spc :=
  (congrArg State.spc (popReturn_frame s) :)
@[simp] theorem popReturn_pdl (s : State) : (popReturn s).2.pdl = s.pdl :=
  (congrArg State.pdl (popReturn_frame s) :)
@[simp] theorem popReturn_pdlPtr (s : State) : (popReturn s).2.pdlPtr = s.pdlPtr :=
  (congrArg State.pdlPtr (popReturn_frame s) :)
@[simp] theorem popReturn_pdlIdx (s : State) : (popReturn s).2.pdlIdx = s.pdlIdx :=
  (congrArg State.pdlIdx (popReturn_frame s) :)
@[simp] theorem popReturn_dmem (s : State) : (popReturn s).2.dmem = s.dmem :=
  (congrArg State.dmem (popReturn_frame s) :)
@[simp] theorem popReturn_imem (s : State) : (popReturn s).2.imem = s.imem :=
  (congrArg State.imem (popReturn_frame s) :)
@[simp] theorem popReturn_prom (s : State) : (popReturn s).2.prom = s.prom :=
  (congrArg State.prom (popReturn_frame s) :)
@[simp] theorem popReturn_intstat (s : State) : (popReturn s).2.intstat = s.intstat :=
  (congrArg State.intstat (popReturn_frame s) :)
@[simp] theorem popReturn_l1 (s : State) : (popReturn s).2.l1 = s.l1 :=
  (congrArg State.l1 (popReturn_frame s) :)
@[simp] theorem popReturn_l2 (s : State) : (popReturn s).2.l2 = s.l2 :=
  (congrArg State.l2 (popReturn_frame s) :)
@[simp] theorem popReturn_pmem (s : State) : (popReturn s).2.pmem = s.pmem :=
  (congrArg State.pmem (popReturn_frame s) :)
@[simp] theorem popReturn_restored (s : State) : (popReturn s).2.restored = s.restored :=
  (congrArg State.restored (popReturn_frame s) :)
@[simp] theorem popReturn_pcHist (s : State) : (popReturn s).2.pcHist = s.pcHist :=
  (congrArg State.pcHist (popReturn_frame s) :)
@[simp] theorem popReturn_pdlHist (s : State) : (popReturn s).2.pdlHist = s.pdlHist :=
  (congrArg State.pdlHist (popReturn_frame s) :)
@[simp] theorem popReturn_trace (s : State) : (popReturn s).2.trace = s.trace :=
  (congrArg State.trace (popReturn_frame s) :)

/-- A functional source changes these fields and no other. -/
theorem readSource_frame (src : FuncSource) (s : State) : (readSource src s).2 =
    { s with spcPtr := (readSource src s).2.spcPtr, pdlPtr := (readSource src s).2.pdlPtr,
             pdlHist := (readSource src s).2.pdlHist } := by
  cases src <;> rfl

@[simp] theorem readSource_cfg (src : FuncSource) (s : State) : (readSource src s).2.cfg = s.cfg :=
  (congrArg State.cfg (readSource_frame src s) :)
@[simp] theorem readSource_amem (src : FuncSource) (s : State) : (readSource src s).2.amem = s.amem :=
  (congrArg State.amem (readSource_frame src s) :)
@[simp] theorem readSource_mmem (src : FuncSource) (s : State) : (readSource src s).2.mmem = s.mmem :=
  (congrArg State.mmem (readSource_frame src s) :)
@[simp] theorem readSource_npc (src : FuncSource) (s : State) : (readSource src s).2.npc = s.npc :=
  (congrArg State.npc (readSource_frame src s) :)
@[simp] theorem readSource_p0 (src : FuncSource) (s : State) : (readSource src s).2.p0 = s.p0 :=
  (congrArg State.p0 (readSource_frame src s) :)
@[simp] theorem readSource_p1 (src : FuncSource) (s : State) : (readSource src s).2.p1 = s.p1 :=
  (congrArg State.p1 (readSource_frame src s) :)
@[simp] theorem readSource_p0pc (src : FuncSource) (s : State) : (readSource src s).2.p0pc = s.p0pc :=
  (congrArg State.p0pc (readSource_frame src s) :)
@[simp] theorem readSource_p1pc (src : FuncSource) (s : State) : (readSource src s).2.p1pc = s.p1pc :=
  (congrArg State.p1pc (readSource_frame src s) :)
@[simp] theorem readSource_inhibit (src : FuncSource) (s : State) : (readSource src s).2.inhibit = s.inhibit :=
  (congrArg State.inhibit (readSource_frame src s) :)
@[simp] theorem readSource_promEn (src : FuncSource) (s : State) : (readSource src s).2.promEn = s.promEn :=
  (congrArg State.promEn (readSource_frame src s) :)
@[simp] theorem readSource_halted (src : FuncSource) (s : State) : (readSource src s).2.halted = s.halted :=
  (congrArg State.halted (readSource_frame src s) :)
@[simp] theorem readSource_oaLo (src : FuncSource) (s : State) : (readSource src s).2.oaLo = s.oaLo :=
  (congrArg State.oaLo (readSource_frame src s) :)
@[simp] theorem readSource_oaLoV (src : FuncSource) (s : State) : (readSource src s).2.oaLoV = s.oaLoV :=
  (congrArg State.oaLoV (readSource_frame src s) :)
@[simp] theorem readSource_oaHi (src : FuncSource) (s : State) : (readSource src s).2.oaHi = s.oaHi :=
  (congrArg State.oaHi (readSource_frame src s) :)
@[simp] theorem readSource_oaHiV (src : FuncSource) (s : State) : (readSource src s).2.oaHiV = s.oaHiV :=
  (congrArg State.oaHiV (readSource_frame src s) :)
@[simp] theorem readSource_accessFault (src : FuncSource) (s : State) : (readSource src s).2.accessFault = s.accessFault :=
  (congrArg State.accessFault (readSource_frame src s) :)
@[simp] theorem readSource_writeFault (src : FuncSource) (s : State) : (readSource src s).2.writeFault = s.writeFault :=
  (congrArg State.writeFault (readSource_frame src s) :)
@[simp] theorem readSource_pageFault (src : FuncSource) (s : State) : (readSource src s).2.pageFault = s.pageFault :=
  (congrArg State.pageFault (readSource_frame src s) :)
@[simp] theorem readSource_dc (src : FuncSource) (s : State) : (readSource src s).2.dc = s.dc :=
  (congrArg State.dc (readSource_frame src s) :)
@[simp] theorem readSource_opc (src : FuncSource) (s : State) : (readSource src s).2.opc = s.opc :=
  (congrArg State.opc (readSource_frame src s) :)
@[simp] theorem readSource_q (src : FuncSource) (s : State) : (readSource src s).2.q = s.q :=
  (congrArg State.q (readSource_frame src s) :)
@[simp] theorem readSource_vma (src : FuncSource) (s : State) : (readSource src s).2.vma = s.vma :=
  (congrArg State.vma (readSource_frame src s) :)
@[simp] theorem readSource_md (src : FuncSource) (s : State) : (readSource src s).2.md = s.md :=
  (congrArg State.md (readSource_frame src s) :)
@[simp] theorem readSource_lc (src : FuncSource) (s : State) : (readSource src s).2.lc = s.lc :=
  (congrArg State.lc (readSource_frame src s) :)
@[simp] theorem readSource_icr (src : FuncSource) (s : State) : (readSource src s).2.icr = s.icr :=
  (congrArg State.icr (readSource_frame src s) :)
@[simp] theorem readSource_spc (src : FuncSource) (s : State) : (readSource src s).2.spc = s.spc :=
  (congrArg State.spc (readSource_frame src s) :)
@[simp] theorem readSource_pdl (src : FuncSource) (s : State) : (readSource src s).2.pdl = s.pdl :=
  (congrArg State.pdl (readSource_frame src s) :)
@[simp] theorem readSource_pdlIdx (src : FuncSource) (s : State) : (readSource src s).2.pdlIdx = s.pdlIdx :=
  (congrArg State.pdlIdx (readSource_frame src s) :)
@[simp] theorem readSource_dmem (src : FuncSource) (s : State) : (readSource src s).2.dmem = s.dmem :=
  (congrArg State.dmem (readSource_frame src s) :)
@[simp] theorem readSource_imem (src : FuncSource) (s : State) : (readSource src s).2.imem = s.imem :=
  (congrArg State.imem (readSource_frame src s) :)
@[simp] theorem readSource_prom (src : FuncSource) (s : State) : (readSource src s).2.prom = s.prom :=
  (congrArg State.prom (readSource_frame src s) :)
@[simp] theorem readSource_intstat (src : FuncSource) (s : State) : (readSource src s).2.intstat = s.intstat :=
  (congrArg State.intstat (readSource_frame src s) :)
@[simp] theorem readSource_l1 (src : FuncSource) (s : State) : (readSource src s).2.l1 = s.l1 :=
  (congrArg State.l1 (readSource_frame src s) :)
@[simp] theorem readSource_l2 (src : FuncSource) (s : State) : (readSource src s).2.l2 = s.l2 :=
  (congrArg State.l2 (readSource_frame src s) :)
@[simp] theorem readSource_pmem (src : FuncSource) (s : State) : (readSource src s).2.pmem = s.pmem :=
  (congrArg State.pmem (readSource_frame src s) :)
@[simp] theorem readSource_pages (src : FuncSource) (s : State) : (readSource src s).2.pages = s.pages :=
  (congrArg State.pages (readSource_frame src s) :)
@[simp] theorem readSource_rdDelay (src : FuncSource) (s : State) : (readSource src s).2.rdDelay = s.rdDelay :=
  (congrArg State.rdDelay (readSource_frame src s) :)
@[simp] theorem readSource_rdValue (src : FuncSource) (s : State) : (readSource src s).2.rdValue = s.rdValue :=
  (congrArg State.rdValue (readSource_frame src s) :)
@[simp] theorem readSource_restored (src : FuncSource) (s : State) : (readSource src s).2.restored = s.restored :=
  (congrArg State.restored (readSource_frame src s) :)
@[simp] theorem readSource_lcHist (src : FuncSource) (s : State) : (readSource src s).2.lcHist = s.lcHist :=
  (congrArg State.lcHist (readSource_frame src s) :)
@[simp] theorem readSource_pcHist (src : FuncSource) (s : State) : (readSource src s).2.pcHist = s.pcHist :=
  (congrArg State.pcHist (readSource_frame src s) :)
@[simp] theorem readSource_devReads (src : FuncSource) (s : State) : (readSource src s).2.devReads = s.devReads :=
  (congrArg State.devReads (readSource_frame src s) :)
@[simp] theorem readSource_trace (src : FuncSource) (s : State) : (readSource src s).2.trace = s.trace :=
  (congrArg State.trace (readSource_frame src s) :)

/-- The M operand changes these fields and no other. -/
theorem readM_frame (m : MSource) (s : State) : (readM m s).2 =
    { s with spcPtr := (readM m s).2.spcPtr, pdlPtr := (readM m s).2.pdlPtr,
             pdlHist := (readM m s).2.pdlHist } := by
  cases m with
  | mem k => rfl
  | func i => exact readSource_frame (funcSource i) s

@[simp] theorem readM_cfg (m : MSource) (s : State) : (readM m s).2.cfg = s.cfg :=
  (congrArg State.cfg (readM_frame m s) :)
@[simp] theorem readM_amem (m : MSource) (s : State) : (readM m s).2.amem = s.amem :=
  (congrArg State.amem (readM_frame m s) :)
@[simp] theorem readM_mmem (m : MSource) (s : State) : (readM m s).2.mmem = s.mmem :=
  (congrArg State.mmem (readM_frame m s) :)
@[simp] theorem readM_npc (m : MSource) (s : State) : (readM m s).2.npc = s.npc :=
  (congrArg State.npc (readM_frame m s) :)
@[simp] theorem readM_p0 (m : MSource) (s : State) : (readM m s).2.p0 = s.p0 :=
  (congrArg State.p0 (readM_frame m s) :)
@[simp] theorem readM_p1 (m : MSource) (s : State) : (readM m s).2.p1 = s.p1 :=
  (congrArg State.p1 (readM_frame m s) :)
@[simp] theorem readM_p0pc (m : MSource) (s : State) : (readM m s).2.p0pc = s.p0pc :=
  (congrArg State.p0pc (readM_frame m s) :)
@[simp] theorem readM_p1pc (m : MSource) (s : State) : (readM m s).2.p1pc = s.p1pc :=
  (congrArg State.p1pc (readM_frame m s) :)
@[simp] theorem readM_inhibit (m : MSource) (s : State) : (readM m s).2.inhibit = s.inhibit :=
  (congrArg State.inhibit (readM_frame m s) :)
@[simp] theorem readM_promEn (m : MSource) (s : State) : (readM m s).2.promEn = s.promEn :=
  (congrArg State.promEn (readM_frame m s) :)
@[simp] theorem readM_halted (m : MSource) (s : State) : (readM m s).2.halted = s.halted :=
  (congrArg State.halted (readM_frame m s) :)
@[simp] theorem readM_oaLo (m : MSource) (s : State) : (readM m s).2.oaLo = s.oaLo :=
  (congrArg State.oaLo (readM_frame m s) :)
@[simp] theorem readM_oaLoV (m : MSource) (s : State) : (readM m s).2.oaLoV = s.oaLoV :=
  (congrArg State.oaLoV (readM_frame m s) :)
@[simp] theorem readM_oaHi (m : MSource) (s : State) : (readM m s).2.oaHi = s.oaHi :=
  (congrArg State.oaHi (readM_frame m s) :)
@[simp] theorem readM_oaHiV (m : MSource) (s : State) : (readM m s).2.oaHiV = s.oaHiV :=
  (congrArg State.oaHiV (readM_frame m s) :)
@[simp] theorem readM_accessFault (m : MSource) (s : State) : (readM m s).2.accessFault = s.accessFault :=
  (congrArg State.accessFault (readM_frame m s) :)
@[simp] theorem readM_writeFault (m : MSource) (s : State) : (readM m s).2.writeFault = s.writeFault :=
  (congrArg State.writeFault (readM_frame m s) :)
@[simp] theorem readM_pageFault (m : MSource) (s : State) : (readM m s).2.pageFault = s.pageFault :=
  (congrArg State.pageFault (readM_frame m s) :)
@[simp] theorem readM_dc (m : MSource) (s : State) : (readM m s).2.dc = s.dc :=
  (congrArg State.dc (readM_frame m s) :)
@[simp] theorem readM_opc (m : MSource) (s : State) : (readM m s).2.opc = s.opc :=
  (congrArg State.opc (readM_frame m s) :)
@[simp] theorem readM_q (m : MSource) (s : State) : (readM m s).2.q = s.q :=
  (congrArg State.q (readM_frame m s) :)
@[simp] theorem readM_vma (m : MSource) (s : State) : (readM m s).2.vma = s.vma :=
  (congrArg State.vma (readM_frame m s) :)
@[simp] theorem readM_md (m : MSource) (s : State) : (readM m s).2.md = s.md :=
  (congrArg State.md (readM_frame m s) :)
@[simp] theorem readM_lc (m : MSource) (s : State) : (readM m s).2.lc = s.lc :=
  (congrArg State.lc (readM_frame m s) :)
@[simp] theorem readM_icr (m : MSource) (s : State) : (readM m s).2.icr = s.icr :=
  (congrArg State.icr (readM_frame m s) :)
@[simp] theorem readM_spc (m : MSource) (s : State) : (readM m s).2.spc = s.spc :=
  (congrArg State.spc (readM_frame m s) :)
@[simp] theorem readM_pdl (m : MSource) (s : State) : (readM m s).2.pdl = s.pdl :=
  (congrArg State.pdl (readM_frame m s) :)
@[simp] theorem readM_pdlIdx (m : MSource) (s : State) : (readM m s).2.pdlIdx = s.pdlIdx :=
  (congrArg State.pdlIdx (readM_frame m s) :)
@[simp] theorem readM_dmem (m : MSource) (s : State) : (readM m s).2.dmem = s.dmem :=
  (congrArg State.dmem (readM_frame m s) :)
@[simp] theorem readM_imem (m : MSource) (s : State) : (readM m s).2.imem = s.imem :=
  (congrArg State.imem (readM_frame m s) :)
@[simp] theorem readM_prom (m : MSource) (s : State) : (readM m s).2.prom = s.prom :=
  (congrArg State.prom (readM_frame m s) :)
@[simp] theorem readM_intstat (m : MSource) (s : State) : (readM m s).2.intstat = s.intstat :=
  (congrArg State.intstat (readM_frame m s) :)
@[simp] theorem readM_l1 (m : MSource) (s : State) : (readM m s).2.l1 = s.l1 :=
  (congrArg State.l1 (readM_frame m s) :)
@[simp] theorem readM_l2 (m : MSource) (s : State) : (readM m s).2.l2 = s.l2 :=
  (congrArg State.l2 (readM_frame m s) :)
@[simp] theorem readM_pmem (m : MSource) (s : State) : (readM m s).2.pmem = s.pmem :=
  (congrArg State.pmem (readM_frame m s) :)
@[simp] theorem readM_pages (m : MSource) (s : State) : (readM m s).2.pages = s.pages :=
  (congrArg State.pages (readM_frame m s) :)
@[simp] theorem readM_rdDelay (m : MSource) (s : State) : (readM m s).2.rdDelay = s.rdDelay :=
  (congrArg State.rdDelay (readM_frame m s) :)
@[simp] theorem readM_rdValue (m : MSource) (s : State) : (readM m s).2.rdValue = s.rdValue :=
  (congrArg State.rdValue (readM_frame m s) :)
@[simp] theorem readM_restored (m : MSource) (s : State) : (readM m s).2.restored = s.restored :=
  (congrArg State.restored (readM_frame m s) :)
@[simp] theorem readM_lcHist (m : MSource) (s : State) : (readM m s).2.lcHist = s.lcHist :=
  (congrArg State.lcHist (readM_frame m s) :)
@[simp] theorem readM_pcHist (m : MSource) (s : State) : (readM m s).2.pcHist = s.pcHist :=
  (congrArg State.pcHist (readM_frame m s) :)
@[simp] theorem readM_devReads (m : MSource) (s : State) : (readM m s).2.devReads = s.devReads :=
  (congrArg State.devReads (readM_frame m s) :)
@[simp] theorem readM_trace (m : MSource) (s : State) : (readM m s).2.trace = s.trace :=
  (congrArg State.trace (readM_frame m s) :)

/-- A started access changes these fields and no other. -/
theorem startAccess_frame (start : Started) (s : State) : (startAccess start s) =
    { s with accessFault := (startAccess start s).accessFault,
             writeFault := (startAccess start s).writeFault,
             pageFault := (startAccess start s).pageFault, opc := (startAccess start s).opc,
             pages := (startAccess start s).pages, devReads := (startAccess start s).devReads,
             rdValue := (startAccess start s).rdValue, rdDelay := (startAccess start s).rdDelay,
             pmem := (startAccess start s).pmem, intstat := (startAccess start s).intstat,
             promEn := (startAccess start s).promEn, trace := (startAccess start s).trace,
             l1 := (startAccess start s).l1, l2 := (startAccess start s).l2 } := by
  cases start with
  | nothing => rfl
  | read => simp only [startAccess]; rw [issueRead_frame]
  | write => simp only [startAccess]; rw [memWrite_frame]
  | map => simp only [startAccess]; rw [writeMap_frame]

@[simp] theorem startAccess_cfg (start : Started) (s : State) : (startAccess start s).cfg = s.cfg :=
  (congrArg State.cfg (startAccess_frame start s) :)
@[simp] theorem startAccess_amem (start : Started) (s : State) : (startAccess start s).amem = s.amem :=
  (congrArg State.amem (startAccess_frame start s) :)
@[simp] theorem startAccess_mmem (start : Started) (s : State) : (startAccess start s).mmem = s.mmem :=
  (congrArg State.mmem (startAccess_frame start s) :)
@[simp] theorem startAccess_npc (start : Started) (s : State) : (startAccess start s).npc = s.npc :=
  (congrArg State.npc (startAccess_frame start s) :)
@[simp] theorem startAccess_p0 (start : Started) (s : State) : (startAccess start s).p0 = s.p0 :=
  (congrArg State.p0 (startAccess_frame start s) :)
@[simp] theorem startAccess_p1 (start : Started) (s : State) : (startAccess start s).p1 = s.p1 :=
  (congrArg State.p1 (startAccess_frame start s) :)
@[simp] theorem startAccess_p0pc (start : Started) (s : State) : (startAccess start s).p0pc = s.p0pc :=
  (congrArg State.p0pc (startAccess_frame start s) :)
@[simp] theorem startAccess_p1pc (start : Started) (s : State) : (startAccess start s).p1pc = s.p1pc :=
  (congrArg State.p1pc (startAccess_frame start s) :)
@[simp] theorem startAccess_inhibit (start : Started) (s : State) : (startAccess start s).inhibit = s.inhibit :=
  (congrArg State.inhibit (startAccess_frame start s) :)
@[simp] theorem startAccess_halted (start : Started) (s : State) : (startAccess start s).halted = s.halted :=
  (congrArg State.halted (startAccess_frame start s) :)
@[simp] theorem startAccess_oaLo (start : Started) (s : State) : (startAccess start s).oaLo = s.oaLo :=
  (congrArg State.oaLo (startAccess_frame start s) :)
@[simp] theorem startAccess_oaLoV (start : Started) (s : State) : (startAccess start s).oaLoV = s.oaLoV :=
  (congrArg State.oaLoV (startAccess_frame start s) :)
@[simp] theorem startAccess_oaHi (start : Started) (s : State) : (startAccess start s).oaHi = s.oaHi :=
  (congrArg State.oaHi (startAccess_frame start s) :)
@[simp] theorem startAccess_oaHiV (start : Started) (s : State) : (startAccess start s).oaHiV = s.oaHiV :=
  (congrArg State.oaHiV (startAccess_frame start s) :)
@[simp] theorem startAccess_dc (start : Started) (s : State) : (startAccess start s).dc = s.dc :=
  (congrArg State.dc (startAccess_frame start s) :)
@[simp] theorem startAccess_q (start : Started) (s : State) : (startAccess start s).q = s.q :=
  (congrArg State.q (startAccess_frame start s) :)
@[simp] theorem startAccess_vma (start : Started) (s : State) : (startAccess start s).vma = s.vma :=
  (congrArg State.vma (startAccess_frame start s) :)
@[simp] theorem startAccess_md (start : Started) (s : State) : (startAccess start s).md = s.md :=
  (congrArg State.md (startAccess_frame start s) :)
@[simp] theorem startAccess_lc (start : Started) (s : State) : (startAccess start s).lc = s.lc :=
  (congrArg State.lc (startAccess_frame start s) :)
@[simp] theorem startAccess_icr (start : Started) (s : State) : (startAccess start s).icr = s.icr :=
  (congrArg State.icr (startAccess_frame start s) :)
@[simp] theorem startAccess_spc (start : Started) (s : State) : (startAccess start s).spc = s.spc :=
  (congrArg State.spc (startAccess_frame start s) :)
@[simp] theorem startAccess_spcPtr (start : Started) (s : State) : (startAccess start s).spcPtr = s.spcPtr :=
  (congrArg State.spcPtr (startAccess_frame start s) :)
@[simp] theorem startAccess_pdl (start : Started) (s : State) : (startAccess start s).pdl = s.pdl :=
  (congrArg State.pdl (startAccess_frame start s) :)
@[simp] theorem startAccess_pdlPtr (start : Started) (s : State) : (startAccess start s).pdlPtr = s.pdlPtr :=
  (congrArg State.pdlPtr (startAccess_frame start s) :)
@[simp] theorem startAccess_pdlIdx (start : Started) (s : State) : (startAccess start s).pdlIdx = s.pdlIdx :=
  (congrArg State.pdlIdx (startAccess_frame start s) :)
@[simp] theorem startAccess_dmem (start : Started) (s : State) : (startAccess start s).dmem = s.dmem :=
  (congrArg State.dmem (startAccess_frame start s) :)
@[simp] theorem startAccess_imem (start : Started) (s : State) : (startAccess start s).imem = s.imem :=
  (congrArg State.imem (startAccess_frame start s) :)
@[simp] theorem startAccess_prom (start : Started) (s : State) : (startAccess start s).prom = s.prom :=
  (congrArg State.prom (startAccess_frame start s) :)
@[simp] theorem startAccess_restored (start : Started) (s : State) : (startAccess start s).restored = s.restored :=
  (congrArg State.restored (startAccess_frame start s) :)
@[simp] theorem startAccess_lcHist (start : Started) (s : State) : (startAccess start s).lcHist = s.lcHist :=
  (congrArg State.lcHist (startAccess_frame start s) :)
@[simp] theorem startAccess_pcHist (start : Started) (s : State) : (startAccess start s).pcHist = s.pcHist :=
  (congrArg State.pcHist (startAccess_frame start s) :)
@[simp] theorem startAccess_pdlHist (start : Started) (s : State) : (startAccess start s).pdlHist = s.pdlHist :=
  (congrArg State.pdlHist (startAccess_frame start s) :)

/-- A functional destination changes these fields and no other. -/
theorem writeFunc_frame (d : FuncDest) (v : Word) (s : State) : (writeFunc d v s) =
    { s with accessFault := (writeFunc d v s).accessFault,
             writeFault := (writeFunc d v s).writeFault,
             pageFault := (writeFunc d v s).pageFault, opc := (writeFunc d v s).opc,
             pages := (writeFunc d v s).pages, devReads := (writeFunc d v s).devReads,
             rdValue := (writeFunc d v s).rdValue, rdDelay := (writeFunc d v s).rdDelay,
             pmem := (writeFunc d v s).pmem, intstat := (writeFunc d v s).intstat,
             promEn := (writeFunc d v s).promEn, trace := (writeFunc d v s).trace,
             l1 := (writeFunc d v s).l1, l2 := (writeFunc d v s).l2, lc := (writeFunc d v s).lc,
             icr := (writeFunc d v s).icr, pdl := (writeFunc d v s).pdl,
             pdlPtr := (writeFunc d v s).pdlPtr, pdlIdx := (writeFunc d v s).pdlIdx,
             spc := (writeFunc d v s).spc, spcPtr := (writeFunc d v s).spcPtr,
             oaLo := (writeFunc d v s).oaLo, oaLoV := (writeFunc d v s).oaLoV,
             oaHi := (writeFunc d v s).oaHi, oaHiV := (writeFunc d v s).oaHiV,
             vma := (writeFunc d v s).vma, md := (writeFunc d v s).md,
             pdlHist := (writeFunc d v s).pdlHist } := by
  cases d with
  | vma st => simp only [writeFunc]; rw [startAccess_frame]
  | md st => simp only [writeFunc]; rw [startAccess_frame]
  | _ => rfl

@[simp] theorem writeFunc_cfg (d : FuncDest) (v : Word) (s : State) : (writeFunc d v s).cfg = s.cfg :=
  (congrArg State.cfg (writeFunc_frame d v s) :)
@[simp] theorem writeFunc_amem (d : FuncDest) (v : Word) (s : State) : (writeFunc d v s).amem = s.amem :=
  (congrArg State.amem (writeFunc_frame d v s) :)
@[simp] theorem writeFunc_mmem (d : FuncDest) (v : Word) (s : State) : (writeFunc d v s).mmem = s.mmem :=
  (congrArg State.mmem (writeFunc_frame d v s) :)
@[simp] theorem writeFunc_npc (d : FuncDest) (v : Word) (s : State) : (writeFunc d v s).npc = s.npc :=
  (congrArg State.npc (writeFunc_frame d v s) :)
@[simp] theorem writeFunc_p0 (d : FuncDest) (v : Word) (s : State) : (writeFunc d v s).p0 = s.p0 :=
  (congrArg State.p0 (writeFunc_frame d v s) :)
@[simp] theorem writeFunc_p1 (d : FuncDest) (v : Word) (s : State) : (writeFunc d v s).p1 = s.p1 :=
  (congrArg State.p1 (writeFunc_frame d v s) :)
@[simp] theorem writeFunc_p0pc (d : FuncDest) (v : Word) (s : State) : (writeFunc d v s).p0pc = s.p0pc :=
  (congrArg State.p0pc (writeFunc_frame d v s) :)
@[simp] theorem writeFunc_p1pc (d : FuncDest) (v : Word) (s : State) : (writeFunc d v s).p1pc = s.p1pc :=
  (congrArg State.p1pc (writeFunc_frame d v s) :)
@[simp] theorem writeFunc_inhibit (d : FuncDest) (v : Word) (s : State) : (writeFunc d v s).inhibit = s.inhibit :=
  (congrArg State.inhibit (writeFunc_frame d v s) :)
@[simp] theorem writeFunc_halted (d : FuncDest) (v : Word) (s : State) : (writeFunc d v s).halted = s.halted :=
  (congrArg State.halted (writeFunc_frame d v s) :)
@[simp] theorem writeFunc_dc (d : FuncDest) (v : Word) (s : State) : (writeFunc d v s).dc = s.dc :=
  (congrArg State.dc (writeFunc_frame d v s) :)
@[simp] theorem writeFunc_q (d : FuncDest) (v : Word) (s : State) : (writeFunc d v s).q = s.q :=
  (congrArg State.q (writeFunc_frame d v s) :)
@[simp] theorem writeFunc_dmem (d : FuncDest) (v : Word) (s : State) : (writeFunc d v s).dmem = s.dmem :=
  (congrArg State.dmem (writeFunc_frame d v s) :)
@[simp] theorem writeFunc_imem (d : FuncDest) (v : Word) (s : State) : (writeFunc d v s).imem = s.imem :=
  (congrArg State.imem (writeFunc_frame d v s) :)
@[simp] theorem writeFunc_prom (d : FuncDest) (v : Word) (s : State) : (writeFunc d v s).prom = s.prom :=
  (congrArg State.prom (writeFunc_frame d v s) :)
@[simp] theorem writeFunc_restored (d : FuncDest) (v : Word) (s : State) : (writeFunc d v s).restored = s.restored :=
  (congrArg State.restored (writeFunc_frame d v s) :)
@[simp] theorem writeFunc_lcHist (d : FuncDest) (v : Word) (s : State) : (writeFunc d v s).lcHist = s.lcHist :=
  (congrArg State.lcHist (writeFunc_frame d v s) :)
@[simp] theorem writeFunc_pcHist (d : FuncDest) (v : Word) (s : State) : (writeFunc d v s).pcHist = s.pcHist :=
  (congrArg State.pcHist (writeFunc_frame d v s) :)

/-- The destination write changes these fields and no other. -/
theorem writeDest_frame (d : Dest) (v : Word) (s : State) : (writeDest d v s) =
    { s with accessFault := (writeDest d v s).accessFault,
             writeFault := (writeDest d v s).writeFault,
             pageFault := (writeDest d v s).pageFault, opc := (writeDest d v s).opc,
             pages := (writeDest d v s).pages, devReads := (writeDest d v s).devReads,
             rdValue := (writeDest d v s).rdValue, rdDelay := (writeDest d v s).rdDelay,
             pmem := (writeDest d v s).pmem, intstat := (writeDest d v s).intstat,
             promEn := (writeDest d v s).promEn, trace := (writeDest d v s).trace,
             l1 := (writeDest d v s).l1, l2 := (writeDest d v s).l2, lc := (writeDest d v s).lc,
             icr := (writeDest d v s).icr, pdl := (writeDest d v s).pdl,
             pdlPtr := (writeDest d v s).pdlPtr, pdlIdx := (writeDest d v s).pdlIdx,
             spc := (writeDest d v s).spc, spcPtr := (writeDest d v s).spcPtr,
             oaLo := (writeDest d v s).oaLo, oaLoV := (writeDest d v s).oaLoV,
             oaHi := (writeDest d v s).oaHi, oaHiV := (writeDest d v s).oaHiV,
             vma := (writeDest d v s).vma, md := (writeDest d v s).md,
             pdlHist := (writeDest d v s).pdlHist, amem := (writeDest d v s).amem,
             mmem := (writeDest d v s).mmem } := by
  cases d with
  | amem a => rfl
  | func i m => simp only [writeDest]; rw [writeFunc_frame]

@[simp] theorem writeDest_cfg (d : Dest) (v : Word) (s : State) : (writeDest d v s).cfg = s.cfg :=
  (congrArg State.cfg (writeDest_frame d v s) :)
@[simp] theorem writeDest_npc (d : Dest) (v : Word) (s : State) : (writeDest d v s).npc = s.npc :=
  (congrArg State.npc (writeDest_frame d v s) :)
@[simp] theorem writeDest_p0 (d : Dest) (v : Word) (s : State) : (writeDest d v s).p0 = s.p0 :=
  (congrArg State.p0 (writeDest_frame d v s) :)
@[simp] theorem writeDest_p1 (d : Dest) (v : Word) (s : State) : (writeDest d v s).p1 = s.p1 :=
  (congrArg State.p1 (writeDest_frame d v s) :)
@[simp] theorem writeDest_p0pc (d : Dest) (v : Word) (s : State) : (writeDest d v s).p0pc = s.p0pc :=
  (congrArg State.p0pc (writeDest_frame d v s) :)
@[simp] theorem writeDest_p1pc (d : Dest) (v : Word) (s : State) : (writeDest d v s).p1pc = s.p1pc :=
  (congrArg State.p1pc (writeDest_frame d v s) :)
@[simp] theorem writeDest_inhibit (d : Dest) (v : Word) (s : State) : (writeDest d v s).inhibit = s.inhibit :=
  (congrArg State.inhibit (writeDest_frame d v s) :)
@[simp] theorem writeDest_halted (d : Dest) (v : Word) (s : State) : (writeDest d v s).halted = s.halted :=
  (congrArg State.halted (writeDest_frame d v s) :)
@[simp] theorem writeDest_dc (d : Dest) (v : Word) (s : State) : (writeDest d v s).dc = s.dc :=
  (congrArg State.dc (writeDest_frame d v s) :)
@[simp] theorem writeDest_q (d : Dest) (v : Word) (s : State) : (writeDest d v s).q = s.q :=
  (congrArg State.q (writeDest_frame d v s) :)
@[simp] theorem writeDest_dmem (d : Dest) (v : Word) (s : State) : (writeDest d v s).dmem = s.dmem :=
  (congrArg State.dmem (writeDest_frame d v s) :)
@[simp] theorem writeDest_imem (d : Dest) (v : Word) (s : State) : (writeDest d v s).imem = s.imem :=
  (congrArg State.imem (writeDest_frame d v s) :)
@[simp] theorem writeDest_prom (d : Dest) (v : Word) (s : State) : (writeDest d v s).prom = s.prom :=
  (congrArg State.prom (writeDest_frame d v s) :)
@[simp] theorem writeDest_restored (d : Dest) (v : Word) (s : State) : (writeDest d v s).restored = s.restored :=
  (congrArg State.restored (writeDest_frame d v s) :)
@[simp] theorem writeDest_lcHist (d : Dest) (v : Word) (s : State) : (writeDest d v s).lcHist = s.lcHist :=
  (congrArg State.lcHist (writeDest_frame d v s) :)
@[simp] theorem writeDest_pcHist (d : Dest) (v : Word) (s : State) : (writeDest d v s).pcHist = s.pcHist :=
  (congrArg State.pcHist (writeDest_frame d v s) :)

/-- A popj changes these fields and no other. -/
theorem popj_frame (s : State) : (popj s) =
    { s with accessFault := (popj s).accessFault, writeFault := (popj s).writeFault,
             pageFault := (popj s).pageFault, opc := (popj s).opc, pages := (popj s).pages,
             devReads := (popj s).devReads, rdValue := (popj s).rdValue,
             rdDelay := (popj s).rdDelay, vma := (popj s).vma, lc := (popj s).lc,
             lcHist := (popj s).lcHist, spcPtr := (popj s).spcPtr, npc := (popj s).npc } := by
  unfold popj; simp only []; rw [popReturn_frame]

@[simp] theorem popj_cfg (s : State) : (popj s).cfg = s.cfg :=
  (congrArg State.cfg (popj_frame s) :)
@[simp] theorem popj_amem (s : State) : (popj s).amem = s.amem :=
  (congrArg State.amem (popj_frame s) :)
@[simp] theorem popj_mmem (s : State) : (popj s).mmem = s.mmem :=
  (congrArg State.mmem (popj_frame s) :)
@[simp] theorem popj_p0 (s : State) : (popj s).p0 = s.p0 :=
  (congrArg State.p0 (popj_frame s) :)
@[simp] theorem popj_p1 (s : State) : (popj s).p1 = s.p1 :=
  (congrArg State.p1 (popj_frame s) :)
@[simp] theorem popj_p0pc (s : State) : (popj s).p0pc = s.p0pc :=
  (congrArg State.p0pc (popj_frame s) :)
@[simp] theorem popj_p1pc (s : State) : (popj s).p1pc = s.p1pc :=
  (congrArg State.p1pc (popj_frame s) :)
@[simp] theorem popj_inhibit (s : State) : (popj s).inhibit = s.inhibit :=
  (congrArg State.inhibit (popj_frame s) :)
@[simp] theorem popj_promEn (s : State) : (popj s).promEn = s.promEn :=
  (congrArg State.promEn (popj_frame s) :)
@[simp] theorem popj_halted (s : State) : (popj s).halted = s.halted :=
  (congrArg State.halted (popj_frame s) :)
@[simp] theorem popj_oaLo (s : State) : (popj s).oaLo = s.oaLo :=
  (congrArg State.oaLo (popj_frame s) :)
@[simp] theorem popj_oaLoV (s : State) : (popj s).oaLoV = s.oaLoV :=
  (congrArg State.oaLoV (popj_frame s) :)
@[simp] theorem popj_oaHi (s : State) : (popj s).oaHi = s.oaHi :=
  (congrArg State.oaHi (popj_frame s) :)
@[simp] theorem popj_oaHiV (s : State) : (popj s).oaHiV = s.oaHiV :=
  (congrArg State.oaHiV (popj_frame s) :)
@[simp] theorem popj_dc (s : State) : (popj s).dc = s.dc :=
  (congrArg State.dc (popj_frame s) :)
@[simp] theorem popj_q (s : State) : (popj s).q = s.q :=
  (congrArg State.q (popj_frame s) :)
@[simp] theorem popj_md (s : State) : (popj s).md = s.md :=
  (congrArg State.md (popj_frame s) :)
@[simp] theorem popj_icr (s : State) : (popj s).icr = s.icr :=
  (congrArg State.icr (popj_frame s) :)
@[simp] theorem popj_spc (s : State) : (popj s).spc = s.spc :=
  (congrArg State.spc (popj_frame s) :)
@[simp] theorem popj_pdl (s : State) : (popj s).pdl = s.pdl :=
  (congrArg State.pdl (popj_frame s) :)
@[simp] theorem popj_pdlPtr (s : State) : (popj s).pdlPtr = s.pdlPtr :=
  (congrArg State.pdlPtr (popj_frame s) :)
@[simp] theorem popj_pdlIdx (s : State) : (popj s).pdlIdx = s.pdlIdx :=
  (congrArg State.pdlIdx (popj_frame s) :)
@[simp] theorem popj_dmem (s : State) : (popj s).dmem = s.dmem :=
  (congrArg State.dmem (popj_frame s) :)
@[simp] theorem popj_imem (s : State) : (popj s).imem = s.imem :=
  (congrArg State.imem (popj_frame s) :)
@[simp] theorem popj_prom (s : State) : (popj s).prom = s.prom :=
  (congrArg State.prom (popj_frame s) :)
@[simp] theorem popj_intstat (s : State) : (popj s).intstat = s.intstat :=
  (congrArg State.intstat (popj_frame s) :)
@[simp] theorem popj_l1 (s : State) : (popj s).l1 = s.l1 :=
  (congrArg State.l1 (popj_frame s) :)
@[simp] theorem popj_l2 (s : State) : (popj s).l2 = s.l2 :=
  (congrArg State.l2 (popj_frame s) :)
@[simp] theorem popj_pmem (s : State) : (popj s).pmem = s.pmem :=
  (congrArg State.pmem (popj_frame s) :)
@[simp] theorem popj_restored (s : State) : (popj s).restored = s.restored :=
  (congrArg State.restored (popj_frame s) :)
@[simp] theorem popj_pcHist (s : State) : (popj s).pcHist = s.pcHist :=
  (congrArg State.pcHist (popj_frame s) :)
@[simp] theorem popj_pdlHist (s : State) : (popj s).pdlHist = s.pdlHist :=
  (congrArg State.pdlHist (popj_frame s) :)
@[simp] theorem popj_trace (s : State) : (popj s).trace = s.trace :=
  (congrArg State.trace (popj_frame s) :)

/-- Statement 8 of the step changes these fields and no other. -/
theorem popjIf_frame (flag : Bool) (s : State) : (popjIf flag s) =
    { s with accessFault := (popjIf flag s).accessFault,
             writeFault := (popjIf flag s).writeFault, pageFault := (popjIf flag s).pageFault,
             opc := (popjIf flag s).opc, pages := (popjIf flag s).pages,
             devReads := (popjIf flag s).devReads, rdValue := (popjIf flag s).rdValue,
             rdDelay := (popjIf flag s).rdDelay, vma := (popjIf flag s).vma,
             lc := (popjIf flag s).lc, lcHist := (popjIf flag s).lcHist,
             spcPtr := (popjIf flag s).spcPtr, npc := (popjIf flag s).npc } := by
  cases flag with
  | false => rfl
  | true => exact popj_frame s

@[simp] theorem popjIf_cfg (flag : Bool) (s : State) : (popjIf flag s).cfg = s.cfg :=
  (congrArg State.cfg (popjIf_frame flag s) :)
@[simp] theorem popjIf_amem (flag : Bool) (s : State) : (popjIf flag s).amem = s.amem :=
  (congrArg State.amem (popjIf_frame flag s) :)
@[simp] theorem popjIf_mmem (flag : Bool) (s : State) : (popjIf flag s).mmem = s.mmem :=
  (congrArg State.mmem (popjIf_frame flag s) :)
@[simp] theorem popjIf_p0 (flag : Bool) (s : State) : (popjIf flag s).p0 = s.p0 :=
  (congrArg State.p0 (popjIf_frame flag s) :)
@[simp] theorem popjIf_p1 (flag : Bool) (s : State) : (popjIf flag s).p1 = s.p1 :=
  (congrArg State.p1 (popjIf_frame flag s) :)
@[simp] theorem popjIf_p0pc (flag : Bool) (s : State) : (popjIf flag s).p0pc = s.p0pc :=
  (congrArg State.p0pc (popjIf_frame flag s) :)
@[simp] theorem popjIf_p1pc (flag : Bool) (s : State) : (popjIf flag s).p1pc = s.p1pc :=
  (congrArg State.p1pc (popjIf_frame flag s) :)
@[simp] theorem popjIf_inhibit (flag : Bool) (s : State) : (popjIf flag s).inhibit = s.inhibit :=
  (congrArg State.inhibit (popjIf_frame flag s) :)
@[simp] theorem popjIf_promEn (flag : Bool) (s : State) : (popjIf flag s).promEn = s.promEn :=
  (congrArg State.promEn (popjIf_frame flag s) :)
@[simp] theorem popjIf_halted (flag : Bool) (s : State) : (popjIf flag s).halted = s.halted :=
  (congrArg State.halted (popjIf_frame flag s) :)
@[simp] theorem popjIf_oaLo (flag : Bool) (s : State) : (popjIf flag s).oaLo = s.oaLo :=
  (congrArg State.oaLo (popjIf_frame flag s) :)
@[simp] theorem popjIf_oaLoV (flag : Bool) (s : State) : (popjIf flag s).oaLoV = s.oaLoV :=
  (congrArg State.oaLoV (popjIf_frame flag s) :)
@[simp] theorem popjIf_oaHi (flag : Bool) (s : State) : (popjIf flag s).oaHi = s.oaHi :=
  (congrArg State.oaHi (popjIf_frame flag s) :)
@[simp] theorem popjIf_oaHiV (flag : Bool) (s : State) : (popjIf flag s).oaHiV = s.oaHiV :=
  (congrArg State.oaHiV (popjIf_frame flag s) :)
@[simp] theorem popjIf_dc (flag : Bool) (s : State) : (popjIf flag s).dc = s.dc :=
  (congrArg State.dc (popjIf_frame flag s) :)
@[simp] theorem popjIf_q (flag : Bool) (s : State) : (popjIf flag s).q = s.q :=
  (congrArg State.q (popjIf_frame flag s) :)
@[simp] theorem popjIf_md (flag : Bool) (s : State) : (popjIf flag s).md = s.md :=
  (congrArg State.md (popjIf_frame flag s) :)
@[simp] theorem popjIf_icr (flag : Bool) (s : State) : (popjIf flag s).icr = s.icr :=
  (congrArg State.icr (popjIf_frame flag s) :)
@[simp] theorem popjIf_spc (flag : Bool) (s : State) : (popjIf flag s).spc = s.spc :=
  (congrArg State.spc (popjIf_frame flag s) :)
@[simp] theorem popjIf_pdl (flag : Bool) (s : State) : (popjIf flag s).pdl = s.pdl :=
  (congrArg State.pdl (popjIf_frame flag s) :)
@[simp] theorem popjIf_pdlPtr (flag : Bool) (s : State) : (popjIf flag s).pdlPtr = s.pdlPtr :=
  (congrArg State.pdlPtr (popjIf_frame flag s) :)
@[simp] theorem popjIf_pdlIdx (flag : Bool) (s : State) : (popjIf flag s).pdlIdx = s.pdlIdx :=
  (congrArg State.pdlIdx (popjIf_frame flag s) :)
@[simp] theorem popjIf_dmem (flag : Bool) (s : State) : (popjIf flag s).dmem = s.dmem :=
  (congrArg State.dmem (popjIf_frame flag s) :)
@[simp] theorem popjIf_imem (flag : Bool) (s : State) : (popjIf flag s).imem = s.imem :=
  (congrArg State.imem (popjIf_frame flag s) :)
@[simp] theorem popjIf_prom (flag : Bool) (s : State) : (popjIf flag s).prom = s.prom :=
  (congrArg State.prom (popjIf_frame flag s) :)
@[simp] theorem popjIf_intstat (flag : Bool) (s : State) : (popjIf flag s).intstat = s.intstat :=
  (congrArg State.intstat (popjIf_frame flag s) :)
@[simp] theorem popjIf_l1 (flag : Bool) (s : State) : (popjIf flag s).l1 = s.l1 :=
  (congrArg State.l1 (popjIf_frame flag s) :)
@[simp] theorem popjIf_l2 (flag : Bool) (s : State) : (popjIf flag s).l2 = s.l2 :=
  (congrArg State.l2 (popjIf_frame flag s) :)
@[simp] theorem popjIf_pmem (flag : Bool) (s : State) : (popjIf flag s).pmem = s.pmem :=
  (congrArg State.pmem (popjIf_frame flag s) :)
@[simp] theorem popjIf_restored (flag : Bool) (s : State) : (popjIf flag s).restored = s.restored :=
  (congrArg State.restored (popjIf_frame flag s) :)
@[simp] theorem popjIf_pcHist (flag : Bool) (s : State) : (popjIf flag s).pcHist = s.pcHist :=
  (congrArg State.pcHist (popjIf_frame flag s) :)
@[simp] theorem popjIf_pdlHist (flag : Bool) (s : State) : (popjIf flag s).pdlHist = s.pdlHist :=
  (congrArg State.pdlHist (popjIf_frame flag s) :)
@[simp] theorem popjIf_trace (flag : Bool) (s : State) : (popjIf flag s).trace = s.trace :=
  (congrArg State.trace (popjIf_frame flag s) :)

/-- The halt of a jump changes these fields and no other. -/
theorem haltIf_frame (sub : JumpSub) (s : State) : (haltIf sub s) =
    { s with halted := (haltIf sub s).halted } := by
  unfold haltIf; split <;> rfl

@[simp] theorem haltIf_cfg (sub : JumpSub) (s : State) : (haltIf sub s).cfg = s.cfg :=
  (congrArg State.cfg (haltIf_frame sub s) :)
@[simp] theorem haltIf_amem (sub : JumpSub) (s : State) : (haltIf sub s).amem = s.amem :=
  (congrArg State.amem (haltIf_frame sub s) :)
@[simp] theorem haltIf_mmem (sub : JumpSub) (s : State) : (haltIf sub s).mmem = s.mmem :=
  (congrArg State.mmem (haltIf_frame sub s) :)
@[simp] theorem haltIf_npc (sub : JumpSub) (s : State) : (haltIf sub s).npc = s.npc :=
  (congrArg State.npc (haltIf_frame sub s) :)
@[simp] theorem haltIf_p0 (sub : JumpSub) (s : State) : (haltIf sub s).p0 = s.p0 :=
  (congrArg State.p0 (haltIf_frame sub s) :)
@[simp] theorem haltIf_p1 (sub : JumpSub) (s : State) : (haltIf sub s).p1 = s.p1 :=
  (congrArg State.p1 (haltIf_frame sub s) :)
@[simp] theorem haltIf_p0pc (sub : JumpSub) (s : State) : (haltIf sub s).p0pc = s.p0pc :=
  (congrArg State.p0pc (haltIf_frame sub s) :)
@[simp] theorem haltIf_p1pc (sub : JumpSub) (s : State) : (haltIf sub s).p1pc = s.p1pc :=
  (congrArg State.p1pc (haltIf_frame sub s) :)
@[simp] theorem haltIf_inhibit (sub : JumpSub) (s : State) : (haltIf sub s).inhibit = s.inhibit :=
  (congrArg State.inhibit (haltIf_frame sub s) :)
@[simp] theorem haltIf_promEn (sub : JumpSub) (s : State) : (haltIf sub s).promEn = s.promEn :=
  (congrArg State.promEn (haltIf_frame sub s) :)
@[simp] theorem haltIf_oaLo (sub : JumpSub) (s : State) : (haltIf sub s).oaLo = s.oaLo :=
  (congrArg State.oaLo (haltIf_frame sub s) :)
@[simp] theorem haltIf_oaLoV (sub : JumpSub) (s : State) : (haltIf sub s).oaLoV = s.oaLoV :=
  (congrArg State.oaLoV (haltIf_frame sub s) :)
@[simp] theorem haltIf_oaHi (sub : JumpSub) (s : State) : (haltIf sub s).oaHi = s.oaHi :=
  (congrArg State.oaHi (haltIf_frame sub s) :)
@[simp] theorem haltIf_oaHiV (sub : JumpSub) (s : State) : (haltIf sub s).oaHiV = s.oaHiV :=
  (congrArg State.oaHiV (haltIf_frame sub s) :)
@[simp] theorem haltIf_accessFault (sub : JumpSub) (s : State) : (haltIf sub s).accessFault = s.accessFault :=
  (congrArg State.accessFault (haltIf_frame sub s) :)
@[simp] theorem haltIf_writeFault (sub : JumpSub) (s : State) : (haltIf sub s).writeFault = s.writeFault :=
  (congrArg State.writeFault (haltIf_frame sub s) :)
@[simp] theorem haltIf_pageFault (sub : JumpSub) (s : State) : (haltIf sub s).pageFault = s.pageFault :=
  (congrArg State.pageFault (haltIf_frame sub s) :)
@[simp] theorem haltIf_dc (sub : JumpSub) (s : State) : (haltIf sub s).dc = s.dc :=
  (congrArg State.dc (haltIf_frame sub s) :)
@[simp] theorem haltIf_opc (sub : JumpSub) (s : State) : (haltIf sub s).opc = s.opc :=
  (congrArg State.opc (haltIf_frame sub s) :)
@[simp] theorem haltIf_q (sub : JumpSub) (s : State) : (haltIf sub s).q = s.q :=
  (congrArg State.q (haltIf_frame sub s) :)
@[simp] theorem haltIf_vma (sub : JumpSub) (s : State) : (haltIf sub s).vma = s.vma :=
  (congrArg State.vma (haltIf_frame sub s) :)
@[simp] theorem haltIf_md (sub : JumpSub) (s : State) : (haltIf sub s).md = s.md :=
  (congrArg State.md (haltIf_frame sub s) :)
@[simp] theorem haltIf_lc (sub : JumpSub) (s : State) : (haltIf sub s).lc = s.lc :=
  (congrArg State.lc (haltIf_frame sub s) :)
@[simp] theorem haltIf_icr (sub : JumpSub) (s : State) : (haltIf sub s).icr = s.icr :=
  (congrArg State.icr (haltIf_frame sub s) :)
@[simp] theorem haltIf_spc (sub : JumpSub) (s : State) : (haltIf sub s).spc = s.spc :=
  (congrArg State.spc (haltIf_frame sub s) :)
@[simp] theorem haltIf_spcPtr (sub : JumpSub) (s : State) : (haltIf sub s).spcPtr = s.spcPtr :=
  (congrArg State.spcPtr (haltIf_frame sub s) :)
@[simp] theorem haltIf_pdl (sub : JumpSub) (s : State) : (haltIf sub s).pdl = s.pdl :=
  (congrArg State.pdl (haltIf_frame sub s) :)
@[simp] theorem haltIf_pdlPtr (sub : JumpSub) (s : State) : (haltIf sub s).pdlPtr = s.pdlPtr :=
  (congrArg State.pdlPtr (haltIf_frame sub s) :)
@[simp] theorem haltIf_pdlIdx (sub : JumpSub) (s : State) : (haltIf sub s).pdlIdx = s.pdlIdx :=
  (congrArg State.pdlIdx (haltIf_frame sub s) :)
@[simp] theorem haltIf_dmem (sub : JumpSub) (s : State) : (haltIf sub s).dmem = s.dmem :=
  (congrArg State.dmem (haltIf_frame sub s) :)
@[simp] theorem haltIf_imem (sub : JumpSub) (s : State) : (haltIf sub s).imem = s.imem :=
  (congrArg State.imem (haltIf_frame sub s) :)
@[simp] theorem haltIf_prom (sub : JumpSub) (s : State) : (haltIf sub s).prom = s.prom :=
  (congrArg State.prom (haltIf_frame sub s) :)
@[simp] theorem haltIf_intstat (sub : JumpSub) (s : State) : (haltIf sub s).intstat = s.intstat :=
  (congrArg State.intstat (haltIf_frame sub s) :)
@[simp] theorem haltIf_l1 (sub : JumpSub) (s : State) : (haltIf sub s).l1 = s.l1 :=
  (congrArg State.l1 (haltIf_frame sub s) :)
@[simp] theorem haltIf_l2 (sub : JumpSub) (s : State) : (haltIf sub s).l2 = s.l2 :=
  (congrArg State.l2 (haltIf_frame sub s) :)
@[simp] theorem haltIf_pmem (sub : JumpSub) (s : State) : (haltIf sub s).pmem = s.pmem :=
  (congrArg State.pmem (haltIf_frame sub s) :)
@[simp] theorem haltIf_pages (sub : JumpSub) (s : State) : (haltIf sub s).pages = s.pages :=
  (congrArg State.pages (haltIf_frame sub s) :)
@[simp] theorem haltIf_rdDelay (sub : JumpSub) (s : State) : (haltIf sub s).rdDelay = s.rdDelay :=
  (congrArg State.rdDelay (haltIf_frame sub s) :)
@[simp] theorem haltIf_rdValue (sub : JumpSub) (s : State) : (haltIf sub s).rdValue = s.rdValue :=
  (congrArg State.rdValue (haltIf_frame sub s) :)
@[simp] theorem haltIf_restored (sub : JumpSub) (s : State) : (haltIf sub s).restored = s.restored :=
  (congrArg State.restored (haltIf_frame sub s) :)
@[simp] theorem haltIf_lcHist (sub : JumpSub) (s : State) : (haltIf sub s).lcHist = s.lcHist :=
  (congrArg State.lcHist (haltIf_frame sub s) :)
@[simp] theorem haltIf_pcHist (sub : JumpSub) (s : State) : (haltIf sub s).pcHist = s.pcHist :=
  (congrArg State.pcHist (haltIf_frame sub s) :)
@[simp] theorem haltIf_pdlHist (sub : JumpSub) (s : State) : (haltIf sub s).pdlHist = s.pdlHist :=
  (congrArg State.pdlHist (haltIf_frame sub s) :)
@[simp] theorem haltIf_devReads (sub : JumpSub) (s : State) : (haltIf sub s).devReads = s.devReads :=
  (congrArg State.devReads (haltIf_frame sub s) :)
@[simp] theorem haltIf_trace (sub : JumpSub) (s : State) : (haltIf sub s).trace = s.trace :=
  (congrArg State.trace (haltIf_frame sub s) :)

/-- A taken jump changes these fields and no other. -/
theorem jumpTaken_frame (f : JumpFields) (s : State) : (jumpTaken f s) =
    { s with accessFault := (jumpTaken f s).accessFault,
             writeFault := (jumpTaken f s).writeFault, pageFault := (jumpTaken f s).pageFault,
             opc := (jumpTaken f s).opc, pages := (jumpTaken f s).pages,
             devReads := (jumpTaken f s).devReads, rdValue := (jumpTaken f s).rdValue,
             rdDelay := (jumpTaken f s).rdDelay, vma := (jumpTaken f s).vma,
             lc := (jumpTaken f s).lc, lcHist := (jumpTaken f s).lcHist,
             spcPtr := (jumpTaken f s).spcPtr, npc := (jumpTaken f s).npc,
             inhibit := (jumpTaken f s).inhibit, spc := (jumpTaken f s).spc } := by
  unfold jumpTaken; cases f.link with
  | none => rfl
  | push => rfl
  | pop => simp only []; rw [popReturn_frame]

@[simp] theorem jumpTaken_cfg (f : JumpFields) (s : State) : (jumpTaken f s).cfg = s.cfg :=
  (congrArg State.cfg (jumpTaken_frame f s) :)
@[simp] theorem jumpTaken_amem (f : JumpFields) (s : State) : (jumpTaken f s).amem = s.amem :=
  (congrArg State.amem (jumpTaken_frame f s) :)
@[simp] theorem jumpTaken_mmem (f : JumpFields) (s : State) : (jumpTaken f s).mmem = s.mmem :=
  (congrArg State.mmem (jumpTaken_frame f s) :)
@[simp] theorem jumpTaken_p0 (f : JumpFields) (s : State) : (jumpTaken f s).p0 = s.p0 :=
  (congrArg State.p0 (jumpTaken_frame f s) :)
@[simp] theorem jumpTaken_p1 (f : JumpFields) (s : State) : (jumpTaken f s).p1 = s.p1 :=
  (congrArg State.p1 (jumpTaken_frame f s) :)
@[simp] theorem jumpTaken_p0pc (f : JumpFields) (s : State) : (jumpTaken f s).p0pc = s.p0pc :=
  (congrArg State.p0pc (jumpTaken_frame f s) :)
@[simp] theorem jumpTaken_p1pc (f : JumpFields) (s : State) : (jumpTaken f s).p1pc = s.p1pc :=
  (congrArg State.p1pc (jumpTaken_frame f s) :)
@[simp] theorem jumpTaken_promEn (f : JumpFields) (s : State) : (jumpTaken f s).promEn = s.promEn :=
  (congrArg State.promEn (jumpTaken_frame f s) :)
@[simp] theorem jumpTaken_halted (f : JumpFields) (s : State) : (jumpTaken f s).halted = s.halted :=
  (congrArg State.halted (jumpTaken_frame f s) :)
@[simp] theorem jumpTaken_oaLo (f : JumpFields) (s : State) : (jumpTaken f s).oaLo = s.oaLo :=
  (congrArg State.oaLo (jumpTaken_frame f s) :)
@[simp] theorem jumpTaken_oaLoV (f : JumpFields) (s : State) : (jumpTaken f s).oaLoV = s.oaLoV :=
  (congrArg State.oaLoV (jumpTaken_frame f s) :)
@[simp] theorem jumpTaken_oaHi (f : JumpFields) (s : State) : (jumpTaken f s).oaHi = s.oaHi :=
  (congrArg State.oaHi (jumpTaken_frame f s) :)
@[simp] theorem jumpTaken_oaHiV (f : JumpFields) (s : State) : (jumpTaken f s).oaHiV = s.oaHiV :=
  (congrArg State.oaHiV (jumpTaken_frame f s) :)
@[simp] theorem jumpTaken_dc (f : JumpFields) (s : State) : (jumpTaken f s).dc = s.dc :=
  (congrArg State.dc (jumpTaken_frame f s) :)
@[simp] theorem jumpTaken_q (f : JumpFields) (s : State) : (jumpTaken f s).q = s.q :=
  (congrArg State.q (jumpTaken_frame f s) :)
@[simp] theorem jumpTaken_md (f : JumpFields) (s : State) : (jumpTaken f s).md = s.md :=
  (congrArg State.md (jumpTaken_frame f s) :)
@[simp] theorem jumpTaken_icr (f : JumpFields) (s : State) : (jumpTaken f s).icr = s.icr :=
  (congrArg State.icr (jumpTaken_frame f s) :)
@[simp] theorem jumpTaken_pdl (f : JumpFields) (s : State) : (jumpTaken f s).pdl = s.pdl :=
  (congrArg State.pdl (jumpTaken_frame f s) :)
@[simp] theorem jumpTaken_pdlPtr (f : JumpFields) (s : State) : (jumpTaken f s).pdlPtr = s.pdlPtr :=
  (congrArg State.pdlPtr (jumpTaken_frame f s) :)
@[simp] theorem jumpTaken_pdlIdx (f : JumpFields) (s : State) : (jumpTaken f s).pdlIdx = s.pdlIdx :=
  (congrArg State.pdlIdx (jumpTaken_frame f s) :)
@[simp] theorem jumpTaken_dmem (f : JumpFields) (s : State) : (jumpTaken f s).dmem = s.dmem :=
  (congrArg State.dmem (jumpTaken_frame f s) :)
@[simp] theorem jumpTaken_imem (f : JumpFields) (s : State) : (jumpTaken f s).imem = s.imem :=
  (congrArg State.imem (jumpTaken_frame f s) :)
@[simp] theorem jumpTaken_prom (f : JumpFields) (s : State) : (jumpTaken f s).prom = s.prom :=
  (congrArg State.prom (jumpTaken_frame f s) :)
@[simp] theorem jumpTaken_intstat (f : JumpFields) (s : State) : (jumpTaken f s).intstat = s.intstat :=
  (congrArg State.intstat (jumpTaken_frame f s) :)
@[simp] theorem jumpTaken_l1 (f : JumpFields) (s : State) : (jumpTaken f s).l1 = s.l1 :=
  (congrArg State.l1 (jumpTaken_frame f s) :)
@[simp] theorem jumpTaken_l2 (f : JumpFields) (s : State) : (jumpTaken f s).l2 = s.l2 :=
  (congrArg State.l2 (jumpTaken_frame f s) :)
@[simp] theorem jumpTaken_pmem (f : JumpFields) (s : State) : (jumpTaken f s).pmem = s.pmem :=
  (congrArg State.pmem (jumpTaken_frame f s) :)
@[simp] theorem jumpTaken_restored (f : JumpFields) (s : State) : (jumpTaken f s).restored = s.restored :=
  (congrArg State.restored (jumpTaken_frame f s) :)
@[simp] theorem jumpTaken_pcHist (f : JumpFields) (s : State) : (jumpTaken f s).pcHist = s.pcHist :=
  (congrArg State.pcHist (jumpTaken_frame f s) :)
@[simp] theorem jumpTaken_pdlHist (f : JumpFields) (s : State) : (jumpTaken f s).pdlHist = s.pdlHist :=
  (congrArg State.pdlHist (jumpTaken_frame f s) :)
@[simp] theorem jumpTaken_trace (f : JumpFields) (s : State) : (jumpTaken f s).trace = s.trace :=
  (congrArg State.trace (jumpTaken_frame f s) :)

/-- A dispatch up to its transfer changes these fields and no other. -/
theorem dispatchPrepare_frame (f : DispatchFields) (w : Word) (s : State) : (dispatchPrepare f w s) =
    { s with accessFault := (dispatchPrepare f w s).accessFault,
             writeFault := (dispatchPrepare f w s).writeFault,
             pageFault := (dispatchPrepare f w s).pageFault, opc := (dispatchPrepare f w s).opc,
             pages := (dispatchPrepare f w s).pages,
             devReads := (dispatchPrepare f w s).devReads,
             rdValue := (dispatchPrepare f w s).rdValue,
             rdDelay := (dispatchPrepare f w s).rdDelay, vma := (dispatchPrepare f w s).vma,
             lc := (dispatchPrepare f w s).lc, lcHist := (dispatchPrepare f w s).lcHist,
             npc := (dispatchPrepare f w s).npc, inhibit := (dispatchPrepare f w s).inhibit,
             dc := (dispatchPrepare f w s).dc } := by
  unfold dispatchPrepare
  cases f.enableIsh <;> cases w.getLsbD 14 <;> cases f.nPlus1 <;>
    simp only [Bool.and_true, Bool.and_false, Bool.false_eq_true, if_false, if_true] <;>
    first
    | rfl
    | rw [lcAdvance_frame]

@[simp] theorem dispatchPrepare_cfg (f : DispatchFields) (w : Word) (s : State) : (dispatchPrepare f w s).cfg = s.cfg :=
  (congrArg State.cfg (dispatchPrepare_frame f w s) :)
@[simp] theorem dispatchPrepare_amem (f : DispatchFields) (w : Word) (s : State) : (dispatchPrepare f w s).amem = s.amem :=
  (congrArg State.amem (dispatchPrepare_frame f w s) :)
@[simp] theorem dispatchPrepare_mmem (f : DispatchFields) (w : Word) (s : State) : (dispatchPrepare f w s).mmem = s.mmem :=
  (congrArg State.mmem (dispatchPrepare_frame f w s) :)
@[simp] theorem dispatchPrepare_p0 (f : DispatchFields) (w : Word) (s : State) : (dispatchPrepare f w s).p0 = s.p0 :=
  (congrArg State.p0 (dispatchPrepare_frame f w s) :)
@[simp] theorem dispatchPrepare_p1 (f : DispatchFields) (w : Word) (s : State) : (dispatchPrepare f w s).p1 = s.p1 :=
  (congrArg State.p1 (dispatchPrepare_frame f w s) :)
@[simp] theorem dispatchPrepare_p0pc (f : DispatchFields) (w : Word) (s : State) : (dispatchPrepare f w s).p0pc = s.p0pc :=
  (congrArg State.p0pc (dispatchPrepare_frame f w s) :)
@[simp] theorem dispatchPrepare_p1pc (f : DispatchFields) (w : Word) (s : State) : (dispatchPrepare f w s).p1pc = s.p1pc :=
  (congrArg State.p1pc (dispatchPrepare_frame f w s) :)
@[simp] theorem dispatchPrepare_promEn (f : DispatchFields) (w : Word) (s : State) : (dispatchPrepare f w s).promEn = s.promEn :=
  (congrArg State.promEn (dispatchPrepare_frame f w s) :)
@[simp] theorem dispatchPrepare_halted (f : DispatchFields) (w : Word) (s : State) : (dispatchPrepare f w s).halted = s.halted :=
  (congrArg State.halted (dispatchPrepare_frame f w s) :)
@[simp] theorem dispatchPrepare_oaLo (f : DispatchFields) (w : Word) (s : State) : (dispatchPrepare f w s).oaLo = s.oaLo :=
  (congrArg State.oaLo (dispatchPrepare_frame f w s) :)
@[simp] theorem dispatchPrepare_oaLoV (f : DispatchFields) (w : Word) (s : State) : (dispatchPrepare f w s).oaLoV = s.oaLoV :=
  (congrArg State.oaLoV (dispatchPrepare_frame f w s) :)
@[simp] theorem dispatchPrepare_oaHi (f : DispatchFields) (w : Word) (s : State) : (dispatchPrepare f w s).oaHi = s.oaHi :=
  (congrArg State.oaHi (dispatchPrepare_frame f w s) :)
@[simp] theorem dispatchPrepare_oaHiV (f : DispatchFields) (w : Word) (s : State) : (dispatchPrepare f w s).oaHiV = s.oaHiV :=
  (congrArg State.oaHiV (dispatchPrepare_frame f w s) :)
@[simp] theorem dispatchPrepare_q (f : DispatchFields) (w : Word) (s : State) : (dispatchPrepare f w s).q = s.q :=
  (congrArg State.q (dispatchPrepare_frame f w s) :)
@[simp] theorem dispatchPrepare_md (f : DispatchFields) (w : Word) (s : State) : (dispatchPrepare f w s).md = s.md :=
  (congrArg State.md (dispatchPrepare_frame f w s) :)
@[simp] theorem dispatchPrepare_icr (f : DispatchFields) (w : Word) (s : State) : (dispatchPrepare f w s).icr = s.icr :=
  (congrArg State.icr (dispatchPrepare_frame f w s) :)
@[simp] theorem dispatchPrepare_spc (f : DispatchFields) (w : Word) (s : State) : (dispatchPrepare f w s).spc = s.spc :=
  (congrArg State.spc (dispatchPrepare_frame f w s) :)
@[simp] theorem dispatchPrepare_spcPtr (f : DispatchFields) (w : Word) (s : State) : (dispatchPrepare f w s).spcPtr = s.spcPtr :=
  (congrArg State.spcPtr (dispatchPrepare_frame f w s) :)
@[simp] theorem dispatchPrepare_pdl (f : DispatchFields) (w : Word) (s : State) : (dispatchPrepare f w s).pdl = s.pdl :=
  (congrArg State.pdl (dispatchPrepare_frame f w s) :)
@[simp] theorem dispatchPrepare_pdlPtr (f : DispatchFields) (w : Word) (s : State) : (dispatchPrepare f w s).pdlPtr = s.pdlPtr :=
  (congrArg State.pdlPtr (dispatchPrepare_frame f w s) :)
@[simp] theorem dispatchPrepare_pdlIdx (f : DispatchFields) (w : Word) (s : State) : (dispatchPrepare f w s).pdlIdx = s.pdlIdx :=
  (congrArg State.pdlIdx (dispatchPrepare_frame f w s) :)
@[simp] theorem dispatchPrepare_dmem (f : DispatchFields) (w : Word) (s : State) : (dispatchPrepare f w s).dmem = s.dmem :=
  (congrArg State.dmem (dispatchPrepare_frame f w s) :)
@[simp] theorem dispatchPrepare_imem (f : DispatchFields) (w : Word) (s : State) : (dispatchPrepare f w s).imem = s.imem :=
  (congrArg State.imem (dispatchPrepare_frame f w s) :)
@[simp] theorem dispatchPrepare_prom (f : DispatchFields) (w : Word) (s : State) : (dispatchPrepare f w s).prom = s.prom :=
  (congrArg State.prom (dispatchPrepare_frame f w s) :)
@[simp] theorem dispatchPrepare_intstat (f : DispatchFields) (w : Word) (s : State) : (dispatchPrepare f w s).intstat = s.intstat :=
  (congrArg State.intstat (dispatchPrepare_frame f w s) :)
@[simp] theorem dispatchPrepare_l1 (f : DispatchFields) (w : Word) (s : State) : (dispatchPrepare f w s).l1 = s.l1 :=
  (congrArg State.l1 (dispatchPrepare_frame f w s) :)
@[simp] theorem dispatchPrepare_l2 (f : DispatchFields) (w : Word) (s : State) : (dispatchPrepare f w s).l2 = s.l2 :=
  (congrArg State.l2 (dispatchPrepare_frame f w s) :)
@[simp] theorem dispatchPrepare_pmem (f : DispatchFields) (w : Word) (s : State) : (dispatchPrepare f w s).pmem = s.pmem :=
  (congrArg State.pmem (dispatchPrepare_frame f w s) :)
@[simp] theorem dispatchPrepare_restored (f : DispatchFields) (w : Word) (s : State) : (dispatchPrepare f w s).restored = s.restored :=
  (congrArg State.restored (dispatchPrepare_frame f w s) :)
@[simp] theorem dispatchPrepare_pcHist (f : DispatchFields) (w : Word) (s : State) : (dispatchPrepare f w s).pcHist = s.pcHist :=
  (congrArg State.pcHist (dispatchPrepare_frame f w s) :)
@[simp] theorem dispatchPrepare_pdlHist (f : DispatchFields) (w : Word) (s : State) : (dispatchPrepare f w s).pdlHist = s.pdlHist :=
  (congrArg State.pdlHist (dispatchPrepare_frame f w s) :)
@[simp] theorem dispatchPrepare_trace (f : DispatchFields) (w : Word) (s : State) : (dispatchPrepare f w s).trace = s.trace :=
  (congrArg State.trace (dispatchPrepare_frame f w s) :)

/-- The transfer of a dispatch changes these fields and no other. -/
theorem dispatchTransfer_frame (w : Word) (s : State) : (dispatchTransfer w s) =
    { s with accessFault := (dispatchTransfer w s).accessFault,
             writeFault := (dispatchTransfer w s).writeFault,
             pageFault := (dispatchTransfer w s).pageFault, opc := (dispatchTransfer w s).opc,
             pages := (dispatchTransfer w s).pages, devReads := (dispatchTransfer w s).devReads,
             rdValue := (dispatchTransfer w s).rdValue,
             rdDelay := (dispatchTransfer w s).rdDelay, vma := (dispatchTransfer w s).vma,
             lc := (dispatchTransfer w s).lc, lcHist := (dispatchTransfer w s).lcHist,
             spcPtr := (dispatchTransfer w s).spcPtr, npc := (dispatchTransfer w s).npc,
             spc := (dispatchTransfer w s).spc } := by
  unfold dispatchTransfer
  cases w.getLsbD 15 <;> cases w.getLsbD 16 <;>
    simp only [Bool.false_eq_true, if_false, if_true] <;>
    first
    | rfl
    | (rw [popReturn_frame]; done)
    | (rw [popReturn_frame]; rfl)

@[simp] theorem dispatchTransfer_cfg (w : Word) (s : State) : (dispatchTransfer w s).cfg = s.cfg :=
  (congrArg State.cfg (dispatchTransfer_frame w s) :)
@[simp] theorem dispatchTransfer_amem (w : Word) (s : State) : (dispatchTransfer w s).amem = s.amem :=
  (congrArg State.amem (dispatchTransfer_frame w s) :)
@[simp] theorem dispatchTransfer_mmem (w : Word) (s : State) : (dispatchTransfer w s).mmem = s.mmem :=
  (congrArg State.mmem (dispatchTransfer_frame w s) :)
@[simp] theorem dispatchTransfer_p0 (w : Word) (s : State) : (dispatchTransfer w s).p0 = s.p0 :=
  (congrArg State.p0 (dispatchTransfer_frame w s) :)
@[simp] theorem dispatchTransfer_p1 (w : Word) (s : State) : (dispatchTransfer w s).p1 = s.p1 :=
  (congrArg State.p1 (dispatchTransfer_frame w s) :)
@[simp] theorem dispatchTransfer_p0pc (w : Word) (s : State) : (dispatchTransfer w s).p0pc = s.p0pc :=
  (congrArg State.p0pc (dispatchTransfer_frame w s) :)
@[simp] theorem dispatchTransfer_p1pc (w : Word) (s : State) : (dispatchTransfer w s).p1pc = s.p1pc :=
  (congrArg State.p1pc (dispatchTransfer_frame w s) :)
@[simp] theorem dispatchTransfer_inhibit (w : Word) (s : State) : (dispatchTransfer w s).inhibit = s.inhibit :=
  (congrArg State.inhibit (dispatchTransfer_frame w s) :)
@[simp] theorem dispatchTransfer_promEn (w : Word) (s : State) : (dispatchTransfer w s).promEn = s.promEn :=
  (congrArg State.promEn (dispatchTransfer_frame w s) :)
@[simp] theorem dispatchTransfer_halted (w : Word) (s : State) : (dispatchTransfer w s).halted = s.halted :=
  (congrArg State.halted (dispatchTransfer_frame w s) :)
@[simp] theorem dispatchTransfer_oaLo (w : Word) (s : State) : (dispatchTransfer w s).oaLo = s.oaLo :=
  (congrArg State.oaLo (dispatchTransfer_frame w s) :)
@[simp] theorem dispatchTransfer_oaLoV (w : Word) (s : State) : (dispatchTransfer w s).oaLoV = s.oaLoV :=
  (congrArg State.oaLoV (dispatchTransfer_frame w s) :)
@[simp] theorem dispatchTransfer_oaHi (w : Word) (s : State) : (dispatchTransfer w s).oaHi = s.oaHi :=
  (congrArg State.oaHi (dispatchTransfer_frame w s) :)
@[simp] theorem dispatchTransfer_oaHiV (w : Word) (s : State) : (dispatchTransfer w s).oaHiV = s.oaHiV :=
  (congrArg State.oaHiV (dispatchTransfer_frame w s) :)
@[simp] theorem dispatchTransfer_dc (w : Word) (s : State) : (dispatchTransfer w s).dc = s.dc :=
  (congrArg State.dc (dispatchTransfer_frame w s) :)
@[simp] theorem dispatchTransfer_q (w : Word) (s : State) : (dispatchTransfer w s).q = s.q :=
  (congrArg State.q (dispatchTransfer_frame w s) :)
@[simp] theorem dispatchTransfer_md (w : Word) (s : State) : (dispatchTransfer w s).md = s.md :=
  (congrArg State.md (dispatchTransfer_frame w s) :)
@[simp] theorem dispatchTransfer_icr (w : Word) (s : State) : (dispatchTransfer w s).icr = s.icr :=
  (congrArg State.icr (dispatchTransfer_frame w s) :)
@[simp] theorem dispatchTransfer_pdl (w : Word) (s : State) : (dispatchTransfer w s).pdl = s.pdl :=
  (congrArg State.pdl (dispatchTransfer_frame w s) :)
@[simp] theorem dispatchTransfer_pdlPtr (w : Word) (s : State) : (dispatchTransfer w s).pdlPtr = s.pdlPtr :=
  (congrArg State.pdlPtr (dispatchTransfer_frame w s) :)
@[simp] theorem dispatchTransfer_pdlIdx (w : Word) (s : State) : (dispatchTransfer w s).pdlIdx = s.pdlIdx :=
  (congrArg State.pdlIdx (dispatchTransfer_frame w s) :)
@[simp] theorem dispatchTransfer_dmem (w : Word) (s : State) : (dispatchTransfer w s).dmem = s.dmem :=
  (congrArg State.dmem (dispatchTransfer_frame w s) :)
@[simp] theorem dispatchTransfer_imem (w : Word) (s : State) : (dispatchTransfer w s).imem = s.imem :=
  (congrArg State.imem (dispatchTransfer_frame w s) :)
@[simp] theorem dispatchTransfer_prom (w : Word) (s : State) : (dispatchTransfer w s).prom = s.prom :=
  (congrArg State.prom (dispatchTransfer_frame w s) :)
@[simp] theorem dispatchTransfer_intstat (w : Word) (s : State) : (dispatchTransfer w s).intstat = s.intstat :=
  (congrArg State.intstat (dispatchTransfer_frame w s) :)
@[simp] theorem dispatchTransfer_l1 (w : Word) (s : State) : (dispatchTransfer w s).l1 = s.l1 :=
  (congrArg State.l1 (dispatchTransfer_frame w s) :)
@[simp] theorem dispatchTransfer_l2 (w : Word) (s : State) : (dispatchTransfer w s).l2 = s.l2 :=
  (congrArg State.l2 (dispatchTransfer_frame w s) :)
@[simp] theorem dispatchTransfer_pmem (w : Word) (s : State) : (dispatchTransfer w s).pmem = s.pmem :=
  (congrArg State.pmem (dispatchTransfer_frame w s) :)
@[simp] theorem dispatchTransfer_restored (w : Word) (s : State) : (dispatchTransfer w s).restored = s.restored :=
  (congrArg State.restored (dispatchTransfer_frame w s) :)
@[simp] theorem dispatchTransfer_pcHist (w : Word) (s : State) : (dispatchTransfer w s).pcHist = s.pcHist :=
  (congrArg State.pcHist (dispatchTransfer_frame w s) :)
@[simp] theorem dispatchTransfer_pdlHist (w : Word) (s : State) : (dispatchTransfer w s).pdlHist = s.pdlHist :=
  (congrArg State.pdlHist (dispatchTransfer_frame w s) :)
@[simp] theorem dispatchTransfer_trace (w : Word) (s : State) : (dispatchTransfer w s).trace = s.trace :=
  (congrArg State.trace (dispatchTransfer_frame w s) :)

/-- The end of an ALU instruction changes these fields and no other. -/
theorem aluFinish_frame (op : BitVec 6) (f : AluFields) (m : Word) (r : AluResult) (s : State) : (aluFinish op f m r s) =
    { s with accessFault := (aluFinish op f m r s).accessFault,
             writeFault := (aluFinish op f m r s).writeFault,
             pageFault := (aluFinish op f m r s).pageFault, opc := (aluFinish op f m r s).opc,
             pages := (aluFinish op f m r s).pages, devReads := (aluFinish op f m r s).devReads,
             rdValue := (aluFinish op f m r s).rdValue,
             rdDelay := (aluFinish op f m r s).rdDelay, pmem := (aluFinish op f m r s).pmem,
             intstat := (aluFinish op f m r s).intstat, promEn := (aluFinish op f m r s).promEn,
             trace := (aluFinish op f m r s).trace, l1 := (aluFinish op f m r s).l1,
             l2 := (aluFinish op f m r s).l2, lc := (aluFinish op f m r s).lc,
             icr := (aluFinish op f m r s).icr, pdl := (aluFinish op f m r s).pdl,
             pdlPtr := (aluFinish op f m r s).pdlPtr, pdlIdx := (aluFinish op f m r s).pdlIdx,
             spc := (aluFinish op f m r s).spc, spcPtr := (aluFinish op f m r s).spcPtr,
             oaLo := (aluFinish op f m r s).oaLo, oaLoV := (aluFinish op f m r s).oaLoV,
             oaHi := (aluFinish op f m r s).oaHi, oaHiV := (aluFinish op f m r s).oaHiV,
             vma := (aluFinish op f m r s).vma, md := (aluFinish op f m r s).md,
             pdlHist := (aluFinish op f m r s).pdlHist, amem := (aluFinish op f m r s).amem,
             mmem := (aluFinish op f m r s).mmem, q := (aluFinish op f m r s).q } := by
  unfold aluFinish; simp only []; rw [writeDest_frame]

@[simp] theorem aluFinish_cfg (op : BitVec 6) (f : AluFields) (m : Word) (r : AluResult) (s : State) : (aluFinish op f m r s).cfg = s.cfg :=
  (congrArg State.cfg (aluFinish_frame op f m r s) :)
@[simp] theorem aluFinish_npc (op : BitVec 6) (f : AluFields) (m : Word) (r : AluResult) (s : State) : (aluFinish op f m r s).npc = s.npc :=
  (congrArg State.npc (aluFinish_frame op f m r s) :)
@[simp] theorem aluFinish_p0 (op : BitVec 6) (f : AluFields) (m : Word) (r : AluResult) (s : State) : (aluFinish op f m r s).p0 = s.p0 :=
  (congrArg State.p0 (aluFinish_frame op f m r s) :)
@[simp] theorem aluFinish_p1 (op : BitVec 6) (f : AluFields) (m : Word) (r : AluResult) (s : State) : (aluFinish op f m r s).p1 = s.p1 :=
  (congrArg State.p1 (aluFinish_frame op f m r s) :)
@[simp] theorem aluFinish_p0pc (op : BitVec 6) (f : AluFields) (m : Word) (r : AluResult) (s : State) : (aluFinish op f m r s).p0pc = s.p0pc :=
  (congrArg State.p0pc (aluFinish_frame op f m r s) :)
@[simp] theorem aluFinish_p1pc (op : BitVec 6) (f : AluFields) (m : Word) (r : AluResult) (s : State) : (aluFinish op f m r s).p1pc = s.p1pc :=
  (congrArg State.p1pc (aluFinish_frame op f m r s) :)
@[simp] theorem aluFinish_inhibit (op : BitVec 6) (f : AluFields) (m : Word) (r : AluResult) (s : State) : (aluFinish op f m r s).inhibit = s.inhibit :=
  (congrArg State.inhibit (aluFinish_frame op f m r s) :)
@[simp] theorem aluFinish_halted (op : BitVec 6) (f : AluFields) (m : Word) (r : AluResult) (s : State) : (aluFinish op f m r s).halted = s.halted :=
  (congrArg State.halted (aluFinish_frame op f m r s) :)
@[simp] theorem aluFinish_dc (op : BitVec 6) (f : AluFields) (m : Word) (r : AluResult) (s : State) : (aluFinish op f m r s).dc = s.dc :=
  (congrArg State.dc (aluFinish_frame op f m r s) :)
@[simp] theorem aluFinish_dmem (op : BitVec 6) (f : AluFields) (m : Word) (r : AluResult) (s : State) : (aluFinish op f m r s).dmem = s.dmem :=
  (congrArg State.dmem (aluFinish_frame op f m r s) :)
@[simp] theorem aluFinish_imem (op : BitVec 6) (f : AluFields) (m : Word) (r : AluResult) (s : State) : (aluFinish op f m r s).imem = s.imem :=
  (congrArg State.imem (aluFinish_frame op f m r s) :)
@[simp] theorem aluFinish_prom (op : BitVec 6) (f : AluFields) (m : Word) (r : AluResult) (s : State) : (aluFinish op f m r s).prom = s.prom :=
  (congrArg State.prom (aluFinish_frame op f m r s) :)
@[simp] theorem aluFinish_restored (op : BitVec 6) (f : AluFields) (m : Word) (r : AluResult) (s : State) : (aluFinish op f m r s).restored = s.restored :=
  (congrArg State.restored (aluFinish_frame op f m r s) :)
@[simp] theorem aluFinish_lcHist (op : BitVec 6) (f : AluFields) (m : Word) (r : AluResult) (s : State) : (aluFinish op f m r s).lcHist = s.lcHist :=
  (congrArg State.lcHist (aluFinish_frame op f m r s) :)
@[simp] theorem aluFinish_pcHist (op : BitVec 6) (f : AluFields) (m : Word) (r : AluResult) (s : State) : (aluFinish op f m r s).pcHist = s.pcHist :=
  (congrArg State.pcHist (aluFinish_frame op f m r s) :)

end Sys2Proof.Machine
end

