-- ==== Sys2Proof/Laws/Memory.lean ====
section
/-! SUPPORT. The laws of a memory: what a read gives after a write, and that every operation keeps the
canonical form and the bound on the addresses. The reads need no hypothesis on the form. -/

namespace Sys2Proof.Machine

variable {w : Nat}

@[simp] theorem Memory.read_nil (a : Nat) : Memory.read ([] : Memory w) a = 0#w := rfl

theorem Memory.read_cons (c : Nat × BitVec w) (m : Memory w) (a : Nat) :
    Memory.read (c :: m) a = if c.1 = a then c.2 else Memory.read m a := rfl

/-! ## Erase and insert -/

theorem Memory.read_erase_same (m : Memory w) (a : Nat) : Memory.read (Memory.erase m a) a = 0#w := by
  induction m with
  | nil => rfl
  | cons c m ih =>
    unfold Memory.erase at *
    by_cases h : c.1 = a
    · simp [h, ih]
    · simp [h, Memory.read_cons, ih]

theorem Memory.read_erase_other (m : Memory w) (a b : Nat) (hb : b ≠ a) :
    Memory.read (Memory.erase m a) b = Memory.read m b := by
  induction m with
  | nil => rfl
  | cons c m ih =>
    unfold Memory.erase at *
    by_cases h : c.1 = a
    · simp [h, Memory.read_cons, ih]
      intro hab; omega
    · simp [h, Memory.read_cons, ih]

theorem Memory.mem_insert (m : Memory w) (a : Nat) (v : BitVec w) (c : Nat × BitVec w) :
    c ∈ Memory.insert m a v ↔ c = (a, v) ∨ c ∈ m := by
  induction m with
  | nil => simp [Memory.insert]
  | cons d m ih =>
    unfold Memory.insert
    split
    · simp
    · simp only [List.mem_cons, ih]; tauto

theorem Memory.read_insert_same (m : Memory w) (a : Nat) (v : BitVec w) (h : ∀ c ∈ m, c.1 ≠ a) :
    Memory.read (Memory.insert m a v) a = v := by
  induction m with
  | nil => simp [Memory.insert, Memory.read_cons]
  | cons d m ih =>
    unfold Memory.insert
    split
    · simp [Memory.read_cons]
    · have hd : d.1 ≠ a := h d (by simp)
      rw [Memory.read_cons, if_neg hd]
      exact ih fun c hc => h c (by simp [hc])

theorem Memory.read_insert_other (m : Memory w) (a b : Nat) (v : BitVec w) (hb : b ≠ a) :
    Memory.read (Memory.insert m a v) b = Memory.read m b := by
  induction m with
  | nil =>
    simp only [Memory.insert, Memory.read_cons, Memory.read_nil, ite_eq_right_iff]
    intro h; omega
  | cons d m ih =>
    unfold Memory.insert
    split
    · have : ¬ a = b := by omega
      rw [Memory.read_cons, if_neg this]
    · rw [Memory.read_cons, Memory.read_cons, ih]

theorem Memory.erase_ne (m : Memory w) (a : Nat) : ∀ c ∈ Memory.erase m a, c.1 ≠ a := by
  intro c hc
  simp only [Memory.erase, List.mem_filter, bne_iff_ne] at hc
  exact hc.2

/-! ## Reads after a write -/

@[simp] theorem Memory.read_write_same (m : Memory w) (a : Nat) (v : BitVec w) :
    Memory.read (Memory.write m a v) a = v := by
  unfold Memory.write
  split
  · rename_i h; rw [Memory.read_erase_same, h]; rfl
  · exact Memory.read_insert_same _ _ _ (Memory.erase_ne m a)

theorem Memory.read_write_other (m : Memory w) (a b : Nat) (v : BitVec w) (hb : b ≠ a) :
    Memory.read (Memory.write m a v) b = Memory.read m b := by
  unfold Memory.write
  split
  · exact Memory.read_erase_other m a b hb
  · rw [Memory.read_insert_other _ _ _ _ hb, Memory.read_erase_other m a b hb]

/-- Everything a read after a write gives. -/
theorem Memory.read_write (m : Memory w) (a b : Nat) (v : BitVec w) :
    Memory.read (Memory.write m a v) b = if b = a then v else Memory.read m b := by
  split
  · rename_i h; rw [h, Memory.read_write_same]
  · rename_i h; exact Memory.read_write_other m a b v h

/-! ## The canonical form -/

theorem Memory.rising_cons (c : Nat × BitVec w) (m : Memory w) :
    Memory.rising (c :: m) = true ↔ (∀ d ∈ m, c.1 < d.1) ∧ Memory.rising m = true := by
  simp [Memory.rising]

theorem Memory.rising_filter (m : Memory w) (p : Nat × BitVec w → Bool) (h : Memory.rising m = true) :
    Memory.rising (m.filter p) = true := by
  induction m with
  | nil => rfl
  | cons c m ih =>
    rw [Memory.rising_cons] at h
    by_cases hp : p c = true
    · rw [List.filter_cons_of_pos hp, Memory.rising_cons]
      exact ⟨fun d hd => h.1 d (List.mem_filter.mp hd).1, ih h.2⟩
    · rw [List.filter_cons_of_neg hp]; exact ih h.2

theorem Memory.rising_insert (m : Memory w) (a : Nat) (v : BitVec w) (h : Memory.rising m = true)
    (ha : ∀ c ∈ m, c.1 ≠ a) : Memory.rising (Memory.insert m a v) = true := by
  induction m with
  | nil => rfl
  | cons d m ih =>
    rw [Memory.rising_cons] at h
    have hd : d.1 ≠ a := ha d (by simp)
    unfold Memory.insert
    split
    · rename_i hlt
      rw [Memory.rising_cons]
      refine ⟨?_, Memory.rising_cons d m |>.mpr h⟩
      intro c hc
      rcases List.mem_cons.mp hc with rfl | hc
      · exact hlt
      · exact Nat.lt_trans hlt (h.1 c hc)
    · rename_i hlt
      rw [Memory.rising_cons]
      refine ⟨?_, ih h.2 fun c hc => ha c (by simp [hc])⟩
      intro c hc
      rcases (Memory.mem_insert m a v c).mp hc with rfl | hc
      · show d.1 < a; omega
      · exact h.1 c hc

theorem Memory.rising_append (m n : Memory w) (hm : Memory.rising m = true) (hn : Memory.rising n = true)
    (h : ∀ c ∈ m, ∀ d ∈ n, c.1 < d.1) : Memory.rising (m ++ n) = true := by
  induction m with
  | nil => exact hn
  | cons c m ih =>
    rw [Memory.rising_cons] at hm
    rw [List.cons_append, Memory.rising_cons]
    refine ⟨?_, ih hm.2 fun d hd => h d (by simp [hd])⟩
    intro d hd
    rcases List.mem_append.mp hd with hd | hd
    · exact hm.1 d hd
    · exact h c (by simp) d hd

theorem Memory.wf_iff (m : Memory w) :
    Memory.wf m = true ↔ Memory.rising m = true ∧ ∀ c ∈ m, c.2 ≠ 0#w := by
  simp [Memory.wf, Memory.unlisted]

theorem Memory.below_iff (cap : Nat) (m : Memory w) :
    Memory.below cap m = true ↔ ∀ c ∈ m, c.1 < cap := by
  simp [Memory.below]

/-- A good memory: rising addresses, no zero listed, every address below the capacity. -/
theorem Memory.good_iff (cap : Nat) (m : Memory w) :
    Memory.good cap m = true ↔ Memory.rising m = true ∧ (∀ c ∈ m, c.2 ≠ 0#w) ∧ ∀ c ∈ m, c.1 < cap := by
  simp [Memory.good, Memory.wf_iff, Memory.below_iff, and_assoc]

@[simp] theorem Memory.good_nil (cap : Nat) : Memory.good cap ([] : Memory w) = true := rfl

/-- A write keeps the canonical form. -/
theorem Memory.wf_write (m : Memory w) (a : Nat) (v : BitVec w) (h : Memory.wf m = true) :
    Memory.wf (Memory.write m a v) = true := by
  rw [Memory.wf_iff] at *
  unfold Memory.write
  split
  · exact ⟨Memory.rising_filter m _ h.1, fun c hc => h.2 c (List.mem_filter.mp hc).1⟩
  · rename_i hv
    refine ⟨Memory.rising_insert _ _ _ (Memory.rising_filter m _ h.1) (Memory.erase_ne m a), ?_⟩
    intro c hc
    rcases (Memory.mem_insert _ _ _ _).mp hc with rfl | hc
    · exact hv
    · exact h.2 c (List.mem_filter.mp hc).1

/-- What a write can list: the written word, or what was listed before at another address. -/
theorem Memory.mem_write (m : Memory w) (a : Nat) (v : BitVec w) (c : Nat × BitVec w)
    (hc : c ∈ Memory.write m a v) : c = (a, v) ∨ (c ∈ m ∧ c.1 ≠ a) := by
  unfold Memory.write at hc
  split at hc
  · exact .inr ⟨(List.mem_filter.mp hc).1, Memory.erase_ne m a c hc⟩
  · rcases (Memory.mem_insert _ _ _ _).mp hc with h | h
    · exact .inl h
    · exact .inr ⟨(List.mem_filter.mp h).1, Memory.erase_ne m a c h⟩

/-- A write below the capacity keeps the memory good. -/
theorem Memory.good_write (cap : Nat) (m : Memory w) (a : Nat) (v : BitVec w)
    (h : Memory.good cap m = true) (ha : a < cap) : Memory.good cap (Memory.write m a v) = true := by
  simp only [Memory.good, Bool.and_eq_true] at *
  refine ⟨Memory.wf_write m a v h.1, (Memory.below_iff _ _).mpr ?_⟩
  intro c hc
  rcases Memory.mem_write m a v c hc with rfl | hc
  · exact ha
  · exact (Memory.below_iff _ _).mp h.2 c hc.1

/-! ## Memories from lists of words -/

theorem Memory.ofWords_bounds (a : Nat) (ws : List (BitVec w)) :
    ∀ c ∈ Memory.ofWords a ws, a ≤ c.1 ∧ c.1 < a + ws.length ∧ c.2 ≠ 0#w := by
  induction ws generalizing a with
  | nil => simp [Memory.ofWords]
  | cons x ws ih =>
    intro c hc
    unfold Memory.ofWords at hc
    split at hc
    · have := ih (a + 1) c hc
      exact ⟨by omega, by simp only [List.length_cons]; omega, this.2.2⟩
    · rename_i hx
      rcases List.mem_cons.mp hc with rfl | hc
      · simp only [List.length_cons]; exact ⟨Nat.le_refl a, by omega, hx⟩
      · have := ih (a + 1) c hc
        exact ⟨by omega, by simp only [List.length_cons]; omega, this.2.2⟩

theorem Memory.rising_ofWords (a : Nat) (ws : List (BitVec w)) :
    Memory.rising (Memory.ofWords a ws) = true := by
  induction ws generalizing a with
  | nil => rfl
  | cons x ws ih =>
    unfold Memory.ofWords
    split
    · exact ih (a + 1)
    · rw [Memory.rising_cons]
      exact ⟨fun d hd => (Memory.ofWords_bounds (a + 1) ws d hd).1, ih (a + 1)⟩

/-- A memory made from words is in canonical form and lists nothing beyond them. -/
theorem Memory.good_ofWords (cap : Nat) (ws : List (BitVec w)) (h : ws.length ≤ cap) :
    Memory.good cap (Memory.ofWords 0 ws) = true := by
  rw [Memory.good_iff]
  refine ⟨Memory.rising_ofWords 0 ws, fun c hc => (Memory.ofWords_bounds 0 ws c hc).2.2, ?_⟩
  intro c hc
  have := (Memory.ofWords_bounds 0 ws c hc).2.1
  omega

theorem Memory.read_of_lt (m : Memory w) (a : Nat) (h : ∀ c ∈ m, a < c.1) : Memory.read m a = 0#w := by
  induction m with
  | nil => rfl
  | cons c m ih =>
    have hc : a < c.1 := h c (by simp)
    rw [Memory.read_cons, if_neg (by omega)]
    exact ih fun d hd => h d (by simp [hd])

/-- A memory made from words reads as those words, and as 0 past them. -/
theorem Memory.read_ofWords (a : Nat) (ws : List (BitVec w)) (i : Nat) :
    Memory.read (Memory.ofWords a ws) (a + i) = ws.getD i 0#w := by
  induction ws generalizing a i with
  | nil => simp [Memory.ofWords]
  | cons x ws ih =>
    have hlow : ∀ c ∈ Memory.ofWords (a + 1) ws, a < c.1 :=
      fun c hc => (Memory.ofWords_bounds (a + 1) ws c hc).1
    cases i with
    | zero =>
      unfold Memory.ofWords
      split
      · rename_i hx; rw [hx]; exact Memory.read_of_lt _ _ hlow
      · simp [Memory.read_cons]
    | succ i =>
      have key : Memory.read (Memory.ofWords (a + 1) ws) (a + (i + 1)) = ws.getD i 0#w := by
        have := ih (a + 1) i
        rwa [Nat.add_assoc, Nat.add_comm 1 i] at this
      unfold Memory.ofWords
      split
      · simpa using key
      · rw [Memory.read_cons, if_neg (by omega)]; simpa using key

/-- Two memories in canonical form that read alike are equal. -/
theorem Memory.ext_read (m n : Memory w) (hm : Memory.wf m = true) (hn : Memory.wf n = true)
    (h : ∀ a, Memory.read m a = Memory.read n a) : m = n := by
  rw [Memory.wf_iff] at hm hn
  induction m generalizing n with
  | nil =>
    cases n with
    | nil => rfl
    | cons d n =>
      have := h d.1
      rw [Memory.read_cons, if_pos rfl] at this
      exact absurd this.symm (hn.2 d (by simp))
  | cons c m ih =>
    cases n with
    | nil =>
      have := h c.1
      rw [Memory.read_cons, if_pos rfl] at this
      exact absurd this (hm.2 c (by simp))
    | cons d n =>
      have hm1 := (Memory.rising_cons c m).mp hm.1
      have hn1 := (Memory.rising_cons d n).mp hn.1
      have hkey : c.1 = d.1 := by
        by_contra hne
        rcases Nat.lt_or_gt_of_ne hne with hlt | hlt
        · have e := h c.1
          rw [Memory.read_cons, if_pos rfl, Memory.read_cons, if_neg (by omega),
            Memory.read_of_lt n c.1 fun x hx => Nat.lt_trans hlt (hn1.1 x hx)] at e
          exact hm.2 c (by simp) e
        · have e := h d.1
          rw [Memory.read_cons, if_neg (by omega), Memory.read_cons, if_pos rfl,
            Memory.read_of_lt m d.1 fun x hx => Nat.lt_trans hlt (hm1.1 x hx)] at e
          exact hn.2 d (by simp) e.symm
      have hval : c.2 = d.2 := by
        have e := h c.1
        rwa [Memory.read_cons, if_pos rfl, Memory.read_cons, if_pos hkey.symm] at e
      have htail : m = n := by
        refine ih n ⟨hm1.2, fun x hx => hm.2 x (by simp [hx])⟩ ⟨hn1.2, fun x hx => hn.2 x (by simp [hx])⟩ ?_
        intro a
        by_cases ha : a = c.1
        · rw [ha, Memory.read_of_lt m _ hm1.1, Memory.read_of_lt n _ (by rw [hkey]; exact hn1.1)]
        · have e := h a
          rwa [Memory.read_cons, if_neg (by omega), Memory.read_cons, if_neg (by omega)] at e
      rw [htail, Prod.ext hkey hval]

/-! ## Rings -/

/-- A record keeps a ring good. -/
theorem Ring.good_record (cap : Nat) (r : Ring) (x : Word) (h : Ring.good cap r = true) :
    Ring.good cap (Ring.record cap r x) = true := by
  unfold Ring.record
  split
  · exact h
  · rename_i hc
    have hpos : 0 < cap := Nat.pos_of_ne_zero hc
    simp only [Ring.good, Bool.and_eq_true, Bool.or_eq_true, beq_iff_eq, decide_eq_true_eq] at *
    refine ⟨.inr (Nat.mod_lt _ hpos), Memory.good_write cap _ _ _ h.2 ?_⟩
    omega

@[simp] theorem Ring.record_zero (r : Ring) (x : Word) : Ring.record 0 r x = r := rfl

end Sys2Proof.Machine
end

