-- ==== Sys2Proof/Laws/Ops.lean ====
section
/-! SUPPORT. What each shared operation does to the fields it may change: one lemma per operation and field
that says everything it can do, to be cited instead of unfolding the operation. -/

namespace Sys2Proof.Machine

/-! ## Words -/

/-- The rotate of R11, bit by bit: bit `i` comes from bit `i - n` modulo 32. -/
theorem getLsbD_rotl32 (x : Word) (n : BitVec 5) (i : Nat) (hi : i < 32) :
    (rotl32 x n).getLsbD i = x.getLsbD ((i + 32 - n.toNat) % 32) := by
  have hn : n.toNat < 32 := n.isLt
  unfold rotl32
  simp only [BitVec.getLsbD_or, BitVec.getLsbD_shiftLeft, BitVec.getLsbD_ushiftRight, hi, decide_true,
    Bool.true_and]
  by_cases h : i < n.toNat
  · have e1 : (i + 32 - n.toNat) % 32 = 32 - n.toNat + i := by omega
    simp [h, e1]
  · have e1 : (i + 32 - n.toNat) % 32 = i - n.toNat := by omega
    have e2 : 32 ≤ 32 - n.toNat + i := by omega
    simp [h, e1, BitVec.getLsbD_of_ge x _ e2]

theorem getLsbD_bitWord (b : Bool) (i : Nat) : (bitWord b).getLsbD i = (decide (i = 0) && b) := by
  cases b <;> by_cases h : i = 0 <;> simp [bitWord, h]

/-! ## Physical memory and translation -/

theorem physAddr_lt (n : Nat) (pn : Word) (off : BitVec 8) (h : pn.toNat < n) :
    physAddr pn off < n * pageWords := by
  have := off.isLt
  simp only [physAddr, pageWords] at *
  omega

theorem physAddr_div (pn : Word) (off : BitVec 8) : physAddr pn off / pageWords = pn.toNat := by
  have := off.isLt
  simp only [physAddr, pageWords] at *
  omega

/-- A translation reads nothing but the configuration and the two tables. -/
theorem translateAddr_congr (v : Word) (s t : State) (h : t.cfg = s.cfg) (h1 : t.l1 = s.l1)
    (h2 : t.l2 = s.l2) : translateAddr v t = translateAddr v s := by
  simp only [translateAddr, l1Value, h, h1, h2]

/-- Where a write to an address is stored depends on nothing but the configuration and the two tables. -/
theorem storeAddr_congr (v : Word) (s t : State) (h : t.cfg = s.cfg) (h1 : t.l1 = s.l1) (h2 : t.l2 = s.l2) :
    storeAddr v t = storeAddr v s := by
  simp only [storeAddr, translateAddr_congr v s t h h1 h2, h]

/-- Every physical word a write can reach lies within the budget. -/
theorem storeAddr_lt (v : Word) (s : State) (a : Nat) (h : storeAddr v s = some a) :
    a < s.cfg.ramPages * pageWords := by
  simp only [storeAddr] at h
  split at h
  · rename_i hc
    cases h
    exact physAddr_lt _ _ _ hc.2.2.2.2
  · cases h

/-! ## Devices -/

/-- A write to the bus page cannot change the bits of `INTSTAT` that are not writable. -/
theorem busEffect_intstat (off : BitVec 24) (x : Word) (s : State) :
    (busEffect off x s).intstat &&& ~~~s.cfg.isWritable = s.intstat &&& ~~~s.cfg.isWritable := by
  have key : ∀ y : Word, (y &&& ~~~s.cfg.isWritable ||| x &&& s.cfg.isWritable) &&& ~~~s.cfg.isWritable
      = y &&& ~~~s.cfg.isWritable := by
    intro y
    ext i hi
    simp only [BitVec.getElem_and, BitVec.getElem_or, BitVec.getElem_not]
    cases y[i] <;> cases x[i] <;> cases s.cfg.isWritable[i] <;> rfl
  unfold busEffect
  simp only []
  split <;> split <;> first | rfl | exact key _

/-- A write to the bus page can clear `PROM_EN` and never sets it. -/
theorem busEffect_promEn (off : BitVec 24) (x : Word) (s : State) (h : s.promEn = false) :
    (busEffect off x s).promEn = false := by
  unfold busEffect
  simp only []
  split <;> split <;> first | rfl | exact h

theorem devWrite_intstat (dev : Device) (off : BitVec 24) (x : Word) (s : State) :
    (devWrite dev off x s).intstat &&& ~~~s.cfg.isWritable = s.intstat &&& ~~~s.cfg.isWritable := by
  unfold devWrite
  split
  · exact busEffect_intstat off x { s with trace := _ }
  · rfl

theorem devWrite_promEn (dev : Device) (off : BitVec 24) (x : Word) (s : State) (h : s.promEn = false) :
    (devWrite dev off x s).promEn = false := by
  unfold devWrite
  split
  · exact busEffect_promEn _ _ _ h
  · exact h

/-- A device write appends its event to the trace. -/
theorem devWrite_trace (dev : Device) (off : BitVec 24) (x : Word) (s : State) :
    (devWrite dev off x s).trace = s.trace ++ [⟨dev, off, x⟩] := by
  unfold devWrite
  simp only []
  split
  · simp only [busEffect_trace]
  · rfl

/-! ## Virtual accesses -/

/-- A virtual read creates at most the page it reads. -/
theorem memRead_pages (v : Word) (s : State) :
    (memRead v s).2.pages = s.pages ∨
      ∃ pn : Word, pn.toNat < s.cfg.ramPages ∧ (memRead v s).2.pages = Memory.write s.pages pn.toNat 1#1 := by
  unfold memRead
  simp only []
  split
  · left; simp
  · split
    · left; rfl
    · split
      · left; simp
      · split
        · rename_i h; right; exact ⟨_, h, rfl⟩
        · left; rfl

/-- A virtual write stores its word where `storeAddr` says, and nowhere if it says nothing. -/
theorem memWrite_pmem (v x : Word) (s : State) :
    (memWrite v x s).pmem =
      match storeAddr v s with
      | some a => Memory.write s.pmem a x
      | none => s.pmem := by
  have e : translateAddr v (clearFaults s) = translateAddr v s := translateAddr_congr v s _ rfl rfl rfl
  unfold memWrite storeAddr
  simp only [e]
  split
  · rename_i h; simp [h]
  · split
    · rename_i h; simp [h]
    · split
      · rename_i h; simp [h]
      · split
        · rename_i h; simp [h]
        · split
          · rename_i h1 h2 h3 _ h4 h5
            simp only [Bool.not_eq_true, Bool.not_eq_false] at h1 h2 h3
            simp [h1, h2, h3, h4, h5]
          · rename_i h5; simp [h5]

/-- A virtual write creates at most the page it stores to. -/
theorem memWrite_pages (v x : Word) (s : State) :
    (memWrite v x s).pages =
      match storeAddr v s with
      | some a => Memory.write s.pages (a / pageWords) 1#1
      | none => s.pages := by
  have e : translateAddr v (clearFaults s) = translateAddr v s := translateAddr_congr v s _ rfl rfl rfl
  unfold memWrite storeAddr
  simp only [e]
  split
  · rename_i h; simp [h]
  · split
    · rename_i h; simp [h]
    · split
      · rename_i h; simp [h]
      · split
        · rename_i h; simp [h]
        · split
          · rename_i h1 h2 h3 _ h4 h5
            simp only [Bool.not_eq_true, Bool.not_eq_false] at h1 h2 h3
            simp [h1, h2, h3, h4, h5, physAddr_div]
          · rename_i h5; simp [h5]

theorem memWrite_intstat (v x : Word) (s : State) :
    (memWrite v x s).intstat &&& ~~~s.cfg.isWritable = s.intstat &&& ~~~s.cfg.isWritable := by
  unfold memWrite
  simp only []
  split
  · exact devWrite_intstat ..
  · split
    · rfl
    · split
      · rfl
      · split
        · exact devWrite_intstat ..
        · split <;> rfl

theorem memWrite_promEn (v x : Word) (s : State) (h : s.promEn = false) :
    (memWrite v x s).promEn = false := by
  unfold memWrite
  simp only []
  split
  · exact devWrite_promEn _ _ _ _ h
  · split
    · exact h
    · split
      · exact h
      · split
        · exact devWrite_promEn _ _ _ _ h
        · split <;> exact h

/-- A virtual write appends at most one event to the trace. -/
theorem memWrite_trace (v x : Word) (s : State) :
    (memWrite v x s).trace = s.trace ∨ ∃ dev off, (memWrite v x s).trace = s.trace ++ [⟨dev, off, x⟩] := by
  unfold memWrite
  simp only []
  split
  · exact .inr ⟨_, _, devWrite_trace ..⟩
  · split
    · exact .inl rfl
    · split
      · exact .inl rfl
      · split
        · exact .inr ⟨_, _, devWrite_trace ..⟩
        · split <;> exact .inl rfl

/-- A started read: the data of the read, two steps to go. -/
@[simp] theorem issueRead_rdValue (v : Word) (s : State) : (issueRead v s).rdValue = (memRead v s).1 := rfl
@[simp] theorem issueRead_rdDelay (v : Word) (s : State) : (issueRead v s).rdDelay = 2 := rfl
@[simp] theorem issueRead_pages (v : Word) (s : State) : (issueRead v s).pages = (memRead v s).2.pages := rfl

/-! ## The map write -/

theorem writeMap_l1 (s : State) :
    (writeMap s).l1 =
      if s.vma.getLsbD 26 then Memory.write s.l1 (l1Index s.md).toNat ((s.vma.extractLsb' 27 5).setWidth 32)
      else s.l1 := by
  unfold writeMap
  simp only []
  split <;> split <;> rfl

/-- The block of the L2 write is the one the L1 write of the same operation has just selected. -/
theorem writeMap_l2 (s : State) :
    (writeMap s).l2 =
      if s.vma.getLsbD 25 then
        Memory.write s.l2
          (l2Index (if s.vma.getLsbD 26 then s.vma.extractLsb' 27 5 else l1Value s.md s) s.md).toNat
          (s.vma &&& 0o77777777#32)
      else s.l2 := by
  have e : ∀ b : BitVec 5, (b.setWidth 32).setWidth 5 = b := by decide
  unfold writeMap l1Value
  simp only []
  cases s.vma.getLsbD 26 <;> cases s.vma.getLsbD 25 <;> simp [e]

/-! ## The location counter and returns -/

/-- The need-fetch bit that an advance leaves (R336 statement 4). -/
def lcLast (s : State) : Bool := !(byteMode s && (lcNext s).getLsbD 0) && !(lcNext s).getLsbD 1

/-- An advance with the word already fetched changes `LC` and nothing else, and asks for the skip. -/
theorem lcAdvance_no_fetch (s : State) (h : s.lc.getLsbD 31 = false) :
    lcAdvance s = ({ s with lc := lcWord (lcLast s) (lcNext s) }, true) := by
  unfold lcAdvance
  simp only [h]
  rfl

/-- An advance that needs the word starts the read of it. -/
theorem lcAdvance_fetch (s : State) (h : s.lc.getLsbD 31 = true) :
    lcAdvance s =
      ({ issueRead (((s.lc.setWidth 26 : BitVec 26) >>> 2).setWidth 32)
          { s with vma := ((s.lc.setWidth 26 : BitVec 26) >>> 2).setWidth 32 } with
          lc := lcWord (lcLast s) (lcNext s)
          lcHist := Ring.record s.cfg.lcHistN s.lcHist s.lc }, false) := by
  unfold lcAdvance
  simp only [h, if_true, issueRead_lcHist]
  rfl

@[simp] theorem lcAdvance_lc (s : State) : (lcAdvance s).1.lc = lcWord (lcLast s) (lcNext s) := rfl

@[simp] theorem lcAdvance_skip (s : State) : (lcAdvance s).2 = !s.lc.getLsbD 31 := rfl

/-- An advance that needs the word records the old counter (R336). -/
theorem lcAdvance_lcHist (s : State) :
    (lcAdvance s).1.lcHist =
      if s.lc.getLsbD 31 then Ring.record s.cfg.lcHistN s.lcHist s.lc else s.lcHist := by
  cases h : s.lc.getLsbD 31
  · rw [lcAdvance_no_fetch s h]; rfl
  · rw [lcAdvance_fetch s h]; rfl

/-- An advance creates at most the page it fetches from. -/
theorem lcAdvance_pages (s : State) :
    (lcAdvance s).1.pages = s.pages ∨
      ∃ pn : Word, pn.toNat < s.cfg.ramPages ∧ (lcAdvance s).1.pages = Memory.write s.pages pn.toNat 1#1 := by
  by_cases h : s.lc.getLsbD 31 = true
  · rw [lcAdvance_fetch s h]
    exact memRead_pages _ { s with vma := _ }
  · rw [lcAdvance_no_fetch s (by simpa using h)]
    exact .inl rfl

/-- Bits 30:26 of a counter word are 0. -/
theorem lcWord_middle (nf : Bool) (c : BitVec 26) : (lcWord nf c).extractLsb' 26 5 = 0#5 := by
  apply BitVec.eq_of_getLsbD_eq
  intro i hi
  have h1 : ¬ 26 + i < 26 := by omega
  have h := BitVec.getLsbD_append (x := BitVec.ofBool nf ++ 0#5) (y := c) (i := 26 + i)
  have h2 := BitVec.getLsbD_append (x := BitVec.ofBool nf) (y := 0#5) (i := i)
  rw [if_neg h1, Nat.add_sub_cancel_left, h2, if_pos hi] at h
  rw [BitVec.getLsbD_extractLsb', BitVec.getLsbD_zero, decide_eq_true hi, Bool.true_and]
  rw [BitVec.getLsbD_zero] at h
  exact h

/-- A return of an entry without bit 14. -/
theorem popReturn_plain (s : State) (h : (spcTop s).getLsbD 14 = false) :
    popReturn s = ((spcTop s).setWidth 14, (spcPop s).2) := by
  simp only [popReturn, spcPop, h, Bool.false_eq_true, if_false]

/-- A return of an entry with bit 14: the location counter advances. -/
theorem popReturn_advance (s : State) (h : (spcTop s).getLsbD 14 = true) :
    popReturn s =
      ((if s.lc.getLsbD 31 then spcTop s else spcTop s ||| 2#32).setWidth 14, (lcAdvance (spcPop s).2).1) := by
  have e : popReturn s =
      ((if (lcAdvance (spcPop s).2).2 then spcTop s ||| 2#32 else spcTop s).setWidth 14,
        (lcAdvance (spcPop s).2).1) := if_pos h
  rw [e, lcAdvance_skip, spcPop_lc]
  cases s.lc.getLsbD 31 <;> simp

@[simp] theorem popReturn_spcPtr (s : State) : (popReturn s).2.spcPtr = s.spcPtr - 1 := by
  by_cases h : (spcTop s).getLsbD 14 = true
  · rw [popReturn_advance s h]; simp
  · rw [popReturn_plain s (by simpa using h)]; simp

/-! ## Operands and destinations -/

/-- Where a destination stores in A-memory. -/
def destA : Dest → Nat
  | .amem a => destAddr a
  | .func _ m => m.toNat

/-- The A-memory after a destination write (R180). -/
theorem writeDest_amem (d : Dest) (v : Word) (s : State) :
    (writeDest d v s).amem = Memory.write s.amem (destA d) v := by
  cases d with
  | amem a => rfl
  | func i m => simp [writeDest, destA]

/-- The M-memory after a destination write (R180). -/
theorem writeDest_mmem (d : Dest) (v : Word) (s : State) :
    (writeDest d v s).mmem =
      match d with
      | .amem _ => s.mmem
      | .func _ m => Memory.write s.mmem m.toNat v := by
  cases d with
  | amem a => rfl
  | func i m => simp [writeDest]

theorem destA_lt (d : Dest) : destA d < 1024 := by
  cases d with
  | amem a => exact Nat.mod_lt _ (by decide)
  | func i m => have := m.isLt; simp only [destA]; omega

/-- The stack pointer after the M operand read (R174). -/
theorem readM_spcPtr (m : MSource) (s : State) :
    (readM m s).2.spcPtr = if m = .func 0o14#5 then s.spcPtr - 1 else s.spcPtr := by
  cases m with
  | mem k => rfl
  | func i =>
    have h : ∀ i : BitVec 5, (readSource (funcSource i) s).2.spcPtr
        = if i = 0o14#5 then s.spcPtr - 1 else s.spcPtr := by
      intro i
      have hi : i = 0o14#5 ∨ funcSource i ≠ .spcPop := by revert i; decide
      rcases hi with rfl | hi
      · rfl
      · rw [if_neg (by rintro rfl; exact hi rfl)]
        revert hi
        cases funcSource i <;> intro hi <;> first | rfl | exact absurd rfl hi
    simpa [readM] using h i

/-- The PDL pointer after the M operand read (R175). -/
theorem readM_pdlPtr (m : MSource) (s : State) :
    (readM m s).2.pdlPtr = if m = .func 0o24#5 then s.pdlPtr - 1 else s.pdlPtr := by
  cases m with
  | mem k => rfl
  | func i =>
    have h : ∀ i : BitVec 5, (readSource (funcSource i) s).2.pdlPtr
        = if i = 0o24#5 then s.pdlPtr - 1 else s.pdlPtr := by
      intro i
      have hi : i = 0o24#5 ∨ funcSource i ≠ .pdlPop := by revert i; decide
      rcases hi with rfl | hi
      · rfl
      · rw [if_neg (by rintro rfl; exact hi rfl)]
        revert hi
        cases funcSource i <;> intro hi <;> first | rfl | exact absurd rfl hi
    simpa [readM] using h i

/-- The PDL-action ring after the M operand read: only the PDL pop records (R179). -/
theorem readM_pdlHist (m : MSource) (s : State) :
    (readM m s).2.pdlHist =
      if m = .func 0o24#5 then
        Ring.record s.cfg.pdlHistN s.pdlHist (Config.pdlHistEntry .pop s.pdlPtr (pdlTop s))
      else s.pdlHist := by
  cases m with
  | mem k => rfl
  | func i =>
    have hi : i = 0o24#5 ∨ funcSource i ≠ .pdlPop := by revert i; decide
    rcases hi with rfl | hi
    · rfl
    · rw [if_neg (by rintro ⟨⟩; exact hi rfl)]
      simp only [readM]
      revert hi
      cases funcSource i <;> intro hi <;> first | rfl | exact absurd rfl hi

/-- The PDL-action ring after a functional destination: only the PDL push records (R179). -/
theorem writeFunc_pdlHist (d : FuncDest) (v : Word) (s : State) :
    (writeFunc d v s).pdlHist =
      if d = .pdlPush then
        Ring.record s.cfg.pdlHistN s.pdlHist (Config.pdlHistEntry .push (s.pdlPtr + 1) v)
      else s.pdlHist := by
  cases d with
  | vma st => simp [writeFunc]
  | md st => simp [writeFunc]
  | _ => simp [writeFunc]

end Sys2Proof.Machine
end

