-- ==== Sys2Proof/Laws/Invariant.lean ====
section
/-! SUPPORT. The shared operations keep the machine's invariant (`Inv` of Safety.lean). -/

namespace Sys2Proof.Machine

variable {s : State}

/-! ## The parts of the invariant that are not a memory alone -/

theorem created_iff (m : Memory 32) (g : Memory 1) :
    m.all (fun c => Memory.read g (c.1 / pageWords) == 1#1) = true ↔
      ∀ c ∈ m, Memory.read g (c.1 / pageWords) = 1#1 := by
  simp

/-- Creating a page keeps every page that exists. -/
theorem created_touch (m : Memory 32) (g : Memory 1) (p : Nat)
    (h : m.all (fun c => Memory.read g (c.1 / pageWords) == 1#1) = true) :
    m.all (fun c => Memory.read (Memory.write g p 1#1) (c.1 / pageWords) == 1#1) = true := by
  rw [created_iff] at *
  intro c hc
  rw [Memory.read_write]
  split
  · rfl
  · exact h c hc

/-- A store together with the creation of its page keeps every listed word inside a page that exists. -/
theorem created_write (m : Memory 32) (g : Memory 1) (a : Nat) (x : Word)
    (h : m.all (fun c => Memory.read g (c.1 / pageWords) == 1#1) = true) :
    (Memory.write m a x).all
      (fun c => Memory.read (Memory.write g (a / pageWords) 1#1) (c.1 / pageWords) == 1#1) = true := by
  rw [created_iff] at *
  intro c hc
  rw [Memory.read_write]
  split
  · rfl
  · rename_i hne
    rcases Memory.mem_write m a x c hc with rfl | hc
    · exact absurd rfl hne
    · exact h c hc.1

/-- Changing only bits of `INTSTAT` that some rule can set keeps the other bits 0. -/
theorem intstat_keep (c : Config) (x y : Word) (h : x &&& ~~~c.isWritable = y &&& ~~~c.isWritable)
    (hy : y &&& ~~~intstatBits c = 0#32) : x &&& ~~~intstatBits c = 0#32 := by
  have e : ~~~intstatBits c = ~~~c.isWritable &&& ~~~intstatBits c := by
    ext i hi
    simp only [intstatBits, BitVec.getElem_and, BitVec.getElem_or, BitVec.getElem_not]
    cases c.isWritable[i] <;> simp
  rw [e, ← BitVec.and_assoc, h, BitVec.and_assoc, ← e, hy]

/-- The pages after at most one page has been created. -/
theorem pages_good (n : Nat) (g g' : Memory 1)
    (h : g' = g ∨ ∃ pn : Word, pn.toNat < n ∧ g' = Memory.write g pn.toNat 1#1)
    (hg : Memory.good n g = true) : Memory.good n g' = true := by
  rcases h with rfl | ⟨pn, hpn, rfl⟩
  · exact hg
  · exact Memory.good_write _ _ _ _ hg hpn

theorem pages_created (m : Memory 32) (n : Nat) (g g' : Memory 1)
    (h : g' = g ∨ ∃ pn : Word, pn.toNat < n ∧ g' = Memory.write g pn.toNat 1#1)
    (hg : m.all (fun c => Memory.read g (c.1 / pageWords) == 1#1) = true) :
    m.all (fun c => Memory.read g' (c.1 / pageWords) == 1#1) = true := by
  rcases h with rfl | ⟨pn, _, rfl⟩
  · exact hg
  · exact created_touch _ _ _ hg

/-! ## The operations -/

theorem Inv.devRead (h : Inv s) (dev : Device) (off : BitVec 24) : Inv (devRead dev off s).2 where
  cfg := by simpa using h.cfg
  amem := by simpa using h.amem
  mmem := by simpa using h.mmem
  spc := by simpa using h.spc
  pdl := by simpa using h.pdl
  dmem := by simpa using h.dmem
  imem := by simpa using h.imem
  prom := by simpa using h.prom
  l1 := by simpa using h.l1
  l2 := by simpa using h.l2
  pmem := by simpa using h.pmem
  pages := by simpa using h.pages
  created := by simpa using h.created
  lc := by simpa using h.lc
  intstat := by simpa using h.intstat
  lcHist := by simpa using h.lcHist
  pcHist := by simpa using h.pcHist
  pdlHist := by simpa using h.pdlHist

theorem Inv.devWrite (h : Inv s) (dev : Device) (off : BitVec 24) (x : Word) : Inv (devWrite dev off x s) where
  cfg := by simpa using h.cfg
  amem := by simpa using h.amem
  mmem := by simpa using h.mmem
  spc := by simpa using h.spc
  pdl := by simpa using h.pdl
  dmem := by simpa using h.dmem
  imem := by simpa using h.imem
  prom := by simpa using h.prom
  l1 := by simpa using h.l1
  l2 := by simpa using h.l2
  pmem := by simpa using h.pmem
  pages := by simpa using h.pages
  created := by simpa using h.created
  lc := by simpa using h.lc
  intstat := by
    simpa using intstat_keep s.cfg _ _ (devWrite_intstat dev off x s) h.intstat
  lcHist := by simpa using h.lcHist
  pcHist := by simpa using h.pcHist
  pdlHist := by simpa using h.pdlHist

theorem Inv.memRead (h : Inv s) (v : Word) : Inv (memRead v s).2 where
  cfg := by simpa using h.cfg
  amem := by simpa using h.amem
  mmem := by simpa using h.mmem
  spc := by simpa using h.spc
  pdl := by simpa using h.pdl
  dmem := by simpa using h.dmem
  imem := by simpa using h.imem
  prom := by simpa using h.prom
  l1 := by simpa using h.l1
  l2 := by simpa using h.l2
  pmem := by simpa using h.pmem
  pages := by rw [memRead_cfg]; exact pages_good _ _ _ (memRead_pages v s) h.pages
  created := by
    simpa using pages_created _ _ _ _ (memRead_pages v s) h.created
  lc := by simpa using h.lc
  intstat := by simpa using h.intstat
  lcHist := by simpa using h.lcHist
  pcHist := by simpa using h.pcHist
  pdlHist := by simpa using h.pdlHist

theorem Inv.memWrite (h : Inv s) (v x : Word) : Inv (memWrite v x s) where
  cfg := by simpa using h.cfg
  amem := by simpa using h.amem
  mmem := by simpa using h.mmem
  spc := by simpa using h.spc
  pdl := by simpa using h.pdl
  dmem := by simpa using h.dmem
  imem := by simpa using h.imem
  prom := by simpa using h.prom
  l1 := by simpa using h.l1
  l2 := by simpa using h.l2
  pmem := by
    rw [memWrite_cfg, memWrite_pmem]
    split
    · rename_i a ha; exact Memory.good_write _ _ _ _ h.pmem (storeAddr_lt _ _ _ ha)
    · exact h.pmem
  pages := by
    rw [memWrite_cfg, memWrite_pages]
    split
    · rename_i a ha
      exact Memory.good_write _ _ _ _ h.pages (Nat.div_lt_of_lt_mul (Nat.mul_comm .. ▸ storeAddr_lt _ _ _ ha))
    · exact h.pages
  created := by
    rw [memWrite_pmem, memWrite_pages]
    split
    · exact created_write _ _ _ _ h.created
    · exact h.created
  lc := by simpa using h.lc
  intstat := by
    simpa using intstat_keep s.cfg _ _ (memWrite_intstat v x s) h.intstat
  lcHist := by simpa using h.lcHist
  pcHist := by simpa using h.pcHist
  pdlHist := by simpa using h.pdlHist

theorem Inv.issueRead (h : Inv s) (v : Word) : Inv (issueRead v s) where
  cfg := by simpa using h.cfg
  amem := by simpa using h.amem
  mmem := by simpa using h.mmem
  spc := by simpa using h.spc
  pdl := by simpa using h.pdl
  dmem := by simpa using h.dmem
  imem := by simpa using h.imem
  prom := by simpa using h.prom
  l1 := by simpa using h.l1
  l2 := by simpa using h.l2
  pmem := by simpa using h.pmem
  pages := (h.memRead v).pages
  created := by simpa using (h.memRead v).created
  lc := by simpa using h.lc
  intstat := by simpa using h.intstat
  lcHist := by simpa using h.lcHist
  pcHist := by simpa using h.pcHist
  pdlHist := by simpa using h.pdlHist

theorem Inv.writeMap (h : Inv s) : Inv (writeMap s) where
  cfg := by simpa using h.cfg
  amem := by simpa using h.amem
  mmem := by simpa using h.mmem
  spc := by simpa using h.spc
  pdl := by simpa using h.pdl
  dmem := by simpa using h.dmem
  imem := by simpa using h.imem
  prom := by simpa using h.prom
  l1 := by
    rw [writeMap_l1]
    split
    · exact Memory.good_write _ _ _ _ h.l1 (BitVec.isLt _)
    · exact h.l1
  l2 := by
    rw [writeMap_l2]
    split
    · exact Memory.good_write _ _ _ _ h.l2 (BitVec.isLt _)
    · exact h.l2
  pmem := by simpa using h.pmem
  pages := by simpa using h.pages
  created := by simpa using h.created
  lc := by simpa using h.lc
  intstat := by simpa using h.intstat
  lcHist := by simpa using h.lcHist
  pcHist := by simpa using h.pcHist
  pdlHist := by simpa using h.pdlHist

theorem Inv.spcPush (h : Inv s) (v : Word) : Inv (spcPush v s) where
  cfg := by simpa using h.cfg
  amem := by simpa using h.amem
  mmem := by simpa using h.mmem
  spc := Memory.good_write _ _ _ _ h.spc (BitVec.isLt _)
  pdl := by simpa using h.pdl
  dmem := by simpa using h.dmem
  imem := by simpa using h.imem
  prom := by simpa using h.prom
  l1 := by simpa using h.l1
  l2 := by simpa using h.l2
  pmem := by simpa using h.pmem
  pages := by simpa using h.pages
  created := by simpa using h.created
  lc := by simpa using h.lc
  intstat := by simpa using h.intstat
  lcHist := by simpa using h.lcHist
  pcHist := by simpa using h.pcHist
  pdlHist := by simpa using h.pdlHist

theorem Inv.spcPop (h : Inv s) : Inv (spcPop s).2 where
  cfg := by simpa using h.cfg
  amem := by simpa using h.amem
  mmem := by simpa using h.mmem
  spc := by simpa using h.spc
  pdl := by simpa using h.pdl
  dmem := by simpa using h.dmem
  imem := by simpa using h.imem
  prom := by simpa using h.prom
  l1 := by simpa using h.l1
  l2 := by simpa using h.l2
  pmem := by simpa using h.pmem
  pages := by simpa using h.pages
  created := by simpa using h.created
  lc := by simpa using h.lc
  intstat := by simpa using h.intstat
  lcHist := by simpa using h.lcHist
  pcHist := by simpa using h.pcHist
  pdlHist := by simpa using h.pdlHist

theorem Inv.pdlPush (h : Inv s) (v : Word) : Inv (pdlPush v s) where
  cfg := by simpa using h.cfg
  amem := by simpa using h.amem
  mmem := by simpa using h.mmem
  spc := by simpa using h.spc
  pdl := Memory.good_write _ _ _ _ h.pdl (BitVec.isLt _)
  dmem := by simpa using h.dmem
  imem := by simpa using h.imem
  prom := by simpa using h.prom
  l1 := by simpa using h.l1
  l2 := by simpa using h.l2
  pmem := by simpa using h.pmem
  pages := by simpa using h.pages
  created := by simpa using h.created
  lc := by simpa using h.lc
  intstat := by simpa using h.intstat
  lcHist := by simpa using h.lcHist
  pcHist := by simpa using h.pcHist
  pdlHist := by simpa using Ring.good_record _ _ _ h.pdlHist

theorem Inv.pdlPop (h : Inv s) : Inv (pdlPop s).2 where
  cfg := by simpa using h.cfg
  amem := by simpa using h.amem
  mmem := by simpa using h.mmem
  spc := by simpa using h.spc
  pdl := by simpa using h.pdl
  dmem := by simpa using h.dmem
  imem := by simpa using h.imem
  prom := by simpa using h.prom
  l1 := by simpa using h.l1
  l2 := by simpa using h.l2
  pmem := by simpa using h.pmem
  pages := by simpa using h.pages
  created := by simpa using h.created
  lc := by simpa using h.lc
  intstat := by simpa using h.intstat
  lcHist := by simpa using h.lcHist
  pcHist := by simpa using h.pcHist
  pdlHist := by simpa using Ring.good_record _ _ _ h.pdlHist

theorem Inv.lcAdvance (h : Inv s) : Inv (lcAdvance s).1 where
  cfg := by simpa using h.cfg
  amem := by simpa using h.amem
  mmem := by simpa using h.mmem
  spc := by simpa using h.spc
  pdl := by simpa using h.pdl
  dmem := by simpa using h.dmem
  imem := by simpa using h.imem
  prom := by simpa using h.prom
  l1 := by simpa using h.l1
  l2 := by simpa using h.l2
  pmem := by simpa using h.pmem
  pages := by rw [lcAdvance_cfg]; exact pages_good _ _ _ (lcAdvance_pages s) h.pages
  created := by simpa using pages_created _ _ _ _ (lcAdvance_pages s) h.created
  lc := by rw [lcAdvance_lc]; exact lcWord_middle _ _
  intstat := by simpa using h.intstat
  lcHist := by
    rw [lcAdvance_cfg, lcAdvance_lcHist]
    split
    · exact Ring.good_record _ _ _ h.lcHist
    · exact h.lcHist
  pcHist := by simpa using h.pcHist
  pdlHist := by simpa using h.pdlHist

theorem Inv.popReturn (h : Inv s) : Inv (popReturn s).2 := by
  cases e : (spcTop s).getLsbD 14
  · rw [popReturn_plain s e]; exact h.spcPop
  · rw [popReturn_advance s e]; exact h.spcPop.lcAdvance

theorem Inv.withNpc (h : Inv s) (a : BitVec 14) : Inv { s with npc := a } :=
  { h with }

theorem Inv.popjIf (h : Inv s) (flag : Bool) : Inv (popjIf flag s) := by
  cases flag
  · exact h
  · exact h.popReturn.withNpc _

theorem Inv.readM (h : Inv s) (m : MSource) : Inv (readM m s).2 := by
  cases m with
  | mem k => exact h
  | func i =>
    simp only [Machine.readM]
    cases funcSource i with
    | spcPop => exact h.spcPop
    | pdlPop => exact h.pdlPop
    | _ => exact h

theorem Inv.withVma (h : Inv s) (v : Word) : Inv { s with vma := v } := { h with }

theorem Inv.withMd (h : Inv s) (v : Word) : Inv { s with md := v } := { h with }

theorem Inv.withQ (h : Inv s) (v : Word) : Inv { s with q := v } := { h with }

theorem Inv.startAccess (h : Inv s) (start : Started) : Inv (startAccess start s) := by
  cases start with
  | nothing => exact h
  | read => exact h.issueRead _
  | write => exact h.memWrite _ _
  | map => exact h.writeMap

theorem Inv.writeFunc (h : Inv s) (d : FuncDest) (v : Word) : Inv (writeFunc d v s) := by
  cases d with
  | vma st => exact (h.withVma v).startAccess st
  | md st => exact (h.withMd v).startAccess st
  | pdlPush => exact h.pdlPush v
  | spcPush => exact h.spcPush v
  | lc => exact { h with lc := lcWord_middle _ _ }
  | pdlAtPtr => exact { h with pdl := Memory.good_write _ _ _ _ h.pdl (BitVec.isLt _) }
  | pdlAtIdx => exact { h with pdl := Memory.good_write _ _ _ _ h.pdl (BitVec.isLt _) }
  | _ => exact { h with }

theorem Inv.writeDest (h : Inv s) (d : Dest) (v : Word) : Inv (writeDest d v s) := by
  cases d with
  | amem a =>
    exact { h with amem := Memory.good_write _ _ _ _ h.amem (Nat.mod_lt _ (by decide)) }
  | func i m =>
    have h1 := h.writeFunc (destFunc i) v
    have hm : m.toNat < 1024 := Nat.lt_trans m.isLt (by decide)
    exact { h1 with
      mmem := Memory.good_write _ _ _ _ h1.mmem m.isLt
      amem := Memory.good_write _ _ _ _ h1.amem hm }

/-! ## The fetching state and the four units -/

/-- An allowed configuration has some instruction memory. -/
theorem configOk_imemSize_pos (c : Config) (h : configOk c = true) : 0 < c.imemSize := by
  simp only [configOk, Bool.and_eq_true, List.any_eq_true, beq_iff_eq] at h
  obtain ⟨k, _, hk⟩ := h.1.1.1.1.1.1.1.1.1.1
  rw [hk]
  exact Nat.two_pow_pos k

/-- An allowed configuration saves no more pages than it has. -/
theorem configOk_savePages_le (c : Config) (h : configOk c = true) : c.savePages ≤ c.ramPages := by
  simp only [configOk, Bool.and_eq_true, decide_eq_true_eq] at h
  exact h.1.1.1.1.1.1.1.1.1.2

theorem Inv.arrive (h : Inv s) : Inv (arrive s) := by
  unfold Machine.arrive
  split
  · exact h
  · exact { h with }
  · exact { h with }

theorem Inv.shiftFetch (h : Inv s) : Inv (shiftFetch s) := { h with }

theorem Inv.fetched (h : Inv s) : Inv (fetched s) := by
  have h1 := h.arrive.shiftFetch
  unfold Machine.fetched bubble
  split
  · exact Inv.shiftFetch (s := { Machine.shiftFetch (Machine.arrive s) with inhibit := false }) { h1 with }
  · exact h1

/-- The state in which an instruction executes meets the invariant. -/
theorem Inv.readyState (h : Inv s) : Inv (readyState s) :=
  { h.fetched with pcHist := Ring.good_record _ _ _ h.fetched.pcHist }

theorem Inv.haltIf (h : Inv s) (sub : JumpSub) : Inv (haltIf sub s) := by
  unfold Machine.haltIf
  split
  · exact { h with }
  · exact h

theorem Inv.jumpTaken (h : Inv s) (f : JumpFields) : Inv (jumpTaken f s) := by
  unfold Machine.jumpTaken
  cases f.link with
  | none => exact { h with }
  | push => exact { h.spcPush _ with }
  | pop => exact { h.popReturn with }

theorem Inv.dispatchPrepare (h : Inv s) (f : DispatchFields) (w : Word) : Inv (dispatchPrepare f w s) := by
  have h1 : Inv { s with dc := f.dispConst } := { h with }
  have h2 : Inv { s with dc := f.dispConst, npc := s.npc - 1 } := { h with }
  unfold Machine.dispatchPrepare
  cases f.nPlus1 <;> cases w.getLsbD 14 <;> cases f.enableIsh
  · exact h1
  · exact h1.lcAdvance
  · exact { h1 with }
  · exact { h1.lcAdvance with }
  · exact h1
  · exact h1.lcAdvance
  · exact { h2 with }
  · exact { h2.lcAdvance with }

theorem Inv.dispatchTransfer (h : Inv s) (w : Word) : Inv (dispatchTransfer w s) := by
  unfold Machine.dispatchTransfer
  cases w.getLsbD 15 <;> cases w.getLsbD 16
  · exact { h with }
  · exact { h.popReturn with }
  · exact { h.spcPush _ with }
  · exact { (h.spcPush _).popReturn with }

theorem Inv.aluUnit (h : Inv s) (op : BitVec 6) (g : Word → Word → Bool → Word → AluResult) (f : AluFields)
    (t : State) (e : aluUnit op g f s = .next t) : Inv t := by
  cases e
  exact (((h.readM f.m).withQ _).writeDest _ _).popjIf _

theorem Inv.byteUnit (h : Inv s) (g : Word → Word → State → Word) (f : ByteFields) (t : State)
    (e : byteUnit g f s = .next t) : Inv t := by
  cases e
  exact ((h.readM f.m).writeDest _ _).popjIf _

theorem Inv.jumpUnit (h : Inv s) (g : Word → Word → State → Bool) (f : JumpFields) (t : State)
    (e : jumpUnit g f s = .next t) : Inv t := by
  cases e
  have h1 := (h.readM f.m).haltIf f.sub
  split
  · exact h1.jumpTaken f
  · exact h1.popjIf _

theorem Inv.dispatchUnit (h : Inv s) (g : State → BitVec 5) (f : DispatchFields) (t : State)
    (e : dispatchUnit g f s = .next t) : Inv t := by
  cases e
  split
  · exact ((h.readM f.m).dispatchPrepare f _).popjIf _
  · exact ((h.readM f.m).dispatchPrepare f _).dispatchTransfer _

end Sys2Proof.Machine
end

