-- ==== Sys2Proof/Laws/PerInstr.lean ====
section
/-! SUPPORT. One lemma per constructor of `Instr`: the encoding of a well-formed instruction is a word of a
row of the opcode table that has the instruction's mnemonic. -/

namespace Sys2Proof.Laws

/-- The encoding of the instruction lies in a row of its mnemonic. -/
def EncodesItsRow.Statement (i : Instr) : Prop :=
  i.wf = true → ∃ r ∈ opcodeRows, r.mnemonic = i.mnemonic ∧ encode i &&& r.mask = r.pattern

namespace EncodesItsRow

/-! ## The selecting bits of each format -/

theorem alu_bits (op : BitVec 6) (f : AluFields) (k : MicroWord) (hk : k = 0x1800000001F8#48) :
    encodeAlu op f &&& k = op.setWidth 48 <<< 3 := by
  subst hk
  apply BitVec.eq_of_getLsbD_eq
  intro i hi
  simp only [encodeAlu, BitVec.getLsbD_and, BitVec.getLsbD_append]
  interval_cases i <;> simp

theorem jump_bits (f : JumpFields) (low : BitVec 6) (k : MicroWord) (hk : k = 0x180000000327#48) :
    encodeJump f low &&& k =
      (0x080000000000#48 ||| (encodeLink f.link).setWidth 48 <<< 8 ||| (low &&& 0x27#6).setWidth 48) := by
  subst hk
  apply BitVec.eq_of_getLsbD_eq
  intro i hi
  simp only [encodeJump, BitVec.getLsbD_and, BitVec.getLsbD_append]
  interval_cases i <;> simp

theorem wrimem_bits (f : WrimemFields) (k : MicroWord) (hk : k = 0x180000000300#48) :
    encodeWrimem f &&& k = 0x080000000300#48 := by
  subst hk
  apply BitVec.eq_of_getLsbD_eq
  intro i hi
  simp only [encodeWrimem, BitVec.getLsbD_and, BitVec.getLsbD_append]
  interval_cases i <;> simp

theorem dispatch_bits (sub : BitVec 2) (f : DispatchFields) (k : MicroWord) (hk : k = 0x180000000C00#48) :
    encodeDispatch sub f &&& k = (0x100000000000#48 ||| sub.setWidth 48 <<< 10) := by
  subst hk
  apply BitVec.eq_of_getLsbD_eq
  intro i hi
  simp only [encodeDispatch, BitVec.getLsbD_and, BitVec.getLsbD_append]
  interval_cases i <;> simp

theorem load_bits (f : LoadFields) (k : MicroWord) (hk : k = 0x180000000C00#48) :
    encodeLoad f &&& k = 0x100000000800#48 := by
  subst hk
  apply BitVec.eq_of_getLsbD_eq
  intro i hi
  simp only [encodeLoad, BitVec.getLsbD_and, BitVec.getLsbD_append]
  interval_cases i <;> simp

theorem byte_bits (mode : BitVec 2) (f : ByteFields) (k : MicroWord) (hk : k = 0x180000003000#48) :
    encodeByte mode f &&& k = (0x180000000000#48 ||| mode.setWidth 48 <<< 12) := by
  subst hk
  apply BitVec.eq_of_getLsbD_eq
  intro i hi
  simp only [encodeByte, BitVec.getLsbD_and, BitVec.getLsbD_append]
  interval_cases i <;> simp

/-! ## A row for the selecting bits -/

theorem alu_row (i : Instr) (op : BitVec 6) (f : AluFields) (he : encode i = encodeAlu op f)
    (h : opcodeRows.any (fun r => decide (r.mnemonic = i.mnemonic) && decide (r.mask &&& 0x1800000001F8#48 = r.mask)
      && decide (op.setWidth 48 <<< 3 &&& r.mask = r.pattern)) = true) : Statement i := by
  intro _
  simp only [List.any_eq_true, Bool.and_eq_true, decide_eq_true_eq] at h
  obtain ⟨r, hr, ⟨hn, hm⟩, hp⟩ := h
  refine ⟨r, hr, hn, ?_⟩
  rw [he, ← hm, BitVec.and_comm r.mask, ← BitVec.and_assoc, alu_bits op f _ rfl, hp]

theorem jump_row (i : Instr) (f : JumpFields) (low : BitVec 6) (he : encode i = encodeJump f low)
    (h : ∀ l : Link, opcodeRows.any (fun r => decide (r.mnemonic = i.mnemonic)
      && decide (r.mask &&& 0x180000000327#48 = r.mask)
      && decide ((0x080000000000#48 ||| (encodeLink l).setWidth 48 <<< 8 ||| (low &&& 0x27#6).setWidth 48)
        &&& r.mask = r.pattern)) = true) : Statement i := by
  intro _
  have h := h f.link
  simp only [List.any_eq_true, Bool.and_eq_true, decide_eq_true_eq] at h
  obtain ⟨r, hr, ⟨hn, hm⟩, hp⟩ := h
  refine ⟨r, hr, hn, ?_⟩
  rw [he, ← hm, BitVec.and_comm r.mask, ← BitVec.and_assoc, jump_bits f low _ rfl, hp]

/-! ## The instructions -/

theorem aluSetz (f : AluFields) : Statement (.aluSetz f) :=
  alu_row _ 0o00#6 f rfl (by rfl)

theorem aluAnd (f : AluFields) : Statement (.aluAnd f) :=
  alu_row _ 0o01#6 f rfl (by rfl)

theorem aluAndca (f : AluFields) : Statement (.aluAndca f) :=
  alu_row _ 0o02#6 f rfl (by rfl)

theorem aluSetm (f : AluFields) : Statement (.aluSetm f) :=
  alu_row _ 0o03#6 f rfl (by rfl)

theorem aluAndcm (f : AluFields) : Statement (.aluAndcm f) :=
  alu_row _ 0o04#6 f rfl (by rfl)

theorem aluSeta (f : AluFields) : Statement (.aluSeta f) :=
  alu_row _ 0o05#6 f rfl (by rfl)

theorem aluXor (f : AluFields) : Statement (.aluXor f) :=
  alu_row _ 0o06#6 f rfl (by rfl)

theorem aluIor (f : AluFields) : Statement (.aluIor f) :=
  alu_row _ 0o07#6 f rfl (by rfl)

theorem aluAndcb (f : AluFields) : Statement (.aluAndcb f) :=
  alu_row _ 0o10#6 f rfl (by rfl)

theorem aluEqv (f : AluFields) : Statement (.aluEqv f) :=
  alu_row _ 0o11#6 f rfl (by rfl)

theorem aluSetca (f : AluFields) : Statement (.aluSetca f) :=
  alu_row _ 0o12#6 f rfl (by rfl)

theorem aluOrca (f : AluFields) : Statement (.aluOrca f) :=
  alu_row _ 0o13#6 f rfl (by rfl)

theorem aluSetcm (f : AluFields) : Statement (.aluSetcm f) :=
  alu_row _ 0o14#6 f rfl (by rfl)

theorem aluOrcm (f : AluFields) : Statement (.aluOrcm f) :=
  alu_row _ 0o15#6 f rfl (by rfl)

theorem aluOrcb (f : AluFields) : Statement (.aluOrcb f) :=
  alu_row _ 0o16#6 f rfl (by rfl)

theorem aluSeto (f : AluFields) : Statement (.aluSeto f) :=
  alu_row _ 0o17#6 f rfl (by rfl)

theorem aluMinusOne (f : AluFields) : Statement (.aluMinusOne f) :=
  alu_row _ 0o20#6 f rfl (by rfl)

theorem aluAndMinusOne (f : AluFields) : Statement (.aluAndMinusOne f) :=
  alu_row _ 0o21#6 f rfl (by rfl)

theorem aluAndcaMinusOne (f : AluFields) : Statement (.aluAndcaMinusOne f) :=
  alu_row _ 0o22#6 f rfl (by rfl)

theorem aluMMinusOne (f : AluFields) : Statement (.aluMMinusOne f) :=
  alu_row _ 0o23#6 f rfl (by rfl)

theorem aluOrcaPlus (f : AluFields) : Statement (.aluOrcaPlus f) :=
  alu_row _ 0o24#6 f rfl (by rfl)

theorem aluOrcaPlusAnd (f : AluFields) : Statement (.aluOrcaPlusAnd f) :=
  alu_row _ 0o25#6 f rfl (by rfl)

theorem aluSub (f : AluFields) : Statement (.aluSub f) :=
  alu_row _ 0o26#6 f rfl (by rfl)

theorem aluOrcaPlusM (f : AluFields) : Statement (.aluOrcaPlusM f) :=
  alu_row _ 0o27#6 f rfl (by rfl)

theorem aluIorPlus (f : AluFields) : Statement (.aluIorPlus f) :=
  alu_row _ 0o30#6 f rfl (by rfl)

theorem aluAdd (f : AluFields) : Statement (.aluAdd f) :=
  alu_row _ 0o31#6 f rfl (by rfl)

theorem aluIorPlusAndca (f : AluFields) : Statement (.aluIorPlusAndca f) :=
  alu_row _ 0o32#6 f rfl (by rfl)

theorem aluIorPlusM (f : AluFields) : Statement (.aluIorPlusM f) :=
  alu_row _ 0o33#6 f rfl (by rfl)

theorem aluMPlus (f : AluFields) : Statement (.aluMPlus f) :=
  alu_row _ 0o34#6 f rfl (by rfl)

theorem aluMPlusAnd (f : AluFields) : Statement (.aluMPlusAnd f) :=
  alu_row _ 0o35#6 f rfl (by rfl)

theorem aluMPlusOrca (f : AluFields) : Statement (.aluMPlusOrca f) :=
  alu_row _ 0o36#6 f rfl (by rfl)

theorem aluMPlusM (f : AluFields) : Statement (.aluMPlusM f) :=
  alu_row _ 0o37#6 f rfl (by rfl)

theorem aluMulstep (f : AluFields) : Statement (.aluMulstep f) :=
  alu_row _ 0o40#6 f rfl (by rfl)

theorem aluDivstep (f : AluFields) : Statement (.aluDivstep f) :=
  alu_row _ 0o41#6 f rfl (by rfl)

theorem aluRemcorr (f : AluFields) : Statement (.aluRemcorr f) :=
  alu_row _ 0o45#6 f rfl (by rfl)

theorem aluDivfirst (f : AluFields) : Statement (.aluDivfirst f) :=
  alu_row _ 0o51#6 f rfl (by rfl)

theorem aluUndef (op : BitVec 6) (f : AluFields) : Statement (.aluUndef op f) := by
  intro hw
  have h : ∀ o : BitVec 6, aluopUnassigned o = true → opcodeRows.any (fun r => decide (r.mnemonic = "ALU.UNDEF")
      && decide (r.mask &&& 0x1800000001F8#48 = r.mask)
      && decide (o.setWidth 48 <<< 3 &&& r.mask = r.pattern)) = true := by decide
  exact alu_row _ op f rfl (h op hw) hw

theorem jumpWrimem (f : WrimemFields) : Statement (.jumpWrimem f) :=
  fun _ => ⟨⟨"JUMP.WRIMEM", 0x080000000300#48, 0x180000000300#48⟩, by decide, rfl, wrimem_bits f _ rfl⟩

theorem jumpBit (f : JumpFields) (rot : BitVec 5) : Statement (.jumpBit f rot) := by
  refine jump_row _ f (0#1 ++ rot) rfl (fun l => ?_)
  have e2 : ∀ rot : BitVec 5, ∀ l : Link, opcodeRows.any (fun r => decide (r.mnemonic = "JUMP.BIT")
      && decide (r.mask &&& 0x180000000327#48 = r.mask)
      && decide ((0x080000000000#48 ||| (encodeLink l).setWidth 48 <<< 8
        ||| ((0#1 ++ rot) &&& 0x27#6).setWidth 48) &&& r.mask = r.pattern)) = true := by
    intro rot l
    cases l <;> revert rot <;> decide
  exact e2 rot l

theorem jumpC0 (f : JumpFields) : Statement (.jumpC0 f) :=
  jump_row _ f (1#1 ++ 0#5) rfl (fun l => by cases l <;> rfl)

theorem jumpC1 (f : JumpFields) : Statement (.jumpC1 f) :=
  jump_row _ f (1#1 ++ 1#5) rfl (fun l => by cases l <;> rfl)

theorem jumpC2 (f : JumpFields) : Statement (.jumpC2 f) :=
  jump_row _ f (1#1 ++ 2#5) rfl (fun l => by cases l <;> rfl)

theorem jumpC3 (f : JumpFields) : Statement (.jumpC3 f) :=
  jump_row _ f (1#1 ++ 3#5) rfl (fun l => by cases l <;> rfl)

theorem jumpC4 (f : JumpFields) : Statement (.jumpC4 f) :=
  jump_row _ f (1#1 ++ 4#5) rfl (fun l => by cases l <;> rfl)

theorem jumpC5 (f : JumpFields) : Statement (.jumpC5 f) :=
  jump_row _ f (1#1 ++ 5#5) rfl (fun l => by cases l <;> rfl)

theorem jumpC6 (f : JumpFields) : Statement (.jumpC6 f) :=
  jump_row _ f (1#1 ++ 6#5) rfl (fun l => by cases l <;> rfl)

theorem jumpC7 (f : JumpFields) : Statement (.jumpC7 f) :=
  jump_row _ f (1#1 ++ 7#5) rfl (fun l => by cases l <;> rfl)

theorem dispatch (sub0 : Bool) (f : DispatchFields) : Statement (.dispatch sub0 f) := by
  intro _
  cases sub0
  · exact ⟨⟨"DISPATCH", 0x100000000000#48, 0x180000000C00#48⟩, by decide, rfl, dispatch_bits _ f _ rfl⟩
  · exact ⟨⟨"DISPATCH", 0x100000000400#48, 0x180000000C00#48⟩, by decide, rfl, dispatch_bits _ f _ rfl⟩

theorem dispatchLoad (f : LoadFields) : Statement (.dispatchLoad f) :=
  fun _ => ⟨⟨"DISPATCH.LOAD", 0x100000000800#48, 0x180000000C00#48⟩, by decide, rfl, load_bits f _ rfl⟩

theorem dispatchLc (f : DispatchFields) : Statement (.dispatchLc f) :=
  fun _ => ⟨⟨"DISPATCH.LC", 0x100000000C00#48, 0x180000000C00#48⟩, by decide, rfl, dispatch_bits _ f _ rfl⟩

theorem byteInvalid (f : ByteFields) : Statement (.byteInvalid f) :=
  fun _ => ⟨⟨"BYTE.INVALID", 0x180000000000#48, 0x180000003000#48⟩, by decide, rfl, byte_bits _ f _ rfl⟩

theorem byteLdb (f : ByteFields) : Statement (.byteLdb f) :=
  fun _ => ⟨⟨"BYTE.LDB", 0x180000001000#48, 0x180000003000#48⟩, by decide, rfl, byte_bits _ f _ rfl⟩

theorem byteSel (f : ByteFields) : Statement (.byteSel f) :=
  fun _ => ⟨⟨"BYTE.SEL", 0x180000002000#48, 0x180000003000#48⟩, by decide, rfl, byte_bits _ f _ rfl⟩

theorem byteDpb (f : ByteFields) : Statement (.byteDpb f) :=
  fun _ => ⟨⟨"BYTE.DPB", 0x180000003000#48, 0x180000003000#48⟩, by decide, rfl, byte_bits _ f _ rfl⟩

end EncodesItsRow

end Sys2Proof.Laws
end

