-- ==== Sys2Proof/Tests/Slice0.lean ====
section
/-! SUPPORT. Tests: the smoke test of `Instr.wf`, the decoding of words composed from the formats, one step
on small states with the results of spec/95_test_vectors.md and of the rules' own examples, and for every
statement with hypotheses a state and operands that meet them. -/

namespace Sys2Proof.Tests

open Sys2Proof.Machine Sys2Proof.Reading

/-! ## Well-formedness -/

/-- a=1 m=2 dest=M3 out=1. -/
def aluSample : AluFields :=
  { popj := false, a := 1, m := .mem 2, dest := .func 0 3, out := .aluOut, cin := false, qctl := .keep }

/-- Every field at the top of its range. -/
def aluFull : AluFields :=
  { popj := true, a := 0x3FF, m := .func 31, dest := .amem 0x7FF, out := .shiftLeft, cin := true,
    qctl := .shiftRight }

/-- a=1 m=2 target=0o200. -/
def jumpSample : JumpFields :=
  { popj := false, a := 1, m := .mem 2, target := 0o200, sub := .plain, link := .none, n := false,
    inv := false }

/-- a=1 m=2 dest=M3 pos=8 widthm1=7. -/
def byteSample : ByteFields :=
  { popj := false, a := 1, m := .mem 2, dest := .func 0 3, widthm1 := 7, pos := 8 }

/-- The one check: an unassigned opcode may not be an assigned one. -/
theorem test_wf_refuses_assigned_opcodes :
    [0o00#6, 0o17#6, 0o37#6, 0o40#6, 0o41#6, 0o45#6, 0o51#6].all
      (fun op => (Instr.aluUndef op aluSample).wf == false) = true := by decide

theorem test_wf_takes_unassigned_opcodes :
    [0o42#6, 0o43#6, 0o44#6, 0o46#6, 0o47#6, 0o50#6, 0o52#6, 0o77#6].all
      (fun op => (Instr.aluUndef op aluSample).wf) = true := by decide

/-! ## Decoding: words composed from the formats of R121 to R127 -/

/-- Each word decodes to its instruction, and the instruction encodes to the word. -/
def agree (l : List (MicroWord × Instr)) : Bool := l.all (fun p => decode p.1 == p.2 && encode p.2 == p.1)

theorem test_decode_logic : agree
    [(0x00010800D000#48, .aluSetz aluSample), (0x00010800D008#48, .aluAnd aluSample),
     (0x00010800D010#48, .aluAndca aluSample), (0x00010800D018#48, .aluSetm aluSample),
     (0x00010800D020#48, .aluAndcm aluSample), (0x00010800D028#48, .aluSeta aluSample),
     (0x00010800D030#48, .aluXor aluSample), (0x00010800D038#48, .aluIor aluSample),
     (0x00010800D040#48, .aluAndcb aluSample), (0x00010800D048#48, .aluEqv aluSample),
     (0x00010800D050#48, .aluSetca aluSample), (0x00010800D058#48, .aluOrca aluSample),
     (0x00010800D060#48, .aluSetcm aluSample), (0x00010800D068#48, .aluOrcm aluSample),
     (0x00010800D070#48, .aluOrcb aluSample), (0x00010800D078#48, .aluSeto aluSample)] = true := by decide

theorem test_decode_arithmetic : agree
    [(0x07FFFFFFF086#48, .aluMinusOne aluFull), (0x07FFFFFFF08E#48, .aluAndMinusOne aluFull),
     (0x07FFFFFFF096#48, .aluAndcaMinusOne aluFull), (0x07FFFFFFF09E#48, .aluMMinusOne aluFull),
     (0x07FFFFFFF0A6#48, .aluOrcaPlus aluFull), (0x07FFFFFFF0AE#48, .aluOrcaPlusAnd aluFull),
     (0x07FFFFFFF0B6#48, .aluSub aluFull), (0x07FFFFFFF0BE#48, .aluOrcaPlusM aluFull),
     (0x07FFFFFFF0C6#48, .aluIorPlus aluFull), (0x07FFFFFFF0CE#48, .aluAdd aluFull),
     (0x07FFFFFFF0D6#48, .aluIorPlusAndca aluFull), (0x07FFFFFFF0DE#48, .aluIorPlusM aluFull),
     (0x07FFFFFFF0E6#48, .aluMPlus aluFull), (0x07FFFFFFF0EE#48, .aluMPlusAnd aluFull),
     (0x07FFFFFFF0F6#48, .aluMPlusOrca aluFull), (0x07FFFFFFF0FE#48, .aluMPlusM aluFull)] = true := by decide

theorem test_decode_steps_and_unassigned : agree
    [(0x00010800E101#48, .aluMulstep { aluSample with out := .shiftRight, qctl := .shiftLeft }),
     (0x00010800C10B#48, .aluDivstep { aluSample with out := .rotatedM, qctl := .load }),
     (0x00010800D12C#48, .aluRemcorr { aluSample with cin := true }),
     (0x04010800D148#48, .aluDivfirst { aluSample with popj := true }),
     (0x00010800D110#48, .aluUndef 0o42#6 aluSample), (0x00010800D120#48, .aluUndef 0o44#6 aluSample),
     (0x00010800D138#48, .aluUndef 0o47#6 aluSample), (0x00010800D140#48, .aluUndef 0o50#6 aluSample),
     (0x00010800D150#48, .aluUndef 0o52#6 aluSample), (0x00010800D1F8#48, .aluUndef 0o77#6 aluSample)]
    = true := by decide

theorem test_decode_jumps : agree
    [(0x08010808001F#48, .jumpBit jumpSample 31),
     (0x080108080020#48, .jumpC0 jumpSample),
     (0x0801080805A1#48, .jumpC1 { jumpSample with sub := .halt, link := .push, n := true }),
     (0x080108080A62#48, .jumpC2 { jumpSample with sub := .unused, link := .pop, inv := true }),
     (0x080108080CE3#48, .jumpC3 { jumpSample with sub := .warned, n := true, inv := true }),
     (0x0C0108080124#48, .jumpC4 { jumpSample with link := .push, popj := true }),
     (0x0C01080806A5#48, .jumpC5 { jumpSample with sub := .halt, link := .pop, n := true, popj := true }),
     (0x0C0108080866#48, .jumpC6 { jumpSample with sub := .unused, inv := true, popj := true }),
     (0x080108080027#48, .jumpC7 jumpSample),
     (0x08010BFFF700#48,
      .jumpWrimem { popj := false, a := 1, m := .mem 2, target := 0o37777, sub := .halt })] = true := by decide

theorem test_decode_dispatches : agree
    [(0x100F0A7FF2E3#48,
      .dispatch false { popj := false, dispConst := 0o17, m := .mem 2, nPlus1 := true, enableIsh := false,
                        dispAddr := 0o3777, map := 2, len := 7, pos := 3 }),
     (0x100F0A7FF6E3#48,
      .dispatch true { popj := false, dispConst := 0o17, m := .mem 2, nPlus1 := true, enableIsh := false,
                       dispAddr := 0o3777, map := 2, len := 7, pos := 3 }),
     (0x17E0D1001D1C#48,
      .dispatchLc { popj := true, dispConst := 0o1740, m := .func 0o24, nPlus1 := false, enableIsh := true,
                    dispAddr := 1, map := 1, len := 0, pos := 28 }),
     (0x100100005800#48, .dispatchLoad { popj := false, a := 1, m := .mem 0, dispAddr := 5 })] = true := by
  decide

theorem test_decode_bytes : agree
    [(0x18010800C0E8#48, .byteInvalid byteSample), (0x18010800D0E9#48, .byteLdb { byteSample with pos := 9 }),
     (0x18010800E0EA#48, .byteSel { byteSample with pos := 10 }),
     (0x18010800F0EB#48, .byteDpb { byteSample with pos := 11 }),
     (0x1C010A1053E0#48,
      .byteLdb { byteSample with popj := true, dest := .amem 0o101, widthm1 := 31, pos := 0 })] = true := by
  decide

/-- Bits that no field covers are ignored (R122): bits 47:45, and bits 11:9 of an ALU word, 4:3 of a
condition. -/
theorem test_decode_ignores_bits :
    decode 0xE0010800DE00#48 = .aluSetz aluSample ∧ decode 0x08010808003F#48 = .jumpC7 jumpSample := by decide

/-- The table word of 48 bits is stored as the halves of R375, and read back. -/
theorem test_decodeTableWord :
    decodeTableWord 48 0x00010800D008 = some (.aluAnd aluSample)
      ∧ decodeTableWord 48 0x100100005800 = some (.dispatchLoad { popj := false, a := 1, m := .mem 0, dispAddr := 5 })
    := by decide

/-! ## One step: the convention of spec/95_test_vectors.md -/

/-- The start state of the single-instruction vectors. -/
def base : State := { State.reset with p1pc := 0o100, npc := 0o101 }

/-- `AMEM[1] = a`, `MMEM[2] = m`, `Q = q`. -/
def withOperands (m a q : Word) (s : State) : State :=
  { s with amem := Memory.write s.amem 1 a, mmem := Memory.write s.mmem 2 m, q := q }

/-- The state after one step that runs the word. -/
def after (w : Nat) (s : State) : State :=
  match step (s.withFetchWord 48 w) with
  | .next t => t
  | _ => s

/-- `MMEM[3]`. -/
def m3 (s : State) : Word := Memory.read s.mmem 3

/-- The examples of R202 to R217, with the standard pair of operands. -/
theorem test_logic_examples :
    [(0x00010800D000, 0x00000000#32), (0x00010800D008, 0x00000F00#32), (0x00010800D010, 0x0000F00F#32),
     (0x00010800D018, 0x0000FF0F#32), (0x00010800D020, 0x000000F0#32), (0x00010800D028, 0x00000FF0#32),
     (0x00010800D030, 0x0000F0FF#32), (0x00010800D038, 0x0000FFFF#32), (0x00010800D040, 0xFFFF0000#32),
     (0x00010800D048, 0x00000000#32), (0x00010800D050, 0xFFFFF00F#32), (0x00010800D058, 0xFFFFFF0F#32),
     (0x00010800D060, 0xFFFF00F0#32), (0x00010800D068, 0xFFFF0FF0#32), (0x00010800D070, 0xFFFFF0FF#32),
     (0x00010800D078, 0xFFFFFFFF#32)].all
      (fun p => m3 (after p.1 (withOperands 0x0000FF0F#32 0x00000FF0#32 0#32 base)) == p.2) = true := by decide

/-- A word with `qctl = 2` gives the result and, in bit 31 of `Q`, the carry. -/
def resultAndCarry (w : Nat) (m a : Word) : Word × Bool :=
  let t := after w (withOperands m a 0#32 base)
  (m3 t, t.q.getLsbD 31)

/-- The examples `(5, 3, 0)` of R220 to R235. -/
theorem test_arithmetic_examples :
    [(0x00010800D082, 0xFFFFFFFF#32, true), (0x00010800D08A, 0#32, false), (0x00010800D092, 3#32, false),
     (0x00010800D09A, 4#32, false), (0x00010800D0A2, 0xFFFFFFFD#32, false), (0x00010800D0AA, 0xFFFFFFFE#32, false),
     (0x00010800D0B2, 1#32, false), (0x00010800D0BA, 2#32, true), (0x00010800D0C2, 7#32, false),
     (0x00010800D0CA, 8#32, false), (0x00010800D0D2, 0xB#32, false), (0x00010800D0DA, 0xC#32, false),
     (0x00010800D0E2, 5#32, false), (0x00010800D0EA, 6#32, false), (0x00010800D0F2, 2#32, true),
     (0x00010800D0FA, 0xA#32, false)].all (fun p => resultAndCarry p.1 5 3 == p.2) = true := by decide

/-- Carries and borrows: the second examples of the same rules. -/
theorem test_arithmetic_corners :
    resultAndCarry 0x00010800D086 5 3 = (0, false) ∧ resultAndCarry 0x00010800D08A 0 0 = (0xFFFFFFFF, true)
    ∧ resultAndCarry 0x00010800D092 0 0 = (0xFFFFFFFF, true) ∧ resultAndCarry 0x00010800D09E 0 9 = (0, false)
    ∧ resultAndCarry 0x00010800D0A6 0xFFFFFFFF 1 = (0, true)
    ∧ resultAndCarry 0x00010800D0AA 0x80000000 0x80000000 = (0x7FFFFFFF, true)
    ∧ resultAndCarry 0x00010800D0B2 0 1 = (0xFFFFFFFE, true) ∧ resultAndCarry 0x00010800D0B6 0 0 = (0, false)
    ∧ resultAndCarry 0x00010800D0C6 0xFFFFFFFF 1 = (0, true)
    ∧ resultAndCarry 0x00010800D0CA 0x7FFFFFFF 1 = (0x80000000, false)
    ∧ resultAndCarry 0x00010800D0CE 0xFFFFFFFF 1 = (1, true)
    ∧ resultAndCarry 0x00010800D0E6 0xFFFFFFFF 0 = (0, true)
    ∧ resultAndCarry 0x00010800D0FE 0xFFFFFFFF 0 = (0xFFFFFFFF, true) := by decide

/-- The modifiers and the multiply and divide steps: rows 2, 3, 8 to 13 and 17 to 20 of section 2.1. -/
theorem test_alu_rows :
    [(0x00010800E0CC, 0xFFFFFFFF#32, 1#32, 0#32, 0x80000000#32, 0#32),
     (0x00010800D0CE, 0xFFFFFFFF#32, 1#32, 2#32, 0x00000001#32, 0x80000001#32),
     (0x00010800E0B0, 0#32, 1#32, 0#32, 0xFFFFFFFF#32, 0#32),
     (0x00010800F0F8, 0x40000001#32, 0#32, 0x80000000#32, 0x00000005#32, 0x80000000#32),
     (0x00010800C004, 0x12345678#32, 0#32, 0#32, 0x23456781#32, 0#32),
     (0x00010800D01B, 0x12345678#32, 0#32, 0#32, 0x12345678#32, 0x12345678#32),
     (0x00010800D031, 0x0000FF0F#32, 0x00000FF0#32, 0x80000001#32, 0x0000F0FF#32, 0x00000003#32),
     (0x00010800D113, 9#32, 7#32, 0x55#32, 0#32, 0#32),
     (0x00010800F109, 5#32, 3#32, 1#32, 0x00000004#32, 0x00000003#32),
     (0x00010800F109, 5#32, 3#32, 0x80000000#32, 0x00000011#32, 0x00000001#32),
     (0x00010800E102, 0xFFFFFFFF#32, 1#32, 1#32, 0x80000000#32, 0x80000000#32),
     (0x00010800D148, 2#32, 0xFFFFFFFD#32, 0#32, 0xFFFFFFFE#32, 0#32),
     (0x00010800D048, 5#32, 5#32, 0#32, 1#32, 0#32),
     (0x00010800D128, 5#32, 3#32, 1#32, 5#32, 1#32),
     (0x00010800D128, 5#32, 3#32, 0#32, 8#32, 0#32)].all
      (fun r =>
        let t := after r.1 (withOperands r.2.1 r.2.2.1 r.2.2.2.1 base)
        m3 t == r.2.2.2.2.1 && t.q == r.2.2.2.2.2) = true := by decide

/-- Rows 14 and 15 of section 2.1: an A-memory destination, and its wrap to 1024 words; and R262. -/
theorem test_a_memory_destination :
    (after 0x00010A105028 (withOperands 0xBB 0xAA 0 base)).amem = [(1, 0xAA), (0o101, 0xAA)]
      ∧ (after 0x00010BFFD028 (withOperands 0xBB 0xAA 0 base)).amem = [(1, 0xAA), (0o1777, 0xAA)]
      ∧ (after 0 { base with mmem := [(0, 0x1234)], amem := [(0, 0x9999)] }).amem = [(0, 0x1234)] := by decide

/-! ## Sources and destinations -/

/-- The start state of section 2.2. -/
def sourceState : State :=
  { base with
    spcPtr := 3, spc := [(3, 0xFFFFFFFF)], pdlPtr := 7, pdl := [(7, 0x11), (9, 0x22)], pdlIdx := 9, q := 0x51
    vma := 0x61, md := 0x71, opc := 0x81, dc := 0o17, lc := 0x80000043 }

theorem test_sources :
    [(0x00008000D018, 0x0000000F#32), (0x00008400D018, 0x0303FFFF#32), (0x00008800D018, 7#32),
     (0x00008C00D018, 9#32), (0x00009000D018, 0#32), (0x00009400D018, 0x22#32), (0x00009800D018, 0x81#32),
     (0x00009C00D018, 0x51#32), (0x0000A000D018, 0x61#32), (0x0000A800D018, 0x71#32),
     (0x0000AC00D018, 0x80000042#32), (0x0000B000D018, 0x0303FFFF#32), (0x0000D000D018, 0x11#32),
     (0x0000D400D018, 0x11#32), (0x0000FC00D018, 0#32)].all (fun p => m3 (after p.1 sourceState) == p.2) = true := by
  decide

theorem test_source_pops :
    (after 0x0000B000D018 sourceState).spcPtr = 2 ∧ (after 0x0000D000D018 sourceState).pdlPtr = 6
      ∧ (after 0x0000D400D018 sourceState).pdlPtr = 7
      ∧ m3 (after 0x0000AC00D018 { sourceState with icr := 0x20000000 }) = 0x80000043 := by decide

theorem test_source_map_word :
    m3 (after 0x0000A400D018
        { base with md := 0o1234, l1 := [(0, 1)], l2 := [(0o42, 0x00C00040)], writeFault := true }) = 0x81C00040
      ∧ m3 (after 0x0000A400D018 { base with md := 0o77000123 }) = 0x00003C00
      ∧ m3 (after 0x0000A400D018 { base with md := 0o77377455, accessFault := true }) = 0x40C03DFF := by decide

/-- The start state of section 2.3. -/
def destState : State :=
  { base with amem := [(1, 0x87654321)], pdlPtr := 5, pdlIdx := 0o1777, spcPtr := 31, md := 0o1234 }

theorem test_destination_registers :
    (after 0x00010008D028 destState).lc = 0x83654321 ∧ (after 0x00010010D028 destState).icr = 0x87654321
      ∧ (after 0x00010058D028 destState).pdlIdx = 0x321 ∧ (after 0x00010060D028 destState).pdlPtr = 0x321
      ∧ (after 0x00010070D028 destState).oaLo = 0x3654321 ∧ (after 0x00010070D028 destState).oaLoV = true
      ∧ (after 0x00010078D028 destState).oaHi = 0x254321 ∧ (after 0x00010078D028 destState).oaHiV = true
      ∧ (after 0x00010080D028 destState).vma = 0x87654321 ∧ (after 0x000100C0D028 destState).md = 0x87654321
      ∧ (after 0x00010018D028 destState).mmem = [(3, 0x87654321)] := by decide

theorem test_destination_stacks :
    (after 0x00010040D028 destState).pdl = [(5, 0x87654321)] ∧ (after 0x00010040D028 destState).pdlPtr = 5
      ∧ (after 0x00010048D028 destState).pdl = [(6, 0x87654321)] ∧ (after 0x00010048D028 destState).pdlPtr = 6
      ∧ (after 0x00010050D028 destState).pdl = [(0o1777, 0x87654321)]
      ∧ (after 0x00010068D028 destState).spc = [(0, 0x87654321)] ∧ (after 0x00010068D028 destState).spcPtr = 0 := by
  decide

/-- The three fault flags. -/
def flagsOf (s : State) : Bool × Bool × Bool := (s.accessFault, s.writeFault, s.pageFault)

theorem test_destination_accesses :
    flagsOf (after 0x00010088D028 destState) = (true, false, true)
      ∧ (after 0x00010088D028 destState).rdDelay = 2 ∧ (after 0x00010088D028 destState).opc = 0
      ∧ flagsOf (after 0x00010090D028 destState) = (true, false, true)
      ∧ (after 0x00010090D028 destState).pmem = []
      ∧ (after 0x00010098D028 destState).l1 = [(0, 0x10)]
      ∧ (after 0x00010098D028 destState).l2 = [(0o1002, 0x654321)]
      ∧ flagsOf (after 0x000100C8D028 destState) = (true, false, true)
      ∧ flagsOf (after 0x000100D0D028 destState) = (true, false, true)
      ∧ (after 0x000100D8D028 destState).l1 = [] ∧ (after 0x000100D8D028 destState).l2 = [] := by decide

/-- Section 2.4: a valid OA register is merged into the next word and cleared. -/
theorem test_oa_merge :
    let s := { base with amem := [(5, 100)], mmem := [(6, 23)] }
    (match step { s with p1 := 0x000518000000#48, oaLo := 0xD0CC, oaLoV := true } with
      | .next t => (m3 t, t.oaLo, t.oaLoV) | _ => (0, 0, true)) = (124, 0, false)
      ∧ (match step { s with p1 := 0x00000000D0CC#48, oaHi := 0x146, oaHiV := true } with
          | .next t => (m3 t, t.oaHi, t.oaHiV) | _ => (0, 0, true)) = (124, 0, false) := by decide

/-! ## Jumps (section 2.6) -/

/-- `NPC`, `INHIBIT`, `SPCPTR`. -/
def flow (s : State) : BitVec 14 × Bool × BitVec 5 := (s.npc, s.inhibit, s.spcPtr)

theorem test_jump_conditions :
    [(0x080108080001, 0x80000000#32, 0#32, (0o200#14, false, 0#5)),
     (0x080108080000, 0x80000000#32, 0#32, (0o102#14, false, 0#5)),
     (0x08010808005F, 2#32, 0#32, (0o102#14, false, 0#5)),
     (0x080108080023, 8#32, 7#32, (0o102#14, false, 0#5)),
     (0x080108080163, 8#32, 7#32, (0o200#14, false, 1#5)),
     (0x0801080801A3, 7#32, 7#32, (0o200#14, true, 1#5)),
     (0x08000008003F, 0#32, 0#32, (0o200#14, false, 0#5)),
     (0x080000080020, 0#32, 0#32, (0o102#14, false, 0#5)),
     (0x080000080060, 0#32, 0#32, (0o200#14, false, 0#5))].all
      (fun r => flow (after r.1 (withOperands r.2.1 r.2.2.1 0 base)) == r.2.2.2) = true := by decide

/-- Rows 9, 10 and 27: the address that a call saves, without and with N, and the wrap of the stack. -/
theorem test_jump_saved_address :
    (after 0x080108080163 (withOperands 8 7 0 base)).spc = [(1, 0o102)]
      ∧ (after 0x0801080801A3 (withOperands 7 7 0 base)).spc = [(1, 0o101)]
      ∧ (after 0x080000080127 { base with npc := 0, spcPtr := 31 }).spc = [(0, 1)] := by decide

/-- Rows 4 to 7: conditions 1 and 2, whatever the open parameter; and with a sign bit, as it says. -/
theorem test_jump_compare :
    condLess 3 5 = true ∧ condLess 7 7 = false ∧ condLessEq 7 7 = true ∧ condLessEq 5 3 = false
      ∧ condLess 0xFFFFFFFF 1 = Config.jumpCmpSigned ∧ condLessEq 0xFFFFFFFF 1 = Config.jumpCmpSigned := by
  unfold condLess condLessEq
  cases Config.jumpCmpSigned <;> decide

theorem test_jump_flags :
    flow (after 0x080000080024 { base with pageFault := true }) = (0o200, false, 0)
      ∧ (after 0x080000080024 { base with pageFault := true }).pageFault = true
      ∧ flow (after 0x080000080024 base) = (0o102, false, 0)
      ∧ flow (after 0x080000080025 { base with intstat := 0o40000 }) = (0o200, false, 0)
      ∧ flow (after 0x080000080025 { base with intstat := 0o2000, icr := 0x04000000 }) = (0o102, false, 0)
      ∧ flow (after 0x080000080026 { base with icr := 0x04000000 }) = (0o200, false, 0)
      ∧ flow (after 0x080000080026 { base with intstat := 0o2000 }) = (0o102, false, 0) := by decide

/-- Rows 19 to 21, 24 and 25: the return, with and without the fetch of LC-advance, and popj. -/
theorem test_jump_returns :
    let s := { base with spcPtr := 3, spc := [(3, 0o40120)], lc := 0x00000040 }
    let r := after 0x080000080227 { s with lc := 0x80000040 }
    let p := { s with spc := [(3, 0o321)] }
    (flow (after 0x080000080227 s) = (0o122, false, 2) ∧ (after 0x080000080227 s).lc = 0x42)
      ∧ (flow r = (0o120, false, 2) ∧ r.vma = 0o20 ∧ r.rdDelay = 2 ∧ r.lc = 0x42 ∧ flagsOf r = (true, false, true))
      ∧ flow (after 0x0800000802A7 p) = (0o321, true, 2)
      ∧ flow (after 0x0C0000080020 p) = (0o321, false, 2)
      ∧ flow (after 0x0C0000080027 p) = (0o200, false, 3)
      ∧ flow (after 0x040000001000 { base with spc := [(0, 0xFFFFBFFF)] }) = (0o37777, false, 31) := by decide

/-- Rows 22, 23 and 26: the instruction-memory write, the halt, the warned sub-field. -/
theorem test_jump_wrimem_and_halt :
    (after 0x0801080C0300 (withOperands 0x000C0123 0x12340800 0 base)).imem = [(0o300, 0x0800000C0123)]
      ∧ flow (after 0x0801080C0300 (withOperands 0x000C0123 0x12340800 0 base)) = (0o102, false, 0)
      ∧ ((after 0x080000080427 base).halted = true ∧ flow (after 0x080000080427 base) = (0o200, false, 0))
      ∧ ((after 0x080000080C27 base).halted = false ∧ flow (after 0x080000080C27 base) = (0o200, false, 0)) := by
  decide

/-! ## Dispatches (section 2.7) -/

/-- The start state of the eight control-bit combinations. -/
def dispState (w : Word) : State :=
  { base with mmem := [(2, 5)], dmem := Memory.write [] 0o105 w, spcPtr := 3, spc := [(3, 0o321)] }

/-- `NPC`, `INHIBIT`, `SPCPTR`, `SPC[4]`, `DC`. -/
def dispFlow (s : State) : (BitVec 14 × Bool × BitVec 5) × Word × BitVec 10 :=
  (flow s, Memory.read s.spc 4, s.dc)

theorem test_dispatch_control_bits :
    [(0o000200#32, (0o200#14, false, 3#5), 0#32), (0o040200#32, (0o200#14, true, 3#5), 0#32),
     (0o100200#32, (0o200#14, false, 4#5), 0o102#32), (0o140200#32, (0o200#14, true, 4#5), 0o101#32),
     (0o200200#32, (0o321#14, false, 2#5), 0#32), (0o240200#32, (0o321#14, true, 2#5), 0#32),
     (0o300200#32, (0o102#14, false, 3#5), 0#32), (0o340200#32, (0o102#14, true, 3#5), 0#32)].all
      (fun r => dispFlow (after 0x100F08040060 (dispState r.1)) == (r.2.1, r.2.2, 0o17)) = true := by decide

theorem test_dispatch_n_plus_1 :
    [(0o100200#32, (0o200#14, false, 4#5), 0o102#32), (0o140200#32, (0o200#14, true, 4#5), 0o100#32),
     (0o340200#32, (0o101#14, true, 3#5), 0#32)].all
      (fun r => dispFlow (after 0x100F0A040060 (dispState r.1)) == (r.2.1, r.2.2, 0o17)) = true := by decide

theorem test_dispatch_address :
    (after 0x10000804009C { base with mmem := [(2, 0xA0)], dmem := [(0o112, 0o300)] }).npc = 0o300
      ∧ (after 0x100008043040 { base with mmem := [(2, 7)], dmem := [(0o103, 0o300)] }).npc = 0o300
      ∧ [(0x100000040000, 0o277#14), (0x100000040100, 0o300#14), (0x100000040200, 0o277#14),
          (0x100000040300, 0o300#14)].all (fun p =>
            (after p.1 { base with md := 0o1234, l1 := [(0, 1)], l2 := [(0o42, 0x00840040)]
                                   dmem := [(0o100, 0o277), (0o101, 0o300)] }).npc == p.2) = true := by decide

theorem test_dispatch_lc :
    let s := { base with mmem := [(2, 0xABCD000B)], lc := 2, dmem := [(0o113, 0o300), (0o115, 0o301)] }
    (after 0x100008040C80 s).npc = 0o301 ∧ (after 0x100008040080 s).npc = 0o300 := by decide

theorem test_dispatch_ish_and_load :
    let t := after 0x100001040000 { base with lc := 0x80000040, dmem := [(0o100, 0o300)] }
    let u := after 0x100100005800 { base with amem := [(1, 0x1234)] }
    (t.npc = 0o300 ∧ t.lc = 0x42 ∧ t.vma = 0o20 ∧ t.rdDelay = 2 ∧ flagsOf t = (true, false, true))
      ∧ (u.dmem = [(5, 0x1234)] ∧ u.npc = 0o102 ∧ u.dc = 0) := by decide

/-! ## Bytes (section 2.8) -/

theorem test_byte_rows :
    [(0x18010800D0F8, 0xAAAA0000#32, 0#32, 0xAAAA0056#32), (0x18010800E0E8, 0xAAAAAAAA#32, 0#32, 0xAAAA56AA#32),
     (0x18010800F0E8, 0xAAAAAAAA#32, 0#32, 0xAAAA78AA#32), (0x18010800F0E8, 0xAAAAAAAA#32, 2#32, 0x78AAAAAA#32),
     (0x18010800C0E8, 0xAAAAAAAA#32, 0#32, 0#32), (0x18010800E0FC, 0xAAAAAAAA#32, 0#32, 0xAAAAAAAA#32),
     (0x18010800D3E0, 0xAAAAAAAA#32, 0#32, 0x12345678#32)].all
      (fun r => m3 (after r.1 { withOperands 0x12345678 r.2.1 0 base with lc := r.2.2.1 }) == r.2.2.2) = true := by
  decide

/-! ## Memory (section 2.9), with the three device pages and both sides of the RAM budget -/

def mmu : State :=
  { base with
    l1 := [(0, 1), (0x7FF, 0x3F)]
    l2 := [(0o42, 0o60000100), (0o43, 0o40000101), (0o44, 0o60004000), (0o45, 0o60036777), (0o46, 0o20000102),
           (0o47, 0o60036000), (0o50, 0o60037764), (0o1777, 0o60003777)] }

theorem test_translate :
    translateAddr 0o1234 mmu = ⟨0o60000100, 0o234, 1, false⟩
      ∧ translateAddr 0o100001234 mmu = ⟨0o60000100, 0o234, 1, false⟩
      ∧ translateAddr 0o77000123 mmu = ⟨0o36000, 0o123, 0, true⟩
      ∧ translateAddr 0o77277777 mmu = ⟨0o36000, 0o377, 0, true⟩
      ∧ translateAddr 0o77100000 mmu = ⟨0, 0, 0, false⟩
      ∧ translateAddr 0o77377400 mmu = ⟨0o60036777, 0, 0, false⟩
      ∧ translateAddr 0o77377377 mmu = ⟨0, 0o377, 0, false⟩
      ∧ translateAddr 0o77777777 mmu = ⟨0o60003777, 0o377, 31, false⟩ := by decide

theorem test_reads_and_writes :
    [(0o1234#32, (false, false, false), 0#32, (false, false, false), 0#32),
     (0o1434#32, (false, false, false), 0#32, (false, true, true), 0o101#32),
     (0o2034#32, (false, false, true), 0o4000#32, (false, false, true), 0o4000#32),
     (0o2434#32, (false, false, false), 0#32, (false, false, false), 0#32),
     (0o3034#32, (true, false, true), 0o102#32, (true, false, true), 0o102#32),
     (0o20000#32, (true, false, true), 0#32, (true, false, true), 0#32),
     (0o77777777#32, (false, false, false), 0#32, (false, false, false), 0#32)].all (fun r =>
        let t := (memRead r.1 mmu).2
        let u := memWrite r.1 0x5A mmu
        (flagsOf t, t.opc) == (r.2.1, r.2.2.1) && (flagsOf u, u.opc) == r.2.2.2) = true := by decide

theorem test_write_places :
    (memWrite 0o1234 0x5A mmu).pmem = [(0o100 * 256 + 0o234, 0x5A)] ∧ (memWrite 0o1234 0x5A mmu).pages = [(0o100, 1)]
      ∧ (memWrite 0o77777777 0x5A mmu).pmem = [(0o3777 * 256 + 0o377, 0x5A)]
      ∧ (memWrite 0o2434 0x5A mmu).trace = [⟨.bus, 0o34, 0x5A⟩]
      ∧ (memWrite 0o77000123 0x5A mmu).trace = [⟨.display, 0o77000123, 0x5A⟩]
      ∧ (memWrite 0o1434 0x5A mmu).pmem = [] ∧ (memRead 0o1434 mmu).2.pages = [(0o101, 1)] := by decide

/-- `WriteMap`, section 2.9. -/
theorem test_write_map :
    let s := { base with md := 0o1234, vma := 0x1C000000 }
    (writeMap s).l1 = [(0, 3)] ∧ (writeMap s).l2 = []
      ∧ (writeMap { writeMap s with vma := 0x02C00040 }).l2 = [(0o142, 0o60000100)]
      ∧ writeMap { s with vma := 0o60000777 } = { s with vma := 0o60000777 } := by decide

/-! ## Interrupts (section 2.10) and the location counter (R340, R342) -/

theorem test_interrupts :
    (assertUnibus 0o400 base).intstat = 0 ∧ (setStatus 0o777777 base).intstat = 0o36001
      ∧ (assertUnibus 0o1777 { base with intstat := 0o2000 }).intstat = 0o103774
      ∧ (assertUnibus 0o1234 { base with intstat := 0o103774 }).intstat = 0o103234
      ∧ (assertXbus { base with intstat := 0o103234 }).intstat = 0o143234
      ∧ (setStatus 0 { base with intstat := 0o143234 }).intstat = 0o141234
      ∧ (deassertUnibus { base with intstat := 0o141234 }).intstat = 0o40000
      ∧ (deassertXbus { base with intstat := 0o40000 }).intstat = 0 := by decide

theorem test_lc_advance :
    (lcAdvance { base with lc := 0o100 }).1.lc = 0o102
      ∧ (lcAdvance { base with lc := 0o100, icr := 0x20000000 }).1.lc = 0o101
      ∧ (lcAdvance { base with lc := 0o102 }).1.lc = 0x80000044 := by decide

/-! ## The checkpoint and the PROM image (section 2.11, R375) -/

theorem test_checkpoint_segments :
    segmentBytes (segmentTag defaultConfig .lcnt) (segmentPayload .lcnt { base with lc := 0x80000042 }) =
        [0x4C, 0x43, 0x4E, 0x54, 1, 0, 0, 0, 0x42, 0, 0, 0x80]
      ∧ segmentPayload .oalo { base with oaLo := 0xD0CC, oaLoV := true } = [0x8000D0CC]
      ∧ microWordPair 0x0805180201A3 = [0x180201A3, 0x00000805] := by decide

/-- The payload words of R361. -/
theorem test_checkpoint_words : (allSegments.map (segmentWords defaultConfig)).sum = 564298 := by decide

theorem test_prom_image :
    (loadProm [0, 0, 1, 0, 0, 0, 0, 0, 0, 0, 1, 0, 0x00, 0x00, 0x05, 0x08, 0x02, 0x18, 0xA3, 0x01] base).map
        (fun s => s.prom) = some [(0, 0x0805180201A3)]
      ∧ loadProm [0, 0, 1, 0, 0, 0, 0, 0, 0, 0, 2, 0, 0x00, 0x00, 0x05, 0x08, 0x02, 0x18, 0xA3, 0x01] base = none := by
  decide

/-! ## Witnesses: for each statement with hypotheses, a state and operands that meet them -/

/-- An `ALU.SETZ` that stores to A-memory, with no other effect. -/
def plainAlu : Instr := .aluSetz { aluSample with dest := .amem 0x7FF }

/-- An `ALU.SETA` with functional destination `f`. -/
def setDest (f : BitVec 6) : Instr := .aluSeta { aluSample with dest := .func f 31 }

theorem witness_DecodeEncodeRoundTrip :
    (Instr.aluUndef 0o42#6 aluFull).wf = true ∧ (Instr.aluUndef 0o77#6 aluSample).wf = true
      ∧ (Instr.jumpC7 jumpSample).wf = true := by decide

theorem witness_StepRunsTheDecodedInstruction :
    base.halted = false ∧ decode (nextWord { base with p1 := 0x00010800D000 }) = .aluSetz aluSample := by decide

/-- A bubble: the word at `NPC` runs, the word in `P1` is discarded. -/
theorem witness_StepRuns_bubble :
    decode (nextWord { base with inhibit := true, npc := 0o777, p1 := 0x080000000427, prom := [(511, 0x00010800D000)] })
      = .aluSetz aluSample := by decide

/-- Both outcomes: an instruction that starts no read lets the data go on to `MD`, and one that starts a read
takes the slot. -/
theorem witness_DeferredDataArrivesInSecondStep :
    (∃ t, step { base with rdDelay := 2, rdValue := 7 } = .next t ∧ t.rdDelay = 1 ∧ (readyState t).md = 7)
      ∧ (∀ x, ¬ startsRead (decode 0) (readyState { base with rdDelay := 2, rdValue := 7 }) x)
      ∧ ∃ t, step { base with rdDelay := 2, rdValue := 7, p1 := 0x00010088D028 } = .next t ∧ t.rdDelay = 2
          ∧ startsRead (decode 0x00010088D028) (readyState { base with rdDelay := 2, rdValue := 7 }) t.rdValue :=
  ⟨⟨_, rfl, by decide, by decide⟩, fun x ⟨u, h, h2, _⟩ => by cases h; revert h2; decide,
    ⟨_, rfl, by decide, ⟨_, rfl, by decide, by decide⟩⟩⟩

theorem witness_StepIsTotalUnlessHalted :
    (haltRequest State.reset).halted = true ∧ State.reset.halted = false := by decide

/-- Every memory but the rings non-empty at its last address, every flag of `INTSTAT` that can be set. -/
def fullState : State :=
  { base with
    amem := [(1023, 1)], mmem := [(31, 1)], spc := [(31, 1)], pdl := [(1023, 1)], dmem := [(2047, 1)]
    imem := [(16383, 1)], prom := [(511, 1)], l1 := [(2047, 1)], l2 := [(1023, 1)]
    pmem := [(524287, 1)], pages := [(2047, 1)], lc := 0x83FFFFFF, intstat := 0o177775 }

theorem fullState_inv : Inv fullState := by
  constructor <;> decide

theorem witness_StepKeepsInvariant : Inv fullState ∧ ∃ t, step fullState = .next t :=
  ⟨fullState_inv, _, rfl⟩

/-- For each action. -/
theorem witness_ActionsKeepInvariant :
    Inv fullState
      ∧ ∀ a ∈ [Action.step, .assertUnibus 0o400, .deassertUnibus, .assertXbus, .deassertXbus, .haltRequest,
          .restore none, .restore (some [0x55]), .loadProm [0, 0, 0, 0, 0, 0, 0, 0, 0, 0, 0, 0], .reset],
        ∃ t, act a fullState = .next t := by
  refine ⟨fullState_inv, ?_⟩
  simp only [List.forall_mem_cons, List.not_mem_nil, false_implies, implies_true, and_true]
  exact ⟨⟨_, rfl⟩, ⟨_, rfl⟩, ⟨_, rfl⟩, ⟨_, rfl⟩, ⟨_, rfl⟩, ⟨_, rfl⟩, ⟨_, rfl⟩, ⟨_, rfl⟩, ⟨_, rfl⟩, ⟨_, rfl⟩⟩

theorem witness_MirroredLocationsAgree :
    destination (setDest 0o22#6) = some (.func 0o22#6 31#5) ∧ ∃ t, exec (setDest 0o22#6) destState = .next t :=
  ⟨rfl, _, rfl⟩

theorem witness_MicrocodeMemoriesHaveOneWriter :
    (∀ f, plainAlu ≠ .jumpWrimem f) ∧ (∀ f, plainAlu ≠ .dispatchLoad f) ∧ ∃ t, exec plainAlu base = .next t :=
  ⟨fun _ h => by simp [plainAlu] at h, fun _ h => by simp [plainAlu] at h, _, rfl⟩

/-- Both sides: a halting jump and a jump that does not halt. -/
theorem witness_HaltingIsSubFieldOne :
    (∃ t, exec (.jumpC0 { jumpSample with sub := .halt }) base = .next t ∧ t.halted = true)
      ∧ ∃ t, exec (.jumpC0 { jumpSample with sub := .warned }) base = .next t ∧ t.halted = false :=
  ⟨⟨_, rfl, rfl⟩, ⟨_, rfl, rfl⟩⟩

theorem witness_QChangesOnlyByQControl :
    (∀ op f, aluPart plainAlu = some (op, f) → f.qctl = .keep) ∧ ∃ t, exec plainAlu base = .next t :=
  ⟨fun op f h => by cases h; rfl, _, rfl⟩

/-- A dispatch, and an instruction that is none. -/
theorem witness_DispatchConstantIsLoadedByDispatch :
    (∃ t, exec (decode 0x100F08040060#48) base = .next t ∧ t.dc = 0o17)
      ∧ ∃ t, exec plainAlu { base with dc := 5 } = .next t ∧ t.dc = 5 :=
  ⟨⟨_, rfl, by decide⟩, ⟨_, rfl, by decide⟩⟩

theorem witness_PresentBitsAndPromEnableAreProtected :
    ∃ t, exec plainAlu { base with promEn := false, intstat := 0o140000 } = .next t ∧ t.promEn = false :=
  ⟨_, rfl, by decide⟩

/-- `plainAlu` meets every side condition of the frame at once. -/
theorem witness_FrameOfAluAndByte :
    destination plainAlu = some (.amem 0x7FF) ∧ aIndex (.amem 0x7FF) = 1023 ∧ popjBit plainAlu = false
      ∧ functionOf (.amem 0x7FF) = .none ∧ mOperand plainAlu = .mem 2
      ∧ startsMap (functionOf (.amem 0x7FF)) = false ∧ startsAccess (functionOf (.amem 0x7FF)) = false
      ∧ startsWrite (functionOf (.amem 0x7FF)) = false
      ∧ (∀ op f, aluPart plainAlu = some (op, f) → f.qctl = .keep) ∧ ∃ t, exec plainAlu base = .next t :=
  ⟨rfl, by decide, rfl, rfl, rfl, rfl, rfl, rfl, fun op f h => by cases h; rfl, _, rfl⟩

/-- A byte instruction with a functional destination. -/
theorem witness_FrameOfAluAndByte_byte :
    destination (.byteDpb byteSample) = some (.func 0 3) ∧ ∃ t, exec (.byteDpb byteSample) base = .next t :=
  ⟨rfl, _, rfl⟩

/-- Each kind of stored word: physical memory, the micro-subroutine stack at its wrap, the three PDL forms. -/
theorem witness_DestinationStoresOneWord :
    storeTarget (.func 0o22 31) 0o1234 mmu = some (0o100 * 256 + 0o234)
      ∧ storeTarget (.func 0o32 31) 0o1234 { mmu with vma := 0o77777777 } = some 524287
      ∧ storeTarget (.amem 5) 0o1234 mmu = none
      ∧ functionOf (.func 0o15 0) = .spcPush ∧ functionOf (.func 0o11 0) = .pdlPush
      ∧ functionOf (.func 0o10 0) = .pdlAtPtr ∧ functionOf (.func 0o12 0) = .pdlAtIdx
      ∧ destination (setDest 0o22) = some (.func 0o22 31) ∧ ∃ t, exec (setDest 0o22) mmu = .next t :=
  ⟨by decide, by decide, by decide, rfl, rfl, rfl, rfl, rfl, _, rfl⟩

theorem witness_FrameOfJumps :
    (jumpSub (.jumpC7 jumpSample)).isSome = true ∧ mOperand (.jumpC7 jumpSample) = .mem 2
      ∧ popjBit (.jumpC7 jumpSample) = false
      ∧ (∀ f, jumpPart (.jumpC7 jumpSample) = some f → f.n = false ∧ f.link = .none)
      ∧ ∃ t, exec (.jumpC7 jumpSample) base = .next t :=
  ⟨rfl, rfl, rfl, fun f h => by cases h; exact ⟨rfl, rfl⟩, _, rfl⟩

/-- A call, and the instruction-memory write. -/
theorem witness_FrameOfJumps_stores :
    (∃ t, exec (.jumpC7 { jumpSample with link := .push }) { base with spcPtr := 31 } = .next t
        ∧ t.spc = [(0, 0o101)])
      ∧ (jumpSub (decode 0x08010BFFF700#48)).isSome = true
      ∧ ∃ t, exec (decode 0x08010BFFF700#48) { base with mmem := [(2, 9)] } = .next t ∧ t.imem = [(16383, 9)] :=
  ⟨⟨_, rfl, by decide⟩, by decide, ⟨_, rfl, by decide⟩⟩

/-- The plain dispatch, `DISPATCH.LC` and the table load. -/
theorem witness_FrameOfDispatches :
    (dispatchPart (decode 0x100F08040060#48)).isSome = true ∧ (dispatchPart (decode 0x100008040C80#48)).isSome = true
      ∧ decode 0x100100005800#48 = .dispatchLoad { popj := false, a := 1, m := .mem 0, dispAddr := 5 }
      ∧ popjBit (decode 0x100100005800#48) = false
      ∧ (∃ t, exec (decode 0x100F08040060#48) base = .next t)
      ∧ (∃ t, exec (decode 0x100008040C80#48) base = .next t) ∧ ∃ t, exec (decode 0x100100005800#48) base = .next t :=
  ⟨by decide, by decide, by decide, by decide, ⟨_, rfl⟩, ⟨_, rfl⟩, ⟨_, rfl⟩⟩

/-- A row of the logic table and a row of the arithmetic table. -/
theorem witness_rows : (logicRows.map (fun r => r.2.1)).getLast? = some 0o17#6
    ∧ (arithRows.map (fun r => r.2.1)).getLast? = some 0o37#6 := by decide

/-- Both sides of the equality test. -/
theorem witness_EqualityTestResult :
    (readM (.mem 2) (withOperands 5 5 0 base)).1 = readA 1 (withOperands 5 5 0 base)
      ∧ (readM (.mem 2) (withOperands 5 4 0 base)).1 ≠ readA 1 (withOperands 5 4 0 base) := by decide

/-- Each jump of the table is taken for one value of `inv` and not taken for the other, in every state. -/
theorem witness_jump_rows (rot : BitVec 5) :
    ∀ row ∈ jumpRows rot, ∀ (m a : Word) (s : State),
      (∃ f : JumpFields, if f.inv = true then ¬ row.2 m a s else row.2 m a s)
        ∧ ∃ f : JumpFields, if f.inv = true then row.2 m a s else ¬ row.2 m a s := by
  intro row _ m a s
  by_cases h : row.2 m a s
  · exact ⟨⟨jumpSample, by simpa [jumpSample] using h⟩, ⟨{ jumpSample with inv := true }, by simpa using h⟩⟩
  · exact ⟨⟨{ jumpSample with inv := true }, by simpa using h⟩, ⟨jumpSample, by simpa [jumpSample] using h⟩⟩

/-- The conditions of `JUMP.BIT` at both ends of the rotate count, of `JUMP.C1` and `JUMP.C2` with positive
operands and of `JUMP.C4` to `JUMP.C6`, each met and not met. -/
theorem witness_jump_conditions :
    ((1#32).getLsbD ((32 - (0#5).toNat) % 32) = true ∧ (2#32).getLsbD ((32 - (31#5).toNat) % 32) = true
      ∧ (1#32).getLsbD ((32 - (31#5).toNat) % 32) = false)
      ∧ ((if Config.jumpCmpSigned = true then (3#32).toInt < (5#32).toInt else (3#32).toNat < (5#32).toNat)
        ∧ ¬ (if Config.jumpCmpSigned = true then (7#32).toInt < (7#32).toInt else (7#32).toNat < (7#32).toNat))
      ∧ ((if Config.jumpCmpSigned = true then (7#32).toInt ≤ (7#32).toInt else (7#32).toNat ≤ (7#32).toNat)
        ∧ ¬ (if Config.jumpCmpSigned = true then (5#32).toInt ≤ (3#32).toInt else (5#32).toNat ≤ (3#32).toNat))
      ∧ (interruptPresent { base with intstat := 0o40000 } ∧ interruptPresent { base with intstat := 0o100000 }
        ∧ (0x04000000#32).getLsbD 26 = true)
      ∧ (base.pageFault = false ∧ ¬ interruptPresent base ∧ base.icr.getLsbD 26 = false) := by
  unfold interruptPresent anyBit
  cases Config.jumpCmpSigned <;> decide

/-- A configuration with other values: two rings of two slots, another function `LCPOS`, one bit of page number more,
the framebuffer's page for the status register. -/
def otherConfig : Config :=
  { defaultConfig with
    lcHistN := 2, pcHistN := 2, pnMask := 0x7FFF, intstatPage := 0o36000
    lcPosTable := some ((List.range 256).map (fun k => BitVec.ofNat 5 (31 - k % 32))) }

/-- A machine of that configuration in its reset state. -/
def otherBase : State := { resetWith otherConfig with p1pc := 0o100, npc := 0o101 }

/-- The two modes, with instruction bits 0 and the last value of the counter's low bits; another function. -/
theorem witness_LcPositionResult :
    ({ base with icr := 0x20000000, lc := 3 } : State).icr.getLsbD 29 = true ∧ base.icr.getLsbD 29 = false
      ∧ base.cfg.lcPosTable = none
      ∧ lcPos 0 { base with icr := 0x20000000, lc := 3 } = 8 ∧ lcPos 0 { base with lc := 3 } = 16
      ∧ otherBase.cfg.lcPosTable.isSome = true ∧ lcPos 5 { otherBase with icr := 0x20000000, lc := 3 } = 26 := by
  decide

/-- With that configuration a ring with slots takes the executed addresses in turn and another one the old `LC` of an
advance that fetches; a page number is masked as the configuration says, and the status register stands on the
framebuffer's page. -/
theorem test_other_configuration :
    (after 0 otherBase).pcHist = ⟨1, [(0, 0o100)]⟩
      ∧ (after 0 { otherBase with pcHist := ⟨1, [(0, 0o77)]⟩ }).pcHist = ⟨0, [(0, 0o77), (1, 0o100)]⟩
      ∧ (lcAdvance { otherBase with lc := 0x80000040 }).1.lcHist = ⟨1, [(0, 0x80000040)]⟩
      ∧ (lcAdvance { otherBase with lc := 0x40 }).1.lcHist = ⟨0, []⟩
      ∧ pageOf base.cfg 0o60040001 = 1 ∧ pageOf otherConfig 0o60040001 = 0o40001
      ∧ (devRead .fb 0o40 { otherBase with intstat := 1 }).1 = 1
      ∧ (devWrite .bus 0o40 0o36001 otherBase).intstat = 0
      ∧ (devWrite .fb 0o40 0o36001 otherBase).intstat = 0o36001 := by
  decide

/-- Each function index of the statement is the low five bits of a destination, with bit 10 clear or set. -/
theorem witness_DestinationWrites :
    ∀ i : BitVec 5, (0#1 ++ i).extractLsb' 0 5 = i ∧ (1#1 ++ i).extractLsb' 0 5 = i := by decide

/-- The boundaries of the windows. -/
theorem witness_TranslationCases :
    (inDisplay 0o77000000 ∧ inDisplay 0o77077777 ∧ inDisplay 0o77200000 ∧ inDisplay 0o77277777)
      ∧ (inDiag 0o77377400 ∧ inDiag 0o77377777)
      ∧ (¬ inDisplay 0o76777777 ∧ ¬ inDisplay 0o77100000 ∧ ¬ inDisplay 0o77177777 ∧ ¬ inDisplay 0o77300000)
      ∧ (¬ inDiag 0o77377377 ∧ ¬ inDiag 0o77400000 ∧ ¬ inDisplay 0 ∧ ¬ inDiag 0) := by
  unfold inDisplay inDiag
  decide

/-- What the case statements of a virtual access test: display, access bit, write bit, page number. -/
def accessCase (v : Word) (s : State) : Bool × Bool × Bool × Word :=
  let t := translateAddr v s
  (t.display, t.frame.getLsbD s.cfg.accessBit, t.frame.getLsbD s.cfg.writeBit, pageNumber t.frame s)

/-- Every case of a virtual read and of a virtual write, with RAM pages 2047 and, beyond the budget, 2048. -/
theorem witness_VirtualAccessCases :
    accessCase 0o77000123 mmu = (true, false, false, 0o36000) ∧ accessCase 0o3034 mmu = (false, false, true, 0o102)
      ∧ accessCase 0o1434 mmu = (false, true, false, 0o101) ∧ accessCase 0o3434 mmu = (false, true, true, 0o36000)
      ∧ accessCase 0o2434 mmu = (false, true, true, 0o36777) ∧ accessCase 0o4034 mmu = (false, true, true, 0o37764)
      ∧ accessCase 0o77777777 mmu = (false, true, true, 2047) ∧ accessCase 0o2034 mmu = (false, true, true, 2048)
      ∧ (mmu.cfg.pageFb = 0o36000 ∧ mmu.cfg.pageBus = 0o36777 ∧ mmu.cfg.pageExtra = 0o37764)
      ∧ mmu.cfg.ramPages = 2048 ∧ ¬ isDevicePage 2047 mmu ∧ ¬ isDevicePage 2048 mmu := by
  unfold isDevicePage
  decide

theorem witness_MemoryRoundTrip :
    (tableFrame 0o77777777 mmu).getLsbD 23 = true ∧ (tableFrame 0o77777777 mmu).getLsbD 22 = true
      ∧ (pageNumber (tableFrame 0o77777777 mmu) mmu = 2047 ∧ mmu.cfg.ramPages = 2048
        ∧ mmu.cfg.accessBit = 23 ∧ mmu.cfg.writeBit = 22)
      ∧ ¬ isDevicePage 2047 mmu ∧ ¬ inDisplay 0o77777777 ∧ ¬ inDiag 0o77777777
      ∧ (tableFrame 0o3034 mmu).getLsbD 23 = false ∧ ¬ inDisplay 0o3034 ∧ ¬ inDiag 0o3034 := by
  unfold inDisplay inDiag isDevicePage
  decide

theorem witness_MapWriteTakesEffectAtOnce :
    destState.md = 0o1234 ∧ ¬ inDisplay destState.md ∧ ¬ inDiag destState.md
      ∧ (0x06C00040#32).getLsbD 25 = true ∧ (0x06C00040#32).getLsbD 26 = true ∧ (0x02C00040#32).getLsbD 26 = false := by
  unfold inDisplay inDiag
  decide

/-- The clauses of a device access: the device that holds the controls and one that does not, the two effective
offsets and a neighbour, a word with every bit of the mask and one that lacks a bit. -/
theorem witness_DeviceAccesses :
    (holdsControls base.cfg .bus = true ∧ holdsControls base.cfg .fb = false ∧ holdsControls otherConfig .fb = true)
      ∧ (base.cfg.intstatOffset = 0o40 ∧ base.cfg.promctlOffset = 0o12 ∧ base.cfg.promctlMask = 0o44)
      ∧ (devWrite .bus 0o12 0o44 base).promEn = false ∧ (devWrite .bus 0o12 0o40 base).promEn = true
      ∧ (devWrite .bus 0o13 0o44 base).promEn = true ∧ (devWrite .fb 0o12 0o44 base).promEn = true
      ∧ ((0o44#32).getLsbD 2 = true ∧ (0o40#32).getLsbD 2 = false) := by decide

/-- The enable bit clear and set, the present bit clear and set. -/
theorem witness_InterruptController :
    (¬ anyBit 0 base.cfg.isUbEnable ∧ anyBit 0o2000 base.cfg.isUbEnable)
      ∧ ¬ anyBit 0 base.cfg.isUbPresent ∧ anyBit 0o100000 base.cfg.isUbPresent := by
  unfold anyBit
  decide

theorem witness_CheckpointRoundTrip : Inv fullState ∧ fullState.amem ≠ [] := ⟨fullState_inv, by decide⟩

theorem witness_TruncatedCheckpoint :
    configOk base.cfg = true ∧ destState.cfg = base.cfg ∧ 0 < (dump base).length := by
  refine ⟨by decide, rfl, Nat.lt_of_lt_of_le (by decide : 0 < base.cfg.ckptMagic.length) ?_⟩
  simp only [dump, List.length_append, Nat.add_assoc]
  exact Nat.le_add_right _ _

/-- A machine that has restored; a file that cannot be opened; an instruction that gives a next state. -/
theorem witness_RestoreHappensOnce :
    ({ base with restored := true } : State).restored = true ∧ restore none base = base
      ∧ ∃ t, exec plainAlu { base with restored := true } = .next t ∧ t.restored = true :=
  ⟨rfl, rfl, _, rfl, by decide⟩

/-- No instruction; as many as the PROM holds, all of which stay; one more, of which the first one does not stay
and the second one does. -/
theorem witness_PromImageLoads :
    let image := fun n => List.replicate n ((0, 1) : BitVec 16 × MicroWord)
    ((image 0).length < 2 ^ 32 ∧ (image 512).length < 2 ^ 32 ∧ (image 513).length < 2 ^ 32)
      ∧ (image 512).length ≤ 0 + 512 ∧ ¬ (image 513).length ≤ 0 + 512 ∧ (image 513).length ≤ 1 + 512 := by
  simp only [List.length_replicate]
  decide

/-- The configurations that the rules allow include another one than the default. -/
theorem witness_ResetMeetsInvariant : configOk otherConfig = true ∧ otherConfig ≠ defaultConfig := by decide

/-- Every action has a next state in a machine of another configuration. -/
theorem witness_ConfigurationNeverChanges :
    ∀ a ∈ [Action.step, .assertUnibus 0o400, .deassertUnibus, .assertXbus, .deassertXbus, .haltRequest,
        .restore none, .restore (some [0x55]), .loadProm [0, 0, 0, 0, 0, 0, 0, 0, 0, 0, 0, 0], .reset],
      ∃ t, act a otherBase = .next t := by
  simp only [List.forall_mem_cons, List.not_mem_nil, false_implies, implies_true, and_true]
  exact ⟨⟨_, rfl⟩, ⟨_, rfl⟩, ⟨_, rfl⟩, ⟨_, rfl⟩, ⟨_, rfl⟩, ⟨_, rfl⟩, ⟨_, rfl⟩, ⟨_, rfl⟩, ⟨_, rfl⟩, ⟨_, rfl⟩⟩

end Sys2Proof.Tests
end

section
/-! SUPPORT. What an instruction can do, said once (`exec_unitRun`): it runs one of the four units on its own
fields, or it is one of the two instructions that write a program memory or the dispatch table. From it, the
statement of spec/00_scope.md R15 on the outcomes of a step. -/

namespace Sys2Proof.Proofs

open Sys2Proof.Machine Sys2Proof.Reading

/-! ## The units an instruction runs -/

/-- The unit that gives the result of an instruction in the state `s`: the fields are the instruction's own,
and the function of the unit (the ALU operation, the byte output, the condition, the position) is free. -/
inductive UnitRun (s : State) : Instr → Result → Prop
  | alu {i : Instr} {op : BitVec 6} {f : AluFields} (g : Word → Word → Bool → Word → AluResult)
      (fields : aluPart i = some (op, f)) : UnitRun s i (aluUnit op g f s)
  | byte {i : Instr} {f : ByteFields} (g : Word → Word → State → Word)
      (fields : bytePart i = some f) : UnitRun s i (byteUnit g f s)
  | jump {i : Instr} {f : JumpFields} (g : Word → Word → State → Bool)
      (fields : jumpPart i = some f) : UnitRun s i (jumpUnit g f s)
  | dispatch {i : Instr} {f : DispatchFields} (g : State → BitVec 5)
      (fields : dispatchPart i = some f) : UnitRun s i (dispatchUnit g f s)
  | wrimem (f : WrimemFields) : UnitRun s (.jumpWrimem f) (execJumpWrimem f s)
  | load (f : LoadFields) : UnitRun s (.dispatchLoad f) (execDispatchLoad f s)

/-- Every instruction runs a unit; none is refused and none traps (R131, R380). -/
theorem exec_unitRun (i : Instr) (s : State) : UnitRun s i (exec i s) := by
  unfold exec
  cases i with
  | aluSetz | aluAnd | aluAndca | aluSetm | aluAndcm | aluSeta | aluXor | aluIor | aluAndcb | aluEqv | aluSetca
  | aluOrca | aluSetcm | aluOrcm | aluOrcb | aluSeto => exact .alu _ rfl
  | aluMinusOne | aluAndMinusOne | aluAndcaMinusOne | aluMMinusOne | aluOrcaPlus | aluOrcaPlusAnd | aluSub
  | aluOrcaPlusM | aluIorPlus | aluAdd | aluIorPlusAndca | aluIorPlusM | aluMPlus | aluMPlusAnd | aluMPlusOrca
  | aluMPlusM => exact .alu _ rfl
  | aluMulstep | aluDivstep | aluRemcorr | aluDivfirst | aluUndef => exact .alu _ rfl
  | byteInvalid | byteLdb | byteSel | byteDpb => exact .byte _ rfl
  | jumpBit | jumpC0 | jumpC1 | jumpC2 | jumpC3 | jumpC4 | jumpC5 | jumpC6 | jumpC7 => exact .jump _ rfl
  | dispatch | dispatchLc => exact .dispatch _ rfl
  | jumpWrimem f => exact .wrimem f
  | dispatchLoad f => exact .load f

/-- A unit always gives a next state, whatever its function. -/
theorem UnitRun.exists_next {s : State} {i : Instr} {r : Result} (run : UnitRun s i r) : ∃ t, r = .next t := by
  cases run with
  | alu | byte | jump | dispatch | wrimem | load => exact ⟨_, rfl⟩

theorem exec_exists_next (i : Instr) (s : State) : ∃ t, exec i s = .next t :=
  (exec_unitRun i s).exists_next

/-! ## The step of a halted and of a running machine -/

theorem step_of_halted {s : State} (halted : s.halted = true) : step s = .fault .halted :=
  if_pos halted

theorem step_of_running {s : State} (running : s.halted = false) :
    step s = exec (decode (nextWord s)) (readyState s) :=
  if_neg (by simp [running])

/-- Settles O9: a halted machine takes no step, and a running one executes the instruction that the merged
word decodes to, which runs a unit. -/
theorem stepIsTotalUnlessHalted : Obligations.StepIsTotalUnlessHalted := by
  intro s
  constructor
  · exact step_of_halted
  · intro running
    rw [step_of_running running]
    exact exec_exists_next _ _

end Sys2Proof.Proofs
end

section
/-! SUPPORT. The byte unit (spec/44_byte.md): the bits of its mask and of its merge, and what a byte instruction
gives in terms of its output (`byteUnit_eq_next`). From them, the results of `BYTE.LDB` and `BYTE.INVALID`. -/

namespace Sys2Proof.Proofs

open Sys2Proof.Machine Sys2Proof.Reading

/-! ## The mask and the merge, bit by bit -/

/-- The mask of R326: the bits from `mpos` up to the top of the field, which wraps modulo 32. -/
theorem getLsbD_fieldMask (mpos widthm1 : BitVec 5) (k : Nat) (hk : k < 32) :
    (fieldMask mpos widthm1).getLsbD k =
      decide (k ≤ (mpos.toNat + widthm1.toNat) % 32 ∧ mpos.toNat ≤ k) := by
  have ones (i : Nat) : (0xFFFFFFFF#32).getLsbD i = decide (i < 32) := BitVec.getLsbD_allOnes
  have below_top : 31 - (mpos + widthm1).toNat + k < 32 ↔ k ≤ (mpos.toNat + widthm1.toNat) % 32 := by
    rw [BitVec.toNat_add]
    omega
  have from_mpos : ¬ k < mpos.toNat ∧ k - mpos.toNat < 32 ↔ mpos.toNat ≤ k := by omega
  simp only [fieldMask, BitVec.getLsbD_and, BitVec.getLsbD_ushiftRight, BitVec.getLsbD_shiftLeft, ones, hk,
    decide_true, Bool.true_and, ← decide_not, ← Bool.decide_and, below_top, from_mpos]

/-- The merge of R321 takes a bit from M where the mask has a 1 and from A where it has a 0. -/
theorem getLsbD_mergeField (mask m a : Word) (k : Nat) (hk : k < 32) :
    (mergeField mask m a).getLsbD k = if mask.getLsbD k then m.getLsbD k else a.getLsbD k := by
  simp only [mergeField, BitVec.getLsbD_or, BitVec.getLsbD_and, BitVec.getLsbD_not, hk, decide_true, Bool.true_and]
  cases mask.getLsbD k with
  | true => simp
  | false => simp

/-! ## The byte instructions -/

/-- A byte instruction always goes on, with its output written to its destination (R320, R321). -/
theorem byteUnit_eq_next (output : Word → Word → State → Word) (f : ByteFields) (s : State) :
    byteUnit output f s =
      .next (byteNext f (output (readM f.m s).1 (readA f.a s) (readM f.m s).2) s) := rfl

/-- `BYTE.LDB` puts out the rotated M, merged under the mask anchored at bit 0 (R323). -/
theorem exec_byteLdb (f : ByteFields) (s : State) :
    exec (.byteLdb f) s =
      .next (byteNext f
        (mergeField (fieldMask 0#5 f.widthm1) (rotl32 (readM f.m s).1 f.pos) (readA f.a s)) s) := by
  unfold exec execByteLdb
  exact byteUnit_eq_next _ f s

/-- `BYTE.INVALID` puts out 0 (R322). -/
theorem exec_byteInvalid (f : ByteFields) (s : State) :
    exec (.byteInvalid f) s = .next (byteNext f 0#32 s) := by
  unfold exec execByteInvalid
  exact byteUnit_eq_next _ f s

@[simp] theorem byteNext_halted (f : ByteFields) (out : Word) (s : State) :
    (byteNext f out s).halted = s.halted := by
  simp [byteNext]

/-- Settles O31: the mask anchored at bit 0 selects the low `widthm1 + 1` bits, and they come from the rotated M. -/
theorem loadByteResult : Obligations.LoadByteResult := by
  intro f s
  refine ⟨_, ?_, exec_byteLdb f s⟩
  intro k hk
  have width_lt : f.widthm1.toNat < 32 := f.widthm1.isLt
  have mask_bit : (fieldMask 0#5 f.widthm1).getLsbD k = decide (k ≤ f.widthm1.toNat) := by
    simp [getLsbD_fieldMask _ _ k hk, Nat.mod_eq_of_lt width_lt]
  simp only [getLsbD_mergeField _ _ _ k hk, mask_bit, decide_eq_true_eq, getLsbD_rotl32 _ _ k hk]

/-- Settles O33: the output 0 is written like any other, and no operation of the unit touches the halt flag. -/
theorem invalidByteResult : Obligations.InvalidByteResult :=
  fun f s => ⟨exec_byteInvalid f s, byteNext_halted f 0#32 s⟩

end Sys2Proof.Proofs
end

section
/-! SUPPORT. The sticky flag of spec/46_checkpoint.md R368: what `restore` can do, said once (`restore_cases`), and
the flag through each unit an instruction can run. From them, the statement that a restore happens once. -/

namespace Sys2Proof.Proofs

open Sys2Proof.Machine

/-! ## What a restore can do -/

theorem restore_of_restored (file : Option (List Byte)) {s : State} (restored : s.restored = true) :
    restore file s = s :=
  if_pos restored

/-- A restore changes nothing, or the machine had not restored, the file is sound, and its segments are loaded
with the flag set (R367, R368, R370). -/
theorem restore_cases (file : Option (List Byte)) (s : State) :
    restore file s = s ∨
      s.restored = false ∧ ∃ bytes segs, file = some bytes ∧ soundSegments s.cfg bytes = some segs ∧
        restore file s = { segs.foldl loadTagged s with restored := true } := by
  cases flag : s.restored with
  | true => exact .inl (restore_of_restored file flag)
  | false =>
    cases file with
    | none => simp [restore]
    | some bytes =>
      cases sound : soundSegments s.cfg bytes with
      | none => simp [restore, sound]
      | some segs => exact .inr ⟨rfl, bytes, segs, rfl, sound, by simp [restore, flag, sound]⟩

/-- A restore that changes the machine sets the flag. -/
theorem restore_eq_self_or_restored (file : Option (List Byte)) (s : State) :
    restore file s = s ∨ (restore file s).restored = true := by
  obtain unchanged | ⟨-, bytes, segs, -, -, loaded⟩ := restore_cases file s
  · exact .inl unchanged
  · exact .inr (by rw [loaded])

/-! ## The flag through an instruction -/

/-- Every unit keeps the flag, whatever its function. -/
theorem UnitRun.restored_eq {s t : State} {i : Instr} {r : Result} (run : UnitRun s i r) (next : r = .next t) :
    t.restored = s.restored := by
  cases run with
  | alu | byte | wrimem | load => cases next; simp
  | jump | dispatch =>
    cases next
    split
    · simp
    · simp

theorem exec_restored {i : Instr} {s t : State} (next : exec i s = .next t) : t.restored = s.restored :=
  (exec_unitRun i s).restored_eq next

/-- Settles O55: the flag guards the restore, every other outcome of a restore leaves the machine as it was, each
unit keeps the flag, and the reset state has it clear. -/
theorem restoreHappensOnce : Obligations.RestoreHappensOnce :=
  ⟨fun file _ restored => restore_of_restored file restored, restore_eq_self_or_restored,
    fun _ _ _ next => exec_restored next, rfl⟩

end Sys2Proof.Proofs
end

section
/-! SUPPORT. Every unit keeps the invariant, hence every instruction and every step; so do the actions of the
environment and of the host, a restore by the laws of the memories that a file fills. Next to it, that no action
changes the configuration. -/

namespace Sys2Proof.Machine

/-! ## Memories and rings that a file fills -/

/-- What a memory lists at none of its addresses, a memory appended to it decides. -/
theorem Memory.read_append_right {w : Nat} (m n : Memory w) (a : Nat) (absent : ∀ c ∈ m, c.1 ≠ a) :
    Memory.read (m ++ n) a = Memory.read n a := by
  induction m with
  | nil => rfl
  | cons c m ih =>
    rw [List.cons_append, Memory.read_cons, if_neg (absent c (by simp))]
    exact ih fun d hd => absent d (by simp [hd])

/-- An address that the appended memory does not list reads as before. -/
theorem Memory.read_append_left {w : Nat} (m n : Memory w) (a : Nat) (absent : ∀ c ∈ n, c.1 ≠ a) :
    Memory.read (m ++ n) a = Memory.read m a := by
  induction m with
  | nil =>
    induction n with
    | nil => rfl
    | cons d n ih =>
      rw [List.nil_append, Memory.read_cons, if_neg (absent d (by simp))]
      exact ih fun c hc => absent c (by simp [hc])
  | cons c m ih => rw [List.cons_append, Memory.read_cons, Memory.read_cons, ih]

/-- Reading among the entries that a condition on the address keeps. -/
theorem Memory.read_filter {w : Nat} (m : Memory w) (p : Nat → Bool) (a : Nat) :
    Memory.read (m.filter (fun c => p c.1)) a = if p a then Memory.read m a else 0#w := by
  induction m with
  | nil => simp
  | cons c m ih =>
    by_cases hp : p c.1 = true
    · rw [List.filter_cons_of_pos (p := fun c : Nat × BitVec w => p c.1) hp, Memory.read_cons, Memory.read_cons, ih]
      by_cases hc : c.1 = a
      · subst hc; simp [hp]
      · simp [hc]
    · rw [List.filter_cons_of_neg (p := fun c : Nat × BitVec w => p c.1) hp, ih, Memory.read_cons]
      by_cases hc : c.1 = a
      · subst hc; simp [hp]
      · simp [hc]

/-- The words of a file below an address, and what a good memory lists from that address on, make a good
memory. -/
theorem Memory.good_ofWords_append {w : Nat} (cap n : Nat) (ws : List (BitVec w)) (m : Memory w)
    (count : ws.length = n) (fits : n ≤ cap) (good : Memory.good cap m = true) :
    Memory.good cap (Memory.ofWords 0 ws ++ m.filter (fun c => n ≤ c.1)) = true := by
  have low : ∀ c ∈ Memory.ofWords 0 ws, c.1 < n := fun c hc => by
    have := (Memory.ofWords_bounds 0 ws c hc).2.1
    omega
  obtain ⟨rising, nonzero, below⟩ := (Memory.good_iff cap m).mp good
  refine (Memory.good_iff _ _).mpr ⟨?_, ?_, ?_⟩
  · refine Memory.rising_append _ _ (Memory.rising_ofWords 0 ws) (Memory.rising_filter m _ rising) ?_
    intro c hc d hd
    have := of_decide_eq_true (List.mem_filter.mp hd).2
    exact Nat.lt_of_lt_of_le (low c hc) this
  · intro c hc
    rcases List.mem_append.mp hc with h | h
    · exact (Memory.ofWords_bounds 0 ws c h).2.2
    · exact nonzero c (List.mem_filter.mp h).1
  · intro c hc
    rcases List.mem_append.mp hc with h | h
    · exact Nat.lt_of_lt_of_le (low c h) fits
    · exact below c (List.mem_filter.mp h).1

/-- After a restore every page below the save count exists, and the others are as they were (R369). -/
theorem read_pagesAfterRestore (n : Nat) (pages : Memory 1) (p : Nat) :
    Memory.read (pagesAfterRestore n pages) p = if p < n then 1#1 else Memory.read pages p := by
  have tail := Memory.read_filter pages (fun a => decide (n ≤ a)) p
  have head := Memory.read_ofWords 0 (List.replicate n 1#1) p
  rw [Nat.zero_add] at head
  unfold pagesAfterRestore
  by_cases hp : p < n
  · rw [Memory.read_append_left _ _ _ fun c hc => ?_, head, if_pos hp]
    · simp [List.getD_eq_getElem?_getD, hp]
    · have := of_decide_eq_true (List.mem_filter.mp hc).2
      omega
  · rw [Memory.read_append_right _ _ _ fun c hc => ?_, tail, if_neg hp, if_pos (by simpa using hp)]
    have := (Memory.ofWords_bounds 0 _ c hc).2.1
    rw [List.length_replicate] at this
    omega

/-- A ring loaded with as many entries as its capacity is good (R355). -/
theorem Ring.good_ofWords (cap : Nat) (ws : List Word) (count : ws.length = cap) :
    Ring.good cap (Ring.ofWords ws) = true := by
  have slots : Memory.good cap (Memory.ofWords 0 ws) = true := Memory.good_ofWords cap ws count.le
  simp [Ring.good, Ring.ofWords, slots]

end Sys2Proof.Machine

namespace Sys2Proof.Proofs

open Sys2Proof.Machine Sys2Proof.Reading

/-! ## Reset and the step -/

/-- A reset state holds empty memories and zeros, so only its configuration is in question. -/
theorem resetWith_inv {c : Config} (ok : configOk c = true) : Inv (resetWith c) where
  cfg := ok
  amem := rfl
  mmem := rfl
  spc := rfl
  pdl := rfl
  dmem := rfl
  imem := rfl
  prom := rfl
  l1 := rfl
  l2 := rfl
  pmem := rfl
  pages := rfl
  created := rfl
  lc := (by decide : (0#32).extractLsb' 26 5 = 0#5)
  intstat := BitVec.zero_and
  lcHist := rfl
  pcHist := rfl
  pdlHist := rfl

/-- Settles O12: the default configuration is an allowed one. -/
theorem resetMeetsInvariant : Obligations.ResetMeetsInvariant :=
  ⟨resetWith_inv (c := defaultConfig) (by decide), fun _ ok => resetWith_inv ok⟩

/-- The instruction-memory write stores below the size of the memory, whatever its target (R305). -/
theorem execJumpWrimem_inv {f : WrimemFields} {s t : State} (inv : Inv s) (next : execJumpWrimem f s = .next t) :
    Inv t := by
  cases next
  have ready : Inv (haltIf f.sub (readM f.m s).2) := (inv.readM f.m).haltIf f.sub
  have below : f.target.toNat % s.cfg.imemSize < s.cfg.imemSize :=
    Nat.mod_lt _ (configOk_imemSize_pos s.cfg inv.cfg)
  refine Inv.popjIf (s := { haltIf f.sub (readM f.m s).2 with imem := Memory.write _ _ _ }) ?_ f.popj
  exact { ready with imem := Memory.good_write _ _ _ _ ready.imem (by simpa using below) }

/-- The table load stores at an 11-bit address (R274). -/
theorem execDispatchLoad_inv {f : LoadFields} {s t : State} (inv : Inv s) (next : execDispatchLoad f s = .next t) :
    Inv t := by
  cases next
  have ready : Inv (readM f.m s).2 := inv.readM f.m
  refine Inv.popjIf (s := { (readM f.m s).2 with dmem := Memory.write _ _ _ }) ?_ f.popj
  exact { ready with dmem := Memory.good_write _ _ _ _ ready.dmem f.dispAddr.isLt }

theorem UnitRun.inv {s t : State} {i : Instr} {r : Result} (run : UnitRun s i r) (inv : Inv s)
    (next : r = .next t) : Inv t := by
  cases run with
  | alu g => exact inv.aluUnit _ g _ t next
  | byte g => exact inv.byteUnit g _ t next
  | jump g => exact inv.jumpUnit g _ t next
  | dispatch g => exact inv.dispatchUnit g _ t next
  | wrimem f => exact execJumpWrimem_inv inv next
  | load f => exact execDispatchLoad_inv inv next

theorem exec_inv {i : Instr} {s t : State} (inv : Inv s) (next : exec i s = .next t) : Inv t :=
  (exec_unitRun i s).inv inv next

/-- A step that gives a next state was taken by a running machine, and is its instruction (R15, R150). -/
theorem exec_of_step {s t : State} (next : step s = .next t) :
    exec (decode (nextWord s)) (readyState s) = .next t := by
  cases halted : s.halted with
  | true => rw [step_of_halted halted] at next; cases next
  | false => rw [← step_of_running halted]; exact next

/-- Settles O13: the fetching part keeps the invariant, and so does every unit. -/
theorem stepKeepsInvariant : Obligations.StepKeepsInvariant :=
  fun _ _ inv next => exec_inv inv.readyState (exec_of_step next)

/-! ## The interrupt operations -/

/-- A state that differs in `INTSTAT` only, where no bit is set but old ones and ones that some rule sets. -/
theorem inv_withIntstat {s : State} (inv : Inv s) (x : Word)
    (bits : ∀ k, x.getLsbD k = true → s.intstat.getLsbD k = true ∨ (intstatBits s.cfg).getLsbD k = true) :
    Inv { s with intstat := x } := by
  refine { inv with intstat := ?_ }
  apply BitVec.eq_of_getLsbD_eq
  intro k hk
  have old : (s.intstat &&& ~~~intstatBits s.cfg).getLsbD k = (0#32).getLsbD k :=
    congrArg (BitVec.getLsbD · k) inv.intstat
  simp only [BitVec.getLsbD_and, BitVec.getLsbD_not, hk, decide_true, Bool.true_and, BitVec.getLsbD_zero] at old ⊢
  cases set : x.getLsbD k with
  | false => rfl
  | true => rcases bits k set with h | h <;> simp_all

theorem getLsbD_intstatBits (c : Config) (k : Nat) :
    (intstatBits c).getLsbD k = (c.isUbPresent.getLsbD k || c.isXbPresent.getLsbD k || c.isVector.getLsbD k
      || c.isWritable.getLsbD k) := by
  simp only [intstatBits, BitVec.getLsbD_or]

theorem assertUnibus_inv {s : State} (inv : Inv s) (v : Word) : Inv (assertUnibus v s) := by
  unfold assertUnibus
  split
  · refine inv_withIntstat inv _ fun k set => ?_
    simp only [BitVec.getLsbD_or, BitVec.getLsbD_and, Bool.or_eq_true, Bool.and_eq_true] at set
    simp only [getLsbD_intstatBits, Bool.or_eq_true]
    tauto
  · exact inv

theorem deassertUnibus_inv {s : State} (inv : Inv s) : Inv (deassertUnibus s) := by
  unfold deassertUnibus
  split
  · refine inv_withIntstat inv _ fun k set => ?_
    simp only [BitVec.getLsbD_and, Bool.and_eq_true] at set
    exact .inl set.1
  · exact inv

theorem assertXbus_inv {s : State} (inv : Inv s) : Inv (assertXbus s) := by
  refine inv_withIntstat inv _ fun k set => ?_
  simp only [BitVec.getLsbD_or, Bool.or_eq_true] at set
  simp only [getLsbD_intstatBits, Bool.or_eq_true]
  tauto

theorem deassertXbus_inv {s : State} (inv : Inv s) : Inv (deassertXbus s) := by
  unfold deassertXbus
  split
  · refine inv_withIntstat inv _ fun k set => ?_
    simp only [BitVec.getLsbD_and, Bool.and_eq_true] at set
    exact .inl set.1
  · exact inv

/-! ## The PROM load -/

/-- Every word of an image lands below 512 (R375). -/
theorem placeProm_good (count addr : Nat) (bytes : List Byte) (prom prom' : Memory 48)
    (good : Memory.good 512 prom = true) (placed : placeProm count addr bytes prom = some prom') :
    Memory.good 512 prom' = true := by
  induction count generalizing addr bytes prom with
  | zero => cases placed; exact good
  | succ count ih =>
    unfold placeProm at placed
    split at placed
    · exact ih _ _ _ (Memory.good_write _ _ _ _ good (Nat.mod_lt _ (by decide))) placed
    · cases placed

/-- A PROM load that succeeds changes the PROM and nothing else, by placing the words of the image (R375). -/
theorem loadProm_some {bytes : List Byte} {s t : State} (loaded : loadProm bytes s = some t) :
    ∃ count addr rest prom, placeProm count addr rest s.prom = some prom ∧ t = { s with prom := prom } := by
  unfold loadProm at loaded
  split at loaded
  · obtain ⟨prom, placed, rfl⟩ := Option.map_eq_some_iff.mp loaded
    exact ⟨_, _, _, prom, placed, rfl⟩
  · cases loaded

theorem loadProm_inv {bytes : List Byte} {s t : State} (inv : Inv s) (loaded : loadProm bytes s = some t) :
    Inv t := by
  obtain ⟨count, addr, rest, prom, placed, rfl⟩ := loadProm_some loaded
  exact { inv with prom := placeProm_good _ _ _ _ _ inv.prom placed }

/-! ## Restore -/

theorem length_microWordsOfWords : ∀ (n : Nat) (ws : List Word), ws.length = 2 * n →
    (microWordsOfWords ws).length = n
  | 0, [], _ => rfl
  | n + 1, _ :: _ :: ws, h => by
    simp only [List.length_cons] at h
    simp only [microWordsOfWords, List.length_cons]
    rw [length_microWordsOfWords n ws (by omega)]

/-- The physical memory and the pages that a `PMEM` segment leaves (R369). -/
theorem loadSegment_pmem_inv {s : State} (inv : Inv s) (ws : List Word)
    (count : ws.length = s.cfg.savePages * pageWords) : Inv (loadSegment .pmem ws s) := by
  have pagesFit : s.cfg.savePages ≤ s.cfg.ramPages := configOk_savePages_le s.cfg inv.cfg
  have wordsFit : s.cfg.savePages * pageWords ≤ s.cfg.ramPages * pageWords := Nat.mul_le_mul_right _ pagesFit
  refine { inv with pmem := ?_, pages := ?_, created := ?_ }
  · exact Memory.good_ofWords_append _ _ ws s.pmem count wordsFit inv.pmem
  · exact Memory.good_ofWords_append _ _ _ s.pages List.length_replicate pagesFit inv.pages
  · rw [created_iff]
    intro c hc
    show Memory.read (pagesAfterRestore s.cfg.savePages s.pages) (c.1 / pageWords) = 1#1
    rw [read_pagesAfterRestore]
    split
    · rfl
    · rename_i high
      rcases List.mem_append.mp hc with h | h
      · have := (Memory.ofWords_bounds 0 ws c h).2.1
        rw [Nat.zero_add, count] at this
        exact absurd (Nat.div_lt_of_lt_mul (Nat.mul_comm .. ▸ this)) high
      · exact (created_iff _ _).mp inv.created c (List.mem_filter.mp h).1

/-- A segment of the right word count keeps the invariant (R369). -/
theorem loadSegment_inv {s : State} (inv : Inv s) (g : Segment) (ws : List Word)
    (count : ws.length = segmentWords s.cfg g) : Inv (loadSegment g ws s) := by
  have memory {cap : Nat} (h : ws.length = cap) : Memory.good cap (Memory.ofWords 0 ws) = true :=
    Memory.good_ofWords cap ws h.le
  cases g with
  | pdli | pdlp | upcr | uspr | mdrg | vmar | opcr | oalo | oahi => exact { inv with }
  | lcnt => exact { inv with lc := lcWord_middle _ _ }
  | lchl => exact { inv with lcHist := Ring.good_ofWords _ ws count }
  | pchl => exact { inv with pcHist := Ring.good_ofWords _ ws count }
  | pdhl => exact { inv with pdlHist := Ring.good_ofWords _ ws count }
  | imem => exact { inv with imem := Memory.good_ofWords _ _ (length_microWordsOfWords _ ws count).le }
  | dmem => exact { inv with dmem := memory count }
  | ustk => exact { inv with spc := memory count }
  | l1mp => exact { inv with l1 := memory count }
  | l2mp => exact { inv with l2 := memory count }
  | pdlm => exact { inv with pdl := memory count }
  | amem => exact { inv with amem := memory count }
  | mmem => exact { inv with mmem := memory count }
  | pmem => exact loadSegment_pmem_inv inv ws count

@[simp] theorem loadSegment_cfg (g : Segment) (ws : List Word) (s : State) : (loadSegment g ws s).cfg = s.cfg := by
  cases g <;> rfl

@[simp] theorem loadTagged_cfg (s : State) (seg : List Byte × List Word) : (loadTagged s seg).cfg = s.cfg := by
  unfold loadTagged
  split
  · exact loadSegment_cfg _ _ _
  · rfl

theorem foldl_loadTagged_cfg (segs : List (List Byte × List Word)) (s : State) :
    (segs.foldl loadTagged s).cfg = s.cfg := by
  induction segs generalizing s with
  | nil => rfl
  | cons seg segs ih => rw [List.foldl_cons, ih, loadTagged_cfg]

theorem loadTagged_inv {s : State} (inv : Inv s) (seg : List Byte × List Word)
    (sound : segmentSound s.cfg seg = true) : Inv (loadTagged s seg) := by
  unfold loadTagged
  split
  · rename_i g known
    refine loadSegment_inv inv g seg.2 ?_
    simpa [segmentSound, known] using sound
  · exact inv

theorem foldl_loadTagged_inv (segs : List (List Byte × List Word)) {s : State} (inv : Inv s)
    (sound : ∀ seg ∈ segs, segmentSound s.cfg seg = true) : Inv (segs.foldl loadTagged s) := by
  induction segs generalizing s with
  | nil => exact inv
  | cons seg segs ih =>
    refine ih (loadTagged_inv inv seg (sound seg (by simp))) fun other mem => ?_
    rw [loadTagged_cfg]
    exact sound other (by simp [mem])

/-- Every segment of a sound file has the word count of its tag (R367 statement 4). -/
theorem segmentSound_of_soundSegments {c : Config} {bytes : List Byte} {segs : List (List Byte × List Word)}
    (sound : soundSegments c bytes = some segs) : ∀ seg ∈ segs, segmentSound c seg = true := by
  unfold soundSegments at sound
  split at sound
  · split at sound
    · split at sound
      · rename_i checked
        cases sound
        exact List.all_eq_true.mp (Bool.and_eq_true_iff.mp checked).1
      · cases sound
    · cases sound
  · cases sound

theorem restore_inv {s : State} (inv : Inv s) (file : Option (List Byte)) : Inv (restore file s) := by
  obtain unchanged | ⟨-, bytes, segs, -, sound, loaded⟩ := restore_cases file s
  · rwa [unchanged]
  · rw [loaded]
    exact { foldl_loadTagged_inv segs inv (segmentSound_of_soundSegments sound) with }

/-! ## Every action -/

/-- What an action that gives a next state has done. -/
theorem act_loadProm_next {image : List Byte} {s t : State} (next : act (.loadProm image) s = .next t) :
    loadProm image s = some t := by
  simp only [act] at next
  split at next
  · rename_i loaded; cases next; exact loaded
  · cases next

/-- Settles O14: each agent's operations keep the invariant, and a reset reaches the reset state of the same
configuration. -/
theorem actionsKeepInvariant : Obligations.ActionsKeepInvariant := by
  intro a s t inv next
  cases a with
  | step => exact stepKeepsInvariant s t inv next
  | assertUnibus v => cases next; exact assertUnibus_inv inv v
  | deassertUnibus => cases next; exact deassertUnibus_inv inv
  | assertXbus => cases next; exact assertXbus_inv inv
  | deassertXbus => cases next; exact deassertXbus_inv inv
  | haltRequest => cases next; exact { inv with }
  | restore file => cases next; exact restore_inv inv file
  | loadProm image => exact loadProm_inv inv (act_loadProm_next next)
  | reset => cases next; exact resetWith_inv inv.cfg

/-! ## The configuration -/

theorem UnitRun.cfg_eq {s t : State} {i : Instr} {r : Result} (run : UnitRun s i r) (next : r = .next t) :
    t.cfg = s.cfg := by
  cases run with
  | alu | byte | wrimem | load => cases next; simp
  | jump | dispatch =>
    cases next
    split
    · simp
    · simp

theorem exec_cfg {i : Instr} {s t : State} (next : exec i s = .next t) : t.cfg = s.cfg :=
  (exec_unitRun i s).cfg_eq next

@[simp] theorem arrive_cfg (s : State) : (arrive s).cfg = s.cfg := by
  unfold arrive
  split <;> rfl

@[simp] theorem bubble_cfg (s : State) : (bubble s).cfg = s.cfg := by
  unfold bubble
  split <;> rfl

theorem readyState_cfg (s : State) : (readyState s).cfg = s.cfg := by
  simp [readyState, fetched]

theorem assertUnibus_cfg (v : Word) (s : State) : (assertUnibus v s).cfg = s.cfg := by
  unfold assertUnibus
  split <;> rfl

theorem deassertUnibus_cfg (s : State) : (deassertUnibus s).cfg = s.cfg := by
  unfold deassertUnibus
  split <;> rfl

theorem deassertXbus_cfg (s : State) : (deassertXbus s).cfg = s.cfg := by
  unfold deassertXbus
  split <;> rfl

theorem restore_cfg (file : Option (List Byte)) (s : State) : (restore file s).cfg = s.cfg := by
  obtain unchanged | ⟨-, bytes, segs, -, -, loaded⟩ := restore_cases file s
  · rw [unchanged]
  · rw [loaded]
    exact foldl_loadTagged_cfg segs s

/-- Settles O58: no operation of an agent writes the field. -/
theorem configurationNeverChanges : Obligations.ConfigurationNeverChanges := by
  intro a s t next
  cases a with
  | step => exact (exec_cfg (exec_of_step next)).trans (readyState_cfg s)
  | assertUnibus v => cases next; exact assertUnibus_cfg v s
  | deassertUnibus => cases next; exact deassertUnibus_cfg s
  | assertXbus => cases next; rfl
  | deassertXbus => cases next; exact deassertXbus_cfg s
  | haltRequest => cases next; rfl
  | restore file => cases next; exact restore_cfg file s
  | loadProm image =>
    obtain ⟨_, _, _, _, -, rfl⟩ := loadProm_some (act_loadProm_next next)
    rfl
  | reset => cases next; rfl

end Sys2Proof.Proofs
end

section
/-! SUPPORT. The encoding (spec/30_encoding.md). Where each format holds its fields (`fields_encodeAlu` and its
like), what the decoder reads there, and that a decoded word is encoded back up to its ignored bits. From them the
round trips, and from the disjointness of the rows that each word lies in exactly one. -/

namespace Sys2Proof.Proofs

open Sys2Proof.Machine Sys2Proof.Reading Sys2Proof.Laws

/-! ## The small fields -/

theorem flag_eq_extractLsb' (u : MicroWord) (i : Nat) : MicroWord.flag u i = (u.extractLsb' i 1 == 1#1) :=
  BitVec.getLsbD_eq_extractLsb' u i

theorem ofBool_beq_one (b : Bool) : (BitVec.ofBool b == 1#1) = b := by
  cases b <;> rfl

@[simp] theorem outCtlOf_encodeOut (c : OutCtl) : outCtlOf (encodeOut c) = c := by
  cases c <;> rfl

@[simp] theorem encodeOut_outCtlOf (x : BitVec 2) : encodeOut (outCtlOf x) = x := by
  revert x; decide

@[simp] theorem qCtlOf_encodeQ (c : QCtl) : qCtlOf (encodeQ c) = c := by
  cases c <;> rfl

@[simp] theorem encodeQ_qCtlOf (x : BitVec 2) : encodeQ (qCtlOf x) = x := by
  revert x; decide

@[simp] theorem jumpSubOf_encodeSub (c : JumpSub) : jumpSubOf (encodeSub c) = c := by
  cases c <;> rfl

@[simp] theorem encodeSub_jumpSubOf (x : BitVec 2) : encodeSub (jumpSubOf x) = x := by
  revert x; decide

/-- R and P that are not both set (R124). -/
theorem encodeLink_linkOf (r p : Bool) (notBoth : (r && p) = false) :
    encodeLink (linkOf r p) = BitVec.ofBool r ++ BitVec.ofBool p := by
  revert r p; decide

theorem linkOf_encodeLink (l : Link) : linkOf ((encodeLink l).getLsbD 1) ((encodeLink l).getLsbD 0) = l := by
  cases l <;> rfl

/-- The two bits of a link are never both set (R124, R305). -/
theorem encodeLink_notBoth (l : Link) : ((encodeLink l).getLsbD 1 && (encodeLink l).getLsbD 0) = false := by
  cases l <;> rfl

/-! ## The operand fields -/

/-- Six bits read as an M operand (R121). -/
def mSourceOf (x : BitVec 6) : MSource :=
  if x.getLsbD 5 then .func (x.extractLsb' 0 5) else .mem (x.extractLsb' 0 5)

/-- Twelve bits read as a destination (R127). -/
def destOf (x : BitVec 12) : Dest :=
  if x.getLsbD 11 then .amem (x.extractLsb' 0 11) else .func (x.extractLsb' 5 6) (x.extractLsb' 0 5)

/-- A field of a field is a field of the word. -/
theorem field_extractLsb' (u : MicroWord) (lo n lo' n' : Nat) (h : lo' + n' ≤ n) :
    (u.extractLsb' lo n).extractLsb' lo' n' = MicroWord.field u (lo + lo') n' := by
  apply BitVec.eq_of_getLsbD_eq
  intro i hi
  have inside : lo' + i < n := by omega
  simp [MicroWord.field, hi, inside, Nat.add_assoc]

theorem decodeM_eq (u : MicroWord) : decodeM u = mSourceOf (u.extractLsb' 26 6) := by
  simp [decodeM, mSourceOf, MicroWord.flag, field_extractLsb']

theorem decodeDest_eq (u : MicroWord) : decodeDest u = destOf (u.extractLsb' 14 12) := by
  simp [decodeDest, destOf, MicroWord.flag, field_extractLsb']

@[simp] theorem mSourceOf_encodeM (m : MSource) : mSourceOf (encodeM m) = m := by
  cases m with
  | mem k => revert k; decide
  | func i => revert i; decide

@[simp] theorem encodeM_mSourceOf (x : BitVec 6) : encodeM (mSourceOf x) = x := by
  revert x; decide

@[simp] theorem destOf_encodeDest (d : Dest) : destOf (encodeDest d) = d := by
  cases d with
  | amem a =>
    have top : (1#1 ++ a).getLsbD 11 = true := by rw [BitVec.getLsbD_append, if_neg (by decide)]; rfl
    simp only [destOf, encodeDest, top, if_true, BitVec.extractLsb'_append_eq_right]
  | func i m =>
    have top : (0#1 ++ i ++ m).getLsbD 11 = false := by
      rw [BitVec.getLsbD_append, if_neg (by decide), BitVec.getLsbD_append, if_neg (by decide)]; rfl
    have index : (0#1 ++ i ++ m).extractLsb' 5 6 = i := by
      rw [BitVec.extractLsb'_append_eq_of_le (by decide)]
      exact BitVec.extractLsb'_append_eq_right
    simp only [destOf, encodeDest, top, Bool.false_eq_true, if_false, index, BitVec.extractLsb'_append_eq_right]

@[simp] theorem encodeDest_destOf (x : BitVec 12) : encodeDest (destOf x) = x := by
  apply BitVec.eq_of_getLsbD_eq
  intro i hi
  unfold destOf
  cases top : x.getLsbD 11 <;> simp only [Bool.false_eq_true, if_false, if_true, encodeDest, BitVec.getLsbD_append] <;>
    interval_cases i <;> simp <;> simpa using top

/-! ## Where each format holds its fields (R121 to R127, R305, R274) -/

theorem fields_encodeAlu (op : BitVec 6) (f : AluFields) :
    let u := encodeAlu op f
    MicroWord.field u 43 2 = 0#2 ∧ MicroWord.flag u 42 = f.popj ∧ MicroWord.field u 32 10 = f.a
      ∧ u.extractLsb' 26 6 = encodeM f.m ∧ u.extractLsb' 14 12 = encodeDest f.dest
      ∧ MicroWord.field u 12 2 = encodeOut f.out ∧ MicroWord.field u 3 6 = op ∧ MicroWord.flag u 2 = f.cin
      ∧ MicroWord.field u 0 2 = encodeQ f.qctl := by
  simp (disch := omega) only [encodeAlu, flag_eq_extractLsb', MicroWord.field, BitVec.extractLsb'_append_eq_of_le,
    BitVec.extractLsb'_append_eq_of_add_le, Nat.reduceSub, BitVec.extractLsb'_eq_self, ofBool_beq_one, and_self]

theorem fields_encodeJump (f : JumpFields) (low : BitVec 6) :
    let u := encodeJump f low
    MicroWord.field u 43 2 = 1#2 ∧ MicroWord.flag u 42 = f.popj ∧ MicroWord.field u 32 10 = f.a
      ∧ u.extractLsb' 26 6 = encodeM f.m ∧ MicroWord.field u 12 14 = f.target
      ∧ MicroWord.field u 10 2 = encodeSub f.sub ∧ u.extractLsb' 8 2 = encodeLink f.link
      ∧ MicroWord.flag u 7 = f.n ∧ MicroWord.flag u 6 = f.inv ∧ u.extractLsb' 0 6 = low := by
  simp (disch := omega) only [encodeJump, flag_eq_extractLsb', MicroWord.field, BitVec.extractLsb'_append_eq_of_le,
    BitVec.extractLsb'_append_eq_of_add_le, Nat.reduceSub, BitVec.extractLsb'_eq_self, ofBool_beq_one, and_self]

theorem fields_encodeWrimem (f : WrimemFields) :
    let u := encodeWrimem f
    MicroWord.field u 43 2 = 1#2 ∧ MicroWord.flag u 42 = f.popj ∧ MicroWord.field u 32 10 = f.a
      ∧ u.extractLsb' 26 6 = encodeM f.m ∧ MicroWord.field u 12 14 = f.target
      ∧ MicroWord.field u 10 2 = encodeSub f.sub ∧ u.extractLsb' 8 2 = 3#2 := by
  simp (disch := omega) only [encodeWrimem, flag_eq_extractLsb', MicroWord.field, BitVec.extractLsb'_append_eq_of_le,
    BitVec.extractLsb'_append_eq_of_add_le, Nat.reduceSub, BitVec.extractLsb'_eq_self, ofBool_beq_one, and_self]

theorem fields_encodeDispatch (sub : BitVec 2) (f : DispatchFields) :
    let u := encodeDispatch sub f
    MicroWord.field u 43 2 = 2#2 ∧ MicroWord.flag u 42 = f.popj ∧ MicroWord.field u 32 10 = f.dispConst
      ∧ u.extractLsb' 26 6 = encodeM f.m ∧ MicroWord.flag u 25 = f.nPlus1 ∧ MicroWord.flag u 24 = f.enableIsh
      ∧ MicroWord.field u 12 11 = f.dispAddr ∧ u.extractLsb' 10 2 = sub ∧ MicroWord.field u 8 2 = f.map
      ∧ MicroWord.field u 5 3 = f.len ∧ MicroWord.field u 0 5 = f.pos := by
  simp (disch := omega) only [encodeDispatch, flag_eq_extractLsb', MicroWord.field, BitVec.extractLsb'_append_eq_of_le,
    BitVec.extractLsb'_append_eq_of_add_le, Nat.reduceSub, BitVec.extractLsb'_eq_self, ofBool_beq_one, and_self]

theorem fields_encodeLoad (f : LoadFields) :
    let u := encodeLoad f
    MicroWord.field u 43 2 = 2#2 ∧ MicroWord.flag u 42 = f.popj ∧ MicroWord.field u 32 10 = f.a
      ∧ u.extractLsb' 26 6 = encodeM f.m ∧ MicroWord.field u 12 11 = f.dispAddr ∧ u.extractLsb' 10 2 = 2#2 := by
  simp (disch := omega) only [encodeLoad, flag_eq_extractLsb', MicroWord.field, BitVec.extractLsb'_append_eq_of_le,
    BitVec.extractLsb'_append_eq_of_add_le, Nat.reduceSub, BitVec.extractLsb'_eq_self, ofBool_beq_one, and_self]

theorem fields_encodeByte (mode : BitVec 2) (f : ByteFields) :
    let u := encodeByte mode f
    MicroWord.field u 43 2 = 3#2 ∧ MicroWord.flag u 42 = f.popj ∧ MicroWord.field u 32 10 = f.a
      ∧ u.extractLsb' 26 6 = encodeM f.m ∧ u.extractLsb' 14 12 = encodeDest f.dest ∧ MicroWord.field u 12 2 = mode
      ∧ MicroWord.field u 5 5 = f.widthm1 ∧ MicroWord.field u 0 5 = f.pos := by
  simp (disch := omega) only [encodeByte, flag_eq_extractLsb', MicroWord.field, BitVec.extractLsb'_append_eq_of_le,
    BitVec.extractLsb'_append_eq_of_add_le, Nat.reduceSub, BitVec.extractLsb'_eq_self, ofBool_beq_one, and_self]

/-! ## The ALU instructions -/

theorem aluPart_aluInstrOf (op : BitVec 6) (f : AluFields) : aluPart (aluInstrOf op f) = some (op, f) := by
  unfold aluInstrOf
  split
  case h_37 => rfl
  all_goals
    rename_i opcode
    simp only [aluPart, Option.some.injEq, Prod.mk.injEq, and_true]
    exact BitVec.eq_of_toNat_eq opcode.symm

/-- The format and the opcode of an ALU instruction. -/
theorem encode_of_aluPart {i : Instr} {op : BitVec 6} {f : AluFields} (fields : aluPart i = some (op, f)) :
    encode i = encodeAlu op f := by
  cases i <;> cases fields <;> rfl

theorem aluInstrOf_unassigned {op : BitVec 6} (f : AluFields) (unassigned : aluopUnassigned op = true) :
    aluInstrOf op f = .aluUndef op f := by
  unfold aluInstrOf
  split
  case h_37 => rfl
  all_goals
    rename_i opcode
    simp [aluopUnassigned, opcode] at unassigned

/-- A well-formed ALU instruction is the one its opcode selects. -/
theorem aluInstrOf_of_aluPart {i : Instr} {op : BitVec 6} {f : AluFields} (wf : i.wf = true)
    (fields : aluPart i = some (op, f)) : aluInstrOf op f = i := by
  cases i with
  | aluUndef o g => cases fields; exact aluInstrOf_unassigned f wf
  | _ => cases fields <;> rfl

theorem aluInstrOf_wf (op : BitVec 6) (f : AluFields) : (aluInstrOf op f).wf = true := by
  unfold aluInstrOf
  split
  case h_37 =>
    simp only [Instr.wf, aluopUnassigned, List.contains_eq_mem, List.mem_cons, List.not_mem_nil, or_false,
      Bool.or_eq_true, decide_eq_true_eq]
    simp only [imp_false] at *
    omega
  all_goals rfl

/-! ## The decoder by format -/

theorem decode_of_alu {u : MicroWord} (op : MicroWord.field u 43 2 = 0#2) :
    decode u = aluInstrOf (MicroWord.field u 3 6) (decodeAluFields u) := by
  simp [decode, op]

theorem decode_of_jump {u : MicroWord} (op : MicroWord.field u 43 2 = 1#2) : decode u = decodeJump u := by
  simp [decode, op]

theorem decode_of_dispatch {u : MicroWord} (op : MicroWord.field u 43 2 = 2#2) : decode u = decodeDispatch u := by
  simp [decode, op]

theorem decode_of_byte {u : MicroWord} (op : MicroWord.field u 43 2 = 3#2) : decode u = decodeByte u := by
  simp [decode, op]

theorem decode_encodeAlu (op : BitVec 6) (f : AluFields) : decode (encodeAlu op f) = aluInstrOf op f := by
  obtain ⟨primary, popj, a, m, dest, out, opcode, cin, qctl⟩ := fields_encodeAlu op f
  rw [decode_of_alu primary, opcode, decodeAluFields, popj, a, decodeM_eq, m, decodeDest_eq, dest, out, cin, qctl]
  simp

/-- R and P as the decoder reads them. -/
theorem flag_of_link {u : MicroWord} {x : BitVec 2} (link : u.extractLsb' 8 2 = x) :
    MicroWord.flag u 9 = x.getLsbD 1 ∧ MicroWord.flag u 8 = x.getLsbD 0 := by
  subst link
  simp [MicroWord.flag]

theorem decodeJumpFields_encodeJump (f : JumpFields) (low : BitVec 6) :
    decodeJumpFields (encodeJump f low) = f := by
  obtain ⟨-, popj, a, m, target, sub, link, n, inv, -⟩ := fields_encodeJump f low
  obtain ⟨r, p⟩ := flag_of_link link
  rw [decodeJumpFields, popj, a, decodeM_eq, m, target, sub, r, p, n, inv, linkOf_encodeLink]
  simp

/-- A jump decodes by its `csel` and `rot` bits alone: no link sets both R and P (R130). -/
theorem decode_encodeJump (f : JumpFields) (low : BitVec 6) :
    decode (encodeJump f low) =
      if low.getLsbD 5 then condInstrOf (low.extractLsb' 0 3) f else .jumpBit f (low.extractLsb' 0 5) := by
  obtain ⟨primary, -, -, -, -, -, link, -, -, bits⟩ := fields_encodeJump f low
  obtain ⟨r, p⟩ := flag_of_link link
  have csel : MicroWord.flag (encodeJump f low) 5 = low.getLsbD 5 := by
    conv_rhs => rw [← bits]
    simp [MicroWord.flag]
  have cond : MicroWord.field (encodeJump f low) 0 3 = low.extractLsb' 0 3 := by
    conv_rhs => rw [← bits]
    rw [field_extractLsb' _ _ _ _ _ (by decide)]
  have rot : MicroWord.field (encodeJump f low) 0 5 = low.extractLsb' 0 5 := by
    conv_rhs => rw [← bits]
    rw [field_extractLsb' _ _ _ _ _ (by decide)]
  rw [decode_of_jump primary, decodeJump, r, p, encodeLink_notBoth, csel, cond, rot, decodeJumpFields_encodeJump]
  rfl

theorem decode_encodeJump_bit (f : JumpFields) (rot : BitVec 5) :
    decode (encodeJump f (0#1 ++ rot)) = .jumpBit f rot := by
  have csel : (0#1 ++ rot).getLsbD 5 = false := by rw [BitVec.getLsbD_append, if_neg (by decide)]; rfl
  rw [decode_encodeJump, csel, BitVec.extractLsb'_append_eq_right]
  rfl

theorem decode_encodeWrimem (f : WrimemFields) : decode (encodeWrimem f) = .jumpWrimem f := by
  obtain ⟨primary, popj, a, m, target, sub, link⟩ := fields_encodeWrimem f
  obtain ⟨r, p⟩ := flag_of_link link
  rw [decode_of_jump primary, decodeJump, r, p, decodeWrimemFields, popj, a, decodeM_eq, m, target, sub]
  simp

/-- The sub-field of a dispatch as the decoder reads it (R271). -/
theorem flag_of_dispatchSub {u : MicroWord} {x : BitVec 2} (sub : u.extractLsb' 10 2 = x) :
    MicroWord.flag u 11 = x.getLsbD 1 ∧ MicroWord.flag u 10 = x.getLsbD 0 := by
  subst sub
  simp [MicroWord.flag]

theorem decodeDispatchFields_encodeDispatch (sub : BitVec 2) (f : DispatchFields) :
    decodeDispatchFields (encodeDispatch sub f) = f := by
  obtain ⟨-, popj, const, m, nPlus1, ish, addr, -, map, len, pos⟩ := fields_encodeDispatch sub f
  rw [decodeDispatchFields, popj, const, decodeM_eq, m, nPlus1, ish, addr, map, len, pos]
  simp

theorem decode_encodeDispatch (sub0 : Bool) (f : DispatchFields) :
    decode (encodeDispatch (0#1 ++ BitVec.ofBool sub0) f) = .dispatch sub0 f := by
  obtain ⟨primary, -, -, -, -, -, -, sub, -, -, -⟩ := fields_encodeDispatch (0#1 ++ BitVec.ofBool sub0) f
  obtain ⟨hi, lo⟩ := flag_of_dispatchSub sub
  rw [decode_of_dispatch primary, decodeDispatch, hi, lo, decodeDispatchFields_encodeDispatch]
  cases sub0 <;> rfl

theorem decode_encodeDispatch_lc (f : DispatchFields) : decode (encodeDispatch 3#2 f) = .dispatchLc f := by
  obtain ⟨primary, -, -, -, -, -, -, sub, -, -, -⟩ := fields_encodeDispatch 3#2 f
  obtain ⟨hi, lo⟩ := flag_of_dispatchSub sub
  rw [decode_of_dispatch primary, decodeDispatch, hi, lo, decodeDispatchFields_encodeDispatch]
  rfl

theorem decode_encodeLoad (f : LoadFields) : decode (encodeLoad f) = .dispatchLoad f := by
  obtain ⟨primary, popj, a, m, addr, sub⟩ := fields_encodeLoad f
  obtain ⟨hi, lo⟩ := flag_of_dispatchSub sub
  rw [decode_of_dispatch primary, decodeDispatch, hi, lo, popj, a, decodeM_eq, m, addr]
  simp

/-- The byte instruction of a mode (R321). -/
def byteInstrOf (mode : BitVec 2) (f : ByteFields) : Instr :=
  match mode.toNat with
  | 0 => .byteInvalid f
  | 1 => .byteLdb f
  | 2 => .byteSel f
  | _ => .byteDpb f

theorem decodeByte_eq (u : MicroWord) :
    decodeByte u = byteInstrOf (MicroWord.field u 12 2) (decodeByteFields u) := rfl

theorem encode_byteInstrOf (mode : BitVec 2) (f : ByteFields) : encode (byteInstrOf mode f) = encodeByte mode f := by
  have modes : mode = 0#2 ∨ mode = 1#2 ∨ mode = 2#2 ∨ mode = 3#2 := by revert mode; decide
  rcases modes with rfl | rfl | rfl | rfl <;> rfl

theorem decode_encodeByte (mode : BitVec 2) (f : ByteFields) :
    decode (encodeByte mode f) = byteInstrOf mode f := by
  obtain ⟨primary, popj, a, m, dest, bits, widthm1, pos⟩ := fields_encodeByte mode f
  have fields : decodeByteFields (encodeByte mode f) = f := by
    rw [decodeByteFields, popj, a, decodeM_eq, m, decodeDest_eq, dest, widthm1, pos]
    simp
  rw [decode_of_byte primary, decodeByte_eq, bits, fields]

/-- Settles O1, format by format. -/
theorem decodeEncodeRoundTrip : Obligations.DecodeEncodeRoundTrip := by
  intro i wf
  cases part : aluPart i with
  | some p =>
    rw [encode_of_aluPart part, decode_encodeAlu, aluInstrOf_of_aluPart wf part]
  | none =>
    cases i with
    | jumpWrimem f => exact decode_encodeWrimem f
    | jumpBit f rot => exact decode_encodeJump_bit f rot
    | jumpC0 f | jumpC1 f | jumpC2 f | jumpC3 f | jumpC4 f | jumpC5 f | jumpC6 f | jumpC7 f =>
      exact decode_encodeJump f _
    | dispatch sub0 f => exact decode_encodeDispatch sub0 f
    | dispatchLoad f => exact decode_encodeLoad f
    | dispatchLc f => exact decode_encodeDispatch_lc f
    | byteInvalid f | byteLdb f | byteSel f | byteDpb f => exact decode_encodeByte _ f
    | _ => cases part

/-! ## The decoder by form -/

theorem decode_of_wrimem {u : MicroWord} (op : MicroWord.field u 43 2 = 1#2) (link : u.extractLsb' 8 2 = 3#2) :
    decode u = .jumpWrimem (decodeWrimemFields u) := by
  obtain ⟨r, p⟩ := flag_of_link link
  rw [decode_of_jump op, decodeJump, r, p]
  rfl

/-- R and P are not both set when their field is not 3 (R124). -/
theorem notBoth_of_link {u : MicroWord} (link : u.extractLsb' 8 2 ≠ 3#2) :
    (MicroWord.flag u 9 && MicroWord.flag u 8) = false := by
  obtain ⟨r, p⟩ := flag_of_link (x := u.extractLsb' 8 2) rfl
  rw [r, p]
  generalize u.extractLsb' 8 2 = x at link
  revert x; decide

theorem decode_of_condJump {u : MicroWord} (op : MicroWord.field u 43 2 = 1#2) (link : u.extractLsb' 8 2 ≠ 3#2)
    (csel : u.getLsbD 5 = true) : decode u = condInstrOf (MicroWord.field u 0 3) (decodeJumpFields u) := by
  rw [decode_of_jump op, decodeJump, notBoth_of_link link]
  exact if_pos csel

theorem decode_of_bitJump {u : MicroWord} (op : MicroWord.field u 43 2 = 1#2) (link : u.extractLsb' 8 2 ≠ 3#2)
    (csel : u.getLsbD 5 = false) : decode u = .jumpBit (decodeJumpFields u) (MicroWord.field u 0 5) := by
  rw [decode_of_jump op, decodeJump, notBoth_of_link link]
  exact if_neg (Bool.eq_false_iff.mp csel)

theorem decode_of_tableLoad {u : MicroWord} (op : MicroWord.field u 43 2 = 2#2) (sub : u.extractLsb' 10 2 = 2#2) :
    decode u = .dispatchLoad
      { popj := MicroWord.flag u 42, a := MicroWord.field u 32 10, m := decodeM u
        dispAddr := MicroWord.field u 12 11 } := by
  obtain ⟨hi, lo⟩ := flag_of_dispatchSub sub
  rw [decode_of_dispatch op, decodeDispatch, hi, lo]
  rfl

theorem decode_of_lcDispatch {u : MicroWord} (op : MicroWord.field u 43 2 = 2#2) (sub : u.extractLsb' 10 2 = 3#2) :
    decode u = .dispatchLc (decodeDispatchFields u) := by
  obtain ⟨hi, lo⟩ := flag_of_dispatchSub sub
  rw [decode_of_dispatch op, decodeDispatch, hi, lo]
  rfl

theorem decode_of_plainDispatch {u : MicroWord} (op : MicroWord.field u 43 2 = 2#2)
    (sub : (u.extractLsb' 10 2).getLsbD 1 = false) :
    decode u = .dispatch (MicroWord.flag u 10) (decodeDispatchFields u) := by
  obtain ⟨hi, -⟩ := flag_of_dispatchSub (u := u) rfl
  rw [decode_of_dispatch op, decodeDispatch, hi, sub]
  rfl

/-! ## Encoding what was decoded -/

theorem encode_decodeAlu {u : MicroWord} (op : u.extractLsb' 43 2 = 0#2) :
    encode (decode u) = u &&& 0x1FFFFFFFF1FF#48 := by
  rw [decode_of_alu op, encode_of_aluPart (aluPart_aluInstrOf _ _), encodeAlu]
  simp only [decodeAluFields, decodeM_eq, decodeDest_eq, encodeM_mSourceOf, encodeDest_destOf, encodeOut_outCtlOf,
    encodeQ_qCtlOf, ← op]
  apply BitVec.eq_of_getLsbD_eq
  intro i hi
  simp only [BitVec.getLsbD_append, BitVec.getLsbD_and, MicroWord.field, MicroWord.flag]
  interval_cases i <;> simp

theorem encode_decodeWrimem {u : MicroWord} (op : u.extractLsb' 43 2 = 1#2) (link : u.extractLsb' 8 2 = 3#2) :
    encode (decode u) = u &&& 0x1FFFFFFFFF00#48 := by
  rw [decode_of_wrimem op link, encode, encodeWrimem]
  simp only [decodeWrimemFields, decodeM_eq, encodeM_mSourceOf, encodeSub_jumpSubOf, ← op, ← link]
  apply BitVec.eq_of_getLsbD_eq
  intro i hi
  simp only [BitVec.getLsbD_append, BitVec.getLsbD_and, MicroWord.field, MicroWord.flag]
  interval_cases i <;> simp

/-- The bits of a jump above `csel` and `rot`, when R and P are not both set (R124). -/
theorem encodeJump_decodeJumpFields {u : MicroWord} (op : u.extractLsb' 43 2 = 1#2) (link : u.extractLsb' 8 2 ≠ 3#2)
    (low : BitVec 6) : encodeJump (decodeJumpFields u) low = (u &&& 0x1FFFFFFFFFC0#48) ||| low.setWidth 48 := by
  rw [encodeJump]
  simp only [decodeJumpFields, decodeM_eq, encodeM_mSourceOf, encodeSub_jumpSubOf,
    encodeLink_linkOf _ _ (notBoth_of_link link), ← op]
  apply BitVec.eq_of_getLsbD_eq
  intro i hi
  simp only [BitVec.getLsbD_append, BitVec.getLsbD_and, BitVec.getLsbD_or, MicroWord.field, MicroWord.flag]
  interval_cases i <;> simp

/-- The condition number of a jump is the low three bits of its word (R124, R294). -/
theorem encode_condInstrOf (cond : BitVec 3) (f : JumpFields) :
    encode (condInstrOf cond f) = encodeJump f (1#1 ++ (0#2 ++ cond)) := by
  have conditions : cond = 0#3 ∨ cond = 1#3 ∨ cond = 2#3 ∨ cond = 3#3 ∨ cond = 4#3 ∨ cond = 5#3 ∨ cond = 6#3
      ∨ cond = 7#3 := by revert cond; decide
  rcases conditions with rfl | rfl | rfl | rfl | rfl | rfl | rfl | rfl <;> rfl

theorem encode_decodeCondJump {u : MicroWord} (op : u.extractLsb' 43 2 = 1#2) (link : u.extractLsb' 8 2 ≠ 3#2)
    (csel : u.getLsbD 5 = true) : encode (decode u) = u &&& 0x1FFFFFFFFFE7#48 := by
  rw [decode_of_condJump op link csel, encode_condInstrOf, encodeJump_decodeJumpFields op link]
  apply BitVec.eq_of_getLsbD_eq
  intro i hi
  simp only [BitVec.getLsbD_append, BitVec.getLsbD_and, BitVec.getLsbD_or, BitVec.getLsbD_setWidth, MicroWord.field]
  interval_cases i <;> simp
  exact csel

theorem encode_decodeBitJump {u : MicroWord} (op : u.extractLsb' 43 2 = 1#2) (link : u.extractLsb' 8 2 ≠ 3#2)
    (csel : u.getLsbD 5 = false) : encode (decode u) = u &&& 0x1FFFFFFFFFFF#48 := by
  rw [decode_of_bitJump op link csel, encode, encodeJump_decodeJumpFields op link]
  apply BitVec.eq_of_getLsbD_eq
  intro i hi
  simp only [BitVec.getLsbD_append, BitVec.getLsbD_and, BitVec.getLsbD_or, BitVec.getLsbD_setWidth, MicroWord.field]
  interval_cases i <;> simp
  exact csel

theorem encode_decodeTableLoad {u : MicroWord} (op : u.extractLsb' 43 2 = 2#2) (sub : u.extractLsb' 10 2 = 2#2) :
    encode (decode u) = u &&& 0x1FFFFC7FFC00#48 := by
  have bits : encodeLoad
      { popj := MicroWord.flag u 42, a := MicroWord.field u 32 10, m := decodeM u
        dispAddr := MicroWord.field u 12 11 } =
      0#3 ++ u.extractLsb' 43 2 ++ BitVec.ofBool (MicroWord.flag u 42) ++ MicroWord.field u 32 10
        ++ u.extractLsb' 26 6 ++ 0#3 ++ MicroWord.field u 12 11 ++ u.extractLsb' 10 2 ++ 0#10 := by
    rw [op, sub, ← encodeM_mSourceOf (u.extractLsb' 26 6), ← decodeM_eq]
    rfl
  rw [decode_of_tableLoad op sub, encode, bits]
  apply BitVec.eq_of_getLsbD_eq
  intro i hi
  simp only [BitVec.getLsbD_append, BitVec.getLsbD_and, MicroWord.field, MicroWord.flag]
  interval_cases i <;> simp

/-- A dispatch that is no table load, given back with its sub-field. -/
theorem encodeDispatch_decodeDispatchFields {u : MicroWord} (op : u.extractLsb' 43 2 = 2#2) :
    encodeDispatch (u.extractLsb' 10 2) (decodeDispatchFields u) = u &&& 0x1FFFFF7FFFFF#48 := by
  have bits : encodeDispatch (u.extractLsb' 10 2) (decodeDispatchFields u) =
      0#3 ++ u.extractLsb' 43 2 ++ BitVec.ofBool (MicroWord.flag u 42) ++ MicroWord.field u 32 10
        ++ u.extractLsb' 26 6 ++ BitVec.ofBool (MicroWord.flag u 25) ++ BitVec.ofBool (MicroWord.flag u 24) ++ 0#1
        ++ MicroWord.field u 12 11 ++ u.extractLsb' 10 2 ++ MicroWord.field u 8 2 ++ MicroWord.field u 5 3
        ++ MicroWord.field u 0 5 := by
    rw [op, ← encodeM_mSourceOf (u.extractLsb' 26 6), ← decodeM_eq]
    rfl
  rw [bits]
  apply BitVec.eq_of_getLsbD_eq
  intro i hi
  simp only [BitVec.getLsbD_append, BitVec.getLsbD_and, MicroWord.field, MicroWord.flag]
  interval_cases i <;> simp

theorem encode_decodeDispatch {u : MicroWord} (op : u.extractLsb' 43 2 = 2#2) (sub : u.extractLsb' 10 2 ≠ 2#2) :
    encode (decode u) = u &&& 0x1FFFFF7FFFFF#48 := by
  rw [← encodeDispatch_decodeDispatchFields op]
  obtain ⟨-, lo⟩ := flag_of_dispatchSub (u := u) rfl
  have forms : ∀ x : BitVec 2, x ≠ 2#2 →
      x = 3#2 ∨ (x.getLsbD 1 = false ∧ x = 0#1 ++ BitVec.ofBool (x.getLsbD 0)) := by decide
  obtain lc | ⟨plain, low⟩ := forms _ sub
  · rw [decode_of_lcDispatch op lc, encode, lc]
  · rw [decode_of_plainDispatch op plain, encode, lo, ← low]

theorem encode_decodeByte {u : MicroWord} (op : u.extractLsb' 43 2 = 3#2) :
    encode (decode u) = u &&& 0x1FFFFFFFF3FF#48 := by
  rw [decode_of_byte op, decodeByte_eq, encode_byteInstrOf, encodeByte]
  simp only [decodeByteFields, decodeM_eq, decodeDest_eq, encodeM_mSourceOf, encodeDest_destOf, ← op]
  apply BitVec.eq_of_getLsbD_eq
  intro i hi
  simp only [BitVec.getLsbD_append, BitVec.getLsbD_and, MicroWord.field, MicroWord.flag]
  interval_cases i <;> simp

/-- Settles O2, form by form. -/
theorem encodeOfDecodeKeepsUsedBits : Obligations.EncodeOfDecodeKeepsUsedBits := by
  intro u
  unfold usedBits
  split
  · rename_i alu; exact encode_decodeAlu alu
  · split
    · rename_i jump
      split
      · rename_i link; exact encode_decodeWrimem jump link
      · rename_i link
        split
        · rename_i csel; exact encode_decodeCondJump jump link csel
        · rename_i csel; exact encode_decodeBitJump jump link (Bool.eq_false_iff.mpr csel)
    · split
      · rename_i dispatch
        split
        · rename_i load; exact encode_decodeTableLoad dispatch load
        · rename_i load; exact encode_decodeDispatch dispatch load
      · rename_i alu jump dispatch
        have byte : ∀ x : BitVec 2, x ≠ 0#2 → x ≠ 1#2 → x ≠ 2#2 → x = 3#2 := by decide
        exact encode_decodeByte (byte _ alu jump dispatch)

/-! ## The opcode table (R130) -/

/-- The encoding of a well-formed instruction lies in a row of its mnemonic. -/
theorem encodesItsRow (i : Instr) : EncodesItsRow.Statement i := by
  cases i with
  | aluSetz f => exact EncodesItsRow.aluSetz f
  | aluAnd f => exact EncodesItsRow.aluAnd f
  | aluAndca f => exact EncodesItsRow.aluAndca f
  | aluSetm f => exact EncodesItsRow.aluSetm f
  | aluAndcm f => exact EncodesItsRow.aluAndcm f
  | aluSeta f => exact EncodesItsRow.aluSeta f
  | aluXor f => exact EncodesItsRow.aluXor f
  | aluIor f => exact EncodesItsRow.aluIor f
  | aluAndcb f => exact EncodesItsRow.aluAndcb f
  | aluEqv f => exact EncodesItsRow.aluEqv f
  | aluSetca f => exact EncodesItsRow.aluSetca f
  | aluOrca f => exact EncodesItsRow.aluOrca f
  | aluSetcm f => exact EncodesItsRow.aluSetcm f
  | aluOrcm f => exact EncodesItsRow.aluOrcm f
  | aluOrcb f => exact EncodesItsRow.aluOrcb f
  | aluSeto f => exact EncodesItsRow.aluSeto f
  | aluMinusOne f => exact EncodesItsRow.aluMinusOne f
  | aluAndMinusOne f => exact EncodesItsRow.aluAndMinusOne f
  | aluAndcaMinusOne f => exact EncodesItsRow.aluAndcaMinusOne f
  | aluMMinusOne f => exact EncodesItsRow.aluMMinusOne f
  | aluOrcaPlus f => exact EncodesItsRow.aluOrcaPlus f
  | aluOrcaPlusAnd f => exact EncodesItsRow.aluOrcaPlusAnd f
  | aluSub f => exact EncodesItsRow.aluSub f
  | aluOrcaPlusM f => exact EncodesItsRow.aluOrcaPlusM f
  | aluIorPlus f => exact EncodesItsRow.aluIorPlus f
  | aluAdd f => exact EncodesItsRow.aluAdd f
  | aluIorPlusAndca f => exact EncodesItsRow.aluIorPlusAndca f
  | aluIorPlusM f => exact EncodesItsRow.aluIorPlusM f
  | aluMPlus f => exact EncodesItsRow.aluMPlus f
  | aluMPlusAnd f => exact EncodesItsRow.aluMPlusAnd f
  | aluMPlusOrca f => exact EncodesItsRow.aluMPlusOrca f
  | aluMPlusM f => exact EncodesItsRow.aluMPlusM f
  | aluMulstep f => exact EncodesItsRow.aluMulstep f
  | aluDivstep f => exact EncodesItsRow.aluDivstep f
  | aluRemcorr f => exact EncodesItsRow.aluRemcorr f
  | aluDivfirst f => exact EncodesItsRow.aluDivfirst f
  | aluUndef op f => exact EncodesItsRow.aluUndef op f
  | jumpWrimem f => exact EncodesItsRow.jumpWrimem f
  | jumpBit f rot => exact EncodesItsRow.jumpBit f rot
  | jumpC0 f => exact EncodesItsRow.jumpC0 f
  | jumpC1 f => exact EncodesItsRow.jumpC1 f
  | jumpC2 f => exact EncodesItsRow.jumpC2 f
  | jumpC3 f => exact EncodesItsRow.jumpC3 f
  | jumpC4 f => exact EncodesItsRow.jumpC4 f
  | jumpC5 f => exact EncodesItsRow.jumpC5 f
  | jumpC6 f => exact EncodesItsRow.jumpC6 f
  | jumpC7 f => exact EncodesItsRow.jumpC7 f
  | dispatch sub0 f => exact EncodesItsRow.dispatch sub0 f
  | dispatchLoad f => exact EncodesItsRow.dispatchLoad f
  | dispatchLc f => exact EncodesItsRow.dispatchLc f
  | byteInvalid f => exact EncodesItsRow.byteInvalid f
  | byteLdb f => exact EncodesItsRow.byteLdb f
  | byteSel f => exact EncodesItsRow.byteSel f
  | byteDpb f => exact EncodesItsRow.byteDpb f

/-- The masks of two rows have a bit in common on which their patterns differ. -/
def rowsDiffer (r r' : OpcodeRow) : Bool := (r.pattern ^^^ r'.pattern) &&& (r.mask &&& r'.mask) != 0#48

theorem opcodeRows_pairwise : opcodeRows.Pairwise (fun r r' => rowsDiffer r r' = true) := by
  decide

/-- No word lies in two rows that differ. -/
theorem not_in_both {u : MicroWord} {r r' : OpcodeRow} (differ : rowsDiffer r r' = true) :
    ¬ (u &&& r.mask = r.pattern ∧ u &&& r'.mask = r'.pattern) := by
  rintro ⟨inR, inR'⟩
  have same : (r.pattern ^^^ r'.pattern) &&& (r.mask &&& r'.mask) = 0#48 := by
    rw [← inR, ← inR']
    ext i hi
    simp only [BitVec.getElem_and, BitVec.getElem_xor, BitVec.getElem_zero]
    cases u[i] <;> cases r.mask[i] <;> cases r'.mask[i] <;> rfl
  simp [rowsDiffer, same] at differ

theorem filter_eq_singleton {α : Type} {p : α → Bool} {l : List α} {a : α}
    (disjoint : l.Pairwise (fun x y => ¬ (p x = true ∧ p y = true))) (mem : a ∈ l) (ha : p a = true) :
    l.filter p = [a] := by
  induction l with
  | nil => cases mem
  | cons x l ih =>
    obtain ⟨head, tail⟩ := List.pairwise_cons.mp disjoint
    rcases List.mem_cons.mp mem with rfl | mem
    · have none : l.filter p = [] := List.filter_eq_nil_iff.mpr fun y hy hp => head y hy ⟨ha, hp⟩
      rw [List.filter_cons_of_pos ha, none]
    · have skip : ¬ p x = true := fun hx => head a mem ⟨hx, ha⟩
      rw [List.filter_cons_of_neg skip, ih tail mem]

/-- The used bits of a class of words, those with `u &&& select = value`, cover the mask of every row that a word of
the class can lie in. -/
def coversRows (used select value : MicroWord) : Bool :=
  select &&& used == select
    && opcodeRows.all (fun r => r.mask &&& used == r.mask || r.pattern &&& select != value &&& r.mask)

theorem in_row_of_used {u : MicroWord} {r : OpcodeRow} (used select value : MicroWord)
    (covers : coversRows used select value = true) (cls : u &&& select = value) (mem : r ∈ opcodeRows)
    (inRow : u &&& used &&& r.mask = r.pattern) : u &&& r.mask = r.pattern := by
  simp only [coversRows, Bool.and_eq_true, beq_iff_eq, List.all_eq_true, Bool.or_eq_true, bne_iff_ne] at covers
  obtain ⟨selected, rows⟩ := covers
  rcases rows r mem with covered | conflict
  · rw [← inRow, BitVec.and_assoc, BitVec.and_comm used, covered]
  · refine absurd ?_ conflict
    calc r.pattern &&& select = u &&& used &&& r.mask &&& select := by rw [inRow]
      _ = u &&& (select &&& used) &&& r.mask := by ac_rfl
      _ = value &&& r.mask := by rw [selected, cls]

/-- A field of a word, as the bits that a mask selects. -/
theorem and_fieldMask {w : Nat} (u : BitVec w) (lo n : Nat) :
    u &&& ((BitVec.allOnes n).setWidth w <<< lo) = (u.extractLsb' lo n).setWidth w <<< lo := by
  apply BitVec.eq_of_getLsbD_eq
  intro i hi
  simp only [BitVec.getLsbD_and, BitVec.getLsbD_shiftLeft, BitVec.getLsbD_setWidth, BitVec.getLsbD_allOnes,
    BitVec.getLsbD_extractLsb']
  by_cases low : i < lo
  · simp [low]
  · have back : lo + (i - lo) = i := by omega
    simp [low, back, hi, Bool.and_assoc, Bool.and_comm]

/-- A word whose used bits lie in a row lies in it itself: the ignored bits select no row (R130). -/
theorem in_row_of_usedBits {u : MicroWord} {r : OpcodeRow} (mem : r ∈ opcodeRows)
    (inRow : u &&& usedBits u &&& r.mask = r.pattern) : u &&& r.mask = r.pattern := by
  have op := and_fieldMask u 43 2
  have link := and_fieldMask u 8 2
  unfold usedBits at inRow
  split at inRow
  · rename_i alu
    rw [alu] at op
    exact in_row_of_used _ _ _ (by decide) op mem inRow
  · split at inRow
    · rename_i jump
      rw [jump] at op
      split at inRow
      · rename_i both
        rw [both] at link
        refine in_row_of_used _ (0x180000000000#48 ||| 0x300#48) (0x080000000000#48 ||| 0x300#48) (by decide) ?_ mem
          inRow
        rw [BitVec.and_or_distrib_left]
        exact congrArg₂ _ op link
      · split at inRow
        · exact in_row_of_used _ _ _ (by decide) op mem inRow
        · exact in_row_of_used _ _ _ (by decide) op mem inRow
    · split at inRow
      · rename_i dispatch
        rw [dispatch] at op
        split at inRow
        · exact in_row_of_used _ _ _ (by decide) op mem inRow
        · exact in_row_of_used _ _ _ (by decide) op mem inRow
      · rename_i alu jump dispatch
        have byte : ∀ x : BitVec 2, x ≠ 0#2 → x ≠ 1#2 → x ≠ 2#2 → x = 3#2 := by decide
        rw [byte _ alu jump dispatch] at op
        exact in_row_of_used _ _ _ (by decide) op mem inRow

theorem decode_wf (u : MicroWord) : (decode u).wf = true := by
  unfold decode
  split
  · exact aluInstrOf_wf _ _
  · unfold decodeJump condInstrOf
    split
    · rfl
    · split
      · split <;> rfl
      · rfl
  · unfold decodeDispatch
    split
    · split <;> rfl
    · rfl
  · unfold decodeByte
    split <;> rfl

/-- Settles O3: the encoding of the decoded word lies in a row of its mnemonic, the word then lies in it too, and
the rows are disjoint. -/
theorem decodeFollowsOpcodeTable : Obligations.DecodeFollowsOpcodeTable := by
  intro u
  refine ⟨?_, decode_wf u⟩
  obtain ⟨r, mem, mnemonic, inRow⟩ := encodesItsRow (decode u) (decode_wf u)
  rw [encodeOfDecodeKeepsUsedBits u] at inRow
  have inRow := in_row_of_usedBits mem inRow
  have disjoint : opcodeRows.Pairwise
      (fun r r' => ¬ ((u &&& r.mask == r.pattern) = true ∧ (u &&& r'.mask == r'.pattern) = true)) :=
    opcodeRows_pairwise.imp fun differ => by
      rw [beq_iff_eq, beq_iff_eq]
      exact not_in_both differ
  rw [filter_eq_singleton disjoint mem (beq_iff_eq.mpr inRow), List.map_singleton, mnemonic]

/-- Settles O4: the fields of the four words, read off. -/
theorem sampleWordsDecode : Obligations.SampleWordsDecode := by
  unfold Obligations.SampleWordsDecode
  decide

end Sys2Proof.Proofs
end

section
/-! SUPPORT. The fetching part of a step in the terms of `Reading` (spec/40_step_and_operands.md R150 to R155), the
first two steps after a reset, and the values of the reset state and of the default configuration. -/

namespace Sys2Proof.Proofs

open Sys2Proof.Machine Sys2Proof.Reading

/-! ## The two readings agree -/

theorem record_eq_recorded (n : Nat) (r : Ring) (x : Word) : Ring.record n r x = recorded n r x := by
  cases n <;> rfl

/-- The arrival of a deferred read, by the steps it has to go (R96). -/
theorem arrive_eq (s : State) : arrive s = afterArrival s := by
  unfold arrive afterArrival
  split
  · rename_i none; simp [none]
  · rename_i one; simp [one]
  · rename_i two; simp [two]

/-- An arrival changes the pending read and `MD`, and nothing else. -/
theorem arrive_frame (s : State) : arrive s = { s with rdDelay := (arrive s).rdDelay, md := (arrive s).md } := by
  unfold arrive
  split <;> rfl

/-- The fetches of a step: one, or two across a bubble (R153). -/
theorem fetched_eq (s : State) :
    fetched s =
      if s.inhibit then fetchOnce (fetchOnce { afterArrival s with inhibit := false })
      else fetchOnce (afterArrival s) := by
  have flag : (shiftFetch (arrive s)).inhibit = s.inhibit := by rw [arrive_frame]; rfl
  unfold fetched bubble
  rw [flag]
  cases s.inhibit with
  | false => rw [← arrive_eq]; rfl
  | true => rw [← arrive_eq]; rfl

/-- The fetches change the pipeline, the bubble flag and what an arrival changes; nothing else. -/
theorem fetched_frame (s : State) :
    fetched s =
      { s with
        p0 := (fetched s).p0, p0pc := (fetched s).p0pc, p1 := (fetched s).p1, p1pc := (fetched s).p1pc
        npc := (fetched s).npc, inhibit := (fetched s).inhibit
        rdDelay := (arrive s).rdDelay, md := (arrive s).md } := by
  obtain ⟨delay, data, arrived⟩ : ∃ d x, arrive s = { s with rdDelay := d, md := x } := ⟨_, _, arrive_frame s⟩
  unfold fetched bubble
  rw [arrived]
  split <;> rfl

/-! ## The step -/

/-- Settles O5. -/
theorem stepRunsTheDecodedInstruction : Obligations.StepRunsTheDecodedInstruction := by
  intro s i running decoded
  rw [step_of_running running, decoded]

/-- Settles O6: the fetches leave the OA registers and the ring alone, and `clearOa` and `recordPc` change only
them. -/
theorem fetchMovesThePipeline : Obligations.FetchMovesThePipeline := by
  intro s
  simp only [← fetched_eq]
  unfold readyState recordPc
  rw [record_eq_recorded]
  have pc : (clearOa (fetched s)).p0pc.setWidth 32 = 0#18 ++ (fetched s).p0pc :=
    BitVec.setWidth_eq_append (by decide)
  rw [pc]
  conv_lhs => rw [fetched_frame]
  conv_rhs => rw [fetched_frame]
  rfl

/-- The word in `P0` when the instruction executes: the word that was in `P1`, or the word at `NPC` (R153). -/
theorem fetched_p0 (s : State) : (fetched s).p0 = if s.inhibit then wordAt s s.npc else s.p1 := by
  unfold fetched bubble
  have flag : (shiftFetch (arrive s)).inhibit = s.inhibit := by rw [arrive_frame]; rfl
  rw [flag]
  conv_lhs => rw [arrive_frame]
  cases s.inhibit <;> rfl

/-- Settles O7: the low OA register reaches bits 25:0 and the high one bits 47:26. -/
theorem mergedWordExecutes : Obligations.MergedWordExecutes := by
  intro s k hk
  have low : (if s.oaLoV then s.oaLo.setWidth 48 else 0#48).getLsbD k
      = (s.oaLoV && decide (k < 26) && s.oaLo.getLsbD k) := by
    by_cases h : k < 26
    · cases s.oaLoV <;> simp [h, hk]
    · have : s.oaLo.getLsbD k = false := BitVec.getLsbD_of_ge _ _ (by omega)
      cases s.oaLoV <;> simp [h, this]
  have high : (if s.oaHiV then s.oaHi.setWidth 48 <<< 26 else 0#48).getLsbD k
      = (s.oaHiV && decide (26 ≤ k) && s.oaHi.getLsbD (k - 26)) := by
    cases s.oaHiV with
    | false => simp
    | true =>
      by_cases h : k < 26
      · simp [h, hk, Nat.not_le.mpr h]
      · simp [h, hk, Nat.not_lt.mp h]
  unfold nextWord mergedWord
  rw [fetched_p0]
  rw [fetched_frame]
  simp only [BitVec.getLsbD_or, low, high]

/-! ## Reset -/

/-- Settles O10: every field of the reset state is given by a literal. -/
theorem resetValues : Obligations.ResetValues := by
  refine ⟨rfl, fun c => ⟨rfl, ?_, ?_, ?_, ?_, ?_, ?_, ?_, ?_, ?_⟩⟩
  · exact ⟨rfl, rfl, rfl, rfl, rfl⟩
  · exact ⟨rfl, rfl, rfl, rfl⟩
  · exact ⟨rfl, rfl, rfl, rfl⟩
  · exact ⟨rfl, rfl, rfl⟩
  · exact ⟨rfl, rfl, rfl, rfl, rfl, rfl, rfl, rfl⟩
  · exact ⟨rfl, rfl, rfl, rfl, rfl⟩
  · exact fun a => ⟨rfl, rfl, rfl, rfl, rfl, rfl, rfl, rfl, rfl, rfl, rfl⟩
  · have noInterrupt : (0#32 &&& (c.isUbPresent ||| c.isXbPresent)) = 0#32 := BitVec.zero_and
    exact bne_eq_false_iff_eq.mpr noInterrupt
  · exact ⟨fun a => ⟨rfl, rfl, rfl⟩, rfl, rfl, rfl⟩

/-- The instruction that the zero word encodes: `ALU.SETZ` with every field 0 (R130). -/
def zeroFields : AluFields :=
  { popj := false, a := 0, m := .mem 0, dest := .func 0 0, out := .rotatedM, cin := false, qctl := .keep }

theorem decode_zero : decode 0#48 = .aluSetz zeroFields := by decide

/-- The zero word copies `M[0]` to itself and to `A[0]`, so it changes nothing where both memories are empty. -/
theorem exec_zero {s : State} (amem : s.amem = []) (mmem : s.mmem = []) :
    exec (.aluSetz zeroFields) s = .next s := by
  have bus : rotl32 (Memory.read s.mmem 0) (aluLow 0#6 false .keep) = 0#32 := by rw [mmem]; decide
  have sameA : Memory.write s.amem 0 0#32 = s.amem := by rw [amem]; decide
  have sameM : Memory.write s.mmem 0 0#32 = s.mmem := by rw [mmem]; decide
  have written : writeDest (.func 0 0) (rotl32 (Memory.read s.mmem 0) (aluLow 0#6 false .keep)) s = s := by
    show { s with mmem := Memory.write s.mmem 0 _, amem := Memory.write s.amem 0 _ } = s
    rw [bus, sameA, sameM]
  exact congrArg Host.Outcome.next written

/-- Settles O11: the first word comes from the empty `P1`, the second from the PROM. -/
theorem firstTwoStepsAfterReset : Obligations.FirstTwoStepsAfterReset := by
  intro c prom s ring t
  have ready : readyState s = t := by
    show recordPc (clearOa (fetched s)) = t
    unfold recordPc
    rw [record_eq_recorded]
    rfl
  have zero : nextWord s = 0#48 := by
    show 0#48 ||| 0#48 ||| 0#48 = 0#48
    decide
  constructor
  · rw [step_of_running (s := s) rfl, zero, decode_zero, ready]
    exact exec_zero rfl rfl
  · have word : nextWord t = Memory.read prom 0 := by
      show Memory.read prom 0 ||| 0#48 ||| 0#48 = Memory.read prom 0
      rw [BitVec.or_zero, BitVec.or_zero]
    rw [step_of_running (s := t) rfl, word]
    refine congrArg (exec (decode (Memory.read prom 0))) ?_
    show recordPc (clearOa (fetched t)) = _
    unfold recordPc
    rw [record_eq_recorded]
    rfl

/-! ## The default configuration -/

/-- A statement on every bit of a word is one on its 32 bits, if it also says that the bits above are 0. -/
theorem getLsbD_eq_decide (x : Word) (p : Nat → Prop) [DecidablePred p] (high : ∀ k, 32 ≤ k → ¬ p k)
    (low : ∀ k < 32, x.getLsbD k = decide (p k)) (k : Nat) : x.getLsbD k = decide (p k) := by
  by_cases hk : k < 32
  · exact low k hk
  · rw [BitVec.getLsbD_of_ge x k (Nat.not_lt.mp hk), decide_eq_false (high k (Nat.not_lt.mp hk))]

/-- Settles O57, value by value. -/
theorem defaultConfiguration : Obligations.DefaultConfiguration := by
  refine ⟨⟨rfl, rfl, rfl⟩, ?_, ⟨rfl, rfl⟩, ⟨rfl, rfl⟩, ⟨rfl, rfl, rfl⟩, ?_, ⟨rfl, rfl, rfl⟩, ?_, rfl,
    ⟨?_, rfl, rfl⟩, ?_, ⟨rfl, rfl, rfl⟩, ⟨rfl, rfl, rfl, rfl⟩, by decide⟩
  · exact getLsbD_eq_decide _ (fun k => k < 14) (by omega) (by decide)
  · exact getLsbD_eq_decide _ (fun k => 2 ≤ k ∧ k ≤ 9) (by omega) (by decide)
  · exact getLsbD_eq_decide _ (fun k => k = 0 ∨ 10 ≤ k ∧ k ≤ 13) (by omega) (by decide)
  · decide
  · decide

end Sys2Proof.Proofs
end

section
/-! SUPPORT. Memory (spec/20_memory.md). The translation by address ranges; which of four accesses a virtual read or
write is (`readAccess`, `writeAccess`), from which every case of the two follows; the map write, the device contract
and the interrupt controller. -/

namespace Sys2Proof.Proofs

open Sys2Proof.Machine Sys2Proof.Reading

/-! ## Words -/

theorem toNat_append_eq {v w : Nat} (x : BitVec v) (y : BitVec w) :
    (x ++ y).toNat = x.toNat * 2 ^ w + y.toNat := by
  rw [BitVec.toNat_append, ← Nat.shiftLeft_add_eq_or_of_lt y.isLt, Nat.shiftLeft_eq]

/-- Some bit of a mask is set in a word exactly when the two have a bit in common. -/
theorem anyBit_iff (x mask : Word) : anyBit x mask ↔ x &&& mask ≠ 0#32 := by
  constructor
  · rintro ⟨k, -, hx, hm⟩ none
    have bit : (x &&& mask).getLsbD k = (0#32).getLsbD k := by rw [none]
    simp [hx, hm] at bit
  · intro some
    by_contra none
    refine some (BitVec.eq_of_getLsbD_eq fun k hk => ?_)
    rw [BitVec.getLsbD_and, BitVec.getLsbD_zero, Bool.and_eq_false_iff]
    by_contra both
    simp only [not_or, Bool.not_eq_false] at both
    exact none ⟨k, hk, both.1, both.2⟩

/-- A word has every bit of a mask exactly when the mask keeps itself of it. -/
theorem and_eq_mask_iff (x mask : Word) : x &&& mask = mask ↔ ∀ k, mask.getLsbD k = true → x.getLsbD k = true := by
  constructor
  · intro all k hk
    have bit : (x &&& mask).getLsbD k = mask.getLsbD k := by rw [all]
    simpa [hk] using bit
  · intro all
    refine BitVec.eq_of_getLsbD_eq fun k _ => ?_
    rw [BitVec.getLsbD_and]
    cases hk : mask.getLsbD k with
    | false => simp
    | true => simp [all k hk]

/-- Taking a part of a word away leaves the other bits. -/
theorem sub_and_eq (x mask : Word) : x - (x &&& mask) = x &&& ~~~mask := by
  have apart : (x &&& ~~~mask) &&& (x &&& mask) = 0#32 := by
    ext i hi
    simp only [BitVec.getElem_and, BitVec.getElem_not, BitVec.getElem_zero]
    cases x[i] <;> cases mask[i] <;> rfl
  have whole : (x &&& ~~~mask) + (x &&& mask) = x := by
    rw [BitVec.add_eq_or_of_and_eq_zero _ _ apart]
    ext i hi
    simp only [BitVec.getElem_and, BitVec.getElem_or, BitVec.getElem_not]
    cases x[i] <;> cases mask[i] <;> rfl
  exact sub_eq_of_eq_add whole.symm

/-! ## Translation -/

/-- The test of a window: the bits from `lo` up of the address, as a number (R81). -/
theorem window_iff (v : Word) (lo n : Nat) (x : BitVec n) (fits : lo + n ≤ 32) :
    v &&& ((BitVec.allOnes n).setWidth 32 <<< lo) = x.setWidth 32 <<< lo ↔ v.toNat / 2 ^ lo % 2 ^ n = x.toNat := by
  rw [and_fieldMask]
  constructor
  · intro same
    have field : v.extractLsb' lo n = x := by
      refine BitVec.eq_of_getLsbD_eq fun i hi => ?_
      have bit := congrArg (BitVec.getLsbD · (lo + i)) same
      have inside : lo + i < 32 := by omega
      have small : i < 32 := by omega
      simpa [inside, small, hi] using bit
    rw [← field, BitVec.extractLsb'_toNat, Nat.shiftRight_eq_div_pow]
  · intro same
    have field : v.extractLsb' lo n = x := by
      apply BitVec.eq_of_toNat_eq
      rw [BitVec.extractLsb'_toNat, Nat.shiftRight_eq_div_pow, same]
    rw [field]

theorem display_iff (v : Word) :
    ((v &&& 0o77777777#32 &&& 0o77700000#32) = 0o77000000#32 ∨ (v &&& 0o77777777#32 &&& 0o77700000#32) = 0o77200000#32)
      ↔ inDisplay v := by
  have framebuffer := window_iff v 15 9 0o770#9 (by decide)
  have colour := window_iff v 15 9 0o772#9 (by decide)
  rw [BitVec.and_assoc]
  refine (or_congr framebuffer colour).trans ?_
  simp only [inDisplay, BitVec.toNat_ofNat]
  omega

theorem diag_iff (v : Word) : (v &&& 0o77777777#32 &&& 0o77777400#32) = 0o77377400#32 ↔ inDiag v := by
  have window := window_iff v 8 16 0o176777#16 (by decide)
  rw [BitVec.and_assoc]
  refine window.trans ?_
  simp only [inDiag, BitVec.toNat_ofNat]
  omega

theorem tableFrame_eq (v : Word) (s : State) :
    Memory.read s.l2 (l2Index (l1Value v s) v).toNat = tableFrame v s := by
  unfold tableFrame l2Index l1Value l1Index
  rw [toNat_append_eq, BitVec.toNat_setWidth]
  rfl

theorem translateAddr_display {v : Word} {s : State} (window : inDisplay v) :
    translateAddr v s = ⟨s.cfg.fbSentinel, v.extractLsb' 0 8, 0#5, true⟩ :=
  if_pos ((display_iff v).mpr window)

theorem translateAddr_diag {v : Word} {s : State} (display : ¬ inDisplay v) (window : inDiag v) :
    translateAddr v s = ⟨s.cfg.diagSentinel, v.extractLsb' 0 8, 0#5, false⟩ :=
  (if_neg (mt (display_iff v).mp display)).trans (if_pos ((diag_iff v).mpr window))

theorem translateAddr_table {v : Word} {s : State} (display : ¬ inDisplay v) (diag : ¬ inDiag v) :
    translateAddr v s = ⟨tableFrame v s, v.extractLsb' 0 8, l1Value v s, false⟩ := by
  refine (if_neg (mt (display_iff v).mp display)).trans ((if_neg (mt (diag_iff v).mp diag)).trans ?_)
  rw [← tableFrame_eq]

/-- The diagnostic window lies outside the display windows (R81). -/
theorem not_inDisplay_of_inDiag {v : Word} (window : inDiag v) : ¬ inDisplay v := by
  unfold inDiag at window
  unfold inDisplay
  omega

/-- Settles O46. -/
theorem translationCases : Obligations.TranslationCases := by
  intro v s
  refine ⟨translateAddr_display, fun diag => translateAddr_diag (not_inDisplay_of_inDiag diag) diag, ?_⟩
  intro display diag
  rw [translateAddr_table display diag, l1Value, BitVec.setWidth_eq_extractLsb' (by decide)]
  rfl

/-! ## What a virtual access reaches -/

/-- Where a virtual access ends: at a device, at a fault, or at a word of a page of RAM (R90, R91). -/
inductive Access where
  | device (dev : Device) (off : BitVec 24)
  | fault (access write : Bool) (pn : Word)
  | ram (pn : Word) (off : BitVec 8)

/-- Behind the permissions: the device pages, then RAM, then nothing (R90). -/
def pageAccess (c : Config) (pn : Word) (off : BitVec 8) : Access :=
  match devicePage c pn with
  | some dev => .device dev (off.setWidth 24)
  | none => if pn.toNat < c.ramPages then .ram pn off else .fault false false pn

theorem pageAccess_some {c : Config} {pn : Word} {dev : Device} (page : devicePage c pn = some dev) (off : BitVec 8) :
    pageAccess c pn off = .device dev (off.setWidth 24) := by
  rw [pageAccess, page]

theorem pageAccess_none {c : Config} {pn : Word} (page : devicePage c pn = none) (off : BitVec 8) :
    pageAccess c pn off = if pn.toNat < c.ramPages then .ram pn off else .fault false false pn := by
  rw [pageAccess, page]

def readAccess (v : Word) (s : State) : Access :=
  let t := translateAddr v s
  if t.display then .device .display (v.setWidth 24)
  else if t.frame.getLsbD s.cfg.accessBit = false then .fault true false (pageOf s.cfg t.frame)
  else pageAccess s.cfg (pageOf s.cfg t.frame) t.offset

def writeAccess (v : Word) (s : State) : Access :=
  let t := translateAddr v s
  if t.display then .device .display (v.setWidth 24)
  else if t.frame.getLsbD s.cfg.accessBit = false then .fault true false (pageOf s.cfg t.frame)
  else if t.frame.getLsbD s.cfg.writeBit = false then .fault false true (pageOf s.cfg t.frame)
  else pageAccess s.cfg (pageOf s.cfg t.frame) t.offset

def Access.read : Access → State → Word × State
  | .device dev off, s => devRead dev off s
  | .fault access write pn, s => (0#32, signalFault access write pn s)
  | .ram pn off, s => physRead pn off s

def Access.write (x : Word) : Access → State → State
  | .device dev off, s => devWrite dev off x s
  | .fault access write pn, s => signalFault access write pn s
  | .ram pn off, s => physWrite pn off x s

theorem memRead_eq (v : Word) (s : State) : memRead v s = (readAccess v s).read (clearFaults s) := by
  have translated : translateAddr v (clearFaults s) = translateAddr v s := rfl
  simp only [memRead, readAccess, translated]
  split
  · rfl
  · split
    · rfl
    · split
      · rename_i page; rw [pageAccess_some page]; rfl
      · rename_i page; rw [pageAccess_none page]; split <;> rfl

theorem memWrite_eq (v x : Word) (s : State) : memWrite v x s = (writeAccess v s).write x (clearFaults s) := by
  have translated : translateAddr v (clearFaults s) = translateAddr v s := rfl
  simp only [memWrite, writeAccess, translated]
  split
  · rfl
  · split
    · rfl
    · split
      · rfl
      · split
        · rename_i page; rw [pageAccess_some page]; rfl
        · rename_i page; rw [pageAccess_none page]; split <;> rfl

/-! ### The cases -/

theorem devicePage_fb {c : Config} {pn : Word} (fb : pn = c.pageFb) : devicePage c pn = some .fb := if_pos fb

theorem devicePage_bus {c : Config} {pn : Word} (bus : pn = c.pageBus) (fb : pn ≠ c.pageFb) :
    devicePage c pn = some .bus := by
  rw [devicePage, if_neg fb, if_pos bus]

theorem devicePage_extra {c : Config} {pn : Word} (extra : pn = c.pageExtra) (fb : pn ≠ c.pageFb)
    (bus : pn ≠ c.pageBus) : devicePage c pn = some .extra := by
  rw [devicePage, if_neg fb, if_neg bus, if_pos extra]

theorem devicePage_none {pn : Word} {s : State} (ram : ¬ isDevicePage pn s) : devicePage s.cfg pn = none := by
  simp only [isDevicePage, not_or] at ram
  obtain ⟨fb, bus, extra⟩ := ram
  rw [devicePage, if_neg fb, if_neg bus, if_neg extra]

theorem pageAccess_device {c : Config} {pn : Word} {dev : Device} (page : devicePage c pn = some dev)
    (off : BitVec 8) : pageAccess c pn off = .device dev (0#16 ++ off) := by
  have wide : off.setWidth 24 = 0#16 ++ off := BitVec.setWidth_eq_append (by decide)
  rw [pageAccess_some page, wide]

theorem pageAccess_ram {pn : Word} {s : State} (ram : ¬ isDevicePage pn s) (budget : pn.toNat < s.cfg.ramPages)
    (off : BitVec 8) : pageAccess s.cfg pn off = .ram pn off := by
  rw [pageAccess_none (devicePage_none ram)]
  exact if_pos budget

theorem pageAccess_beyond {pn : Word} {s : State} (ram : ¬ isDevicePage pn s) (beyond : s.cfg.ramPages ≤ pn.toNat)
    (off : BitVec 8) : pageAccess s.cfg pn off = .fault false false pn := by
  rw [pageAccess_none (devicePage_none ram)]
  exact if_neg (Nat.not_lt.mpr beyond)

theorem readAccess_display {v : Word} {s : State} (window : (translateAddr v s).display = true) :
    readAccess v s = .device .display (v.extractLsb' 0 24) := by
  rw [← BitVec.setWidth_eq_extractLsb' (by decide)]
  exact if_pos window

theorem readAccess_denied {v : Word} {s : State} (window : (translateAddr v s).display = false)
    (access : (translateAddr v s).frame.getLsbD s.cfg.accessBit = false) :
    readAccess v s = .fault true false (pageNumber (translateAddr v s).frame s) := by
  simp only [readAccess, window, access, Bool.false_eq_true, if_false, if_true]
  rfl

theorem readAccess_allowed {v : Word} {s : State} (window : (translateAddr v s).display = false)
    (access : (translateAddr v s).frame.getLsbD s.cfg.accessBit = true) :
    readAccess v s = pageAccess s.cfg (pageNumber (translateAddr v s).frame s) (translateAddr v s).offset := by
  simp only [readAccess, window, access, Bool.false_eq_true, Bool.true_eq_false, if_false]
  rfl

theorem writeAccess_display {v : Word} {s : State} (window : (translateAddr v s).display = true) :
    writeAccess v s = .device .display (v.extractLsb' 0 24) := by
  rw [← BitVec.setWidth_eq_extractLsb' (by decide)]
  exact if_pos window

theorem writeAccess_denied {v : Word} {s : State} (window : (translateAddr v s).display = false)
    (access : (translateAddr v s).frame.getLsbD s.cfg.accessBit = false) :
    writeAccess v s = .fault true false (pageNumber (translateAddr v s).frame s) := by
  simp only [writeAccess, window, access, Bool.false_eq_true, if_false, if_true]
  rfl

theorem writeAccess_readOnly {v : Word} {s : State} (window : (translateAddr v s).display = false)
    (access : (translateAddr v s).frame.getLsbD s.cfg.accessBit = true)
    (write : (translateAddr v s).frame.getLsbD s.cfg.writeBit = false) :
    writeAccess v s = .fault false true (pageNumber (translateAddr v s).frame s) := by
  simp only [writeAccess, window, access, write, Bool.false_eq_true, Bool.true_eq_false, if_false, if_true]
  rfl

theorem writeAccess_allowed {v : Word} {s : State} (window : (translateAddr v s).display = false)
    (access : (translateAddr v s).frame.getLsbD s.cfg.accessBit = true)
    (write : (translateAddr v s).frame.getLsbD s.cfg.writeBit = true) :
    writeAccess v s = pageAccess s.cfg (pageNumber (translateAddr v s).frame s) (translateAddr v s).offset := by
  simp only [writeAccess, window, access, write, Bool.false_eq_true, Bool.true_eq_false, if_false]
  rfl

theorem physAddr_eq (pn : Word) (off : BitVec 8) : physAddr pn off = 256 * pn.toNat + off.toNat := by
  simp only [physAddr, pageWords, Nat.mul_comm]

/-- Settles O47. -/
theorem virtualReadCases : Obligations.VirtualReadCases := by
  intro v s t pn c ok off
  have allowed (h : ok) : memRead v s = (pageAccess s.cfg pn t.offset).read c := by
    rw [memRead_eq, readAccess_allowed h.1 h.2]; rfl
  refine ⟨fun display => ?_, fun display denied => ?_, fun h fb => ?_, fun h bus fb => ?_,
    fun h extra fb bus => ?_, fun h ram budget => ?_, fun h ram beyond => ?_⟩
  · rw [memRead_eq, readAccess_display display]; rfl
  · rw [memRead_eq, readAccess_denied display denied]; rfl
  · rw [allowed h, pageAccess_device (devicePage_fb fb)]; rfl
  · rw [allowed h, pageAccess_device (devicePage_bus bus fb)]; rfl
  · rw [allowed h, pageAccess_device (devicePage_extra extra fb bus)]; rfl
  · rw [allowed h, pageAccess_ram ram budget, ← physAddr_eq]; rfl
  · rw [allowed h, pageAccess_beyond ram beyond]; rfl

/-- Settles O48. -/
theorem virtualWriteCases : Obligations.VirtualWriteCases := by
  intro v x s t pn c ok off
  have allowed (h : ok) : memWrite v x s = (pageAccess s.cfg pn t.offset).write x c := by
    rw [memWrite_eq, writeAccess_allowed h.1 h.2.1 h.2.2]; rfl
  refine ⟨fun display => ?_, fun display denied => ?_, fun display access readOnly => ?_, fun h fb => ?_,
    fun h bus fb => ?_, fun h extra fb bus => ?_, fun h ram budget => ?_, fun h ram beyond => ?_⟩
  · rw [memWrite_eq, writeAccess_display display]; rfl
  · rw [memWrite_eq, writeAccess_denied display denied]; rfl
  · rw [memWrite_eq, writeAccess_readOnly display access readOnly]; rfl
  · rw [allowed h, pageAccess_device (devicePage_fb fb)]; rfl
  · rw [allowed h, pageAccess_device (devicePage_bus bus fb)]; rfl
  · rw [allowed h, pageAccess_device (devicePage_extra extra fb bus)]; rfl
  · rw [allowed h, pageAccess_ram ram budget, ← physAddr_eq]; rfl
  · rw [allowed h, pageAccess_beyond ram beyond]; rfl

/-- Settles O49: the write stores at the word that the read of the same address reads. -/
theorem memoryRoundTrip : Obligations.MemoryRoundTrip := by
  intro v x s display diag frame
  have table : translateAddr v s = ⟨frame, v.extractLsb' 0 8, l1Value v s, false⟩ := translateAddr_table display diag
  have window : (translateAddr v s).display = false := by rw [table]
  have frame_eq : (translateAddr v s).frame = frame := by rw [table]
  constructor
  · intro access write ram budget
    rw [← frame_eq] at access write ram budget
    have written : memWrite v x s = physWrite (pageNumber (translateAddr v s).frame s) (translateAddr v s).offset x
        (clearFaults s) := by
      rw [memWrite_eq, writeAccess_allowed window access write, pageAccess_ram ram budget]; rfl
    have again : readAccess v (memWrite v x s) = readAccess v s := by
      simp only [readAccess, memWrite_cfg,
        translateAddr_congr v s (memWrite v x s) (memWrite_cfg v x s) (memWrite_l1 v x s) (memWrite_l2 v x s)]
    rw [memRead_eq, again, readAccess_allowed window access, pageAccess_ram ram budget, written]
    exact Memory.read_write_same _ _ _
  · intro access
    rw [← frame_eq] at access
    refine ⟨?_, memRead_pmem v s⟩
    rw [memRead_eq, readAccess_denied window access]
    rfl

/-! ## The map write -/

/-- The entry that a block and an address select (R80 case 3). -/
theorem l2Index_toNat (b : BitVec 5) (v : Word) : (l2Index b v).toNat = 32 * b.toNat + (v.extractLsb' 8 5).toNat := by
  rw [l2Index, toNat_append_eq, Nat.mul_comm]
  rfl

/-- Settles O50: the L2 write uses the block that the L1 write has just stored, and so does the next translation. -/
theorem mapWriteTakesEffectAtOnce : Obligations.MapWriteTakesEffectAtOnce := by
  intro s first second old block entry
  have old_eq : l1Value s.md s = old := BitVec.setWidth_eq_extractLsb' (by decide)
  have stored_l1 : (s.vma.extractLsb' 27 5).setWidth 32 = 0#27 ++ s.vma.extractLsb' 27 5 :=
    BitVec.setWidth_eq_append (by decide)
  have stored_l2 : s.vma &&& 0o77777777#32 = 0#8 ++ s.vma.extractLsb' 0 24 := by
    rw [← (BitVec.setWidth_eq_append (by decide) : (s.vma.extractLsb' 0 24).setWidth 32 = 0#8 ++ _)]
    exact (and_fieldMask s.vma 0 24).trans (BitVec.shiftLeft_zero _)
  have index : (l2Index (if s.vma.getLsbD 26 then s.vma.extractLsb' 27 5 else l1Value s.md s) s.md).toNat = entry := by
    rw [l2Index_toNat, old_eq]
  have l1_eq : (writeMap s).l1 =
      if first then Memory.write s.l1 (s.md.extractLsb' 13 11).toNat (0#27 ++ s.vma.extractLsb' 27 5) else s.l1 := by
    rw [writeMap_l1, stored_l1]
    rfl
  have l2_eq : (writeMap s).l2 =
      if second then Memory.write s.l2 entry (0#8 ++ s.vma.extractLsb' 0 24) else s.l2 := by
    rw [writeMap_l2, index, stored_l2]
  refine ⟨?_, fun display diag write => ?_⟩
  · rw [writeMap_frame, l1_eq, l2_eq]
  · have block_eq : l1Value s.md (writeMap s) = block := by
      rw [l1Value, l1_eq]
      show (Memory.read (if first then _ else _) (s.md.extractLsb' 13 11).toNat).setWidth 5
        = if first then _ else _
      cases first with
      | true =>
        rw [if_pos rfl, if_pos rfl, Memory.read_write_same, ← stored_l1]
        simp
      | false => exact old_eq
    have frame : tableFrame s.md (writeMap s) = 0#8 ++ s.vma.extractLsb' 0 24 := by
      rw [← tableFrame_eq, block_eq, l2Index_toNat, l2_eq, write]
      exact Memory.read_write_same _ _ _
    rw [translateAddr_table display diag, frame, block_eq]

/-! ## The device contract -/

theorem controlDevice_iff (c : Config) (dev : Device) : controlDevice c = some dev ↔ holdsControls c dev = true := by
  unfold controlDevice devicePage
  by_cases fb : c.intstatPage = c.pageFb
  · cases dev <;> simp [holdsControls, fb]
  · by_cases bus : c.intstatPage = c.pageBus
    · cases dev <;> simp_all [holdsControls]
    · by_cases extra : c.intstatPage = c.pageExtra
      · cases dev <;> simp_all [holdsControls]
      · cases dev <;> simp_all [holdsControls]

/-- The status register after a write of `x` to it: its other bits stay (R395). -/
theorem setStatus_eq (x : Word) (s : State) :
    setStatus x s =
      { s with intstat := BitVec.ofNat 32 (s.intstat.toNat - (s.intstat &&& s.cfg.isWritable).toNat)
          ||| (x &&& s.cfg.isWritable) } := by
  have le : s.intstat &&& s.cfg.isWritable ≤ s.intstat := by
    rw [BitVec.le_def, BitVec.toNat_and]; exact Nat.and_le_left
  have kept : BitVec.ofNat 32 (s.intstat.toNat - (s.intstat &&& s.cfg.isWritable).toNat)
      = s.intstat &&& ~~~s.cfg.isWritable := by
    rw [← BitVec.toNat_sub_of_le le, BitVec.ofNat_toNat, BitVec.setWidth_eq, sub_and_eq]
  rw [kept]
  rfl

/-- The offset of one of the two registers, on the page that holds them (R402). -/
theorem atRegister_iff (c : Config) (dev : Device) (off : BitVec 24) (reg : BitVec 8) :
    (holdsControls c dev && off == 0#16 ++ reg) = true ↔ controlDevice c = some dev ∧ off = reg.setWidth 24 := by
  have wide : reg.setWidth 24 = 0#16 ++ reg := BitVec.setWidth_eq_append (by decide)
  rw [Bool.and_eq_true, beq_iff_eq, controlDevice_iff, wide]

/-- A device write off the page of the two registers is an output event and nothing else (R401). -/
theorem devWrite_elsewhere {dev : Device} {s : State} (elsewhere : controlDevice s.cfg ≠ some dev) (off : BitVec 24)
    (x : Word) : devWrite dev off x s = { s with trace := s.trace ++ [⟨dev, off, x⟩] } :=
  if_neg elsewhere

theorem devWrite_controls {dev : Device} {s : State} (controls : controlDevice s.cfg = some dev) (off : BitVec 24)
    (x : Word) : devWrite dev off x s = busEffect off x { s with trace := s.trace ++ [⟨dev, off, x⟩] } :=
  if_pos controls

/-- Settles O51: off the page of the two registers there are the two events alone; on it, `busEffect` makes the two
tests of R402. -/
theorem deviceAccesses : Obligations.DeviceAccesses := by
  intro dev off x s controls atStatus atProm w e status f
  have statusIff : atStatus = true ↔ controlDevice s.cfg = some dev ∧ off = s.cfg.intstatOffset.setWidth 24 :=
    atRegister_iff s.cfg dev off s.cfg.intstatOffset
  have promIff : atProm = true ↔ controlDevice s.cfg = some dev ∧ off = s.cfg.promctlOffset.setWidth 24 :=
    atRegister_iff s.cfg dev off s.cfg.promctlOffset
  have statusWritten (on : controlDevice s.cfg = some dev) :
      (if off = s.cfg.intstatOffset.setWidth 24 then setStatus x e else e) = f := by
    by_cases here : off = s.cfg.intstatOffset.setWidth 24
    · have hit : atStatus = true := statusIff.mpr ⟨on, here⟩
      rw [if_pos here, setStatus_eq]
      exact (if_pos hit).symm
    · have miss : ¬ atStatus = true := fun hit => here (statusIff.mp hit).2
      rw [if_neg here]
      exact (if_neg miss).symm
  have written (on : controlDevice s.cfg = some dev) : devWrite dev off x s =
      if off = s.cfg.promctlOffset.setWidth 24 ∧ x &&& s.cfg.promctlMask = s.cfg.promctlMask then
        { f with promEn := false } else f := by
    rw [devWrite_controls on, ← statusWritten on]
    rfl
  refine ⟨fun hit => ?_, fun miss => ?_, fun hit all => ?_, fun hit some => ?_, fun miss => ?_⟩
  · exact if_pos (statusIff.mp hit)
  · exact if_neg (mt statusIff.mpr (Bool.eq_false_iff.mp miss))
  · obtain ⟨on, here⟩ := promIff.mp hit
    rw [written on, if_pos ⟨here, (and_eq_mask_iff x _).mpr all⟩]
  · obtain ⟨on, here⟩ := promIff.mp hit
    obtain ⟨k, inMask, clear⟩ := some
    have short : ¬ x &&& s.cfg.promctlMask = s.cfg.promctlMask := fun all => by
      rw [(and_eq_mask_iff x _).mp all k inMask] at clear
      cases clear
    rw [written on, if_neg fun both => short both.2]
  · by_cases on : controlDevice s.cfg = some dev
    · have away : ¬ off = s.cfg.promctlOffset.setWidth 24 := fun here =>
        Bool.eq_false_iff.mp miss (promIff.mpr ⟨on, here⟩)
      rw [written on, if_neg fun both => away both.1]
    · have quiet : ¬ atStatus = true := fun hit => on (statusIff.mp hit).1
      rw [devWrite_elsewhere on]
      exact (if_neg quiet).symm

/-! ## The interrupt controller -/

theorem and_bne_zero_iff (x mask : Word) : (x &&& mask != 0#32) = true ↔ anyBit x mask := by
  rw [anyBit_iff, bne_iff_ne]

theorem assertUnibus_lost {s : State} (disabled : ¬ anyBit s.intstat s.cfg.isUbEnable) (v : Word) :
    assertUnibus v s = s :=
  if_neg (mt (and_bne_zero_iff _ _).mp disabled)

theorem assertUnibus_taken {s : State} (enabled : anyBit s.intstat s.cfg.isUbEnable) (v : Word) :
    assertUnibus v s = { s with
      intstat := (s.intstat &&& ~~~s.cfg.isVector) ||| (v &&& s.cfg.isVector) ||| s.cfg.isUbPresent } :=
  if_pos ((and_bne_zero_iff _ _).mpr enabled)

theorem deassertUnibus_idle {s : State} (absent : ¬ anyBit s.intstat s.cfg.isUbPresent) : deassertUnibus s = s :=
  if_neg (mt (and_bne_zero_iff _ _).mp absent)

theorem deassertUnibus_taken {s : State} (present : anyBit s.intstat s.cfg.isUbPresent) :
    deassertUnibus s = { s with intstat := s.intstat &&& ~~~(s.cfg.isUbPresent ||| s.cfg.isVector) } :=
  if_pos ((and_bne_zero_iff _ _).mpr present)

/-- Clearing the Xbus bit where it is clear already changes nothing (R393). -/
theorem deassertXbus_eq (s : State) : deassertXbus s = { s with intstat := s.intstat &&& ~~~s.cfg.isXbPresent } := by
  by_cases present : anyBit s.intstat s.cfg.isXbPresent
  · exact if_pos ((and_bne_zero_iff _ _).mpr present)
  · have clear : s.intstat &&& s.cfg.isXbPresent = 0#32 := not_not.mp (mt (anyBit_iff _ _).mpr present)
    have same : s.intstat &&& ~~~s.cfg.isXbPresent = s.intstat := by
      rw [← sub_and_eq, clear, BitVec.sub_zero]
    rw [same]
    exact if_neg (mt (and_bne_zero_iff _ _).mp present)

theorem pending_iff (s : State) : pending s = true ↔ interruptPresent s := by
  rw [pending, and_bne_zero_iff, interruptPresent]
  constructor
  · rintro ⟨k, hk, set, mask⟩
    rw [BitVec.getLsbD_or, Bool.or_eq_true] at mask
    exact mask.imp (fun ub => ⟨k, hk, set, ub⟩) (fun xb => ⟨k, hk, set, xb⟩)
  · rintro (⟨k, hk, set, ub⟩ | ⟨k, hk, set, xb⟩)
    · exact ⟨k, hk, set, by rw [BitVec.getLsbD_or, ub, Bool.true_or]⟩
    · exact ⟨k, hk, set, by rw [BitVec.getLsbD_or, xb, Bool.or_true]⟩

/-- Settles O52. -/
theorem interruptController : Obligations.InterruptController := by
  intro v s
  refine ⟨fun disabled => assertUnibus_lost disabled v, fun enabled => ?_, deassertUnibus_idle, fun present => ?_,
    ⟨rfl, fun k _ => ?_⟩, ?_, pending_iff s⟩
  · rw [assertUnibus_taken enabled]
    refine ⟨rfl, fun k hk => ?_⟩
    simp only [BitVec.getLsbD_or, BitVec.getLsbD_and, BitVec.getLsbD_not, hk, decide_true, Bool.true_and]
    cases s.cfg.isUbPresent.getLsbD k <;> cases s.cfg.isVector.getLsbD k <;> simp
  · rw [deassertUnibus_taken present]
    refine ⟨rfl, fun k hk => ?_⟩
    simp only [BitVec.getLsbD_or, BitVec.getLsbD_and, BitVec.getLsbD_not, hk, decide_true, Bool.true_and]
    cases s.cfg.isUbPresent.getLsbD k <;> cases s.cfg.isVector.getLsbD k <;> simp
  · simp only [assertXbus, BitVec.getLsbD_or]
    cases s.cfg.isXbPresent.getLsbD k <;> simp
  · rw [deassertXbus_eq]
    refine ⟨rfl, fun k hk => ?_⟩
    simp only [BitVec.getLsbD_and, BitVec.getLsbD_not, hk, decide_true, Bool.true_and]
    cases s.cfg.isXbPresent.getLsbD k <;> simp

end Sys2Proof.Proofs
end

section
/-! SUPPORT. Deferred reads (spec/20_memory.md R95, R96; decision D23). An operation either starts a read, and then
leaves the same pending read whatever was pending before, or it leaves what was pending as it was
(`ReadOrKeep`). Every unit is made of such operations; from that, the statement on the second step. -/

namespace Sys2Proof.Proofs

open Sys2Proof.Machine Sys2Proof.Reading

/-- The state with `d` steps to go until the deferred read arrives. -/
def withDelay (d : Fin 3) (s : State) : State := { s with rdDelay := d }

@[simp] theorem withDelay_rdDelay (d : Fin 3) (s : State) : (withDelay d s).rdDelay = d := rfl
@[simp] theorem withDelay_cfg (d : Fin 3) (s : State) : (withDelay d s).cfg = s.cfg := rfl
@[simp] theorem clearFaults_withDelay (d : Fin 3) (s : State) :
    clearFaults (withDelay d s) = withDelay d (clearFaults s) := rfl
@[simp] theorem translateAddr_withDelay (v : Word) (d : Fin 3) (s : State) :
    translateAddr v (withDelay d s) = translateAddr v s := rfl
@[simp] theorem withDelay_rdValue (d : Fin 3) (s : State) : (withDelay d s).rdValue = s.rdValue := rfl

/-- The states `g d`, reached by one operation from states that differ in nothing but the steps `d` to go: the
operation has started a read, or it has kept the steps to go and the data `x` that was pending. -/
def ReadOrKeep (x : Word) (g : Fin 3 → State) : Prop :=
  (∃ t, t.rdDelay = 2 ∧ ∀ d, g d = t) ∨ (∃ t, t.rdValue = x ∧ ∀ d, g d = withDelay d t)

/-- An operation that starts a read or keeps what is pending, from every state. -/
def StartsOrKeeps (op : State → State) : Prop :=
  ∀ s, ReadOrKeep s.rdValue (fun d => op (withDelay d s))

theorem readOrKeep_self (s : State) : ReadOrKeep s.rdValue (fun d => withDelay d s) :=
  .inr ⟨s, rfl, fun _ => rfl⟩

theorem startsOrKeeps_id : StartsOrKeeps (fun s => s) := readOrKeep_self

/-- An operation that neither reads nor writes what is pending. -/
theorem startsOrKeeps_of_commutes {op : State → State} (value : ∀ s, (op s).rdValue = s.rdValue)
    (commutes : ∀ d s, op (withDelay d s) = withDelay d (op s)) : StartsOrKeeps op :=
  fun s => .inr ⟨op s, value s, fun d => commutes d s⟩

/-- After one operation another: the second may start a read over the read of the first. -/
theorem ReadOrKeep.andThen {x : Word} {g : Fin 3 → State} {op : State → State} (first : ReadOrKeep x g)
    (second : StartsOrKeeps op) : ReadOrKeep x (fun d => op (g d)) := by
  obtain ⟨t, delay, reached⟩ | ⟨t, value, reached⟩ := first
  · refine .inl ⟨op t, ?_, fun d => congrArg op (reached d)⟩
    have same : withDelay 2 t = t := by rw [← delay]; rfl
    obtain ⟨u, started, reached'⟩ | ⟨u, -, reached'⟩ := second t
    · rw [← same]; exact (congrArg State.rdDelay (reached' 2)).trans started
    · rw [← same]; exact congrArg State.rdDelay (reached' 2)
  · obtain ⟨u, started, reached'⟩ | ⟨u, kept, reached'⟩ := second t
    · exact .inl ⟨u, started, fun d => (congrArg op (reached d)).trans (reached' d)⟩
    · exact .inr ⟨u, kept.trans value, fun d => (congrArg op (reached d)).trans (reached' d)⟩

theorem StartsOrKeeps.andThen {op op' : State → State} (first : StartsOrKeeps op) (second : StartsOrKeeps op') :
    StartsOrKeeps (fun s => op' (op s)) :=
  fun s => (first s).andThen second

/-! ## The operations -/

theorem devRead_withDelay (dev : Device) (off : BitVec 24) (d : Fin 3) (s : State) :
    devRead dev off (withDelay d s) = ((devRead dev off s).1, withDelay d (devRead dev off s).2) := by
  unfold devRead
  rw [withDelay_cfg]
  split <;> rfl

/-- Which access a virtual read or write is does not depend on what is pending. -/
theorem access_withDelay (v : Word) (d : Fin 3) (s : State) :
    readAccess v (withDelay d s) = readAccess v s ∧ writeAccess v (withDelay d s) = writeAccess v s :=
  ⟨rfl, rfl⟩

theorem memRead_withDelay (v : Word) (d : Fin 3) (s : State) :
    memRead v (withDelay d s) = ((memRead v s).1, withDelay d (memRead v s).2) := by
  rw [memRead_eq, memRead_eq, (access_withDelay v d s).1]
  cases readAccess v s with
  | device dev off => exact devRead_withDelay dev off d (clearFaults s)
  | fault access write pn => rfl
  | ram pn off => rfl

theorem issueRead_withDelay (v : Word) (d : Fin 3) (s : State) : issueRead v (withDelay d s) = issueRead v s := by
  unfold issueRead
  rw [memRead_withDelay]
  rfl

theorem issueRead_startsOrKeeps (v : Word) : StartsOrKeeps (issueRead v) :=
  fun s => .inl ⟨issueRead v s, rfl, fun d => issueRead_withDelay v d s⟩

theorem busEffect_intstat_eq (off : BitVec 24) (x : Word) (s : State) :
    (busEffect off x s).intstat =
      if off = s.cfg.intstatOffset.setWidth 24 then (setStatus x s).intstat else s.intstat := by
  unfold busEffect
  simp only []
  split <;> split <;> rfl

theorem busEffect_promEn_eq (off : BitVec 24) (x : Word) (s : State) :
    (busEffect off x s).promEn =
      if off = s.cfg.promctlOffset.setWidth 24 ∧ x &&& s.cfg.promctlMask = s.cfg.promctlMask then false
      else s.promEn := by
  unfold busEffect
  simp only []
  split <;> split <;> rfl

theorem busEffect_withDelay (off : BitVec 24) (x : Word) (d : Fin 3) (s : State) :
    busEffect off x (withDelay d s) = withDelay d (busEffect off x s) := by
  rw [busEffect_frame, busEffect_frame off x s, busEffect_intstat_eq, busEffect_promEn_eq, busEffect_intstat_eq,
    busEffect_promEn_eq]
  rfl

theorem devWrite_withDelay (dev : Device) (off : BitVec 24) (x : Word) (d : Fin 3) (s : State) :
    devWrite dev off x (withDelay d s) = withDelay d (devWrite dev off x s) := by
  by_cases controls : controlDevice s.cfg = some dev
  · rw [devWrite_controls controls, devWrite_controls (s := withDelay d s) controls]
    exact busEffect_withDelay off x d { s with trace := _ }
  · rw [devWrite_elsewhere controls, devWrite_elsewhere (s := withDelay d s) controls]
    rfl

theorem memWrite_withDelay (v x : Word) (d : Fin 3) (s : State) :
    memWrite v x (withDelay d s) = withDelay d (memWrite v x s) := by
  rw [memWrite_eq, memWrite_eq, (access_withDelay v d s).2]
  cases writeAccess v s with
  | device dev off => exact devWrite_withDelay dev off x d (clearFaults s)
  | fault access write pn => rfl
  | ram pn off => rfl

theorem writeMap_withDelay (d : Fin 3) (s : State) : writeMap (withDelay d s) = withDelay d (writeMap s) := by
  rw [writeMap_frame, writeMap_frame s, writeMap_l1, writeMap_l2, writeMap_l1, writeMap_l2]
  rfl

theorem startAccess_startsOrKeeps (start : Started) : StartsOrKeeps (startAccess start) := by
  cases start with
  | nothing => exact startsOrKeeps_id
  | read => exact fun s => issueRead_startsOrKeeps s.vma s
  | write =>
    exact startsOrKeeps_of_commutes (fun s => memWrite_rdValue s.vma s.md s) (fun d s => memWrite_withDelay ..)
  | map => exact startsOrKeeps_of_commutes writeMap_rdValue writeMap_withDelay

theorem writeFunc_startsOrKeeps (f : FuncDest) (v : Word) : StartsOrKeeps (writeFunc f v) := by
  cases f with
  | vma start => exact fun s => startAccess_startsOrKeeps start { s with vma := v }
  | md start => exact fun s => startAccess_startsOrKeeps start { s with md := v }
  | _ => exact startsOrKeeps_of_commutes (fun _ => rfl) (fun _ _ => rfl)

theorem writeDest_startsOrKeeps (dest : Dest) (v : Word) : StartsOrKeeps (writeDest dest v) := by
  cases dest with
  | amem a => exact startsOrKeeps_of_commutes (fun _ => rfl) (fun _ _ => rfl)
  | func i m =>
    have mirrors : StartsOrKeeps (mirrored m v) := startsOrKeeps_of_commutes (fun _ => rfl) (fun _ _ => rfl)
    exact (writeFunc_startsOrKeeps (destFunc i) v).andThen mirrors

theorem lcAdvance_startsOrKeeps : StartsOrKeeps (fun s => (lcAdvance s).1) := by
  intro s
  cases fetch : s.lc.getLsbD 31 with
  | true =>
    refine .inl ⟨(lcAdvance s).1, by rw [lcAdvance_fetch s fetch]; rfl, fun d => ?_⟩
    show (lcAdvance (withDelay d s)).1 = (lcAdvance s).1
    rw [lcAdvance_fetch s fetch, lcAdvance_fetch (withDelay d s) fetch]
    exact congrArg (fun u : State => { u with
      lc := lcWord (lcLast s) (lcNext s), lcHist := Ring.record s.cfg.lcHistN s.lcHist s.lc })
      (issueRead_withDelay _ d { s with vma := _ })
  | false =>
    refine .inr ⟨(lcAdvance s).1, by rw [lcAdvance_no_fetch s fetch], fun d => ?_⟩
    show (lcAdvance (withDelay d s)).1 = withDelay d (lcAdvance s).1
    rw [lcAdvance_no_fetch s fetch, lcAdvance_no_fetch (withDelay d s) fetch]
    rfl

theorem popReturn_address_withDelay (d : Fin 3) (s : State) : (popReturn (withDelay d s)).1 = (popReturn s).1 := by
  cases advance : (spcTop s).getLsbD 14 with
  | true => rw [popReturn_advance s advance, popReturn_advance (withDelay d s) advance]; rfl
  | false => rw [popReturn_plain s advance, popReturn_plain (withDelay d s) advance]; rfl

theorem popReturn_startsOrKeeps : StartsOrKeeps (fun s => (popReturn s).2) := by
  intro s
  cases advance : (spcTop s).getLsbD 14 with
  | true =>
    have states (d : Fin 3) : (popReturn (withDelay d s)).2 = (lcAdvance (withDelay d (spcPop s).2)).1 := by
      rw [popReturn_advance (withDelay d s) advance]; rfl
    simp only [states]
    exact lcAdvance_startsOrKeeps (spcPop s).2
  | false =>
    have states (d : Fin 3) : (popReturn (withDelay d s)).2 = withDelay d (spcPop s).2 := by
      rw [popReturn_plain (withDelay d s) advance]; rfl
    simp only [states]
    exact readOrKeep_self (spcPop s).2

/-- A transfer to an address that does not depend on what is pending. -/
theorem startsOrKeeps_withNpc (a : BitVec 14) : StartsOrKeeps (fun s => { s with npc := a }) :=
  startsOrKeeps_of_commutes (fun _ => rfl) (fun _ _ => rfl)

theorem startsOrKeeps_withInhibit (b : Bool) : StartsOrKeeps (fun s => { s with inhibit := b }) :=
  startsOrKeeps_of_commutes (fun _ => rfl) (fun _ _ => rfl)

/-- A return and the transfer to the popped address. -/
theorem return_startsOrKeeps : StartsOrKeeps (fun s => { (popReturn s).2 with npc := (popReturn s).1 }) := by
  intro s
  simp only [popReturn_address_withDelay]
  exact (popReturn_startsOrKeeps s).andThen (startsOrKeeps_withNpc (popReturn s).1)

theorem popjIf_startsOrKeeps (flag : Bool) : StartsOrKeeps (popjIf flag) := by
  cases flag with
  | false => exact startsOrKeeps_id
  | true => exact return_startsOrKeeps

theorem haltIf_startsOrKeeps (sub : JumpSub) : StartsOrKeeps (haltIf sub) := by
  cases sub <;> exact startsOrKeeps_of_commutes (fun _ => rfl) (fun _ _ => rfl)

theorem spcPush_startsOrKeeps (v : Word) : StartsOrKeeps (spcPush v) :=
  startsOrKeeps_of_commutes (fun _ => rfl) (fun _ _ => rfl)

theorem jumpTaken_startsOrKeeps (f : JumpFields) : StartsOrKeeps (jumpTaken f) := by
  intro s
  unfold jumpTaken
  cases f.link with
  | none => exact .inr ⟨{ s with npc := f.target, inhibit := s.inhibit || f.n }, rfl, fun _ => rfl⟩
  | push =>
    exact .inr ⟨{ spcPush ((if f.n then s.npc - 1 else s.npc).setWidth 32) s with
      npc := f.target, inhibit := s.inhibit || f.n }, rfl, fun _ => rfl⟩
  | pop => exact (return_startsOrKeeps s).andThen (startsOrKeeps_withInhibit (s.inhibit || f.n))

/-- The M operand and the state after it do not depend on what is pending. -/
theorem readM_withDelay (m : MSource) (d : Fin 3) (s : State) :
    readM m (withDelay d s) = ((readM m s).1, withDelay d (readM m s).2) := by
  cases m with
  | mem k => rfl
  | func i => simp only [readM]; cases funcSource i <;> rfl

theorem dispatchPrepare_startsOrKeeps (f : DispatchFields) (w : Word) : StartsOrKeeps (dispatchPrepare f w) := by
  have constant : StartsOrKeeps (fun s => { s with dc := f.dispConst }) :=
    startsOrKeeps_of_commutes (fun _ => rfl) (fun _ _ => rfl)
  have decrement : StartsOrKeeps (fun s => { s with npc := s.npc - 1 }) :=
    startsOrKeeps_of_commutes (fun _ => rfl) (fun _ _ => rfl)
  have annul := startsOrKeeps_withInhibit true
  unfold dispatchPrepare
  cases f.nPlus1 <;> cases w.getLsbD 14 <;> cases f.enableIsh
  · exact constant
  · exact constant.andThen lcAdvance_startsOrKeeps
  · exact constant.andThen annul
  · exact (constant.andThen lcAdvance_startsOrKeeps).andThen annul
  · exact constant
  · exact constant.andThen lcAdvance_startsOrKeeps
  · exact (constant.andThen decrement).andThen annul
  · exact ((constant.andThen decrement).andThen lcAdvance_startsOrKeeps).andThen annul

theorem dispatchTransfer_startsOrKeeps (w : Word) : StartsOrKeeps (dispatchTransfer w) := by
  have push (s : State) : ReadOrKeep s.rdValue (fun d =>
      spcPush ((if w.getLsbD 14 then s.npc - 1 else s.npc).setWidth 32) (withDelay d s)) := spcPush_startsOrKeeps _ s
  intro s
  unfold dispatchTransfer
  cases w.getLsbD 15 <;> cases w.getLsbD 16
  · exact startsOrKeeps_withNpc (w.setWidth 14) s
  · exact return_startsOrKeeps s
  · exact (push s).andThen (startsOrKeeps_withNpc (w.setWidth 14))
  · exact (push s).andThen return_startsOrKeeps

theorem lcPos_withDelay (low : BitVec 5) (d : Fin 3) (s : State) : lcPos low (withDelay d s) = lcPos low s := by
  unfold lcPos
  rw [withDelay_cfg]
  split <;> rfl

/-! ## The instructions -/

/-- What gives a result does so from every state, and starts a read or keeps what is pending. -/
def RunReadsOrKeeps (run : State → Result) : Prop :=
  ∀ s, ∃ g : Fin 3 → State, (∀ d, run (withDelay d s) = .next (g d)) ∧ ReadOrKeep s.rdValue g

/-- After the operand reads, the rest of an instruction. -/
theorem readOrKeep_after_readM {m : MSource} {s : State} {op : State → State} (rest : StartsOrKeeps op) :
    ReadOrKeep s.rdValue (fun d => op (withDelay d (readM m s).2)) := by
  have value : (readM m s).2.rdValue = s.rdValue := by simp
  rw [← value]
  exact rest (readM m s).2

theorem aluUnit_readsOrKeeps (op : BitVec 6) (g : Word → Word → Bool → Word → AluResult) (f : AluFields) :
    RunReadsOrKeeps (aluUnit op g f) := by
  intro s
  let m := readM f.m s
  let r := g m.1 (readA f.a s) f.cin m.2.q
  have q : StartsOrKeeps (fun t => { t with q := qControl f.qctl m.2.q r }) :=
    startsOrKeeps_of_commutes (fun _ => rfl) (fun _ _ => rfl)
  have rest := (q.andThen (writeDest_startsOrKeeps f.dest
    (outControl f.out m.1 r m.2.q (aluLow op f.cin f.qctl)))).andThen (popjIf_startsOrKeeps f.popj)
  refine ⟨_, fun d => ?_, readOrKeep_after_readM (m := f.m) rest⟩
  unfold aluUnit
  rw [readM_withDelay]
  rfl

theorem byteUnit_readsOrKeeps (output : Word → Word → State → Word) (f : ByteFields)
    (blind : ∀ m a d t, output m a (withDelay d t) = output m a t) : RunReadsOrKeeps (byteUnit output f) := by
  intro s
  let m := readM f.m s
  have rest := (writeDest_startsOrKeeps f.dest (output m.1 (readA f.a s) m.2)).andThen (popjIf_startsOrKeeps f.popj)
  refine ⟨_, fun d => ?_, readOrKeep_after_readM (m := f.m) rest⟩
  unfold byteUnit
  simp only [readM_withDelay, blind]
  rfl

theorem jumpUnit_readsOrKeeps (cond : Word → Word → State → Bool) (f : JumpFields)
    (blind : ∀ m a d t, cond m a (withDelay d t) = cond m a t) : RunReadsOrKeeps (jumpUnit cond f) := by
  intro s
  let c := cond (readM f.m s).1 (readA f.a s) (haltIf f.sub (readM f.m s).2) ^^ f.inv
  have rest : StartsOrKeeps (fun t => if c then jumpTaken f (haltIf f.sub t) else popjIf f.popj (haltIf f.sub t)) := by
    cases c with
    | true => exact (haltIf_startsOrKeeps f.sub).andThen (jumpTaken_startsOrKeeps f)
    | false => exact (haltIf_startsOrKeeps f.sub).andThen (popjIf_startsOrKeeps f.popj)
  refine ⟨_, fun d => ?_, readOrKeep_after_readM (m := f.m) rest⟩
  have halt : haltIf f.sub (withDelay d (readM f.m s).2) = withDelay d (haltIf f.sub (readM f.m s).2) := by
    cases f.sub <;> rfl
  unfold jumpUnit
  simp only [readM_withDelay, halt, blind]
  rfl

theorem dispatchUnit_readsOrKeeps (position : State → BitVec 5) (f : DispatchFields)
    (blind : ∀ d t, position (withDelay d t) = position t) : RunReadsOrKeeps (dispatchUnit position f) := by
  intro s
  let m := readM f.m s
  let w := Memory.read m.2.dmem (dispatchAddr f (position m.2) m.1 m.2).toNat
  have rest : StartsOrKeeps (fun t => if w.getLsbD 15 && w.getLsbD 16 then popjIf f.popj (dispatchPrepare f w t)
      else dispatchTransfer w (dispatchPrepare f w t)) := by
    cases w.getLsbD 15 && w.getLsbD 16 with
    | true => exact (dispatchPrepare_startsOrKeeps f w).andThen (popjIf_startsOrKeeps f.popj)
    | false => exact (dispatchPrepare_startsOrKeeps f w).andThen (dispatchTransfer_startsOrKeeps w)
  refine ⟨_, fun d => ?_, readOrKeep_after_readM (m := f.m) rest⟩
  unfold dispatchUnit
  simp only [readM_withDelay, blind]
  rfl

theorem execJumpWrimem_readsOrKeeps (f : WrimemFields) : RunReadsOrKeeps (execJumpWrimem f) := by
  intro s
  let word : MicroWord := (readA f.a s).setWidth 16 ++ (readM f.m s).1
  have store : StartsOrKeeps (fun t =>
      { t with imem := Memory.write t.imem (f.target.toNat % s.cfg.imemSize) word }) :=
    startsOrKeeps_of_commutes (fun _ => rfl) (fun _ _ => rfl)
  have rest := ((haltIf_startsOrKeeps f.sub).andThen store).andThen (popjIf_startsOrKeeps f.popj)
  refine ⟨_, fun d => ?_, readOrKeep_after_readM (m := f.m) rest⟩
  unfold execJumpWrimem
  rw [readM_withDelay]
  rfl

theorem execDispatchLoad_readsOrKeeps (f : LoadFields) : RunReadsOrKeeps (execDispatchLoad f) := by
  intro s
  have store : StartsOrKeeps (fun t =>
      { t with dmem := Memory.write t.dmem f.dispAddr.toNat (readA f.a s) }) :=
    startsOrKeeps_of_commutes (fun _ => rfl) (fun _ _ => rfl)
  have rest := store.andThen (popjIf_startsOrKeeps f.popj)
  refine ⟨_, fun d => ?_, readOrKeep_after_readM (m := f.m) rest⟩
  unfold execDispatchLoad
  rw [readM_withDelay]
  rfl

/-- No condition, position or output that an instruction computes looks at what is pending. -/
theorem exec_readsOrKeeps (i : Instr) : RunReadsOrKeeps (exec i) := by
  unfold exec
  cases i with
  | jumpWrimem f => exact execJumpWrimem_readsOrKeeps f
  | dispatchLoad f => exact execDispatchLoad_readsOrKeeps f
  | dispatch sub0 f => exact dispatchUnit_readsOrKeeps _ f fun _ _ => rfl
  | dispatchLc f => exact dispatchUnit_readsOrKeeps _ f (lcPos_withDelay f.pos)
  | byteDpb f => exact byteUnit_readsOrKeeps _ f fun m a d t => by simp only [lcPos_withDelay]
  | byteInvalid f | byteLdb f | byteSel f => exact byteUnit_readsOrKeeps _ f fun _ _ _ _ => rfl
  | jumpBit f | jumpC0 f | jumpC1 f | jumpC2 f | jumpC3 f | jumpC4 f | jumpC5 f | jumpC6 f | jumpC7 f =>
    exact jumpUnit_readsOrKeeps _ f fun _ _ _ _ => rfl
  | _ => exact aluUnit_readsOrKeeps _ _ _

/-- The fetching part of a step with a fresh read pending leaves one step to go, and `MD` and the data alone. -/
theorem readyState_pending {s : State} (pending : s.rdDelay = 2) :
    (readyState s).md = s.md ∧ (readyState s).rdDelay = 1 ∧ (readyState s).rdValue = s.rdValue := by
  have arrived : arrive s = withDelay 1 s := by rw [arrive_eq, afterArrival, if_pos pending]; rfl
  refine ⟨?_, ?_, ?_⟩
  · show (fetched s).md = s.md
    rw [fetched_frame, arrived]
    rfl
  · show (fetched s).rdDelay = 1
    rw [fetched_frame, arrived]
    rfl
  · show (fetched s).rdValue = s.rdValue
    rw [fetched_frame]

/-- The fetching part of a step with one step to go delivers the data. -/
theorem readyState_arrival {s : State} (last : s.rdDelay = 1) :
    (readyState s).md = s.rdValue ∧ (readyState s).rdDelay = 0 := by
  have arrived : arrive s = { s with rdDelay := 0, md := s.rdValue } := by
    rw [arrive_eq, afterArrival, if_neg (by rw [last]; decide), if_pos last]
  constructor
  · show (fetched s).md = s.rdValue
    rw [fetched_frame, arrived]
  · show (fetched s).rdDelay = 0
    rw [fetched_frame, arrived]

/-- Settles O8: with the read pending, the instruction runs with one step to go; it starts a read of its own, and
would have done so with nothing pending, or it leaves that one step, and the next arrival delivers the data. -/
theorem deferredDataArrivesInSecondStep : Obligations.DeferredDataArrivesInSecondStep := by
  intro s t pending next i r
  obtain ⟨md, delay, value⟩ := readyState_pending pending
  refine ⟨⟨md, delay, value⟩, ?_⟩
  have same : withDelay 1 r = r := by
    have eta : withDelay r.rdDelay r = r := rfl
    rwa [delay] at eta
  obtain ⟨g, runs, outcome⟩ := exec_readsOrKeeps i r
  have reached : g 1 = t := by
    have run : exec i (withDelay 1 r) = .next t := by rw [same]; exact exec_of_step next
    exact Host.Outcome.next.inj ((runs 1).symm.trans run)
  obtain ⟨u, started, constant⟩ | ⟨u, kept, moves⟩ := outcome
  · have own : t = u := reached.symm.trans (constant 1)
    refine .inl ⟨by rw [own]; exact started, t, ?_, by rw [own]; exact started, rfl⟩
    rw [own, ← constant 0]
    exact runs 0
  · have waiting : t = withDelay 1 u := reached.symm.trans (moves 1)
    have one : t.rdDelay = 1 := by rw [waiting]; rfl
    have data : t.rdValue = s.rdValue := by rw [waiting]; exact kept.trans value
    obtain ⟨arrives, done⟩ := readyState_arrival one
    refine .inr ⟨one, ?_, data, arrives.trans data, done⟩
    rintro x ⟨v, run, started, -⟩
    have idle : v = withDelay 0 u := (Host.Outcome.next.inj ((runs 0).symm.trans run)).symm.trans (moves 0)
    rw [idle] at started
    exact absurd started (by decide : (0 : Fin 3) ≠ 2)

end Sys2Proof.Proofs
end

section
/-! SUPPORT. The location counter, the returns, the operands and the stacks (spec/40_step_and_operands.md,
spec/45_lc_advance.md), each operation in the terms of `Reading`. -/

namespace Sys2Proof.Proofs

open Sys2Proof.Machine Sys2Proof.Reading

/-! ## The location counter -/

/-- The counter after an advance, as a number (R336). -/
theorem lcNext_toNat (s : State) :
    (lcNext s).toNat = (s.lc.toNat % 2 ^ 26 + (if s.icr.getLsbD 29 then 1 else 2)) % 2 ^ 26 := by
  have mode : byteMode s = s.icr.getLsbD 29 := rfl
  rw [lcNext, mode, BitVec.toNat_add, BitVec.toNat_setWidth]
  cases s.icr.getLsbD 29 <;> rfl

theorem lcWord_toNat (needFetch : Bool) (counter : BitVec 26) :
    (lcWord needFetch counter).toNat = (if needFetch then 2 ^ 31 else 0) + counter.toNat := by
  rw [lcWord, toNat_append_eq, toNat_append_eq]
  cases needFetch <;> rfl

/-- The need-fetch bit that an advance leaves: the low two bits of the counter in byte mode, bit 1 in 16-bit mode
(R336 statement 4). -/
theorem lcLast_eq (s : State) :
    lcLast s =
      if s.icr.getLsbD 29 then decide ((lcNext s).toNat % 4 = 0) else decide ((lcNext s).toNat % 4 < 2) := by
  have low : ∀ x : BitVec 26, x.getLsbD 0 = decide (x.toNat % 2 = 1) := fun x => by
    rw [BitVec.getLsbD, Nat.testBit_zero]
  have next : ∀ x : BitVec 26, x.getLsbD 1 = decide (x.toNat / 2 % 2 = 1) := fun x => by
    rw [BitVec.getLsbD, Nat.testBit_succ, Nat.testBit_zero]
  have mode : byteMode s = s.icr.getLsbD 29 := rfl
  rw [lcLast, mode, low, next]
  generalize (lcNext s).toNat = n
  cases s.icr.getLsbD 29 with
  | true =>
    simp only [Bool.true_and, ← decide_not, ← Bool.decide_and, if_true, decide_eq_decide]
    omega
  | false =>
    simp only [Bool.false_and, Bool.not_false, Bool.true_and, ← decide_not, Bool.false_eq_true, if_false,
      decide_eq_decide]
    omega

theorem lcWord_eq_advancedLc (s : State) : lcWord (lcLast s) (lcNext s) = BitVec.ofNat 32 (advancedLc s) := by
  apply BitVec.eq_of_toNat_eq
  have value : (lcWord (lcLast s) (lcNext s)).toNat = advancedLc s := by
    rw [lcWord_toNat, lcLast_eq, lcNext_toNat]
    rfl
  rw [← value, BitVec.toNat_ofNat, Nat.mod_eq_of_lt (BitVec.isLt _)]

/-- The word that the counter points into, as a number (R336). -/
theorem lcFetchAddr_eq (s : State) :
    ((s.lc.setWidth 26 : BitVec 26) >>> 2).setWidth 32 = BitVec.ofNat 32 (s.lc.toNat % 2 ^ 26 / 4) := by
  apply BitVec.eq_of_toNat_eq
  rw [BitVec.toNat_setWidth, BitVec.toNat_ushiftRight, BitVec.toNat_setWidth, BitVec.toNat_ofNat,
    Nat.shiftRight_eq_div_pow]

/-- Settles O41, with the read and without it. -/
theorem lcAdvanceResult : Obligations.LcAdvanceResult := by
  intro s
  unfold advanced
  cases fetch : s.lc.getLsbD 31 with
  | true => rw [lcAdvance_fetch s fetch, lcWord_eq_advancedLc, lcFetchAddr_eq, record_eq_recorded]; rfl
  | false => rw [lcAdvance_no_fetch s fetch, lcWord_eq_advancedLc]; rfl

theorem lcAdvance_fst (s : State) : (lcAdvance s).1 = advanced s := congrArg Prod.fst (lcAdvanceResult s)

/-! ### The position -/

/-- The low two bits of a word, as a number. -/
theorem toNat_mod_four (x : Word) :
    x.toNat % 4 = 2 * (x.getLsbD 1).toNat + (x.getLsbD 0).toNat := by
  have low : x.getLsbD 0 = decide (x.toNat % 2 = 1) := by rw [BitVec.getLsbD, Nat.testBit_zero]
  have next : x.getLsbD 1 = decide (x.toNat / 2 % 2 = 1) := by
    rw [BitVec.getLsbD, Nat.testBit_succ, Nat.testBit_zero]
  rw [low, next]
  obtain h0 | h0 := Nat.mod_two_eq_zero_or_one x.toNat <;>
    obtain h1 | h1 := Nat.mod_two_eq_zero_or_one (x.toNat / 2) <;>
      simp only [h0, h1, decide_true, zero_ne_one, decide_false, Bool.toNat_true, Bool.toNat_false] <;> omega

theorem lcPosFormula_byte (low : BitVec 5) {s : State} (mode : s.icr.getLsbD 29 = true) :
    lcPosFormula low s =
      BitVec.ofBool ((low.getLsbD 4 ^^ s.lc.getLsbD 1) ^^ s.lc.getLsbD 0)
        ++ BitVec.ofBool (low.getLsbD 3 ^^ s.lc.getLsbD 0) ++ low.extractLsb' 0 3 := if_pos mode

theorem lcPosFormula_half (low : BitVec 5) {s : State} (mode : s.icr.getLsbD 29 = false) :
    lcPosFormula low s = BitVec.ofBool (low.getLsbD 4 ^^ s.lc.getLsbD 1) ++ low.extractLsb' 0 4 :=
  if_neg (Bool.eq_false_iff.mp mode)

theorem lcPos_default (low : BitVec 5) {s : State} (h : s.cfg.lcPosTable = none) :
    lcPos low s = lcPosFormula low s := by
  rw [lcPos, h]

theorem lcPosIndex_toNat (low : BitVec 5) (s : State) :
    (lcPosIndex low s).toNat = (if s.icr.getLsbD 29 then 128 else 0) + 32 * (s.lc.toNat % 4) + low.toNat := by
  have mode : byteMode s = s.icr.getLsbD 29 := rfl
  rw [lcPosIndex, toNat_append_eq, toNat_append_eq, BitVec.extractLsb'_toNat, Nat.shiftRight_zero, mode]
  cases s.icr.getLsbD 29 <;> simp only [BitVec.toNat_ofBool, Bool.toNat, cond, if_true, Bool.false_eq_true, if_false]
    <;> omega

/-- Settles O42: bit by bit; where the five instruction bits are 0, by the values of `LC[1:0]`. -/
theorem lcPositionResult : Obligations.LcPositionResult := by
  intro low s
  refine ⟨fun default mode => ?byteMode, fun default mode => ?halfMode, fun table other => ?table⟩
  case byteMode =>
    rw [lcPos_default low default, lcPosFormula_byte low mode, toNat_mod_four]
    refine ⟨?bit3, ?bit4, fun k hk => ?below, fun zero => ?value⟩
    case bit3 => simp only [BitVec.getLsbD_append]; simp
    case bit4 => simp only [BitVec.getLsbD_append]; simp
    case below => simp only [BitVec.getLsbD_append]; simp [hk]
    case value =>
      subst zero
      cases s.lc.getLsbD 0 <;> cases s.lc.getLsbD 1 <;> rfl
  case halfMode =>
    rw [lcPos_default low default, lcPosFormula_half low mode]
    have bit1 : s.lc.toNat / 2 % 2 = (s.lc.getLsbD 1).toNat := by
      have := toNat_mod_four s.lc
      have := (s.lc.getLsbD 0).toNat_le
      omega
    refine ⟨?bit4, fun k hk => ?below, fun zero => ?value⟩
    case bit4 => simp only [BitVec.getLsbD_append]; simp
    case below => simp only [BitVec.getLsbD_append]; simp [hk]
    case value =>
      subst zero
      rw [bit1]
      cases s.lc.getLsbD 1 <;> rfl
  case table => rw [lcPos, other, lcPosIndex_toNat]

/-! ## Returns -/

theorem popReturn_eq (s : State) : popReturn s = returned s := by
  unfold returned
  cases advance : (spcTop s).getLsbD 14 with
  | true =>
    rw [popReturn_advance s advance, lcAdvance_fst, BitVec.setWidth_eq_extractLsb' (by decide)]
    exact (if_pos advance).symm
  | false =>
    rw [popReturn_plain s advance, BitVec.setWidth_eq_extractLsb' (by decide)]
    exact (if_neg (Bool.eq_false_iff.mp advance)).symm

/-- Settles O40. -/
theorem popjReturns : Obligations.PopjReturns := by
  intro flag s
  cases flag with
  | false => rfl
  | true => rw [popjIf, popj, popReturn_eq]

/-! ## The operands -/

/-- The packed stack word (R163). -/
theorem stackWord_eq (s : State) :
    stackWord s = 0#3 ++ s.spcPtr ++ 0#6 ++ (Memory.read s.spc s.spcPtr.toNat).extractLsb' 0 18 := by
  unfold stackWord spcTop
  apply BitVec.eq_of_getLsbD_eq
  intro i hi
  simp only [BitVec.getLsbD_append, BitVec.getLsbD_or, BitVec.getLsbD_and]
  interval_cases i <;> simp

/-- The composite translation word (R170). -/
theorem mapWord_eq (s : State) :
    mapWord s =
      BitVec.ofBool s.writeFault ++ BitVec.ofBool s.accessFault ++ 0#1 ++ (translateAddr s.md s).l1
        ++ (translateAddr s.md s).frame.extractLsb' 0 24 := by
  unfold mapWord bitWord
  apply BitVec.eq_of_getLsbD_eq
  intro i hi
  simp only [BitVec.getLsbD_append, BitVec.getLsbD_or, BitVec.getLsbD_and]
  interval_cases i <;> simp

/-- `LC` as a source (R173). -/
theorem lcSource_eq (s : State) :
    lcSource s = if s.icr.getLsbD 29 then s.lc else s.lc.extractLsb' 1 31 ++ 0#1 := by
  have even : s.lc &&& ~~~1#32 = s.lc.extractLsb' 1 31 ++ 0#1 := by
    apply BitVec.eq_of_getLsbD_eq
    intro i hi
    simp only [BitVec.getLsbD_append, BitVec.getLsbD_and]
    interval_cases i <;> simp
  rw [← even]
  rfl

/-- The indices without an entry (R161, R172). -/
theorem funcSource_unknown :
    ∀ i : BitVec 5, i.toNat ∈ [0o04, 0o15, 0o16, 0o17, 0o20, 0o21, 0o22, 0o23, 0o26, 0o27, 0o30, 0o31, 0o32,
          0o33, 0o34, 0o35, 0o36, 0o37] → funcSource i = .unknown := by
  decide

/-- Settles O43, index by index: each source by its name, the packed formats by the equations above. -/
theorem functionalSources : Obligations.FunctionalSources := by
  intro s t packed r
  have zeroExtended : ∀ x : BitVec 10, x.setWidth 32 = 0#22 ++ x := fun x => BitVec.setWidth_eq_append (by decide)
  refine ⟨?dc, ?spcTop, ?pdlPtr, ?pdlIdx, rfl, rfl, rfl, rfl, ?mapWord, rfl, ?lc, ?spcPop, ?pdlPop, rfl, ?unknown,
    fun _ => rfl⟩
  case dc => exact congrArg (·, s) (zeroExtended s.dc)
  case spcTop => exact congrArg (·, s) (stackWord_eq s)
  case pdlPtr => exact congrArg (·, s) (zeroExtended s.pdlPtr)
  case pdlIdx => exact congrArg (·, s) (zeroExtended s.pdlIdx)
  case mapWord => exact congrArg (·, s) (mapWord_eq s)
  case lc => exact congrArg (·, s) (lcSource_eq s)
  case spcPop => exact congrArg (·, (spcPop s).2) (stackWord_eq s)
  case pdlPop => rw [← record_eq_recorded]; rfl
  case unknown =>
    intro i hi
    show readSource (funcSource i) s = (0#32, s)
    rw [funcSource_unknown i hi]
    rfl

/-! ### Destinations -/

theorem writeDest_func (x : BitVec 6) (m : BitVec 5) (v : Word) (s : State) :
    writeDest (.func x m) v s = mirrored m v (writeFunc (funcDest (x.extractLsb' 0 5)) v s) := by
  rw [← BitVec.setWidth_eq_extractLsb' (by decide)]
  rfl

/-- The indices without an effect of their own (R181, R184). -/
theorem funcDest_mirrors_only :
    ∀ i : BitVec 5, i.toNat ∈ [0o00, 0o03, 0o04, 0o05, 0o06, 0o07, 0o24, 0o25, 0o26, 0o27, 0o34, 0o35, 0o36, 0o37] →
      funcDest i = .none ∨ funcDest i = .unknown := by
  decide

/-- Settles O44, index by index: the destination by its name, then the mirrors. -/
theorem destinationWrites : Obligations.DestinationWrites := by
  intro v s
  refine ⟨fun a => rfl, fun x m => ?_⟩
  have write : ∀ (i : BitVec 5) (t : State), writeFunc (funcDest i) v s = t →
      x.extractLsb' 0 5 = i → writeDest (.func x m) v s = mirrored m v t := by
    rintro i t effect index
    rw [writeDest_func, index, effect]
  have low10 : v.setWidth 10 = v.extractLsb' 0 10 := BitVec.setWidth_eq_extractLsb' (by decide)
  have low22 : v.setWidth 22 = v.extractLsb' 0 22 := BitVec.setWidth_eq_extractLsb' (by decide)
  have low26 : v.setWidth 26 = v.extractLsb' 0 26 := BitVec.setWidth_eq_extractLsb' (by decide)
  refine ⟨write _ _ ?lc, write _ _ rfl, write _ _ rfl, write _ _ ?pdlPush, write _ _ rfl, write _ _ ?pdlIdx,
    write _ _ ?pdlPtr, write _ _ rfl, write _ _ ?oaLo, write _ _ ?oaHi, write _ _ rfl, write _ _ rfl, write _ _ rfl,
    write _ _ rfl, write _ _ rfl, write _ _ rfl, write _ _ rfl, write _ _ rfl, fun i hi => write _ _ ?mirrorsOnly⟩
  case lc => rw [← low26]; rfl
  case pdlPush => rw [← record_eq_recorded]; rfl
  case pdlIdx => rw [← low10]; rfl
  case pdlPtr => rw [← low10]; rfl
  case oaLo => rw [← low26]; rfl
  case oaHi => rw [← low22]; rfl
  case mirrorsOnly => obtain none | unknown := funcDest_mirrors_only i hi <;> simp only [*, writeFunc]

/-! ## The stacks -/

theorem spcPush_iterate_spcPtr (v : Word) (n : Nat) (s : State) :
    ((spcPush v)^[n] s).spcPtr = s.spcPtr + BitVec.ofNat 5 n := by
  induction n with
  | zero => exact (BitVec.add_zero _).symm
  | succ n ih => rw [Function.iterate_succ_apply', spcPush_spcPtr, ih, BitVec.ofNat_add, BitVec.add_assoc]; rfl

theorem pdlPush_iterate_pdlPtr (v : Word) (n : Nat) (s : State) :
    ((pdlPush v)^[n] s).pdlPtr = s.pdlPtr + BitVec.ofNat 10 n := by
  induction n with
  | zero => exact (BitVec.add_zero _).symm
  | succ n ih => rw [Function.iterate_succ_apply', pdlPush_pdlPtr, ih, BitVec.ofNat_add, BitVec.add_assoc]; rfl

/-- Settles O45: the pointer comes back after a push and a pop and, being that narrow, after 32 or 1024 pushes. -/
theorem stacksPushPopAndWrap : Obligations.StacksPushPopAndWrap := by
  intro v s
  have spcBack : s.spcPtr + 1 - 1 = s.spcPtr := BitVec.add_sub_cancel _ _
  have pdlBack : s.pdlPtr + 1 - 1 = s.pdlPtr := BitVec.add_sub_cancel _ _
  refine ⟨⟨?spcWord, ?spcState⟩, ⟨?pdlWord, ?pdlState⟩, ?spcWrap, ?pdlWrap⟩
  case spcWord => simp only [spcPop, spcTop, spcPush_spc, spcPush_spcPtr, Memory.read_write_same]
  case spcState => simp only [spcPop, spcPush, spcBack]
  case pdlWord => simp only [pdlPop, pdlTop, pdlPush_pdl, pdlPush_pdlPtr, Memory.read_write_same]
  case pdlState => simp only [pdlPop, pdlPush, recordPdl, pdlBack]
  case spcWrap => rw [spcPush_iterate_spcPtr]; exact BitVec.add_zero _
  case pdlWrap => rw [pdlPush_iterate_pdlPtr]; exact BitVec.add_zero _

end Sys2Proof.Proofs
end

section
/-! SUPPORT. The ALU and the byte unit (spec/41_alu.md, spec/44_byte.md): what every ALU instruction does with the
result of its operation, in the terms of `Reading`, then one line per operation. -/

namespace Sys2Proof.Proofs

open Sys2Proof.Machine Sys2Proof.Reading

/-! ## The modifiers (R250 to R258) -/

theorem shiftLeft_or_bit (x : Word) (b : Bool) : (x <<< 1) ||| bitWord b = x.extractLsb' 0 31 ++ BitVec.ofBool b := by
  apply BitVec.eq_of_getLsbD_eq
  intro i hi
  simp only [BitVec.getLsbD_or, BitVec.getLsbD_append, getLsbD_bitWord]
  interval_cases i <;> simp

theorem shiftRight_or_bit (x : Word) (b : Bool) :
    (x >>> 1) ||| (bitWord b <<< 31) = BitVec.ofBool b ++ x.extractLsb' 1 31 := by
  apply BitVec.eq_of_getLsbD_eq
  intro i hi
  simp only [BitVec.getLsbD_or, BitVec.getLsbD_append, BitVec.getLsbD_shiftLeft, getLsbD_bitWord]
  interval_cases i <;> simp

theorem rotl32_eq_rotateLeft (x : Word) (n : BitVec 5) : rotl32 x n = x.rotateLeft n.toNat :=
  (BitVec.rotateLeft_eq_rotateLeftAux_of_lt n.isLt).symm

theorem qControl_eq_newQ (c : QCtl) (q : Word) (r : AluResult) : qControl c q r = newQ c q r.out r.carry := by
  cases c with
  | keep | load => rfl
  | shiftLeft => exact shiftLeft_or_bit q _
  | shiftRight => exact shiftRight_or_bit q _

theorem outControl_eq_busWord (c : OutCtl) (m : Word) (r : AluResult) (q : Word) (low : BitVec 5) :
    outControl c m r q low = busWord c m r.out r.carry q low := by
  cases c with
  | rotatedM => exact rotl32_eq_rotateLeft m low
  | aluOut => rfl
  | shiftRight => exact shiftRight_or_bit r.out _
  | shiftLeft => exact shiftLeft_or_bit r.out _

/-- The rotate count of out-control 0 is what the low five bits of the word say (R255). -/
theorem aluLow_eq (op : BitVec 6) (f : AluFields) :
    aluLow op f.cin f.qctl = (encodeAlu op f).extractLsb' 0 5 := by
  unfold aluLow encodeAlu
  apply BitVec.eq_of_getLsbD_eq
  intro i hi
  simp only [BitVec.getLsbD_extractLsb', BitVec.getLsbD_append]
  interval_cases i <;> simp

/-- An ALU instruction always goes on, with the result of its operation in both modifiers (R200). -/
theorem aluUnit_eq_next (op : BitVec 6) (operation : Word → Word → Bool → Word → AluResult) (f : AluFields)
    (s : State) {out : Word} {carry : Bool}
    (result : operation (readM f.m s).1 (readA f.a s) f.cin (readM f.m s).2.q = ⟨out, carry⟩) :
    aluUnit op operation f s = .next (aluNext op f out carry s) := by
  simp only [aluUnit, result, aluNext, aluFinish, qControl_eq_newQ, outControl_eq_busWord, aluLow_eq]

/-! ## The integers of the operations (R201) -/

theorem ofInt_eq (r : Int) : AluResult.ofInt r = ⟨low32 r, bit32 r⟩ := by
  have residue : (BitVec.ofInt 33 r).toNat = (r % 2 ^ 33).toNat := BitVec.toNat_ofInt ..
  have out : (BitVec.ofInt 33 r).setWidth 32 = low32 r := by rw [low32, ← residue, BitVec.ofNat_toNat]
  have carry : (BitVec.ofInt 33 r).getLsbD 32 = bit32 r := by
    have top : (BitVec.ofInt 33 r).getLsbD 32 = (BitVec.ofInt 33 r).msb := rfl
    rw [top, BitVec.msb_eq_decide, residue, bit32, decide_eq_decide]
    omega
  rw [AluResult.ofInt, out, carry]

theorem comp_eq_not (a : Word) : comp a = ~~~a := by
  apply BitVec.eq_of_toNat_eq
  rw [comp, BitVec.toNat_ofNat, BitVec.toNat_not]
  omega

theorem magnitude_eq_mag (a : Word) : magnitude a = mag a := by
  have sign : a.getLsbD 31 = a.msb := rfl
  rw [magnitude, mag, uint, sign, BitVec.toInt_eq_msb_cond]
  cases a.msb with
  | true =>
    simp only [if_true]
    omega
  | false => simp only [Bool.false_eq_true, if_false, Int.natAbs_natCast]

/-! ## Logic (R202 to R217) -/

/-- A logic operation gives what its row says, if its word is the row's function bit by bit. -/
theorem logicResult (unit : AluFields → State → Result) {op : BitVec 6} (word : Word → Word → Word)
    (bit : Bool → Bool → Bool) (operation : unit = aluUnit op (fun m a _ _ => .logic (word m a)))
    (bits : ∀ m a, ∀ k < 32, (word m a).getLsbD k = bit (m.getLsbD k) (a.getLsbD k)) (f : AluFields) (s : State) :
    ∃ out : Word,
      (∀ k < 32, out.getLsbD k = bit ((readM f.m s).1.getLsbD k) ((readA f.a s).getLsbD k))
        ∧ unit f s = .next (aluNext op f out false s) := by
  rw [operation]
  exact ⟨word (readM f.m s).1 (readA f.a s), bits _ _, aluUnit_eq_next _ _ f s rfl⟩

theorem getLsbD_not_of_lt (x : Word) {k : Nat} (hk : k < 32) : (~~~x).getLsbD k = !x.getLsbD k := by
  rw [BitVec.getLsbD_not, decide_eq_true hk, Bool.true_and]

/-- Settles O25, row by row. -/
theorem bitwiseLogicResults : Obligations.BitwiseLogicResults := by
  unfold Obligations.BitwiseLogicResults logicRows
  simp only [List.forall_mem_cons, exec]
  refine ⟨logicResult execAluSetz (fun _ _ => 0#32) (fun _ _ => false) rfl ?_,
    logicResult execAluAnd (fun m a => m &&& a) (fun m a => m && a) rfl ?_,
    logicResult execAluAndca (fun m a => m &&& ~~~a) (fun m a => m && !a) rfl ?_,
    logicResult execAluSetm (fun m _ => m) (fun m _ => m) rfl ?_,
    logicResult execAluAndcm (fun m a => ~~~m &&& a) (fun m a => !m && a) rfl ?_,
    logicResult execAluSeta (fun _ a => a) (fun _ a => a) rfl ?_,
    logicResult execAluXor (fun m a => m ^^^ a) (fun m a => m != a) rfl ?_,
    logicResult execAluIor (fun m a => m ||| a) (fun m a => m || a) rfl ?_,
    logicResult execAluAndcb (fun m a => ~~~m &&& ~~~a) (fun m a => !m && !a) rfl ?_,
    logicResult execAluSetca (fun _ a => ~~~a) (fun _ a => !a) rfl ?_,
    logicResult execAluOrca (fun m a => m ||| ~~~a) (fun m a => m || !a) rfl ?_,
    logicResult execAluSetcm (fun m _ => ~~~m) (fun m _ => !m) rfl ?_,
    logicResult execAluOrcm (fun m a => ~~~m ||| a) (fun m a => !m || a) rfl ?_,
    logicResult execAluOrcb (fun m a => ~~~m ||| ~~~a) (fun m a => !m || !a) rfl ?_,
    logicResult execAluSeto (fun _ _ => BitVec.allOnes 32) (fun _ _ => true) rfl ?_,
    fun _ none => absurd none List.not_mem_nil⟩
  all_goals
    intro m a k hk
    simp only [BitVec.getLsbD_zero, BitVec.getLsbD_allOnes, BitVec.getLsbD_and, BitVec.getLsbD_or, BitVec.getLsbD_xor,
      getLsbD_not_of_lt _ hk, hk, decide_true, Bool.bne_eq_xor]

/-- Settles O26. -/
theorem equalityTestResult : Obligations.EqualityTestResult := by
  intro f s
  simp only [exec, execAluEqv]
  rw [aluUnit_eq_next _ _ f s rfl]
  refine ⟨fun equal => ?_, fun different => ?_⟩
  · rw [beq_iff_eq.mpr equal]
    rfl
  · rw [beq_eq_false_iff_ne.mpr different]
    rfl

/-! ## Arithmetic (R220 to R235) -/

/-- An arithmetic operation gives what its row says, if its integer is that of the row. -/
theorem arithResult (unit : AluFields → State → Result) {op : BitVec 6} (integer : Word → Word → Int → Int)
    (operation : unit = aluUnit op (fun m a cin _ => .ofInt (integer m a (carryIn cin)))) (f : AluFields)
    (s : State) :
    let r := integer (readM f.m s).1 (readA f.a s) (if f.cin then 1 else 0)
    unit f s = .next (aluNext op f (low32 r) (bit32 r) s) := by
  intro r
  rw [operation, aluUnit_eq_next _ _ f s (ofInt_eq _)]
  rfl

/-- Settles O27, row by row. -/
theorem arithmeticResults : Obligations.ArithmeticResults := by
  unfold Obligations.ArithmeticResults arithRows
  simp only [List.forall_mem_cons, comp_eq_not, exec]
  exact ⟨arithResult execAluMinusOne (fun _ _ c => -1 + c) rfl,
    arithResult execAluAndMinusOne (fun m a c => nat (m &&& a) - 1 + c) rfl,
    arithResult execAluAndcaMinusOne (fun m a c => nat (m &&& ~~~a) - 1 + c) rfl,
    arithResult execAluMMinusOne (fun m _ c => nat m - 1 + c) rfl,
    arithResult execAluOrcaPlus (fun m a c => nat (m ||| ~~~a) + c) rfl,
    arithResult execAluOrcaPlusAnd (fun m a c => nat (m ||| ~~~a) + nat (m &&& a) + c) rfl,
    arithResult execAluSub (fun m a c => nat m - nat a - 1 + c) rfl,
    arithResult execAluOrcaPlusM (fun m a c => nat (m ||| ~~~a) + nat m + c) rfl,
    arithResult execAluIorPlus (fun m a c => nat (m ||| a) + c) rfl,
    arithResult execAluAdd (fun m a c => nat m + nat a + c) rfl,
    arithResult execAluIorPlusAndca (fun m a c => nat (m ||| a) + nat (m &&& ~~~a) + c) rfl,
    arithResult execAluIorPlusM (fun m a c => nat (m ||| a) + nat m + c) rfl,
    arithResult execAluMPlus (fun m _ c => nat m + c) rfl,
    arithResult execAluMPlusAnd (fun m a c => nat m + nat (m &&& a) + c) rfl,
    arithResult execAluMPlusOrca (fun m a c => nat m + nat (m ||| ~~~a) + c) rfl,
    arithResult execAluMPlusM (fun m _ c => nat m + nat m + c) rfl, fun _ none => absurd none List.not_mem_nil⟩

/-- Where the integer is a natural number below `2^33`, it is its own residue. -/
theorem low32_natCast {n : Nat} (small : n < 2 ^ 33) : low32 n = BitVec.ofNat 32 n := by
  have residue : ((n : Int) % 2 ^ 33).toNat = n := by omega
  rw [low32, residue]

theorem bit32_natCast {n : Nat} (small : n < 2 ^ 33) : bit32 n = decide (2 ^ 32 ≤ n) := by
  rw [bit32, decide_eq_decide]
  omega

/-- Settles O28: the row of O27, its sum below `2^33`. -/
theorem addResult : Obligations.AddResult := by
  intro f s sum
  have row := arithmeticResults (.aluAdd, 0o31#6, fun m a c => nat m + nat a + c) (by simp [arithRows]) f s
  have value : nat (readM f.m s).1 + nat (readA f.a s) + (if f.cin then 1 else 0) = (sum : Int) := by
    simp only [nat, sum]
    split <;> rfl
  have small : sum < 2 ^ 33 := by
    have := (readM f.m s).1.isLt
    have := (readA f.a s).isLt
    simp only [sum]
    split <;> omega
  rw [← low32_natCast small, ← bit32_natCast small, ← value]
  exact row

/-! ## Multiply and divide (R240 to R245) -/

/-- Settles O29: each step by the two values of `Q[0]`. -/
theorem multiplyDivideResults : Obligations.MultiplyDivideResults := by
  intro f s m a q0 sum plus minus first
  refine ⟨?mulstep, ?divstep, ?remcorr, ?divfirst⟩
  case mulstep =>
    simp only [exec, execAluMulstep]
    cases bit : q0 with
    | true => exact aluUnit_eq_next _ _ f s ((if_pos bit).trans (ofInt_eq _))
    | false => exact aluUnit_eq_next _ _ f s (if_neg (Bool.eq_false_iff.mp bit))
  case divstep =>
    simp only [exec, execAluDivstep, magnitude_eq_mag]
    cases bit : q0 with
    | true => exact aluUnit_eq_next _ _ f s ((if_pos bit).trans (ofInt_eq _))
    | false => exact aluUnit_eq_next _ _ f s ((if_neg (Bool.eq_false_iff.mp bit)).trans (ofInt_eq _))
  case remcorr =>
    simp only [exec, execAluRemcorr, magnitude_eq_mag]
    cases bit : q0 with
    | true => exact aluUnit_eq_next _ _ f s (if_pos bit)
    | false => exact aluUnit_eq_next _ _ f s ((if_neg (Bool.eq_false_iff.mp bit)).trans (ofInt_eq _))
  case divfirst =>
    simp only [exec, execAluDivfirst, magnitude_eq_mag]
    exact aluUnit_eq_next _ _ f s (ofInt_eq _)

/-- Settles O30. -/
theorem unassignedOpcodeResult : Obligations.UnassignedOpcodeResult := by
  intro op f s
  unfold exec execAluUndef
  exact aluUnit_eq_next op _ f s rfl

/-! ## The byte unit (R324, R325) -/

/-- A field of M merged into A at the position `pos`, bit by bit; off the top of the word it is empty. -/
theorem getLsbD_deposit (pos widthm1 : BitVec 5) (m a : Word) {k : Nat} (hk : k < 32) :
    (mergeField (fieldMask pos widthm1) m a).getLsbD k =
      if pos.toNat + widthm1.toNat < 32 ∧ pos.toNat ≤ k ∧ k ≤ pos.toNat + widthm1.toNat then m.getLsbD k
      else a.getLsbD k := by
  have pos_lt := pos.isLt
  have width_lt := widthm1.isLt
  have inField : k ≤ (pos.toNat + widthm1.toNat) % 32 ∧ pos.toNat ≤ k ↔
      pos.toNat + widthm1.toNat < 32 ∧ pos.toNat ≤ k ∧ k ≤ pos.toNat + widthm1.toNat := by omega
  simp only [getLsbD_mergeField _ _ _ k hk, getLsbD_fieldMask _ _ k hk, decide_eq_true_eq, inField]

theorem exec_byteSel (f : ByteFields) (s : State) :
    exec (.byteSel f) s =
      .next (byteNext f (mergeField (fieldMask f.pos f.widthm1) (readM f.m s).1 (readA f.a s)) s) := by
  unfold exec execByteSel
  exact byteUnit_eq_next _ f s

theorem exec_byteDpb (f : ByteFields) (s : State) :
    exec (.byteDpb f) s =
      .next (byteNext f
        (mergeField (fieldMask (lcPos f.pos (readM f.m s).2) f.widthm1)
          (rotl32 (readM f.m s).1 (lcPos f.pos (readM f.m s).2)) (readA f.a s)) s) := by
  unfold exec execByteDpb
  exact byteUnit_eq_next _ f s

/-- Settles O32: both deposit at their position, the second with M rotated by it. -/
theorem depositResults : Obligations.DepositResults := by
  intro f s
  refine ⟨⟨_, fun k hk => getLsbD_deposit f.pos f.widthm1 _ _ hk, exec_byteSel f s⟩,
    ⟨_, fun k hk => ?rotated, exec_byteDpb f s⟩⟩
  case rotated => rw [getLsbD_deposit _ _ _ _ hk, getLsbD_rotl32 _ _ k hk]

end Sys2Proof.Proofs
end

section
/-! SUPPORT. The jump and the dispatch unit (spec/43_jump.md, spec/42_dispatch.md) in the terms of `Reading`: the
condition of each jump, what a transfer does, the lookup address, and what a table word selects. -/

namespace Sys2Proof.Proofs

open Sys2Proof.Machine Sys2Proof.Reading

/-! ## Jumps (R291 to R304) -/

theorem haltIf_eq (sub : JumpSub) (s : State) :
    haltIf sub s = { s with halted := s.halted || decide (sub = .halt) } := by
  by_cases halt : sub = .halt
  · rw [haltIf, if_pos halt, decide_eq_true halt, Bool.or_true]
  · rw [haltIf, if_neg halt, decide_eq_false halt, Bool.or_false]

theorem haltIf_eq_jumpReady (f : JumpFields) (s : State) : haltIf f.sub (readM f.m s).2 = jumpReady f s :=
  haltIf_eq f.sub (readM f.m s).2

/-- The bit that `JUMP.BIT` tests, in M before the rotation (R293). -/
theorem condBit_eq (rot : BitVec 5) (m : Word) : condBit rot m = m.getLsbD ((32 - rot.toNat) % 32) := by
  rw [condBit, getLsbD_rotl32 m rot 0 (by decide), Nat.zero_add]

theorem condLess_iff (m a : Word) :
    condLess m a = true ↔ if Config.jumpCmpSigned = true then m.toInt < a.toInt else m.toNat < a.toNat := by
  unfold condLess
  split
  · exact BitVec.slt_iff_toInt_lt
  · exact BitVec.ult_iff_lt

theorem condLessEq_iff (m a : Word) :
    condLessEq m a = true ↔ if Config.jumpCmpSigned = true then m.toInt ≤ a.toInt else m.toNat ≤ a.toNat := by
  unfold condLessEq
  split
  · exact BitVec.sle_iff_toInt_le
  · exact BitVec.ule_iff_toNat_le

theorem condFaultOrPending_iff (s : State) :
    condFaultOrPending s = true ↔ s.pageFault = true ∨ interruptPresent s := by
  rw [condFaultOrPending, Bool.or_eq_true, pending_iff]

theorem condFaultOrPendingOrSeqBreak_iff (s : State) :
    condFaultOrPendingOrSeqBreak s = true ↔
      s.pageFault = true ∨ interruptPresent s ∨ s.icr.getLsbD 26 = true := by
  rw [condFaultOrPendingOrSeqBreak, Bool.or_eq_true, Bool.or_eq_true, pending_iff, or_assoc]
  rfl

theorem interruptPresent_haltIf (sub : JumpSub) (s : State) :
    interruptPresent (haltIf sub s) ↔ interruptPresent s := by
  rw [interruptPresent, interruptPresent, haltIf_intstat, haltIf_cfg]

/-- Each jump runs the jump unit with the condition of its row, whatever its sub-field has done. -/
theorem jumpRows_unit (rot : BitVec 5) :
    ∀ row ∈ jumpRows rot, ∃ cond, (∀ f s, exec (row.1 f) s = jumpUnit cond f s)
      ∧ ∀ m a sub t, cond m a (haltIf sub t) = true ↔ row.2 m a t := by
  unfold jumpRows
  simp only [List.forall_mem_cons, exec]
  refine ⟨⟨fun m _ _ => condBit rot m, fun _ _ => rfl, ?bit⟩,
    ⟨fun _ _ _ => false, fun _ _ => rfl, ?never⟩,
    ⟨fun m a _ => condLess m a, fun _ _ => rfl, fun m a _ _ => condLess_iff m a⟩,
    ⟨fun m a _ => condLessEq m a, fun _ _ => rfl, fun m a _ _ => condLessEq_iff m a⟩,
    ⟨fun m a _ => m == a, fun _ _ => rfl, fun _ _ _ _ => beq_iff_eq⟩,
    ⟨fun _ _ t => t.pageFault, fun _ _ => rfl, ?fault⟩,
    ⟨fun _ _ t => condFaultOrPending t, fun _ _ => rfl, ?pending⟩,
    ⟨fun _ _ t => condFaultOrPendingOrSeqBreak t, fun _ _ => rfl, ?seqBreak⟩,
    ⟨fun _ _ _ => true, fun _ _ => rfl, fun _ _ _ _ => iff_of_true rfl trivial⟩,
    fun _ none => absurd none List.not_mem_nil⟩
  case bit => exact fun m _ _ _ => (congrArg (· = true) (condBit_eq rot m)).to_iff
  case never => exact fun _ _ _ _ => Bool.false_eq_true.to_iff
  case fault => exact fun _ _ sub t => (congrArg (· = true) (haltIf_pageFault sub t)).to_iff
  case pending =>
    intro m a sub t
    rw [condFaultOrPending_iff, haltIf_pageFault, interruptPresent_haltIf]
  case seqBreak =>
    intro m a sub t
    rw [condFaultOrPendingOrSeqBreak_iff, haltIf_pageFault, interruptPresent_haltIf, haltIf_icr]

theorem jumpUnit_eq (cond : Word → Word → State → Bool) (f : JumpFields) (s : State) :
    jumpUnit cond f s =
      .next (if cond (readM f.m s).1 (readA f.a s) (haltIf f.sub (readM f.m s).2) ^^ f.inv
        then jumpTaken f (jumpReady f s) else popjIf f.popj (jumpReady f s)) := by
  rw [← haltIf_eq_jumpReady]
  rfl

/-- The inversion, as a proposition (R291). -/
theorem xor_inv_iff {c inv : Bool} {p : Prop} (condition : c = true ↔ p) :
    (c ^^ inv) = true ↔ if inv = true then ¬ p else p := by
  rw [← condition]
  cases inv <;> cases c <;> decide

/-- Settles O34. -/
theorem jumpNotTaken : Obligations.JumpNotTaken := by
  intro rot row mem f s c fails
  obtain ⟨cond, arm, condition⟩ := jumpRows_unit rot row mem
  rw [arm, jumpUnit_eq, if_neg]
  rw [xor_inv_iff (condition _ _ _ _)]
  cases inv : f.inv with
  | true => exact not_not_intro ((if_pos inv).mp fails)
  | false => exact (if_neg (Bool.eq_false_iff.mp inv)).mp fails

theorem setWidth_eq_savedAddress (n : Bool) (npc : BitVec 14) :
    (if n then npc - 1 else npc).setWidth 32 = savedAddress n npc :=
  BitVec.setWidth_eq_append (by decide)

/-- Settles O35, by the link of the jump. -/
theorem jumpTaken : Obligations.JumpTaken := by
  intro rot row mem f s c r holds
  obtain ⟨cond, arm, condition⟩ := jumpRows_unit rot row mem
  rw [arm, jumpUnit_eq, if_pos ((xor_inv_iff (condition _ _ _ _)).mpr holds)]
  cases link : f.link with
  | none => simp only [Machine.jumpTaken, link, r]
  | push => simp only [Machine.jumpTaken, link, spcPush, setWidth_eq_savedAddress, r]
  | pop =>
    have inhibit : (returned r).2.inhibit = r.inhibit := by rw [← popReturn_eq, popReturn_inhibit]
    simp only [Machine.jumpTaken, link, popReturn_eq, inhibit, r]

/-- Settles O36. -/
theorem writeInstructionMemoryResult : Obligations.WriteInstructionMemoryResult := by
  intro f s m
  simp only [exec, execJumpWrimem, haltIf_eq, BitVec.setWidth_eq_extractLsb' (show 16 ≤ 32 by decide), m]

/-- Settles O37. -/
theorem tableLoadResult : Obligations.TableLoadResult := by
  intro f s m
  simp only [exec, execDispatchLoad, m]

/-! ## Dispatches (R272) -/

/-- The mask of the low `n` bits. -/
theorem getLsbD_lowMask {n : Nat} (hn : n < 32) (k : Nat) : ((1#32 <<< n) - 1#32).getLsbD k = decide (k < n) := by
  have power : ((1#32 <<< n) - 1#32).toNat = 2 ^ n - 1 := by
    have small : 2 ^ n < 2 ^ 32 := Nat.pow_lt_pow_right (by decide) hn
    have one : (1#32 <<< n).toNat = 2 ^ n := by
      rw [BitVec.toNat_shiftLeft, BitVec.toNat_ofNat, Nat.shiftLeft_eq, Nat.one_mod_eq_one.mpr (by decide), Nat.one_mul,
        Nat.mod_eq_of_lt small]
    have pos : 0 < 2 ^ n := Nat.two_pow_pos n
    rw [BitVec.toNat_sub, one, BitVec.toNat_ofNat]
    omega
  rw [BitVec.getLsbD, power, Nat.testBit_two_pow_sub_one]

/-- Settles O38. -/
theorem dispatchAddressBits : Obligations.DispatchAddressBits := by
  intro f pos m s k hk frame
  have len_lt : f.len.toNat < 32 := by have := f.len.isLt; omega
  have k_lt : k < 32 := by omega
  simp only [dispatchAddr, BitVec.getLsbD_setWidth, BitVec.getLsbD_or, BitVec.getLsbD_and, getLsbD_rotl32 m pos k k_lt,
    getLsbD_lowMask len_lt k, getLsbD_bitWord, hk, k_lt, decide_true, Bool.true_and]
  rw [Bool.and_comm (m.getLsbD _)]
  rfl

/-- What a dispatch does before its transfer: the constant, the decrement, LC-advance, the inhibit flag. -/
def prepared (f : DispatchFields) (n : Bool) (s : State) : State :=
  let b := { s with dc := f.dispConst, npc := if f.nPlus1 && n then s.npc - 1 else s.npc }
  let c := if f.enableIsh then advanced b else b
  { c with inhibit := c.inhibit || n }

theorem dispatchPrepare_eq (f : DispatchFields) (w : Word) (s : State) :
    dispatchPrepare f w s = prepared f (w.getLsbD 14) s := by
  unfold dispatchPrepare prepared
  simp only [lcAdvance_fst]
  cases f.nPlus1 && w.getLsbD 14 <;> cases w.getLsbD 14 <;> simp

/-! ### The transfer, by R and P -/

theorem dispatchTransfer_jump {w : Word} (r : w.getLsbD 16 = false) (p : w.getLsbD 15 = false) (s : State) :
    dispatchTransfer w s = { s with npc := w.extractLsb' 0 14 } := by
  rw [dispatchTransfer, r, p, ← BitVec.setWidth_eq_extractLsb' (by decide)]
  rfl

theorem dispatchTransfer_call {w : Word} (r : w.getLsbD 16 = false) (p : w.getLsbD 15 = true) (s : State) :
    dispatchTransfer w s =
      { spcPush (savedAddress (w.getLsbD 14) s.npc) s with npc := w.extractLsb' 0 14 } := by
  rw [dispatchTransfer, r, p, setWidth_eq_savedAddress, ← BitVec.setWidth_eq_extractLsb' (by decide)]
  rfl

theorem dispatchTransfer_return {w : Word} (r : w.getLsbD 16 = true) (p : w.getLsbD 15 = false) (s : State) :
    dispatchTransfer w s = { (returned s).2 with npc := (returned s).1 } := by
  rw [dispatchTransfer, r, p, ← popReturn_eq]
  rfl

/-- A dispatch is what `dispatchNext` says, by the R and P of its table word. -/
theorem dispatchUnit_eq_next (position : State → BitVec 5) (f : DispatchFields) (s : State) :
    dispatchUnit position f s = .next (dispatchNext (position (readM f.m s).2) f s) := by
  unfold dispatchUnit dispatchNext
  simp only [dispatchPrepare_eq]
  generalize Memory.read (readM f.m s).2.dmem _ = w
  cases r : w.getLsbD 16 <;> cases p : w.getLsbD 15
  case false.false => rw [dispatchTransfer_jump r p]; rfl
  case false.true => rw [dispatchTransfer_call r p]; rfl
  case true.false => rw [dispatchTransfer_return r p]; rfl
  case true.true => rfl

/-- Settles O39. -/
theorem dispatchResults : Obligations.DispatchResults := by
  intro f s
  refine ⟨fun sub0 => ?_, ?_⟩
  · unfold exec execDispatch
    exact dispatchUnit_eq_next _ f s
  · unfold exec execDispatchLc
    exact dispatchUnit_eq_next _ f s

end Sys2Proof.Proofs
end

section
/-! SUPPORT. What an instruction can write. Every instruction reads its operands, does what its unit does, and may
return (`exec_effect`); what each of these leaves unchanged is said once, and the statements read it off. -/

namespace Sys2Proof.Proofs

open Sys2Proof.Machine Sys2Proof.Reading

/-! ## The parts of an instruction exclude each other -/

section Parts

variable {i : Instr}

theorem jumpSub_of_destination {d : Dest} (dest : destination i = some d) : jumpSub i = none := by
  cases i <;> cases dest <;> rfl

theorem dispatchPart_of_destination {d : Dest} (dest : destination i = some d) : dispatchPart i = none := by
  cases i <;> cases dest <;> rfl

theorem jumpSub_of_jumpPart {f : JumpFields} (fields : jumpPart i = some f) : jumpSub i = some f.sub := by
  cases i <;> cases fields <;> rfl

theorem destination_of_jumpPart {f : JumpFields} (fields : jumpPart i = some f) : destination i = none := by
  cases i <;> cases fields <;> rfl

theorem dispatchPart_of_jumpPart {f : JumpFields} (fields : jumpPart i = some f) : dispatchPart i = none := by
  cases i <;> cases fields <;> rfl

theorem jumpSub_of_dispatchPart {f : DispatchFields} (fields : dispatchPart i = some f) : jumpSub i = none := by
  cases i <;> cases fields <;> rfl

theorem destination_of_dispatchPart {f : DispatchFields} (fields : dispatchPart i = some f) : destination i = none := by
  cases i <;> cases fields <;> rfl

/-! The M operand and the popj bit are those of the part. -/

theorem operands_of_aluPart {op : BitVec 6} {f : AluFields} (fields : aluPart i = some (op, f)) :
    destination i = some f.dest ∧ mOperand i = f.m ∧ popjBit i = f.popj := by
  cases i <;> cases fields <;> exact ⟨rfl, rfl, rfl⟩

theorem operands_of_bytePart {f : ByteFields} (fields : bytePart i = some f) :
    destination i = some f.dest ∧ mOperand i = f.m ∧ popjBit i = f.popj := by
  cases i <;> cases fields <;> exact ⟨rfl, rfl, rfl⟩

theorem operands_of_jumpPart {f : JumpFields} (fields : jumpPart i = some f) :
    mOperand i = f.m ∧ popjBit i = f.popj := by
  cases i <;> cases fields <;> exact ⟨rfl, rfl⟩

theorem operands_of_dispatchPart {f : DispatchFields} (fields : dispatchPart i = some f) :
    mOperand i = f.m ∧ popjBit i = f.popj := by
  cases i <;> cases fields <;> exact ⟨rfl, rfl⟩

end Parts

/-! ## What an instruction does, by its unit -/

/-- The states an instruction can lead to: a destination write, a jump taken or not, a dispatch that transfers or
falls through, a write of instruction memory, a table load. -/
inductive Effect (s : State) (i : Instr) : State → Prop
  | write {d : Dest} (v q : Word) (dest : destination i = some d)
      (keep : (∀ op f, aluPart i = some (op, f) → f.qctl = .keep) → q = s.q) :
      Effect s i (popjIf (popjBit i) (writeDest d v { (readM (mOperand i) s).2 with q := q }))
  | jump {f : JumpFields} (fields : jumpPart i = some f) :
      Effect s i (Machine.jumpTaken f (haltIf f.sub (readM (mOperand i) s).2))
  | noJump {f : JumpFields} (fields : jumpPart i = some f) :
      Effect s i (popjIf (popjBit i) (haltIf f.sub (readM (mOperand i) s).2))
  | transfer {f : DispatchFields} (w : Word) (fields : dispatchPart i = some f)
      (notBoth : ¬ (w.getLsbD 15 && w.getLsbD 16) = true) :
      Effect s i (dispatchTransfer w (dispatchPrepare f w (readM (mOperand i) s).2))
  | fallThrough {f : DispatchFields} (w : Word) (fields : dispatchPart i = some f) :
      Effect s i (popjIf (popjBit i) (dispatchPrepare f w (readM (mOperand i) s).2))
  | wrimem {f : WrimemFields} (word : MicroWord) (instr : i = .jumpWrimem f) :
      Effect s i (popjIf (popjBit i) { haltIf f.sub (readM (mOperand i) s).2 with
        imem := Memory.write (haltIf f.sub (readM (mOperand i) s).2).imem (f.target.toNat % s.cfg.imemSize) word })
  | load {f : LoadFields} (word : Word) (instr : i = .dispatchLoad f) :
      Effect s i (popjIf (popjBit i) { (readM (mOperand i) s).2 with
        dmem := Memory.write (readM (mOperand i) s).2.dmem f.dispAddr.toNat word })

theorem UnitRun.effect {s t : State} {i : Instr} {r : Result} (run : UnitRun s i r) (next : r = .next t) :
    Effect s i t := by
  cases run with
  | @alu _ op f g fields =>
    obtain ⟨dest, operand, popj⟩ := operands_of_aluPart fields
    cases next
    have keep : (∀ op f, aluPart i = some (op, f) → f.qctl = .keep) →
        qControl f.qctl (readM f.m s).2.q (g (readM f.m s).1 (readA f.a s) f.cin (readM f.m s).2.q) = s.q := by
      intro keeps
      rw [keeps op f fields]
      exact readM_q f.m s
    rw [← operand] at keep ⊢
    rw [← popj]
    exact .write _ _ dest keep
  | @byte _ f g fields =>
    obtain ⟨dest, operand, popj⟩ := operands_of_bytePart fields
    cases next
    rw [← operand, ← popj]
    exact .write _ (readM (mOperand i) s).2.q dest fun _ => readM_q _ s
  | @jump _ f g fields =>
    obtain ⟨operand, popj⟩ := operands_of_jumpPart fields
    cases next
    rw [← operand, ← popj]
    split
    · exact .jump fields
    · exact .noJump fields
  | @dispatch _ f g fields =>
    obtain ⟨operand, popj⟩ := operands_of_dispatchPart fields
    cases next
    rw [← operand, ← popj]
    split
    case isTrue => exact .fallThrough _ fields
    case isFalse notBoth => exact .transfer _ fields notBoth
  | wrimem f => cases next; exact .wrimem _ rfl
  | load f => cases next; exact .load _ rfl

theorem exec_effect {i : Instr} {s t : State} (next : exec i s = .next t) : Effect s i t :=
  (exec_unitRun i s).effect next

/-! ## The registers and memories with one writer -/

/-- Settles O16. -/
theorem microcodeMemoriesHaveOneWriter : Obligations.MicrocodeMemoriesHaveOneWriter := by
  intro i s t next
  cases exec_effect next with
  | wrimem word instr => exact ⟨by simp, fun other => absurd instr (other _), fun _ => by simp⟩
  | load word instr => exact ⟨by simp, fun _ => by simp, fun other => absurd instr (other _)⟩
  | write | jump | noJump | transfer | fallThrough => simp

/-- Settles O17: the halt flag is set by `haltIf`, which the jumps and the write of instruction memory run. -/
theorem haltingIsSubFieldOne : Obligations.HaltingIsSubFieldOne := by
  intro i s t next
  cases exec_effect next with
  | write v q dest => simp [jumpSub_of_destination dest]
  | jump fields | noJump fields => simp [haltIf_eq, jumpSub_of_jumpPart fields]
  | transfer w fields | fallThrough w fields => simp [jumpSub_of_dispatchPart fields]
  | wrimem word instr => simp [haltIf_eq, instr, jumpSub]
  | load word instr => simp [instr, jumpSub, jumpPart]

/-- Settles O18. -/
theorem qChangesOnlyByQControl : Obligations.QChangesOnlyByQControl := by
  intro i s t next keeps
  cases exec_effect next with
  | write v q dest keep => simpa using keep keeps
  | jump | noJump | transfer | fallThrough | wrimem | load => simp

@[simp] theorem dispatchPrepare_dc (f : DispatchFields) (w : Word) (s : State) :
    (dispatchPrepare f w s).dc = f.dispConst := by
  rw [dispatchPrepare_eq, prepared]
  cases f.enableIsh with
  | true => simp [← lcAdvance_fst]
  | false => rfl

/-- Settles O19. -/
theorem dispatchConstantIsLoadedByDispatch : Obligations.DispatchConstantIsLoadedByDispatch := by
  intro i s t next
  cases exec_effect next with
  | write v q dest => simp [dispatchPart_of_destination dest]
  | jump fields | noJump fields => simp [dispatchPart_of_jumpPart fields]
  | transfer w fields | fallThrough w fields => simp [fields]
  | wrimem word instr | load word instr => simp [instr, dispatchPart]

/-! ## What a destination leaves unchanged -/

/-- What a functional destination leaves as it was, register by register. -/
structure KeepsAllBut (d : FuncDest) (s t : State) : Prop where
  icr : d ≠ .icr → t.icr = s.icr
  lc : d ≠ .lc → t.lc = s.lc
  vma : (∀ st, d ≠ .vma st) → t.vma = s.vma
  md : (∀ st, d ≠ .md st) → t.md = s.md
  oaLo : d ≠ .oaLo → t.oaLo = s.oaLo ∧ t.oaLoV = s.oaLoV
  oaHi : d ≠ .oaHi → t.oaHi = s.oaHi ∧ t.oaHiV = s.oaHiV
  pdlIdx : d ≠ .pdlIdx → t.pdlIdx = s.pdlIdx
  pdlPtr : d ≠ .pdlPtr → d ≠ .pdlPush → t.pdlPtr = s.pdlPtr
  pdlHist : d ≠ .pdlPush → t.pdlHist = s.pdlHist
  pdl : d ≠ .pdlAtPtr → d ≠ .pdlPush → d ≠ .pdlAtIdx → t.pdl = s.pdl
  spc : d ≠ .spcPush → t.spc = s.spc
  spcPtr : d ≠ .spcPush → t.spcPtr = s.spcPtr
  map : startsMap d = false → t.l1 = s.l1 ∧ t.l2 = s.l2
  access : startsAccess d = false →
    t.accessFault = s.accessFault ∧ t.writeFault = s.writeFault ∧ t.pageFault = s.pageFault ∧ t.opc = s.opc
      ∧ t.rdDelay = s.rdDelay ∧ t.rdValue = s.rdValue ∧ t.devReads = s.devReads ∧ t.pages = s.pages
  store : startsWrite d = false →
    t.pmem = s.pmem ∧ t.intstat = s.intstat ∧ t.promEn = s.promEn ∧ t.trace = s.trace

theorem writeFunc_keepsAllBut (d : FuncDest) (v : Word) (s : State) : KeepsAllBut d s (writeFunc d v s) := by
  cases d with
  | vma st | md st =>
    cases st with
    | nothing | read | write | map =>
      constructor <;> simp [writeFunc, startAccess, startsMap, startsAccess, startsWrite]
  | _ => constructor <;> simp [writeFunc]

/-- The mirrors are no register, so the whole destination write leaves the same unchanged. -/
theorem writeDest_keepsAllBut (d : Dest) (v : Word) (s : State) : KeepsAllBut (functionOf d) s (writeDest d v s) := by
  cases d with
  | amem a => exact { writeFunc_keepsAllBut .none v s with }
  | func x m => exact { writeFunc_keepsAllBut (destFunc x) v s with }

theorem destA_eq_aIndex (d : Dest) : destA d = aIndex d := by
  cases d <;> rfl

/-! ### The bits of `INTSTAT` and `PROM_EN` -/

theorem startAccess_intstat (st : Started) (s : State) :
    (startAccess st s).intstat &&& ~~~s.cfg.isWritable = s.intstat &&& ~~~s.cfg.isWritable := by
  cases st with
  | nothing | read | map => simp [startAccess]
  | write => exact memWrite_intstat ..

theorem startAccess_promEn {s : State} (off : s.promEn = false) (st : Started) :
    (startAccess st s).promEn = false := by
  cases st with
  | nothing | read | map => simpa [startAccess] using off
  | write => exact memWrite_promEn _ _ _ off

theorem writeFunc_intstat (d : FuncDest) (v : Word) (s : State) :
    (writeFunc d v s).intstat &&& ~~~s.cfg.isWritable = s.intstat &&& ~~~s.cfg.isWritable := by
  cases d with
  | vma st => exact startAccess_intstat st { s with vma := v }
  | md st => exact startAccess_intstat st { s with md := v }
  | _ => rfl

theorem writeFunc_promEn {s : State} (off : s.promEn = false) (d : FuncDest) (v : Word) :
    (writeFunc d v s).promEn = false := by
  cases d with
  | vma st => exact startAccess_promEn (s := { s with vma := v }) off st
  | md st => exact startAccess_promEn (s := { s with md := v }) off st
  | _ => exact off

theorem writeDest_intstat (d : Dest) (v : Word) (s : State) :
    (writeDest d v s).intstat &&& ~~~s.cfg.isWritable = s.intstat &&& ~~~s.cfg.isWritable := by
  cases d with
  | amem a => rfl
  | func x m => exact writeFunc_intstat (destFunc x) v s

theorem writeDest_promEn {s : State} (off : s.promEn = false) (d : Dest) (v : Word) :
    (writeDest d v s).promEn = false := by
  cases d with
  | amem a => exact off
  | func x m => exact writeFunc_promEn off (destFunc x) v

/-- Two words that agree under the complement of a mask agree in every bit that the mask lacks. -/
theorem getLsbD_eq_of_and_not_eq {x y mask : Word} (agree : x &&& ~~~mask = y &&& ~~~mask) {k : Nat}
    (lacks : mask.getLsbD k = false) : x.getLsbD k = y.getLsbD k := by
  by_cases hk : k < 32
  · have bit := congrArg (BitVec.getLsbD · k) agree
    simpa only [BitVec.getLsbD_and, getLsbD_not_of_lt _ hk, lacks, Bool.not_false, Bool.and_true] using bit
  · rw [BitVec.getLsbD_of_ge _ _ (by omega), BitVec.getLsbD_of_ge _ _ (by omega)]

/-- Settles O20: only a destination write can reach either register, and it keeps the protected bits. -/
theorem presentBitsAndPromEnableAreProtected : Obligations.PresentBitsAndPromEnableAreProtected := by
  intro i s t next
  cases exec_effect next with
  | @write d v q =>
    refine ⟨fun off => ?_, fun k unwritable => ?_⟩
    · rw [popjIf_promEn]
      exact writeDest_promEn (by simpa using off) d v
    · have kept := getLsbD_eq_of_and_not_eq (k := k) (writeDest_intstat d v { (readM (mOperand i) s).2 with q := q })
        (by simpa using unwritable)
      rw [popjIf_intstat, kept, readM_intstat]
  | jump | noJump | transfer | fallThrough | wrimem | load => simp

/-! ### Frame of the ALU and byte instructions -/

theorem write_of_destination {i : Instr} {d : Dest} {s t : State} (dest : destination i = some d)
    (next : exec i s = .next t) :
    ∃ v q, ((∀ op f, aluPart i = some (op, f) → f.qctl = .keep) → q = s.q)
      ∧ t = popjIf (popjBit i) (writeDest d v { (readM (mOperand i) s).2 with q := q }) := by
  cases exec_effect next with
  | write v q dest' keep =>
    cases dest.symm.trans dest'
    exact ⟨v, q, keep, rfl⟩
  | jump fields | noJump fields => simp [destination_of_jumpPart fields] at dest
  | transfer w fields | fallThrough w fields => simp [destination_of_dispatchPart fields] at dest
  | wrimem word instr | load word instr => subst instr; cases dest

/-- Settles O15: a functional destination writes its word to both mirrors. -/
theorem mirroredLocationsAgree : Obligations.MirroredLocationsAgree := by
  intro i x m s t dest next
  obtain ⟨v, q, -, rfl⟩ := write_of_destination dest next
  simp [writeDest_amem, writeDest_mmem, destA]

/-- Settles O21: the operand read, the destination write and the return, each with what it leaves unchanged. -/
theorem frameOfAluAndByte : Obligations.FrameOfAluAndByte := by
  intro i d s t dest next
  obtain ⟨v, q, keepsQ, rfl⟩ := write_of_destination dest next
  have keeps := writeDest_keepsAllBut d v { (readM (mOperand i) s).2 with q := q }
  refine ⟨?amem, ?mmem, ?npc, ?always, ?lcHist, ?pdlHist, ?q, ?icr, ?lc, ?vma, ?md, ?oaLo, ?oaHi, ?pdlIdx, ?pdlPtr,
    ?pdl, ?spc, ?spcPtr, ?map, ?access, ?store⟩
  case amem =>
    intro a other
    rw [popjIf_amem, writeDest_amem, destA_eq_aIndex, Memory.read_write_other _ _ _ _ other, readM_amem]
  case mmem =>
    intro k other
    rw [popjIf_mmem, writeDest_mmem]
    cases d with
    | amem a => simp
    | func x m => simp [Memory.read_write_other _ _ _ _ (other x m rfl)]
  case npc => intro noPopj; simp [noPopj, popjIf]
  case always => simp
  case lcHist => intro noPopj; simp [noPopj, popjIf]
  case pdlHist => intro push pop; simpa [readM_pdlHist, pop] using keeps.pdlHist push
  case q => intro keepsAll; simpa using keepsQ keepsAll
  case icr => intro other; simpa using keeps.icr other
  case lc => intro other noPopj; simpa [noPopj, popjIf] using keeps.lc other
  case vma => intro other noPopj; simpa [noPopj, popjIf] using keeps.vma other
  case md => intro other; simpa using keeps.md other
  case oaLo => intro other; simpa using keeps.oaLo other
  case oaHi => intro other; simpa using keeps.oaHi other
  case pdlIdx => intro other; simpa using keeps.pdlIdx other
  case pdlPtr => intro other push pop; simpa [readM_pdlPtr, pop] using keeps.pdlPtr other push
  case pdl => intro atPtr push atIdx; simpa using keeps.pdl atPtr push atIdx
  case spc => intro other; simpa using keeps.spc other
  case spcPtr => intro other pop noPopj; simpa [noPopj, popjIf, readM_spcPtr, pop] using keeps.spcPtr other
  case map => intro other; simpa using keeps.map other
  case access => intro other noPopj; simpa [noPopj, popjIf] using keeps.access other
  case store => intro other; simpa using keeps.store other

/-! ### The words that a destination stores -/

/-- Where a destination stores depends on nothing but the configuration, the two tables and `VMA`. -/
theorem storeTarget_congr (d : Dest) (v : Word) (s t : State) (cfg : t.cfg = s.cfg) (l1 : t.l1 = s.l1)
    (l2 : t.l2 = s.l2) (vma : t.vma = s.vma) : storeTarget d v t = storeTarget d v s := by
  unfold storeTarget
  rw [storeAddr_congr v s t cfg l1 l2, vma, storeAddr_congr s.vma s t cfg l1 l2]

theorem read_memWrite_pmem {v : Word} {s : State} {a : Nat} (other : storeAddr v s ≠ some a) (x : Word) :
    Memory.read (memWrite v x s).pmem a = Memory.read s.pmem a := by
  rw [memWrite_pmem]
  cases target : storeAddr v s with
  | none => rfl
  | some b =>
    have different : a ≠ b := fun same => other (same ▸ target)
    exact Memory.read_write_other _ _ _ _ different

/-- Away from the address that a started write stores to, physical memory is as it was. -/
theorem read_writeDest_pmem {d : Dest} {v : Word} {s : State} {a : Nat} (other : storeTarget d v s ≠ some a) :
    Memory.read (writeDest d v s).pmem a = Memory.read s.pmem a := by
  by_cases starts : startsWrite (functionOf d) = true
  · have pmem : (writeDest d v s).pmem = (writeFunc (functionOf d) v s).pmem := by cases d <;> rfl
    rw [pmem]
    unfold storeTarget at other
    revert starts other
    cases functionOf d with
    | vma st =>
      cases st with
      | write => exact fun other _ => read_memWrite_pmem (s := { s with vma := v }) other s.md
      | nothing | read | map => exact fun _ starts => absurd starts Bool.false_ne_true
    | md st =>
      cases st with
      | write => exact fun other _ => read_memWrite_pmem (s := { s with md := v }) other v
      | nothing | read | map => exact fun _ starts => absurd starts Bool.false_ne_true
    | _ => exact fun _ starts => absurd starts Bool.false_ne_true
  · rw [((writeDest_keepsAllBut d v s).store (Bool.eq_false_iff.mpr starts)).1]

theorem read_writeDest_spc {d : Dest} {s : State} {a : Nat} (v : Word)
    (other : ¬ (functionOf d = .spcPush ∧ a = (s.spcPtr + 1).toNat)) :
    Memory.read (writeDest d v s).spc a = Memory.read s.spc a := by
  by_cases push : functionOf d = .spcPush
  · have spc : (writeDest d v s).spc = (writeFunc (functionOf d) v s).spc := by cases d <;> rfl
    rw [spc, push]
    exact Memory.read_write_other _ _ _ _ fun same => other ⟨push, same⟩
  · rw [(writeDest_keepsAllBut d v s).spc push]

theorem read_writeDest_pdl {d : Dest} {s : State} {a : Nat} (v : Word)
    (other : ¬ ((functionOf d = .pdlPush ∧ a = (s.pdlPtr + 1).toNat) ∨ (functionOf d = .pdlAtPtr ∧ a = s.pdlPtr.toNat)
      ∨ (functionOf d = .pdlAtIdx ∧ a = s.pdlIdx.toNat))) :
    Memory.read (writeDest d v s).pdl a = Memory.read s.pdl a := by
  have pdl : (writeDest d v s).pdl = (writeFunc (functionOf d) v s).pdl := by cases d <;> rfl
  by_cases push : functionOf d = .pdlPush
  · rw [pdl, push]
    exact Memory.read_write_other _ _ _ _ fun same => other (.inl ⟨push, same⟩)
  by_cases atPtr : functionOf d = .pdlAtPtr
  · rw [pdl, atPtr]
    exact Memory.read_write_other _ _ _ _ fun same => other (.inr (.inl ⟨atPtr, same⟩))
  by_cases atIdx : functionOf d = .pdlAtIdx
  · rw [pdl, atIdx]
    exact Memory.read_write_other _ _ _ _ fun same => other (.inr (.inr ⟨atIdx, same⟩))
  rw [(writeDest_keepsAllBut d v s).pdl atPtr push atIdx]

/-- Settles O22: the word written is the one in A-memory, and the stores of the destination are those of the
state that the M operand has left. -/
theorem destinationStoresOneWord : Obligations.DestinationStoresOneWord := by
  intro i d s t dest next
  obtain ⟨v, q, -, rfl⟩ := write_of_destination dest next
  have word : Memory.read (popjIf (popjBit i) (writeDest d v { (readM (mOperand i) s).2 with q := q })).amem (aIndex d)
      = v := by
    rw [popjIf_amem, writeDest_amem, destA_eq_aIndex, Memory.read_write_same]
  rw [word]
  refine ⟨fun a other => ?_, fun a other => ?_, fun a other => ?_⟩
  · have target : storeTarget d v { (readM (mOperand i) s).2 with q := q } = storeTarget d v s :=
      storeTarget_congr d v s _ (readM_cfg ..) (readM_l1 ..) (readM_l2 ..) (readM_vma ..)
    rw [popjIf_pmem, read_writeDest_pmem (by rwa [target]), readM_pmem]
  · have stored := read_writeDest_spc (s := { (readM (mOperand i) s).2 with q := q }) v other
    rw [popjIf_spc, stored, readM_spc]
  · rw [popjIf_pdl, read_writeDest_pdl v (by simpa using other), readM_pdl]

/-! ### Frame of the jumps -/

theorem jumpTaken_of_none {f : JumpFields} (link : f.link = .none) (s : State) :
    Machine.jumpTaken f s = { s with npc := f.target, inhibit := s.inhibit || f.n } := by
  rw [Machine.jumpTaken, link]

theorem jumpTaken_of_push {f : JumpFields} (link : f.link = .push) (s : State) :
    Machine.jumpTaken f s =
      { spcPush (savedAddress f.n s.npc) s with npc := f.target, inhibit := s.inhibit || f.n } := by
  rw [Machine.jumpTaken, link, setWidth_eq_savedAddress]

theorem jumpTaken_of_pop {f : JumpFields} (link : f.link = .pop) (s : State) :
    Machine.jumpTaken f s = { (popReturn s).2 with npc := (popReturn s).1, inhibit := s.inhibit || f.n } := by
  rw [Machine.jumpTaken, link]

/-- Only a call writes the stack, at the address above the pointer. -/
theorem read_jumpTaken_spc {f : JumpFields} {s : State} {a : Nat} (other : f.link = .push → a ≠ (s.spcPtr + 1).toNat) :
    Memory.read (Machine.jumpTaken f s).spc a = Memory.read s.spc a := by
  cases link : f.link with
  | none => rw [jumpTaken_of_none link]
  | push => rw [jumpTaken_of_push link]; exact Memory.read_write_other _ _ _ _ (other link)
  | pop => rw [jumpTaken_of_pop link]; exact congrArg (Memory.read · a) (popReturn_spc s)

/-- Settles O23: a jump taken, a jump not taken, and the write of instruction memory. -/
theorem frameOfJumps : Obligations.FrameOfJumps := by
  intro i s t sub next
  cases exec_effect next with
  | write v q dest => simp [jumpSub_of_destination dest] at sub
  | transfer w fields | fallThrough w fields => simp [jumpSub_of_dispatchPart fields] at sub
  | load word instr => simp [instr, jumpSub, jumpPart] at sub
  | @jump f fields =>
    refine ⟨by simp, by simp, fun noPop => ?pdl, fun a _ => by simp, fun a other => ?spc, fun n => ?inhibit,
      fun _ noReturn => ?noReturn, fun _ noLink noPop => ?spcPtr⟩
    case pdl => simp [readM_pdlPtr, readM_pdlHist, noPop]
    case spc =>
      have stack := read_jumpTaken_spc (f := f) (s := haltIf f.sub (readM (mOperand i) s).2) (a := a)
        (by simpa using other f fields)
      simpa using stack
    case inhibit => simp [Machine.jumpTaken, n f fields]
    case noReturn =>
      cases link : f.link with
      | none => simp [jumpTaken_of_none link]
      | push => simp [jumpTaken_of_push link]
      | pop => exact absurd link (noReturn f fields)
    case spcPtr => simp [jumpTaken_of_none (noLink f fields), readM_spcPtr, noPop]
  | @noJump f fields =>
    refine ⟨by simp, by simp, fun noPop => ?pdl, fun a _ => by simp, fun a _ => by simp, fun _ => by simp,
      fun noPopj _ => by simp [noPopj, popjIf], fun noPopj _ noPop => ?spcPtr⟩
    case pdl => simp [readM_pdlPtr, readM_pdlHist, noPop]
    case spcPtr => simp [noPopj, popjIf, readM_spcPtr, noPop]
  | @wrimem f word instr =>
    refine ⟨by simp, by simp, fun noPop => ?pdl, fun a other => ?imem, fun a _ => by simp, fun _ => by simp,
      fun noPopj _ => by simp [noPopj, popjIf], fun noPopj _ noPop => ?spcPtr⟩
    case pdl => simp [readM_pdlPtr, readM_pdlHist, noPop]
    case imem => simp [Memory.read_write_other _ _ _ _ (other f instr)]
    case spcPtr => simp [noPopj, popjIf, readM_spcPtr, noPop]

/-! ### Frame of the dispatches -/

/-- A return records in the LC-history ring only where the need-fetch bit is set. -/
theorem popReturn_lcHist {s : State} (fetched : s.lc.getLsbD 31 = false) : (popReturn s).2.lcHist = s.lcHist := by
  cases advance : (spcTop s).getLsbD 14 with
  | true => rw [popReturn_advance s advance, lcAdvance_lcHist, spcPop_lc, fetched]; rfl
  | false => rw [popReturn_plain s advance]; rfl

theorem popjIf_lcHist {s : State} (fetched : s.lc.getLsbD 31 = false) (flag : Bool) :
    (popjIf flag s).lcHist = s.lcHist := by
  cases flag with
  | false => rfl
  | true => exact popReturn_lcHist fetched

/-- Without LC-advance the preparation of a dispatch keeps `LC` and its ring. -/
theorem dispatchPrepare_no_advance {f : DispatchFields} (noAdvance : f.enableIsh = false) (w : Word) (s : State) :
    (dispatchPrepare f w s).lc = s.lc ∧ (dispatchPrepare f w s).lcHist = s.lcHist := by
  rw [dispatchPrepare_eq, prepared, noAdvance]
  exact ⟨rfl, rfl⟩

section Transfer

variable {w : Word} {s : State} (notBoth : ¬ (w.getLsbD 15 && w.getLsbD 16) = true)
include notBoth

theorem dispatchTransfer_lcHist (fetched : s.lc.getLsbD 31 = false) : (dispatchTransfer w s).lcHist = s.lcHist := by
  cases r : w.getLsbD 16 <;> cases p : w.getLsbD 15
  case false.false => rw [dispatchTransfer_jump r p]
  case false.true => rw [dispatchTransfer_call r p]; rfl
  case true.false => rw [dispatchTransfer_return r p, ← popReturn_eq]; exact popReturn_lcHist fetched
  case true.true => exact absurd (by rw [r, p]; rfl) notBoth

theorem read_dispatchTransfer_spc {a : Nat} (other : a ≠ (s.spcPtr + 1).toNat) :
    Memory.read (dispatchTransfer w s).spc a = Memory.read s.spc a := by
  cases r : w.getLsbD 16 <;> cases p : w.getLsbD 15
  case false.false => rw [dispatchTransfer_jump r p]
  case false.true => rw [dispatchTransfer_call r p]; exact Memory.read_write_other _ _ _ _ other
  case true.false =>
    rw [dispatchTransfer_return r p, ← popReturn_eq]
    exact congrArg (Memory.read · a) (popReturn_spc s)
  case true.true => exact absurd (by rw [r, p]; rfl) notBoth

end Transfer

theorem no_destination_no_jump_of_dispatch {i : Instr}
    (kind : (dispatchPart i).isSome = true ∨ ∃ f, i = .dispatchLoad f) : destination i = none ∧ jumpSub i = none := by
  obtain some | ⟨f, rfl⟩ := kind
  · obtain ⟨f, fields⟩ := Option.isSome_iff_exists.mp some
    exact ⟨destination_of_dispatchPart fields, jumpSub_of_dispatchPart fields⟩
  · exact ⟨rfl, rfl⟩

/-- Settles O24: a dispatch that transfers, one that falls through, and the table load. -/
theorem frameOfDispatches : Obligations.FrameOfDispatches := by
  intro i s t kind next
  obtain ⟨noDest, noSub⟩ := no_destination_no_jump_of_dispatch kind
  have notLoad : ∀ {f : DispatchFields}, dispatchPart i = some f → ¬ ∃ g, i = .dispatchLoad g := by
    rintro f fields ⟨g, rfl⟩
    cases fields
  cases exec_effect next with
  | write v q dest => cases noDest.symm.trans dest
  | jump fields | noJump fields => cases noSub.symm.trans (jumpSub_of_jumpPart fields)
  | wrimem word instr => subst instr; cases noSub
  | @transfer f w fields notBoth =>
    refine ⟨by simp, by simp, fun noPop => ?pdl, fun a _ => by simp, fun noAdvance fetched => ?lcHist,
      fun isLoad => absurd isLoad (notLoad fields), fun isLoad => absurd isLoad (notLoad fields), fun a other => ?spc⟩
    case pdl => simp [readM_pdlPtr, readM_pdlHist, noPop]
    case lcHist =>
      obtain ⟨lc, hist⟩ := dispatchPrepare_no_advance (noAdvance f fields) w (readM (mOperand i) s).2
      rw [dispatchTransfer_lcHist notBoth (by simpa [lc] using fetched), hist, readM_lcHist]
    case spc => rw [read_dispatchTransfer_spc notBoth (by simpa using other)]; simp
  | @fallThrough f w fields =>
    refine ⟨by simp, by simp, fun noPop => ?pdl, fun a _ => by simp, fun noAdvance fetched => ?lcHist,
      fun isLoad => absurd isLoad (notLoad fields), fun isLoad => absurd isLoad (notLoad fields), fun a _ => by simp⟩
    case pdl => simp [readM_pdlPtr, readM_pdlHist, noPop]
    case lcHist =>
      obtain ⟨lc, hist⟩ := dispatchPrepare_no_advance (noAdvance f fields) w (readM (mOperand i) s).2
      rw [popjIf_lcHist (by simpa [lc] using fetched), hist, readM_lcHist]
  | @load f word instr =>
    refine ⟨by simp, by simp, fun noPop => ?pdl, fun a other => ?dmem, fun _ fetched => ?lcHist, fun _ => by simp,
      fun _ noPopj => ?noPopj, fun a _ => by simp⟩
    case pdl => simp [readM_pdlPtr, readM_pdlHist, noPop]
    case dmem => simp [Memory.read_write_other _ _ _ _ (other f instr)]
    case lcHist => rw [popjIf_lcHist (by simpa using fetched), readM_lcHist]
    case noPopj =>
      simp only [noPopj, popjIf]
      simp +contextual [readM_spcPtr]

end Sys2Proof.Proofs
end

section
/-! SUPPORT. The files (spec/46_checkpoint.md). The PROM image is placed word by word. A checkpoint is a list of
segments: the scan reads back what was written and finds no end in a file that is cut short; each segment loads what
was dumped into it. -/

namespace Sys2Proof.Proofs

open Sys2Proof.Machine Sys2Proof.Reading

/-! ## The PROM image (R375) -/

theorem le16_bytes (x : BitVec 16) : le16 (x.extractLsb' 0 8) (x.extractLsb' 8 8) = x :=
  (BitVec.extractLsb'_append_extractLsb'_eq_extractLsb' (by decide)).trans BitVec.extractLsb'_eq_self

/-- The two halves of a header word (R375). -/
theorem word_halves (x : Word) : x.extractLsb' 16 16 ++ x.extractLsb' 0 16 = x :=
  (BitVec.extractLsb'_append_extractLsb'_eq_extractLsb' (by decide)).trans BitVec.extractLsb'_eq_self

/-- The three halves of an instruction word (R375). -/
theorem microWord_halves (u : MicroWord) :
    u.extractLsb' 32 16 ++ u.extractLsb' 16 16 ++ u.extractLsb' 0 16 = u := by
  rw [BitVec.extractLsb'_append_extractLsb'_eq_extractLsb' (by decide)]
  exact (BitVec.extractLsb'_append_extractLsb'_eq_extractLsb' (by decide)).trans BitVec.extractLsb'_eq_self

theorem microWordOfBytes_imageWord (unused : BitVec 16) (u : MicroWord) (rest : List Byte) :
    microWordOfBytes (imageWord unused u ++ rest) = .ok (u, rest) := by
  simp only [imageWord, half, List.cons_append, List.nil_append, microWordOfBytes, le16_bytes, microWord_halves]

/-- The PROM after words have been placed from an address on. -/
def placed : Nat → List MicroWord → Memory 48 → Memory 48
  | _, [], prom => prom
  | addr, u :: us, prom => placed (addr + 1) us (Memory.write prom (addr % 512) u)

theorem placeProm_image (us : List (BitVec 16 × MicroWord)) (addr : Nat) (prom : Memory 48) :
    placeProm us.length addr (us.flatMap fun p => imageWord p.1 p.2) prom =
      some (placed addr (us.map Prod.snd) prom) := by
  induction us generalizing addr prom with
  | nil => rfl
  | cons p us ih =>
    rw [List.flatMap_cons, List.length_cons, placeProm, microWordOfBytes_imageWord]
    exact ih (addr + 1) _

/-- An address that no placed word falls on is as it was. -/
theorem read_placed_elsewhere (us : List MicroWord) (addr : Nat) (prom : Memory 48) {a : Nat}
    (elsewhere : ∀ k < us.length, a ≠ (addr + k) % 512) : Memory.read (placed addr us prom) a = Memory.read prom a := by
  induction us generalizing addr prom with
  | nil => rfl
  | cons u us ih =>
    have first : a ≠ addr % 512 := elsewhere 0 (by simp)
    have later : ∀ k < us.length, a ≠ (addr + 1 + k) % 512 := fun k hk => by
      rw [Nat.add_assoc, Nat.add_comm 1 k]
      exact elsewhere (k + 1) (by simpa using hk)
    rw [placed, ih (addr + 1) _ later, Memory.read_write_other _ _ _ _ first]

/-- Each of the last 512 words stays where it was placed. -/
theorem read_placed (us : List MicroWord) (addr : Nat) (prom : Memory 48) {k : Nat} (inside : k < us.length)
    (last : us.length ≤ k + 512) : Memory.read (placed addr us prom) ((addr + k) % 512) = us.getD k 0#48 := by
  induction us generalizing addr prom k with
  | nil => cases inside
  | cons u us ih =>
    rw [List.length_cons] at inside last
    cases k with
    | zero =>
      have stays : ∀ j < us.length, (addr + 0) % 512 ≠ (addr + 1 + j) % 512 := fun j hj => by omega
      rw [placed, read_placed_elsewhere us _ _ stays, Nat.add_zero, Memory.read_write_same]
      rfl
    | succ k =>
      rw [placed, ← Nat.add_assoc, Nat.add_right_comm, ih (addr + 1) _ (by omega) (by omega)]
      rfl

/-- Settles O56: the header gives the start and the count, and the words are placed in turn. -/
theorem promImageLoads : Obligations.PromImageLoads := by
  intro code start us s short
  have count : (BitVec.ofNat 32 us.length).toNat = us.length := by
    rw [BitVec.toNat_ofNat, Nat.mod_eq_of_lt short]
  have loads : loadProm (headerWord code ++ headerWord start ++ headerWord (BitVec.ofNat 32 us.length)
      ++ us.flatMap fun p => imageWord p.1 p.2) s
        = some { s with prom := placed start.toNat (us.map Prod.snd) s.prom } := by
    simp only [headerWord, half, List.cons_append, List.nil_append, loadProm, me32, le16_bytes, word_halves, count,
      placeProm_image, Option.map_some]
  refine ⟨_, loads, rfl, fun k inside last => ?_, fun a elsewhere => ?_⟩
  · have word := read_placed (us.map Prod.snd) start.toNat s.prom (k := k) (by simpa using inside) (by simpa using last)
    refine word.trans ?_
    simp [List.getD_eq_getElem?_getD, inside]
  · exact read_placed_elsewhere _ _ _ (by simpa using elsewhere)

/-! ## The words of a checkpoint (R351) -/

theorem ofLe32_bytes (x : Word) :
    ofLe32 (x.extractLsb' 0 8) (x.extractLsb' 8 8) (x.extractLsb' 16 8) (x.extractLsb' 24 8) = x := by
  unfold ofLe32
  rw [BitVec.extractLsb'_append_extractLsb'_eq_extractLsb' (by decide),
    BitVec.extractLsb'_append_extractLsb'_eq_extractLsb' (by decide)]
  exact (BitVec.extractLsb'_append_extractLsb'_eq_extractLsb' (by decide)).trans BitVec.extractLsb'_eq_self

theorem length_flatMap_le32 (ws : List Word) : (ws.flatMap le32).length = 4 * ws.length := by
  induction ws with
  | nil => rfl
  | cons x ws ih =>
    have four : (le32 x).length = 4 := rfl
    rw [List.flatMap_cons, List.length_append, ih, four, List.length_cons]
    omega

theorem wordsOfBytes_flatMap_le32 (ws : List Word) : wordsOfBytes (ws.flatMap le32) = ws := by
  induction ws with
  | nil => rfl
  | cons x ws ih =>
    rw [List.flatMap_cons, le32]
    simp only [List.cons_append, List.nil_append, wordsOfBytes, ofLe32_bytes, ih]

/-! ## The scan of the segments (R367 statement 4) -/

/-- A segment that can be written: a tag of four bytes that does not end the file, and a payload whose word count fits
the file. -/
structure Writable (c : Config) (seg : List Byte × List Word) : Prop where
  tag : seg.1.length = 4
  notEof : seg.1 ≠ eofTag c
  count : seg.2.length < 2 ^ 32

/-- The segments of a file and its end. -/
def segmentsBytes (c : Config) (segs : List (List Byte × List Word)) : List Byte :=
  segs.flatMap (fun seg => segmentBytes seg.1 seg.2) ++ segmentBytes (eofTag c) []

theorem segmentsBytes_cons (c : Config) (seg : List Byte × List Word) (segs : List (List Byte × List Word)) :
    segmentsBytes c (seg :: segs) = segmentBytes seg.1 seg.2 ++ segmentsBytes c segs := by
  rw [segmentsBytes, List.flatMap_cons, List.append_assoc]
  rfl

/-- The scan of a file that begins with a tag of four bytes, a word count and bytes behind it. -/
theorem scanSegments_segment {c : Config} {tag : List Byte} (four : tag.length = 4) (notEof : tag ≠ eofTag c)
    {n : Nat} (count : n < 2 ^ 32) (fuel : Nat) (rest : List Byte) :
    scanSegments c (fuel + 1) (tag ++ le32 (BitVec.ofNat 32 n) ++ rest) =
      if rest.length < 4 * n then none
      else (scanSegments c fuel (rest.drop (4 * n))).map ((tag, wordsOfBytes (rest.take (4 * n))) :: ·) := by
  obtain ⟨t0, t1, t2, t3, rfl⟩ : ∃ t0 t1 t2 t3, tag = [t0, t1, t2, t3] := by
    match tag, four with
    | [t0, t1, t2, t3], _ => exact ⟨t0, t1, t2, t3, rfl⟩
  have value : (BitVec.ofNat 32 n).toNat = n := by rw [BitVec.toNat_ofNat, Nat.mod_eq_of_lt count]
  simp only [le32, List.cons_append, List.nil_append, scanSegments, ofLe32_bytes, value, if_neg notEof]

theorem scanSegments_eof (c : Config) (fuel : Nat) :
    scanSegments c (fuel + 1) (segmentBytes (eofTag c) []) = some [] := by
  simp [segmentBytes, eofTag, le32, scanSegments, ofLe32]

theorem scanSegments_short (c : Config) (fuel : Nat) {bytes : List Byte} (short : bytes.length < 8) :
    scanSegments c fuel bytes = none := by
  unfold scanSegments
  split
  · rfl
  · simp only [List.length_cons] at short; omega
  · rfl

theorem length_segmentBytes {tag : List Byte} (four : tag.length = 4) (ws : List Word) :
    (segmentBytes tag ws).length = 8 + 4 * ws.length := by
  simp only [segmentBytes, List.length_append, four, length_flatMap_le32, le32, List.length_cons, List.length_nil]

/-- The scan of a file gives back its segments. -/
theorem scanSegments_file {c : Config} (segs : List (List Byte × List Word)) (writable : ∀ seg ∈ segs, Writable c seg)
    (fuel : Nat) (enough : (segmentsBytes c segs).length ≤ fuel) :
    scanSegments c fuel (segmentsBytes c segs) = some segs := by
  induction segs generalizing fuel with
  | nil =>
    cases fuel with
    | zero => simp [segmentsBytes, length_segmentBytes, eofTag] at enough
    | succ fuel => exact scanSegments_eof c fuel
  | cons seg segs ih =>
    obtain ⟨four, notEof, count⟩ := writable seg (by simp)
    rw [segmentsBytes_cons] at enough ⊢
    rw [List.length_append, length_segmentBytes four] at enough
    cases fuel with
    | zero => omega
    | succ fuel =>
      have payload := length_flatMap_le32 seg.2
      rw [segmentBytes, List.append_assoc, scanSegments_segment four notEof count, if_neg (by simp [payload]),
        ← payload, List.drop_left, List.take_left, wordsOfBytes_flatMap_le32,
        ih (fun other mem => writable other (by simp [mem])) fuel (by omega)]
      rfl

/-- A file that is cut short has no end. -/
theorem scanSegments_cut {c : Config} (segs : List (List Byte × List Word)) (writable : ∀ seg ∈ segs, Writable c seg)
    (fuel n : Nat) (cut : n < (segmentsBytes c segs).length) :
    scanSegments c fuel ((segmentsBytes c segs).take n) = none := by
  induction segs generalizing fuel n with
  | nil =>
    have eight : (segmentsBytes c []).length = 8 := rfl
    exact scanSegments_short c fuel (by rw [List.length_take]; omega)
  | cons seg segs ih =>
    obtain ⟨four, notEof, count⟩ := writable seg (by simp)
    rw [segmentsBytes_cons] at cut ⊢
    rw [List.length_append, length_segmentBytes four] at cut
    by_cases short : n < 8
    · exact scanSegments_short c fuel (by rw [List.length_take]; omega)
    cases fuel with
    | zero => rfl
    | succ fuel =>
      have payload := length_flatMap_le32 seg.2
      have header : (seg.1 ++ le32 (BitVec.ofNat 32 seg.2.length)).length = 8 := by
        rw [List.length_append, four]; rfl
      rw [segmentBytes, List.append_assoc, List.take_append, header, List.take_of_length_le (by omega),
        scanSegments_segment four notEof count]
      split
      · rfl
      · rename_i long
        rw [List.length_take, List.length_append] at long
        rw [List.drop_take, ← payload, List.drop_left, ih (fun other mem => writable other (by simp [mem])) fuel _
          (by omega)]
        rfl

/-! ## The dump (R350, R353) -/

/-- What a configuration that the rules allow gives the files (R351, R353; notes/assumptions/25). -/
structure FileConfig (c : Config) : Prop where
  imemSize : c.imemSize ≤ 2 ^ 14
  savePages : c.savePages * pageWords < 2 ^ 32
  lcHistN : c.lcHistN < 2 ^ 32
  pcHistN : c.pcHistN < 2 ^ 32
  pdlHistN : c.pdlHistN < 2 ^ 32
  magic : c.ckptMagic.length = 4
  tagCount : c.ckptTags.length = 22
  tagLength : ∀ t ∈ c.ckptTags, t.length = 4
  nodup : c.ckptTags.Nodup
  notEof : eofTag c ∉ c.ckptTags

theorem fileConfig_of_configOk {c : Config} (ok : configOk c = true) : FileConfig c := by
  simp only [configOk, Bool.and_eq_true, List.any_eq_true, List.mem_range, beq_iff_eq, decide_eq_true_eq,
    List.all_eq_true, Bool.not_eq_true', List.contains_eq_mem, decide_eq_false_iff_not] at ok
  obtain ⟨⟨⟨⟨⟨⟨⟨⟨⟨⟨⟨k, small, imem⟩, -⟩, save⟩, lc⟩, pc⟩, pdl⟩, magic⟩, count⟩, lengths⟩, nodup⟩, eof⟩ := ok
  exact ⟨imem ▸ Nat.pow_le_pow_right (by decide) (by omega), save, lc, pc, pdl, magic, count, lengths, nodup, eof⟩

section Tags

variable {c : Config} (ok : FileConfig c)
include ok

theorem idxOf_lt (g : Segment) : allSegments.idxOf g < c.ckptTags.length := by
  rw [ok.tagCount]
  cases g <;> decide

theorem segmentTag_eq (g : Segment) : segmentTag c g = c.ckptTags[allSegments.idxOf g]'(idxOf_lt ok g) := by
  rw [segmentTag, List.getD_eq_getElem _ _ (idxOf_lt ok g)]

theorem segmentTag_mem (g : Segment) : segmentTag c g ∈ c.ckptTags := by
  rw [segmentTag_eq ok]
  exact List.getElem_mem _

theorem segmentTag_injective {g g' : Segment} (same : segmentTag c g = segmentTag c g') : g = g' := by
  rw [segmentTag_eq ok, segmentTag_eq ok, ok.nodup.getElem_inj_iff] at same
  have listed : ∀ g : Segment, g ∈ allSegments := fun g => by cases g <;> decide
  exact (List.idxOf_inj (listed g)).mp same

/-- The tag of a segment is known as that segment's. -/
theorem segmentOfTag_segmentTag (g : Segment) : segmentOfTag c (segmentTag c g) = some g := by
  have listed : g ∈ allSegments := by cases g <;> decide
  cases found : segmentOfTag c (segmentTag c g) with
  | none => exact absurd (beq_self_eq_true _) (List.find?_eq_none.mp found g listed)
  | some g' =>
    have tag := List.find?_some found
    rw [segmentTag_injective ok (beq_iff_eq.mp tag)]

theorem segmentWords_lt (g : Segment) : segmentWords c g < 2 ^ 32 := by
  cases g with
  | lchl => exact ok.lcHistN
  | pchl => exact ok.pcHistN
  | pdhl => exact ok.pdlHistN
  | pmem => exact ok.savePages
  | imem => have := ok.imemSize; simp only [segmentWords]; omega
  | _ => simp [segmentWords]

end Tags

theorem length_flatMap_microWordPair (us : List MicroWord) : (us.flatMap microWordPair).length = 2 * us.length := by
  induction us with
  | nil => rfl
  | cons u us ih =>
    rw [List.flatMap_cons, List.length_append, ih, List.length_cons]
    exact (Nat.add_comm 2 _)

theorem length_words {w : Nat} (n : Nat) (m : Memory w) : (Memory.words n m).length = n := by
  rw [Memory.words, List.length_map, List.length_range]

theorem length_segmentPayload (g : Segment) (s : State) :
    (segmentPayload g s).length = segmentWords s.cfg g := by
  cases g with
  | imem => rw [segmentPayload, length_flatMap_microWordPair, length_words]; rfl
  | lchl | pchl | pdhl => simp [segmentPayload, segmentWords, Ring.oldestFirst]
  | _ => simp [segmentPayload, segmentWords, length_words]

/-- The segments that `Dump` writes. -/
def dumped (s : State) : List (List Byte × List Word) :=
  allSegments.map fun g => (segmentTag s.cfg g, segmentPayload g s)

theorem dump_eq (s : State) : dump s = s.cfg.ckptMagic ++ le32 s.cfg.ckptVersion ++ segmentsBytes s.cfg (dumped s) := by
  rw [dump, segmentsBytes, dumped, List.flatMap_map, List.append_assoc]

theorem dumped_writable {s : State} (ok : FileConfig s.cfg) : ∀ seg ∈ dumped s, Writable s.cfg seg := by
  intro seg mem
  obtain ⟨g, -, rfl⟩ := List.mem_map.mp mem
  have tag := segmentTag_mem ok g
  exact ⟨ok.tagLength _ tag, fun eof => ok.notEof (eof ▸ tag),
    (length_segmentPayload g s).trans_lt (segmentWords_lt ok g)⟩

theorem length_header {c : Config} (ok : FileConfig c) : (c.ckptMagic ++ le32 c.ckptVersion).length = 8 := by
  rw [List.length_append, ok.magic]
  rfl

/-! ### A dump that is cut short -/

theorem soundSegments_of_scan_none {c : Config} {bytes : List Byte}
    (noEnd : scanSegments c bytes.length (bytes.drop 8) = none) : soundSegments c bytes = none := by
  unfold soundSegments
  rw [noEnd]
  exact ite_self _

theorem restore_unsound {s : State} {bytes : List Byte} (unsound : soundSegments s.cfg bytes = none) :
    restore (some bytes) s = s := by
  obtain unchanged | ⟨-, bytes', segs, file, sound, -⟩ := restore_cases (some bytes) s
  · exact unchanged
  · cases file
    cases unsound.symm.trans sound

/-- Settles O54: behind the header the cut file has no end, or there is nothing. -/
theorem truncatedCheckpointRestoresNothing : Obligations.TruncatedCheckpointRestoresNothing := by
  intro s t n ok cfg cut
  have file := fileConfig_of_configOk ok
  have header := length_header file
  apply restore_unsound
  apply soundSegments_of_scan_none
  rw [cfg]
  rw [dump_eq] at cut ⊢
  rw [List.length_append, header] at cut
  by_cases short : n < 8
  · exact scanSegments_short _ _ (by rw [List.length_drop, List.length_take]; omega)
  · rw [List.drop_take, ← header, List.drop_left]
    exact scanSegments_cut _ (dumped_writable file) _ _ (by omega)

/-! ### A dump that is restored -/

theorem soundSegments_dump {s : State} (ok : FileConfig s.cfg) : soundSegments s.cfg (dump s) = some (dumped s) := by
  have header := length_header ok
  have front : (dump s).take 8 = s.cfg.ckptMagic ++ le32 s.cfg.ckptVersion := by
    rw [dump_eq, ← header, List.take_left]
  have back : (dump s).drop 8 = segmentsBytes s.cfg (dumped s) := by
    rw [dump_eq, ← header, List.drop_left]
  have enough : (segmentsBytes s.cfg (dumped s)).length ≤ (dump s).length := by
    rw [← back, List.length_drop]
    omega
  have sound : (dumped s).all (segmentSound s.cfg) = true := by
    rw [List.all_eq_true]
    intro seg mem
    obtain ⟨g, -, rfl⟩ := List.mem_map.mp mem
    simp only [segmentSound, segmentOfTag_segmentTag ok, length_segmentPayload, beq_self_eq_true]
  have hasPmem : (dumped s).any (fun seg => segmentOfTag s.cfg seg.1 == some .pmem) = true := by
    rw [List.any_eq_true]
    refine ⟨_, List.mem_map.mpr ⟨.pmem, by decide, rfl⟩, ?_⟩
    simp only [segmentOfTag_segmentTag ok, beq_self_eq_true]
  rw [soundSegments, if_pos front, back, scanSegments_file _ (dumped_writable ok) _ enough]
  simp only [sound, hasPmem, Bool.and_self, if_true]

/-- Loading the dumped segments is loading each payload in turn. -/
theorem foldl_loadTagged_dumped {s : State} (ok : FileConfig s.cfg) (gs : List Segment) {t : State}
    (cfg : t.cfg = s.cfg) :
    (gs.map fun g => (segmentTag s.cfg g, segmentPayload g s)).foldl loadTagged t =
      gs.foldl (fun u g => loadSegment g (segmentPayload g s) u) t := by
  induction gs generalizing t with
  | nil => rfl
  | cons g gs ih =>
    have load : loadTagged t (segmentTag s.cfg g, segmentPayload g s) = loadSegment g (segmentPayload g s) t := by
      simp only [loadTagged, cfg, segmentOfTag_segmentTag ok]
    rw [List.map_cons, List.foldl_cons, List.foldl_cons, load]
    exact ih ((loadSegment_cfg ..).trans cfg)

theorem restore_dump {s t : State} (ok : FileConfig s.cfg) (cfg : t.cfg = s.cfg) (fresh : t.restored = false) :
    restore (some (dump s)) t =
      { allSegments.foldl (fun u g => loadSegment g (segmentPayload g s) u) t with restored := true } := by
  rw [restore, fresh, cfg]
  simp only [soundSegments_dump ok, Bool.false_eq_true, if_false]
  rw [dumped, foldl_loadTagged_dumped ok _ cfg]

/-! ### Each segment loads what was dumped into it -/

theorem getD_words {w : Nat} (n : Nat) (m : Memory w) (a : Nat) :
    (Memory.words n m).getD a 0#w = if a < n then Memory.read m a else 0#w := by
  rw [Memory.words, List.getD_eq_getElem?_getD, List.getElem?_map]
  split
  · rename_i inside
    rw [List.getElem?_range inside]
    rfl
  · rename_i outside
    rw [List.getElem?_eq_none (by simpa using outside)]
    rfl

/-- The first words of a memory are its entries below them. -/
theorem ofWords_words_eq_filter {w : Nat} (n : Nat) {m : Memory w} (wf : Memory.wf m = true) :
    Memory.ofWords 0 (Memory.words n m) = m.filter (fun c => c.1 < n) := by
  obtain ⟨rising, nonzero⟩ := (Memory.wf_iff m).mp wf
  have wfWords : Memory.wf (Memory.ofWords 0 (Memory.words n m)) = true :=
    (Bool.and_eq_true_iff.mp (Memory.good_ofWords n _ (length_words n m).le)).1
  have wfFilter : Memory.wf (m.filter (fun c => c.1 < n)) = true :=
    (Memory.wf_iff _).mpr ⟨Memory.rising_filter m _ rising, fun c mem => nonzero c (List.mem_filter.mp mem).1⟩
  refine Memory.ext_read _ _ wfWords wfFilter fun a => ?_
  have words := Memory.read_ofWords 0 (Memory.words n m) a
  have filtered := Memory.read_filter m (fun k => decide (k < n)) a
  rw [Nat.zero_add, getD_words] at words
  rw [words, filtered]
  simp only [decide_eq_true_eq]

theorem ofWords_words {w : Nat} {n : Nat} {m : Memory w} (good : Memory.good n m = true) :
    Memory.ofWords 0 (Memory.words n m) = m := by
  obtain ⟨wf, below⟩ := Bool.and_eq_true_iff.mp good
  rw [ofWords_words_eq_filter n wf, List.filter_eq_self]
  exact List.all_eq_true.mp below

theorem microWordsOfWords_pairs (us : List MicroWord) : microWordsOfWords (us.flatMap microWordPair) = us := by
  induction us with
  | nil => rfl
  | cons u us ih =>
    have word : ((u.extractLsb' 32 16).setWidth 32).setWidth 16 ++ u.setWidth 32 = u := by
      rw [BitVec.setWidth_setWidth_of_le _ (by decide), BitVec.setWidth_eq, BitVec.setWidth_eq_extractLsb' (by decide)]
      exact (BitVec.extractLsb'_append_extractLsb'_eq_extractLsb' (by decide)).trans BitVec.extractLsb'_eq_self
    rw [List.flatMap_cons, microWordPair]
    simp only [List.cons_append, List.nil_append, microWordsOfWords, word, ih]

/-- A register that is narrower than a word comes back from its word. -/
theorem setWidth_roundTrip {w : Nat} (x : BitVec w) (narrow : w ≤ 32) : (x.setWidth 32).setWidth w = x := by
  rw [BitVec.setWidth_setWidth_of_le _ narrow, BitVec.setWidth_eq]

/-- A location counter whose bits 30:26 are 0 comes back from its flag and its counter. -/
theorem lcWord_roundTrip {x : Word} (middle : x.extractLsb' 26 5 = 0#5) :
    lcWord (x.getLsbD 31) (x.setWidth 26) = x := by
  have flag : BitVec.ofBool (x.getLsbD 31) = x.extractLsb' 31 1 := by
    apply BitVec.eq_of_getLsbD_eq
    intro i hi
    interval_cases i
    simp
  rw [lcWord, flag, ← middle, BitVec.setWidth_eq_extractLsb' (by decide),
    BitVec.extractLsb'_append_extractLsb'_eq_extractLsb' (by decide)]
  exact (BitVec.extractLsb'_append_extractLsb'_eq_extractLsb' (by decide)).trans BitVec.extractLsb'_eq_self

/-- An OA register as its segment stores it: the flag in bit 31, the value in the low bits (R356). -/
theorem oa_roundTrip {w k : Nat} (valid : Bool) (x : BitVec w) (wide : 1 + k + w = 32) :
    ((BitVec.ofBool valid ++ 0#k ++ x).setWidth w = x)
      ∧ (BitVec.ofBool valid ++ 0#k ++ x).getLsbD 31 = valid := by
  have aboveValue : ¬ 31 < w := by omega
  have flagBit : 31 - w = k := by omega
  constructor
  · rw [BitVec.setWidth_eq_extractLsb' (by omega), BitVec.extractLsb'_append_eq_of_add_le (by omega)]
    exact BitVec.extractLsb'_eq_self
  · rw [BitVec.getLsbD_append, if_neg aboveValue, flagBit, BitVec.getLsbD_append, if_neg (Nat.lt_irrefl k),
      Nat.sub_self, BitVec.getLsbD_ofBool, decide_eq_true rfl, Bool.true_and]

/-- The machine after a payload has been loaded into every segment, each truncated to its register (R369). -/
theorem foldl_loadSegment_payloads (payload : Segment → List Word) (t : State) :
    allSegments.foldl (fun u g => loadSegment g (payload g) u) t =
      { t with
        pdlIdx := (firstWord (payload .pdli)).setWidth 10
        pdlPtr := (firstWord (payload .pdlp)).setWidth 10
        lc := lcWord ((firstWord (payload .lcnt)).getLsbD 31) ((firstWord (payload .lcnt)).setWidth 26)
        npc := (firstWord (payload .upcr)).setWidth 14
        spcPtr := (firstWord (payload .uspr)).setWidth 5
        md := firstWord (payload .mdrg), vma := firstWord (payload .vmar), opc := firstWord (payload .opcr)
        oaLo := (firstWord (payload .oalo)).setWidth 26, oaLoV := (firstWord (payload .oalo)).getLsbD 31
        oaHi := (firstWord (payload .oahi)).setWidth 22, oaHiV := (firstWord (payload .oahi)).getLsbD 31
        imem := Memory.ofWords 0 (microWordsOfWords (payload .imem))
        dmem := Memory.ofWords 0 (payload .dmem), spc := Memory.ofWords 0 (payload .ustk)
        l1 := Memory.ofWords 0 (payload .l1mp), l2 := Memory.ofWords 0 (payload .l2mp)
        pdl := Memory.ofWords 0 (payload .pdlm), amem := Memory.ofWords 0 (payload .amem)
        mmem := Memory.ofWords 0 (payload .mmem)
        pmem := Memory.ofWords 0 (payload .pmem) ++ t.pmem.filter (fun c => t.cfg.savePages * pageWords ≤ c.1)
        pages := pagesAfterRestore t.cfg.savePages t.pages
        lcHist := Ring.ofWords (payload .lchl), pcHist := Ring.ofWords (payload .pchl)
        pdlHist := Ring.ofWords (payload .pdhl) } := by
  simp only [allSegments, List.foldl_cons, List.foldl_nil, loadSegment]

/-- The machine after every segment of a dump has been loaded. -/
theorem foldl_loadSegment {s : State} (inv : Inv s) {t : State} (cfg : t.cfg = s.cfg) (pmem : t.pmem = [])
    (pages : t.pages = []) :
    allSegments.foldl (fun u g => loadSegment g (segmentPayload g s) u) t =
      { t with
        pdlIdx := s.pdlIdx, pdlPtr := s.pdlPtr, lc := s.lc, npc := s.npc, spcPtr := s.spcPtr, md := s.md
        vma := s.vma, opc := s.opc, oaLo := s.oaLo, oaLoV := s.oaLoV, oaHi := s.oaHi, oaHiV := s.oaHiV
        imem := s.imem, dmem := s.dmem, spc := s.spc, l1 := s.l1, l2 := s.l2, pdl := s.pdl, amem := s.amem
        mmem := s.mmem
        pmem := s.pmem.filter (fun c => c.1 < 256 * s.cfg.savePages)
        pages := Memory.ofWords 0 (List.replicate s.cfg.savePages 1#1)
        lcHist := Ring.ofWords (Ring.oldestFirst s.cfg.lcHistN s.lcHist)
        pcHist := Ring.ofWords (Ring.oldestFirst s.cfg.pcHistN s.pcHist)
        pdlHist := Ring.ofWords (Ring.oldestFirst s.cfg.pdlHistN s.pdlHist) } := by
  have oaLo := oa_roundTrip (k := 5) s.oaLoV s.oaLo rfl
  have oaHi := oa_roundTrip (k := 9) s.oaHiV s.oaHi rfl
  have memories : Memory.ofWords 0 (Memory.words (s.cfg.savePages * pageWords) s.pmem)
      = s.pmem.filter (fun c => c.1 < 256 * s.cfg.savePages) := by
    rw [ofWords_words_eq_filter _ (Bool.and_eq_true_iff.mp inv.pmem).1, Nat.mul_comm]
    rfl
  rw [foldl_loadSegment_payloads (fun g => segmentPayload g s)]
  simp only [segmentPayload, firstWord, List.headD_cons,
    setWidth_roundTrip _ (show 10 ≤ 32 by decide), setWidth_roundTrip _ (show 14 ≤ 32 by decide),
    setWidth_roundTrip _ (show 5 ≤ 32 by decide), lcWord_roundTrip inv.lc, oaLo, oaHi, microWordsOfWords_pairs,
    ofWords_words inv.imem, ofWords_words inv.dmem, ofWords_words inv.spc, ofWords_words inv.l1, ofWords_words inv.l2,
    ofWords_words inv.pdl, ofWords_words inv.amem, ofWords_words inv.mmem, memories, cfg, pmem, pages,
    pagesAfterRestore, List.filter_nil, List.append_nil]

theorem ringRestored_ofWords (n : Nat) (r : Ring) : ringRestored n r (Ring.ofWords (Ring.oldestFirst n r)) := by
  refine ⟨rfl, fun i inside => ?_⟩
  have word := Memory.read_ofWords 0 (Ring.oldestFirst n r) i
  rw [Nat.zero_add] at word
  refine word.trans ?_
  simp [Ring.oldestFirst, List.getD_eq_getElem?_getD, inside]

/-- Settles O53: the scan finds every segment, and each loads what was dumped into it. -/
theorem checkpointRoundTrip : Obligations.CheckpointRoundTrip := by
  intro s prom inv r t
  have loaded : t = { allSegments.foldl (fun u g => loadSegment g (segmentPayload g s) u) r with restored := true } :=
    restore_dump (fileConfig_of_configOk inv.cfg) rfl rfl
  have segments := foldl_loadSegment inv (t := r) rfl rfl rfl
  rw [loaded, segments]
  exact ⟨rfl, ringRestored_ofWords _ _, ringRestored_ofWords _ _, ringRestored_ofWords _ _⟩

end Sys2Proof.Proofs
end
